-- ==== Sys2Proof/Word.lean ====
section
/-! DEFINITION. The words of the eChip 1-Wire engine (spec/00_scope.md R7): bytes, the 16-bit host and chip
addresses, the 32-bit command words and registers, and the 8-byte ROM id. -/

namespace Sys2Proof

/-- A byte: 8 bits (R7). -/
abbrev Byte := BitVec 8

/-- A 16-bit quantity: a host address (R40), a chip address (R49), the CRC-16 register (R16). -/
abbrev Half := BitVec 16

/-- A 32-bit quantity: a command word (R70), a host register (R41). -/
abbrev Word := BitVec 32

/-- A ROM id: 8 bytes held little-endian, byte 0 (the family code) in bits 7:0, as R46 shows them to the host. -/
abbrev RomId := BitVec 64

end Sys2Proof
end

