-- ==== Sys2Proof/Syntax.lean ====
section
/-! DEFINITION. The 22 commands of the engine, one constructor per row of spec/opcode_table.json
(spec/30_encoding.md R72, R73). -/

namespace Sys2Proof

/-- One command word, decoded. Operands are the raw fields of R72: a flag is a `Bool`, a byte count, page index,
offset byte or data byte is a `Byte`, the ROM selector is its two bits. Every field value decodes; which values
are in range is `WellFormed`. -/
inductive Instr where
  /-- CLAIM, format Z, OPC 0x01 (R91). -/
  | claim
  /-- CLOSE, format Z, OPC 0x02 (R92). -/
  | close
  /-- SRCH_START, format Z, OPC 0x03 (R93). -/
  | srchStart
  /-- OW_RESET, format Z, OPC 0x10 (R104). -/
  | owReset
  /-- OW_SPEED f, format F, OPC 0x11; f is the overdrive flag (R105). -/
  | owSpeed (f : Bool)
  /-- OW_WBIT f, format F, OPC 0x12; f is the bit to write (R106). -/
  | owWbit (f : Bool)
  /-- OW_RBIT, format Z, OPC 0x13 (R107). -/
  | owRbit
  /-- OW_WRITE n, c, format N, OPC 0x14; n bytes, c the wire-clear flag (R108). -/
  | owWrite (n : Byte) (c : Bool)
  /-- OW_READ n, format N with bit 0 fixed 0, OPC 0x15 (R109). -/
  | owRead (n : Byte)
  /-- OW_ROM s, d, format R, OPC 0x16; s selects match, search or skip, d is the overdrive flag (R110). -/
  | owRom (s : BitVec 2) (d : Bool)
  /-- SRCH_FIRST, format Z, OPC 0x20 (R125). -/
  | srchFirst
  /-- SRCH_NEXT, format Z, OPC 0x21 (R126). -/
  | srchNext
  /-- SRCH_ENUM, format Z, OPC 0x22 (R128). -/
  | srchEnum
  /-- PG_WRITE p, d, format P, OPC 0x30; page index p, overdrive flag d (R142). -/
  | pgWrite (p : Byte) (d : Bool)
  /-- RG_WRITE h, l, n, format G, OPC 0x31; chip address h*256 + l, n bytes (R143). -/
  | rgWrite (h l n : Byte)
  /-- MEM_READALL f, format F, OPC 0x38; f is the overdrive flag (R151). -/
  | memReadall (f : Bool)
  /-- MEM_WRITEALL f, format F, OPC 0x39; f is the overdrive flag (R152). -/
  | memWriteall (f : Bool)
  /-- MEM_WRITEDIFF f, format F, OPC 0x3A; f is the overdrive flag (R153). -/
  | memWritediff (f : Bool)
  /-- CRC16_CLR, format Z, OPC 0x40 (R161). -/
  | crc16Clr
  /-- CRC16_BYTE v, format I, OPC 0x41; v the data byte (R162). -/
  | crc16Byte (v : Byte)
  /-- CRC16_CHK p, format P with bit 0 fixed 0, OPC 0x42; page index p (R163). -/
  | crc16Chk (p : Byte)
  /-- CRC16_GEN p, format P with bit 0 fixed 0, OPC 0x43; page index p (R164). -/
  | crc16Gen (p : Byte)
  deriving DecidableEq, Repr

end Sys2Proof
end

