-- ==== Sys2Proof/WellFormed.lean ====
section
/-! DEFINITION. Which operand values are in range whatever the parameters are (spec/30_encoding.md R72, R74).
An ill-formed command still decodes and still runs: it completes with `BAD_OPERAND`
(Machine/Operands.lean, `operandInRange`). -/

namespace Sys2Proof

/-- The operand ranges of R72: `n` of format N is 1 to 255, `s` is 0 to 2, `n` of format G is 1 to 32; every other
operand value is legal. -/
def Instr.wf : Instr → Bool
  | .owWrite n _ => n != 0
  | .owRead n => n != 0
  | .owRom s _ => s != 3
  | .rgWrite _ _ n => n != 0 && n.toNat ≤ 32
  | .claim | .close | .srchStart | .owReset | .owSpeed _ | .owWbit _ | .owRbit => true
  | .srchFirst | .srchNext | .srchEnum | .pgWrite _ _ => true
  | .memReadall _ | .memWriteall _ | .memWritediff _ => true
  | .crc16Clr | .crc16Byte _ | .crc16Chk _ | .crc16Gen _ => true

/-- A well-formed command, as a proposition. -/
abbrev WellFormed (i : Instr) : Prop := i.wf = true

end Sys2Proof
end

