-- ==== Sys2Proof/Decode.lean ====
section
/-! DEFINITION. Command words (spec/30_encoding.md R70 to R76): the decoder, total on all 32-bit words, the
encoder, and the opcode table's rows. -/

namespace Sys2Proof

/-- Field OPC of a command word: bits 31:24 (R70). -/
def opcField (w : Word) : Byte := w.extractLsb' 24 8

/-- Field A: bits 23:16 (R70). -/
def fieldA (w : Word) : Byte := w.extractLsb' 16 8

/-- Field B: bits 15:8 (R70). -/
def fieldB (w : Word) : Byte := w.extractLsb' 8 8

/-- Field C: bits 7:0 (R70). -/
def fieldC (w : Word) : Byte := w.extractLsb' 0 8

/-- A word from its four fields, OPC in front (R70). -/
def ofFields (opc a b c : Byte) : Word := opc ++ a ++ b ++ c

/-- The flag in bit 0 of a field whose bits 7:1 are fixed 0; none when one of those is 1 (R71). -/
def flagOf? (c : Byte) : Option Bool := if c = 0#8 then some false else if c = 1#8 then some true else none

/-- A flag as a field: bits 7:1 zero (R71). -/
def flagByte (f : Bool) : Byte := if f then 1#8 else 0#8

/-- The selector `ss` of format R: bits 1:0 of B, whose bits 7:2 are fixed 0 (R71). -/
def selOf? (b : Byte) : Option (BitVec 2) :=
  if b.extractLsb' 2 6 = 0#6 then some (b.extractLsb' 0 2) else none

/-- Format Z: no operand; A, B and C are zero (R71). -/
def formatZ (i : Instr) (a b c : Byte) : Option Instr :=
  if a = 0#8 ∧ b = 0#8 ∧ c = 0#8 then some i else none

/-- Format F: a flag in C[0] (R71). -/
def formatF (i : Bool → Instr) (a b c : Byte) : Option Instr :=
  if a = 0#8 ∧ b = 0#8 then (flagOf? c).map i else none

/-- Format N: a count in A, a flag in C[0] (R71). -/
def formatN (i : Byte → Bool → Instr) (a b c : Byte) : Option Instr :=
  if b = 0#8 then (flagOf? c).map (i a) else none

/-- Formats N and P with bit 0 fixed 0 (R73): a byte in A only. -/
def formatA (i : Byte → Instr) (a b c : Byte) : Option Instr :=
  if b = 0#8 ∧ c = 0#8 then some (i a) else none

/-- Format R: the selector in B[1:0], a flag in C[0] (R71). -/
def formatR (i : BitVec 2 → Bool → Instr) (a b c : Byte) : Option Instr :=
  if a = 0#8 then (selOf? b).bind fun s => (flagOf? c).map (i s) else none

/-- Format P: a page index in A, a flag in C[0] (R71). -/
def formatP (i : Byte → Bool → Instr) (a b c : Byte) : Option Instr :=
  if b = 0#8 then (flagOf? c).map (i a) else none

/-- Format G: three operand bytes (R71). -/
def formatG (i : Byte → Byte → Byte → Instr) (a b c : Byte) : Option Instr := some (i a b c)

/-- Format I: a data byte in C (R71). -/
def formatI (i : Byte → Instr) (a b c : Byte) : Option Instr :=
  if a = 0#8 ∧ b = 0#8 then some (i c) else none

/-- The opcode map of R73 over the four fields. -/
def decodeFields (opc a b c : Byte) : Option Instr :=
  if opc = 0x01#8 then formatZ .claim a b c
  else if opc = 0x02#8 then formatZ .close a b c
  else if opc = 0x03#8 then formatZ .srchStart a b c
  else if opc = 0x10#8 then formatZ .owReset a b c
  else if opc = 0x11#8 then formatF .owSpeed a b c
  else if opc = 0x12#8 then formatF .owWbit a b c
  else if opc = 0x13#8 then formatZ .owRbit a b c
  else if opc = 0x14#8 then formatN .owWrite a b c
  else if opc = 0x15#8 then formatA .owRead a b c
  else if opc = 0x16#8 then formatR .owRom a b c
  else if opc = 0x20#8 then formatZ .srchFirst a b c
  else if opc = 0x21#8 then formatZ .srchNext a b c
  else if opc = 0x22#8 then formatZ .srchEnum a b c
  else if opc = 0x30#8 then formatP .pgWrite a b c
  else if opc = 0x31#8 then formatG .rgWrite a b c
  else if opc = 0x38#8 then formatF .memReadall a b c
  else if opc = 0x39#8 then formatF .memWriteall a b c
  else if opc = 0x3A#8 then formatF .memWritediff a b c
  else if opc = 0x40#8 then formatZ .crc16Clr a b c
  else if opc = 0x41#8 then formatI .crc16Byte a b c
  else if opc = 0x42#8 then formatA .crc16Chk a b c
  else if opc = 0x43#8 then formatA .crc16Gen a b c
  else none

/-- The decoder: total; `none` is R74's "illegal". -/
def decode (w : Word) : Option Instr := decodeFields (opcField w) (fieldA w) (fieldB w) (fieldC w)

/-- The OPC value of each command (R73). -/
def Instr.opc : Instr → Byte
  | .claim => 0x01#8
  | .close => 0x02#8
  | .srchStart => 0x03#8
  | .owReset => 0x10#8
  | .owSpeed _ => 0x11#8
  | .owWbit _ => 0x12#8
  | .owRbit => 0x13#8
  | .owWrite _ _ => 0x14#8
  | .owRead _ => 0x15#8
  | .owRom _ _ => 0x16#8
  | .srchFirst => 0x20#8
  | .srchNext => 0x21#8
  | .srchEnum => 0x22#8
  | .pgWrite _ _ => 0x30#8
  | .rgWrite _ _ _ => 0x31#8
  | .memReadall _ => 0x38#8
  | .memWriteall _ => 0x39#8
  | .memWritediff _ => 0x3A#8
  | .crc16Clr => 0x40#8
  | .crc16Byte _ => 0x41#8
  | .crc16Chk _ => 0x42#8
  | .crc16Gen _ => 0x43#8

/-- The command word of a command (R71, R73). -/
def encode (i : Instr) : Word :=
  match i with
  | .claim | .close | .srchStart | .owReset | .owRbit => ofFields i.opc 0 0 0
  | .srchFirst | .srchNext | .srchEnum | .crc16Clr => ofFields i.opc 0 0 0
  | .owSpeed f | .owWbit f | .memReadall f | .memWriteall f | .memWritediff f => ofFields i.opc 0 0 (flagByte f)
  | .owWrite n c => ofFields i.opc n 0 (flagByte c)
  | .owRead n => ofFields i.opc n 0 0
  | .owRom s d => ofFields i.opc 0 (s.setWidth 8) (flagByte d)
  | .pgWrite p d => ofFields i.opc p 0 (flagByte d)
  | .rgWrite h l n => ofFields i.opc h l n
  | .crc16Byte v => ofFields i.opc 0 0 v
  | .crc16Chk p | .crc16Gen p => ofFields i.opc p 0 0

/-- One row of spec/opcode_table.json: a word `w` is the row's command iff `w and mask = pattern` (R75). -/
structure Row where
  /-- The row's "match". -/
  pattern : Word
  /-- The row's "mask". -/
  mask : Word
  deriving DecidableEq, Repr

/-- R75: `(w and r.mask) = r.match`. -/
def Row.matches (r : Row) (w : Word) : Bool := w &&& r.mask == r.pattern

/-- The row of each command in spec/opcode_table.json. -/
def Instr.row : Instr → Row
  | .claim => ⟨0x01000000, 0xFFFFFFFF⟩
  | .close => ⟨0x02000000, 0xFFFFFFFF⟩
  | .srchStart => ⟨0x03000000, 0xFFFFFFFF⟩
  | .owReset => ⟨0x10000000, 0xFFFFFFFF⟩
  | .owSpeed _ => ⟨0x11000000, 0xFFFFFFFE⟩
  | .owWbit _ => ⟨0x12000000, 0xFFFFFFFE⟩
  | .owRbit => ⟨0x13000000, 0xFFFFFFFF⟩
  | .owWrite _ _ => ⟨0x14000000, 0xFF00FFFE⟩
  | .owRead _ => ⟨0x15000000, 0xFF00FFFF⟩
  | .owRom _ _ => ⟨0x16000000, 0xFFFFFCFE⟩
  | .srchFirst => ⟨0x20000000, 0xFFFFFFFF⟩
  | .srchNext => ⟨0x21000000, 0xFFFFFFFF⟩
  | .srchEnum => ⟨0x22000000, 0xFFFFFFFF⟩
  | .pgWrite _ _ => ⟨0x30000000, 0xFF00FFFE⟩
  | .rgWrite _ _ _ => ⟨0x31000000, 0xFF000000⟩
  | .memReadall _ => ⟨0x38000000, 0xFFFFFFFE⟩
  | .memWriteall _ => ⟨0x39000000, 0xFFFFFFFE⟩
  | .memWritediff _ => ⟨0x3A000000, 0xFFFFFFFE⟩
  | .crc16Clr => ⟨0x40000000, 0xFFFFFFFF⟩
  | .crc16Byte _ => ⟨0x41000000, 0xFFFFFF00⟩
  | .crc16Chk _ => ⟨0x42000000, 0xFF00FFFF⟩
  | .crc16Gen _ => ⟨0x43000000, 0xFF00FFFF⟩

/-- The 22 rows of spec/opcode_table.json, in its order. -/
def opcodeRows : List Row :=
  [⟨0x01000000, 0xFFFFFFFF⟩, ⟨0x02000000, 0xFFFFFFFF⟩, ⟨0x03000000, 0xFFFFFFFF⟩] ++
  [⟨0x10000000, 0xFFFFFFFF⟩, ⟨0x11000000, 0xFFFFFFFE⟩, ⟨0x12000000, 0xFFFFFFFE⟩, ⟨0x13000000, 0xFFFFFFFF⟩] ++
  [⟨0x14000000, 0xFF00FFFE⟩, ⟨0x15000000, 0xFF00FFFF⟩, ⟨0x16000000, 0xFFFFFCFE⟩] ++
  [⟨0x20000000, 0xFFFFFFFF⟩, ⟨0x21000000, 0xFFFFFFFF⟩, ⟨0x22000000, 0xFFFFFFFF⟩] ++
  [⟨0x30000000, 0xFF00FFFE⟩, ⟨0x31000000, 0xFF000000⟩] ++
  [⟨0x38000000, 0xFFFFFFFE⟩, ⟨0x39000000, 0xFFFFFFFE⟩, ⟨0x3A000000, 0xFFFFFFFE⟩] ++
  [⟨0x40000000, 0xFFFFFFFF⟩, ⟨0x41000000, 0xFFFFFF00⟩, ⟨0x42000000, 0xFF00FFFF⟩, ⟨0x43000000, 0xFF00FFFF⟩]

/-- The instruction the decoder reads from the table's numbering: every command is one 32-bit word (R70, R76), so
the word is `w`'s low `nbits` bits with zeros above. -/
def decodeTableWord (nbits w : Nat) : Option Instr := decode (BitVec.ofNat 32 (w % 2 ^ nbits))

end Sys2Proof
end

