-- ==== Sys2Proof/Config.lean ====
section
/-! DEFINITION. What an implementation fixes (spec/00_scope.md R5, R6). R5's constants have their value here;
R6's parameters are the fields of `Params`, which State carries and no step writes. The parameters the spec leaves
OPEN are opaque constants: no proof can see a value of one. -/

namespace Sys2Proof

/-- PAGE_BYTES (R5). -/
abbrev Config.pageBytes : Nat := 32

/-- NUM_PAGES (R5). -/
abbrev Config.numPages : Nat := 256

/-- SENTINEL: the byte an empty page is full of (R5, R160). -/
abbrev Config.sentinel : Byte := 0x55#8

/-- CMD_SEARCH: the bus-wide search command (R5, R78). -/
abbrev Config.cmdSearch : Byte := 0xF0#8

/-- CRC16_POLY, reflected (R5). -/
abbrev Config.crc16Poly : Half := 0xA001#16

/-- CRC16_RESIDUE (R5). -/
abbrev Config.crc16Residue : Half := 0xB001#16

/-- CRC16_XOROUT (R5). -/
abbrev Config.crc16Xorout : Half := 0xFFFF#16

/-- CRC_DATA_BYTES (R5). -/
abbrev Config.crcDataBytes : Nat := 30

/-- The numbers of one kind of control transfer (R6 LINK_CODES, R52, R53). -/
structure ControlCode where
  /-- requestType -/
  requestType : Nat
  /-- recipient -/
  recipient : Nat
  /-- request -/
  request : Nat
  /-- value -/
  value : Nat
  /-- index -/
  index : Nat
  deriving DecidableEq, Repr, Inhabited

/-- LINK_CODES (R6, R52, R58): the numbers the transport needs to carry out a link operation. No rule depends on
them. -/
structure LinkCodes where
  /-- The configuration `Claim` selects (R58). -/
  configuration : Nat
  /-- The alternate interface `Claim` selects (R58). -/
  alternate : Nat
  /-- `Ctl(RESET)` -/
  reset : ControlCode
  /-- `Ctl(SPEED s)` -/
  speed : ControlCode
  /-- `Ctl(WBIT b)` -/
  wbit : ControlCode
  /-- `Ctl(RBIT)` -/
  rbit : ControlCode
  /-- `Ctl(COUNT n)` -/
  count : ControlCode
  /-- `Ctl(ROM x)` -/
  rom : ControlCode
  /-- The bulk-out endpoint, of `Out`. -/
  bulkOut : Nat
  /-- The bulk-in endpoint, of `In`. -/
  bulkIn : Nat
  /-- The interrupt endpoint, of `Stat`. -/
  interrupt : Nat
  deriving DecidableEq, Repr, Inhabited

/-- The parameters of R6. A statement about every state is a statement about every value of them. -/
structure Params where
  /-- RETRY_ATTEMPTS: total attempts of a retried command, 1 to 15. -/
  retryAttempts : Nat
  /-- HR_ATTEMPTS: attempts of one bounded hard reset, at least 1. -/
  hrAttempts : Nat
  /-- POLL_LIMIT: status polls before BUS_BUSY, at least 1. -/
  pollLimit : Nat
  /-- WR_CHUNK: largest payload slice of one byte-write, 1 to 32. -/
  wrChunk : Nat
  /-- RD_CHUNK: largest request of one bulk read in an assembling loop, 1 to 32. -/
  rdChunk : Nat
  /-- MAXDEV: capacity of the detect table, 1 to 32. -/
  maxDev : Nat
  /-- SP_PREAMBLE: bytes discarded before the scratchpad read-back; 0 by D23, at most 32 (R111). -/
  spPreamble : Nat
  /-- CMD_WSP, the "write scratchpad" command byte. -/
  cmdWsp : Byte
  /-- CMD_RSP, the "read scratchpad" command byte. -/
  cmdRsp : Byte
  /-- CMD_CSP, the "copy scratchpad" command byte. -/
  cmdCsp : Byte
  /-- CMD_RM, the "read memory" command byte. -/
  cmdRm : Byte
  /-- ROMX_MATCH. PRESUMED (log 6): an index constant is a byte, as R79's suggested values are. -/
  romxMatch : Byte
  /-- ROMX_SEARCH. -/
  romxSearch : Byte
  /-- ROMX_SKIP. -/
  romxSkip : Byte
  /-- ROMX_MATCH_OD. -/
  romxMatchOd : Byte
  /-- ROMX_SKIP_OD. -/
  romxSkipOd : Byte
  /-- ROMX_SEARCH_OD, which may not have been supplied (R74, R79). -/
  romxSearchOd : Option Byte
  /-- CRC8_POLY, reflected; 0x8C by D18 and conflict C1. -/
  crc8Poly : Byte
  /-- CRC16_INIT; 0x0000 by D19. -/
  crc16Init : Half
  /-- LINK_CODES. -/
  linkCodes : LinkCodes
  deriving DecidableEq, Repr

/-- The ranges R6 gives the parameters. -/
abbrev Params.wf (p : Params) : Prop :=
  (1 ≤ p.retryAttempts ∧ p.retryAttempts ≤ 15) ∧ 1 ≤ p.hrAttempts ∧ 1 ≤ p.pollLimit ∧
  (1 ≤ p.wrChunk ∧ p.wrChunk ≤ 32) ∧ (1 ≤ p.rdChunk ∧ p.rdChunk ≤ 32) ∧ (1 ≤ p.maxDev ∧ p.maxDev ≤ 32) ∧
  p.spPreamble ≤ 32

/-- The open part of RETRY_ATTEMPTS (R6: 1 to 15). -/
opaque Config.retryFree : Fin 15

/-- The open part of HR_ATTEMPTS (R6: at least 1). -/
opaque Config.hrFree : Nat

/-- The open part of POLL_LIMIT (R6: at least 1). -/
opaque Config.pollFree : Nat

/-- The open part of WR_CHUNK (R6: 1 to 32). -/
opaque Config.wrFree : Fin 32

/-- The open part of RD_CHUNK (R6: 1 to 32). -/
opaque Config.rdFree : Fin 32

/-- The open part of MAXDEV (R6: 1 to 32). -/
opaque Config.maxDevFree : Fin 32

/-- CMD_WSP, OPEN (R6, D20). -/
opaque Config.cmdWsp : Byte

/-- CMD_RSP, OPEN (R6, D20). -/
opaque Config.cmdRsp : Byte

/-- CMD_CSP, OPEN (R6, D20). -/
opaque Config.cmdCsp : Byte

/-- CMD_RM, OPEN (R6, D20). -/
opaque Config.cmdRm : Byte

/-- ROMX_MATCH, OPEN (R79, D20). -/
opaque Config.romxMatch : Byte

/-- ROMX_SEARCH, OPEN (R79, D20). -/
opaque Config.romxSearch : Byte

/-- ROMX_SKIP, OPEN (R79, D20). -/
opaque Config.romxSkip : Byte

/-- ROMX_MATCH_OD, OPEN (R79, D20). -/
opaque Config.romxMatchOd : Byte

/-- ROMX_SKIP_OD, OPEN (R79, D20). -/
opaque Config.romxSkipOd : Byte

/-- ROMX_SEARCH_OD, OPEN, and whether it was supplied at all (R74, R79). -/
opaque Config.romxSearchOd : Option Byte

/-- LINK_CODES, OPEN (R6, D6, 93 U14). -/
opaque Config.linkCodes : LinkCodes

/-- FREE VALUE (93 U6, log 7): which of its candidates the byte of `IMG_A` at a host address keeps after a
MEM_READALL that ended in an error; the first argument numbers the draws. -/
opaque Config.freeChoice : Nat → Nat → Nat

/-- The parameters of the machine after reset: OPEN ones unknown, decided ones (D18, D19, D23) at their value. -/
def Config.params : Params where
  retryAttempts := Config.retryFree.val + 1
  hrAttempts := Config.hrFree + 1
  pollLimit := Config.pollFree + 1
  wrChunk := Config.wrFree.val + 1
  rdChunk := Config.rdFree.val + 1
  maxDev := Config.maxDevFree.val + 1
  spPreamble := 0
  cmdWsp := Config.cmdWsp
  cmdRsp := Config.cmdRsp
  cmdCsp := Config.cmdCsp
  cmdRm := Config.cmdRm
  romxMatch := Config.romxMatch
  romxSearch := Config.romxSearch
  romxSkip := Config.romxSkip
  romxMatchOd := Config.romxMatchOd
  romxSkipOd := Config.romxSkipOd
  romxSearchOd := Config.romxSearchOd
  crc8Poly := 0x8C#8
  crc16Init := 0x0000#16
  linkCodes := Config.linkCodes

end Sys2Proof
end

