-- ==== Sys2Proof/Machine/State.lean ====
section
/-! DEFINITION. The state of the engine and of the two agents around it (spec/10_state.md, 20_memory.md, R8).
The engine's registers are `Regs`; `State` adds the lock, the event flags, the sequencer, and as plain data what the
host and the link environment do next (`inputs`). -/

namespace Sys2Proof.Machine

/-- `LC`, the lifecycle (R11): 0 Unclaimed, 1 Claimed, 2 Closed; 3 is never held. -/
inductive Lifecycle where
  | unclaimed
  | claimed
  | closed
  deriving DecidableEq, Repr

/-- The codes of `RESULT.ERR` (R171). -/
inductive Err where
  | ok
  | claimError
  | transportError
  | busBusy
  | verifyFailed
  | lengthMismatch
  | searchFailed
  | illegalCmd
  | badState
  | badOperand
  | noNext
  deriving DecidableEq, Repr

/-- The codes of `RESULT.PHASE` (R174); `noPhase` is the spec's `none`. -/
inductive Phase where
  | noPhase
  | claim
  | search
  | read
  | write
  | verify
  deriving DecidableEq, Repr

/-- What `complete(ERR, PHASE, VAL)` is given (R170). -/
structure Completion where
  /-- ERR -/
  err : Err
  /-- PHASE -/
  phase : Phase
  /-- VAL -/
  val : Byte
  deriving DecidableEq, Repr

/-- The ROM commands of the selector `s` (R72). -/
inductive RomSel where
  | matchRom
  | searchRom
  | skipRom
  deriving DecidableEq, Repr

/-- The six kinds of control transfer (R53). -/
inductive CtlKind where
  /-- RESET, the vendor reset control command. -/
  | reset
  /-- SPEED s; true is overdrive. -/
  | speed (od : Bool)
  /-- WBIT b. -/
  | wbit (b : Bool)
  /-- RBIT. -/
  | rbit
  /-- COUNT n. -/
  | count (n : Nat)
  /-- ROM x, x one of the six ROMX constants. -/
  | rom (x : Byte)
  deriving DecidableEq, Repr

/-- The seven operations of the link port (R52). -/
inductive LinkOp where
  /-- Claim -/
  | claim
  /-- Release -/
  | release
  /-- Ctl(kind) -/
  | ctl (k : CtlKind)
  /-- Out(bytes) -/
  | bulkOut (bytes : List Byte)
  /-- In(n) -/
  | bulkIn (n : Nat)
  /-- Stat -/
  | stat
  /-- HardReset -/
  | hardReset
  deriving DecidableEq, Repr

/-- The link environment's answer to an operation (R52, R59, 93 U8). An `ok` answer carries what any operation could
ask for; each operation looks at its own part only: `In(n)` at the first `n` bytes of `data`, `Stat` at `busy`, the
others at neither. So every reply is a legal answer to every operation. -/
inductive Reply where
  | ok (data : List Byte) (busy : Bool)
  | fail
  | timeout
  deriving DecidableEq, Repr

/-- The width of a host access: `n` in {1, 4} bytes (R40). -/
inductive Width where
  | byte
  | word
  deriving DecidableEq, Repr

/-- One move of an agent outside the sequencer (R8). -/
inductive Move where
  /-- The host's MemRead (R40). -/
  | read (addr : Half) (n : Width)
  /-- The host's MemWrite (R40); a 1-byte write stores bits 7:0 of `v`. -/
  | write (addr : Half) (n : Width) (v : Word)
  /-- The arbiter gives a free lock to the command word held at the port (R43, R63). -/
  | accept
  /-- The link environment answers the operation at the link port (R52). -/
  | reply (r : Reply)
  /-- The environment offers TICK (R95). -/
  | tick
  /-- The environment declares PassTimeout (R97). -/
  | passTimeout
  /-- The reset input of the block (R190). -/
  | hardwareReset
  deriving DecidableEq, Repr

/-- The conditions `raise` leaves a procedure with (R7, R172), and PassTimeout (R97). -/
inductive Cond where
  | transportError
  | busBusy
  | verifyFailed
  | passTimeout
  deriving DecidableEq, Repr

/-- The locals of the pseudocode that `SEQ` holds (R28). DESIGN CHOICE (log 23): outside the code that gives it a value a
local holds the last value it was given since the command or pass started, and before the first one 0, none or nothing
(`Locals.start`). -/
structure Locals where
  /-- The current phase (R141, R174). -/
  phase : Phase
  /-- `k`, the search position of the walk in progress or of the last one, 1 to 64; 0 before the first (log 23). -/
  k : Nat
  /-- `last_zero` of the walk in progress or of the last one, 0 to 64; 0 before the first (log 23). -/
  lastZero : Nat
  /-- `p`, the page of the page loop in progress or of the last turn of one; 0 before the first (log 23). -/
  page : Nat
  /-- `have`, the bytes accumulated by the read loop in progress or by the last one; none before the first (log 23). -/
  bytesRead : List Byte
  deriving DecidableEq, Repr

/-- The buffers as one list of (host address, byte) pairs (R41). -/
abbrev Memory := List Host.Cell

/-- The engine's registers and buffers: all a command's pseudocode reads and writes (R10). -/
structure Regs where
  /-- `LC` (R11). -/
  lc : Lifecycle
  /-- `TARGET_ID` (R14). -/
  targetId : RomId
  /-- `ROM_ID` (R15). -/
  romId : RomId
  /-- `CRC16` (R16). -/
  crc16 : Half
  /-- `LAST_DISC` (R17). -/
  lastDisc : BitVec 7
  /-- `LAST_DEVICE` (R18). -/
  lastDevice : Bool
  /-- `SPD_VALID` (R19). -/
  spdValid : Bool
  /-- `SPD_OD` (R19). -/
  spdOd : Bool
  /-- `ATT` (R20). -/
  att : BitVec 4
  /-- `RX_LEN` (R22). -/
  rxLen : Byte
  /-- `NPAGES_A` (R23). -/
  npagesA : BitVec 9
  /-- `NPAGES_B` (R23). -/
  npagesB : BitVec 9
  /-- `DET_COUNT` (R24). -/
  detCount : BitVec 6
  /-- `DET_TRUNC` (R24). -/
  detTrunc : Bool
  /-- `RESULT` (R25). -/
  result : Word
  /-- The buffers `TXBUF`, `RXBUF`, `DET`, `IMG_A` and `IMG_B` (R21 to R24), at their host addresses (R41), in the
  canonical form of Machine/Ops.lean: addresses rising, an unlisted address holds no value (R31, 93 U9). -/
  mem : Memory
  /-- MODEL's own: the link operations issued and answered, oldest first (R61). -/
  issued : List LinkOp
  /-- MODEL's own: how many free choices (93 U6) have been drawn. -/
  draws : Nat
  deriving DecidableEq, Repr

/-- What holds the lock (R62). -/
inductive Job where
  /-- An accepted host command. -/
  | command (i : Instr)
  /-- A background pass (R94). -/
  | background
  deriving DecidableEq, Repr

/-- `SEQ` (R28): idle, or a command or pass waiting at the link port. `op` is its position (the link operation not
yet answered) and `locals` the locals of the pseudocode there; `entry` (the registers at acceptance) and `got` (the
environment's moves it has consumed) fix the rest of its continuation, because the pseudocode is a function of them
(log 3). -/
inductive Seq where
  | idle
  | busy (job : Job) (op : LinkOp) (locals : Locals) (entry : Regs) (got : List Move)
  deriving DecidableEq, Repr

/-- The whole machine: engine, host port, and what the agents outside the sequencer do next. -/
structure State extends Regs where
  /-- The parameters of R6, which no step writes (MODEL's own place for the configuration, log 2). -/
  params : Params
  /-- `LOCK` (R12). -/
  lock : Bool
  /-- `SEARCHING` (R13). -/
  searching : Bool
  /-- `EVENT` (R26). -/
  event : Word
  /-- `SEQ` (R28). -/
  seq : Seq
  /-- Command words held at the port, oldest first (R29, R43, R195). -/
  port : List Word
  /-- MODEL's own: the value the host's last MemRead returned. -/
  hostRead : Option Word
  /-- MODEL's own: the moves of host and environment still to come, the next first (log 1). -/
  inputs : List Move
  deriving DecidableEq, Repr

/-- Why the machine stops with a fault. -/
inductive Fault where
  /-- Raised by any read, the engine's or the host's, of a buffer byte nothing has written since reset, at this host
  address: "a read before a write is a fault of the model" (R31, 93 U9). Safe: the run stops. -/
  | unwritten (addr : Nat)
  deriving DecidableEq, Repr

/-- Why the machine has no meaning for a move. -/
inductive Refusal where
  /-- Raised by exec for a command that has no meaning yet. Safe. -/
  | notModelled (mnemonic : String)
  /-- Raised by a host access whose width is not the location's (R42, 93 U4). Safe. -/
  | accessWidth (addr : Half)
  /-- Raised by a 4-byte host access at an address that is not a multiple of 4 (R42, 93 U4). Safe. -/
  | misaligned (addr : Half)
  /-- Raised by a host access to an unmapped address (R48, 93 U4). Safe. -/
  | unmapped (addr : Half)
  /-- Raised by a host write to a read-only location (R48, 93 U4). Safe. -/
  | readOnly (addr : Half)
  /-- Raised by a host read of CMD (R48, 93 U4). Safe. -/
  | writeOnly (addr : Half)
  /-- Raised by a host access to a `DET` entry at or beyond MAXDEV (R48, 93 U4). Safe. -/
  | detBeyond (entry : Nat)
  /-- Raised by a host access to engine-owned storage while `LOCK=1` (R45, 93 U1). Safe. -/
  | engineOwned (addr : Half)
  /-- Raised by a host write of a command word other than CLOSE's while another is held at the port
  (R195, 93 U2). Safe. -/
  | wordHeld (w : Word)
  deriving DecidableEq, Repr

/-- The registers after hardware reset (R31); the buffers hold no value. -/
def Regs.reset : Regs where
  lc := .unclaimed
  targetId := 0#64
  romId := 0#64
  crc16 := 0x0000#16
  lastDisc := 0#7
  lastDevice := true
  spdValid := false
  spdOd := false
  att := 0#4
  rxLen := 0#8
  npagesA := 256#9
  npagesB := 256#9
  detCount := 0#6
  detTrunc := false
  result := 0x00000000#32
  mem := []
  issued := []
  draws := 0

/-- The machine right after hardware reset (R31, R190): every register at the value of R31's table, no command in
progress, none held, and no move of host or environment waiting (log 1). -/
def State.reset : State where
  toRegs := Regs.reset
  params := Config.params
  lock := false
  searching := false
  event := 0x00000000#32
  seq := .idle
  port := []
  hostRead := none
  inputs := []

end Sys2Proof.Machine
end

