-- ==== Sys2Proof/Machine/Flags.lean ====
section
/-! DEFINITION. The status, event and result words (spec/10_state.md R25 to R27, spec/60_exceptions.md R170, R171,
R174): their fields, and the operations that set them. -/

namespace Sys2Proof.Machine

/-- `LC` as its two bits (R11). -/
def Lifecycle.code : Lifecycle → BitVec 2
  | .unclaimed => 0#2
  | .claimed => 1#2
  | .closed => 2#2

/-- The numbers of R171. -/
def Err.code : Err → BitVec 4
  | .ok => 0#4
  | .claimError => 1#4
  | .transportError => 2#4
  | .busBusy => 3#4
  | .verifyFailed => 4#4
  | .lengthMismatch => 5#4
  | .searchFailed => 6#4
  | .illegalCmd => 7#4
  | .badState => 8#4
  | .badOperand => 9#4
  | .noNext => 10#4

/-- The numbers of R174. -/
def Phase.code : Phase → BitVec 3
  | .noPhase => 0#3
  | .claim => 1#3
  | .search => 2#3
  | .read => 3#3
  | .write => 4#3
  | .verify => 5#3

/-- A Boolean as a bit. -/
def bit (b : Bool) : BitVec 1 := BitVec.ofBool b

/-- The `RESULT` word (R25, R170): OPC in 31:24, VAL in 15:8, PHASE in 6:4, ERR in 3:0, the rest 0. If ERR is OK the
phase written is `none`. -/
def resultWord (opc : Byte) (c : Completion) : Word :=
  let phase := if c.err = .ok then Phase.noPhase else c.phase
  opc ++ 0#8 ++ c.val ++ 0#1 ++ phase.code ++ c.err.code

/-- `RESULT.ERR` of a result word (R25). -/
def resultErr (r : Word) : BitVec 4 := r.extractLsb' 0 4

/-- `RESULT.PHASE` (R25). -/
def resultPhase (r : Word) : BitVec 3 := r.extractLsb' 4 3

/-- `RESULT.VAL` (R25). -/
def resultVal (r : Word) : Byte := r.extractLsb' 8 8

/-- `RESULT.OPC` (R25). -/
def resultOpc (r : Word) : Byte := r.extractLsb' 24 8

/-- `EVENT.DONE`, bit 0 (R26). -/
def evDone : Word := 1#32

/-- `EVENT.DETECT`, bit 1 (R26). -/
def evDetect : Word := 2#32

/-- `EVENT.SRCHERR`, bit 2 (R26). -/
def evSrchErr : Word := 4#32

/-- Sets the flags of `f` and leaves the others (R177: sticky). -/
def raiseFlags (event f : Word) : Word := event ||| f

/-- A host write to EVENT: clears every flag whose written bit is 1 and leaves the others (R26). -/
def clearFlags (event v : Word) : Word := event &&& ~~~v

/-- The `STATUS` view (R27). -/
def statusWord (s : State) : Word :=
  0#12 ++ s.att ++ 0#1 ++ s.lastDisc ++ bit s.detTrunc ++ bit s.spdOd ++ bit s.spdValid ++ bit s.lastDevice ++
    bit s.searching ++ bit s.lock ++ s.lc.code

/-- Acceptance clears `EVENT.DONE` (R43). -/
def State.clearDone (s : State) : State := { s with event := clearFlags s.event evDone }

/-- `complete(ERR, PHASE, VAL)` of the command whose OPC field is `opc`: one step that writes `RESULT`, sets
`EVENT.DONE`, frees the lock and idles the sequencer (R170). -/
def State.complete (opc : Byte) (c : Completion) (s : State) : State :=
  { s with
    result := resultWord opc c
    event := raiseFlags s.event evDone
    lock := false
    seq := .idle }

end Sys2Proof.Machine
end

