-- ==== Sys2Proof/Machine/Operands.lean ====
section
/-! DEFINITION. Operand assembly and the usage checks (spec/30_encoding.md R72, R74, R78, R79;
spec/20_memory.md R41, R50; spec/43_scratchpad_write.md R140; spec/40_lifecycle.md R90; spec/60_exceptions.md
R175). -/

namespace Sys2Proof.Machine

/-- The chip address of page `p`: `32*p` (R50). -/
def pageOff (p : Nat) : Half := BitVec.ofNat 16 (32 * p)

/-- The chip address of RG_WRITE's operands: `h*256 + l` (R72). -/
def regionOff (h l : Byte) : Half := h ++ l

/-- `lo(off)` (R78). -/
def offLo (off : Half) : Byte := off.extractLsb' 0 8

/-- `hi(off)` (R78). -/
def offHi (off : Half) : Byte := off.extractLsb' 8 8

/-- The ending offset `(off + n - 1) and 0x1F`, one byte (R140). -/
def endOff (off : Half) (n : Nat) : Byte := BitVec.ofNat 8 ((off.toNat + n - 1) % 32)

/-- Host address of `TXBUF[i]` (R41). -/
def txAddr (i : Nat) : Nat := 0x0100 + i

/-- Host address of `RXBUF[i]` (R41). -/
def rxAddr (i : Nat) : Nat := 0x0200 + i

/-- Host address of byte `i` of `DET` entry `e` (R41). -/
def detAddr (e i : Nat) : Nat := 0x0400 + 8 * e + i

/-- Host address of `IMG_A[p][i]` (R41). -/
def imgAAddr (p i : Nat) : Nat := 0x2000 + 32 * p + i

/-- Host address of `IMG_B[p][i]` (R41). -/
def imgBAddr (p i : Nat) : Nat := 0x4000 + 32 * p + i

/-- Byte `i` of a ROM id (R46, R80). -/
def romByte (id : RomId) (i : Nat) : Byte := id.extractLsb' (8 * i) 8

/-- A ROM id on the link: its 8 bytes, family code first (R80). -/
def romBytes (id : RomId) : List Byte := (List.range 8).map (romByte id)

/-- `ROM_ID.bit(k)`, `k` from 1 to 64: bit `(k-1) mod 8` of byte `(k-1) div 8` (R120), which is bit `k-1` of the
little-endian 64-bit value. -/
def romBit (id : RomId) (k : Nat) : Bool := id.getLsbD (k - 1)

/-- `ROM_ID.bit(k) <- d` (R120). -/
def setRomBit (id : RomId) (k : Nat) (d : Bool) : RomId :=
  (id &&& ~~~(1#64 <<< (k - 1))) ||| (BitVec.setWidth 64 (bit d) <<< (k - 1))

/-- The ROM command of the selector field; 3 selects none (R72). -/
def romSel? (s : BitVec 2) : Option RomSel :=
  if s = 0#2 then some .matchRom else if s = 1#2 then some .searchRom else if s = 2#2 then some .skipRom else none

/-- `romx(s, d)` (R79). An unsupplied ROMX_SEARCH_OD is never asked for: the operand check refuses it (R74). -/
def romx (p : Params) (s : RomSel) (d : Bool) : Byte :=
  match s, d with
  | .matchRom, false => p.romxMatch
  | .searchRom, false => p.romxSearch
  | .skipRom, false => p.romxSkip
  | .matchRom, true => p.romxMatchOd
  | .searchRom, true => p.romxSearchOd.getD p.romxSearch
  | .skipRom, true => p.romxSkipOd

/-- The consecutive slices of `data`, each `n` bytes except possibly the last (R141 step 3); `fuel` bounds how many
and is the length of the data. -/
def slicesFuel (n : Nat) : Nat → List Byte → List (List Byte)
  | 0, _ => []
  | fuel + 1, data => if data = [] then [] else data.take n :: slicesFuel n fuel (data.drop n)

/-- The slices of a payload (R141 step 3). -/
def slices (n : Nat) (data : List Byte) : List (List Byte) := slicesFuel n data.length data

/-- Which command is legal in which lifecycle state (R90). -/
def legalIn (i : Instr) (lc : Lifecycle) : Bool :=
  match i with
  | .claim => lc = .unclaimed
  | .close => true
  | .srchStart => lc = .claimed
  | .owReset | .owSpeed _ | .owWbit _ | .owRbit | .owWrite _ _ | .owRead _ | .owRom _ _ => lc = .claimed
  | .srchFirst | .srchNext | .srchEnum => lc = .claimed
  | .pgWrite _ _ | .rgWrite _ _ _ => lc = .claimed
  | .memReadall _ | .memWriteall _ | .memWritediff _ => lc = .claimed
  | .crc16Clr | .crc16Byte _ | .crc16Chk _ | .crc16Gen _ => true

/-- Which operands are in range: R72's ranges, and ROMX_SEARCH_OD supplied for search at overdrive (R74). -/
def operandInRange (p : Params) (i : Instr) : Bool :=
  i.wf && (match i with
    | .owRom s d => !(s == 1#2 && d) || p.romxSearchOd.isSome
    | _ => true)

/-- The usage checks of R175 after decoding, in its order; none when the command's body may run. -/
def usageError (i : Instr) (s : State) : Option Completion :=
  if !legalIn i s.lc then some ⟨.badState, .noPhase, 0⟩
  else if !operandInRange s.params i then some ⟨.badOperand, .noPhase, 0⟩
  else match i with
    | .srchNext => if s.lastDevice then some ⟨.noNext, .search, 0⟩ else none
    | .memWritediff _ => if s.npagesA ≠ s.npagesB then some ⟨.lengthMismatch, .write, 0⟩ else none
    | _ => none

end Sys2Proof.Machine
end

