-- ==== Sys2Proof/Machine/Ops.lean ====
section
/-! DEFINITION. The shared operations: memory, the sequencer's programs (`Prog`), the link port
(spec/20_memory.md R51 to R61), the helpers of spec/41_line_primitives.md R102 to R111, error completion, epilogue
and retry (spec/60_exceptions.md R172, R173), and the acceptance and suspension of a command (R43, R62).

A `Prog` is a piece of the spec's pseudocode. It runs on the replies the environment has ready; where the next link
operation has none, it stops at it (`wait`), which is where other agents may move. -/

namespace Sys2Proof.Machine

/-! ## Buffers -/

/-- The canonical form: addresses strictly rising. An unlisted address holds no value (R31), so no entry can equal
what an unlisted address reads as. -/
abbrev Memory.wf (m : Memory) : Prop := m.Pairwise fun c d => c.1 < d.1

/-- The byte at a host address; `none` where nothing has been written (R31). -/
def Memory.read? : Memory → Nat → Option Byte
  | [], _ => none
  | c :: m, a => if c.1 = a then some c.2 else Memory.read? m a

/-- The bytes with their consecutive addresses from `a`. -/
def cellsFrom : Nat → List Byte → Memory
  | _, [] => []
  | a, b :: bs => (a, b) :: cellsFrom (a + 1) bs

/-- Stores consecutive bytes from address `a`: the entries below them, they, and the entries above them. -/
def Memory.writeBytes (m : Memory) (a : Nat) (bs : List Byte) : Memory :=
  m.filter (fun c => c.1 < a) ++ cellsFrom a bs ++ m.filter (fun c => a + bs.length ≤ c.1)

/-- Stores one byte. -/
def Memory.write (m : Memory) (a : Nat) (b : Byte) : Memory := m.writeBytes a [b]

/-- Reads `n` consecutive bytes from address `a`, or names the first address that holds no value. -/
def Memory.readBytes (m : Memory) : Nat → Nat → Except Nat (List Byte)
  | _, 0 => .ok []
  | a, n + 1 =>
    match m.read? a with
    | none => .error a
    | some b =>
      match Memory.readBytes m (a + 1) n with
      | .error x => .error x
      | .ok bs => .ok (b :: bs)

/-! ## Programs of the sequencer -/

/-- What the sequencer works on while a command or pass runs. -/
structure Eng where
  /-- The registers. -/
  regs : Regs
  /-- The parameters, never written. -/
  params : Params
  /-- The pseudocode's locals (R28). -/
  locals : Locals
  /-- The moves still to come; a link operation takes its reply from the front. -/
  script : List Move
  /-- The moves consumed since acceptance. -/
  got : List Move
  /-- Whether the environment may declare PassTimeout: inside a background pass's enumeration (R97). -/
  timed : Bool
  /-- Event flags to set when the command or pass ends. -/
  raised : Word
  /-- The bytes received for `IMG_A`, with their host addresses (93 U6). -/
  received : Memory
  deriving DecidableEq, Repr

/-- How a piece of pseudocode ends. -/
inductive Res (α : Type) where
  /-- It returned. -/
  | ok (a : α) (e : Eng)
  /-- It raised a condition (R7). -/
  | raise (c : Cond) (e : Eng)
  /-- It is at a link operation that has no reply yet (R28). -/
  | wait (op : LinkOp) (e : Eng)
  /-- It read a byte that holds no value (93 U9). -/
  | fault (f : Fault)
  deriving DecidableEq, Repr

/-- A piece of pseudocode that returns an `α`. -/
abbrev Prog (α : Type) := Eng → Res α

/-- `return a`. -/
def Prog.ret {α : Type} (a : α) : Prog α := fun e => .ok a e

/-- Sequencing: runs `x`, then `f` on what it returned; a raise, a wait or a fault ends both. -/
def Prog.bind {α β : Type} (x : Prog α) (f : α → Prog β) : Prog β := fun e =>
  match x e with
  | .ok a e' => f a e'
  | .raise c e' => .raise c e'
  | .wait op e' => .wait op e'
  | .fault r => .fault r

/-- Sequencing without a result. -/
def Prog.andThen {β : Type} (x : Prog Unit) (y : Prog β) : Prog β := x.bind fun _ => y

/-- `raise c`. -/
def Prog.raise {α : Type} (c : Cond) : Prog α := fun e => .raise c e

/-- Runs `h` on a condition that escapes `x`, in the state it escaped in. -/
def Prog.catch {α : Type} (x : Prog α) (h : Cond → Prog α) : Prog α := fun e =>
  match x e with
  | .ok a e' => .ok a e'
  | .raise c e' => h c e'
  | .wait op e' => .wait op e'
  | .fault r => .fault r

/-- Reads something of the sequencer's state. -/
def Prog.ask {α : Type} (f : Eng → α) : Prog α := fun e => .ok (f e) e

/-- Changes the registers. -/
def Prog.setRegs (f : Regs → Regs) : Prog Unit := fun e => .ok () { e with regs := f e.regs }

/-- Changes the locals. -/
def Prog.setLocals (f : Locals → Locals) : Prog Unit := fun e => .ok () { e with locals := f e.locals }

/-- The locals with another phase. -/
def Locals.withPhase (l : Locals) (ph : Phase) : Locals := { l with phase := ph }

/-- The locals with another page in progress. -/
def Locals.withPage (l : Locals) (p : Nat) : Locals := { l with page := p }

/-- The locals with other accumulated bytes. -/
def Locals.withBytes (l : Locals) (bs : List Byte) : Locals := { l with bytesRead := bs }

/-- The locals at a position of the search walk. -/
def Locals.withWalk (l : Locals) (k lz : Nat) : Locals := { l with k := k, lastZero := lz }

/-- `phase <- ph` (R141). -/
def setPhase (ph : Phase) : Prog Unit := Prog.setLocals fun l => l.withPhase ph

/-- Notes event flags to be set when the command or pass ends. -/
def raiseEvent (f : Word) : Prog Unit := fun e => .ok () { e with raised := raiseFlags e.raised f }

/-- Reads `n` buffer bytes from host address `a`; a byte that holds no value is the model's fault (R31). -/
def loadBytes (a n : Nat) : Prog (List Byte) := fun e =>
  match e.regs.mem.readBytes a n with
  | .ok bs => .ok bs e
  | .error x => .fault (.unwritten x)

/-- Writes buffer bytes from host address `a`. -/
def storeBytes (a : Nat) (bs : List Byte) : Prog Unit :=
  Prog.setRegs fun r => { r with mem := r.mem.writeBytes a bs }

/-! ## The link port -/

/-- `Link(op)`, looking for the reply in the moves to come. A PassTimeout between two link operations of a timed
pass raises its condition (R97); one that is not allowed here changes nothing. Any other move belongs to another
agent, so the operation waits. -/
def linkFrom (op : LinkOp) : List Move → Prog Reply
  | .reply r :: rest => fun e =>
    .ok r { e with
      script := rest
      got := e.got ++ [.reply r]
      regs := { e.regs with issued := e.regs.issued ++ [op] } }
  | .passTimeout :: rest => fun e =>
    if e.timed && !e.got.isEmpty then
      .raise .passTimeout { e with script := rest, got := e.got ++ [.passTimeout] }
    else linkFrom op rest e
  | script => fun e => .wait op { e with script := script }

/-- `Link(op)` (R52): issues one operation and returns the environment's answer. -/
def link (op : LinkOp) : Prog Reply := fun e => linkFrom op e.script e

/-- `Xfer(op)` (R60): `Link(op)` that raises TransportError on any answer but `ok`; returns its data and busy bit. -/
def xfer (op : LinkOp) : Prog (List Byte × Bool) :=
  (link op).bind fun a =>
    match a with
    | .ok data busy => Prog.ret (data, busy)
    | .fail => Prog.raise .transportError
    | .timeout => Prog.raise .transportError

/-- `Xfer(op)` of an operation whose payload is not used. -/
def send (op : LinkOp) : Prog Unit := (xfer op).bind fun _ => Prog.ret ()

/-! ## Helpers of the line primitives -/

/-- `BufferClear`'s loop with `n` polls left (R102). -/
def pollLoop : Nat → Prog Unit
  | 0 => Prog.raise .busBusy
  | n + 1 => (xfer .stat).bind fun r => if r.2 then pollLoop n else Prog.ret ()

/-- `BufferClear()` (R102). -/
def bufferClear : Prog Unit := (Prog.ask fun e => e.params.pollLimit).bind pollLoop

/-- `HardResetBounded`'s loop with `n` attempts left; true is the spec's `ok` (R103). -/
def hardResetLoop : Nat → Prog Bool
  | 0 => Prog.ret false
  | n + 1 =>
    (link .hardReset).bind fun a =>
      match a with
      | .ok _ _ => (Prog.setRegs fun r => { r with spdValid := false }).andThen (Prog.ret true)
      | .fail => Prog.ret false
      | .timeout => hardResetLoop n

/-- `HardResetBounded()` (R103): never raises. -/
def hardResetBounded : Prog Bool := (Prog.ask fun e => e.params.hrAttempts).bind hardResetLoop

/-- `Reset()` (R104). -/
def busReset : Prog Unit :=
  (link (.ctl .reset)).bind fun a =>
    match a with
    | .ok _ _ => bufferClear
    | _ => hardResetBounded.bind fun done => if done then bufferClear else Prog.raise .transportError

/-- `SetSpeed(s)` (R105). -/
def setSpeed (od : Bool) : Prog Unit :=
  (send (.ctl (.speed od))).andThen (Prog.setRegs fun r => { r with spdValid := true, spdOd := od })

/-- `WriteBit(b)` (R106). -/
def writeBit (b : Bool) : Prog Unit := send (.ctl (.wbit b))

/-- `Read(m)` (R109): one bulk-in transfer; an `ok` answer carries at most `m` bytes (R52). -/
def readBulk (m : Nat) : Prog (List Byte) := (xfer (.bulkIn m)).bind fun r => Prog.ret (r.1.take m)

/-- `ReadBit()` (R107): bit 0 of the one byte read. -/
def readBit : Prog Bool :=
  (send (.ctl .rbit)).andThen <|
    (readBulk 1).bind fun d =>
      match d with
      | [b] => Prog.ret (b.getLsbD 0)
      | _ => Prog.raise .transportError

/-- `Write(bytes, clr)` (R108). -/
def writeWire (bytes : List Byte) (clr : Bool) : Prog Unit :=
  (send (.bulkOut bytes)).andThen <|
    (send (.ctl (.count bytes.length))).andThen <|
      if clr then send (.bulkIn bytes.length) else Prog.ret ()

/-- `RomCommand(s, d, id)` with `id = TARGET_ID` (R110). -/
def romCommand (s : RomSel) (d : Bool) : Prog Unit :=
  (Prog.ask fun e => romx e.params s d).bind fun x =>
    (send (.ctl (.rom x))).andThen <|
      (setSpeed d).andThen <|
        (Prog.ask fun e => if s = .matchRom then romBytes e.regs.targetId else List.replicate 8 0#8).bind fun id =>
          send (.bulkOut id)

/-- `ReadExact`'s loop: `n` bytes wanted, `acc` accumulated; `fuel` bounds the iterations and is `n` (R111). -/
def readExactLoop (n : Nat) : Nat → List Byte → Prog (List Byte)
  | 0, acc => Prog.ret acc
  | fuel + 1, acc =>
    if n ≤ acc.length then Prog.ret acc
    else
      (Prog.ask fun e => e.params.rdChunk).bind fun c =>
        (readBulk (min c (n - acc.length))).bind fun d =>
          if d = [] then Prog.raise .transportError
          else (Prog.setLocals fun l => l.withBytes (acc ++ d)).andThen (readExactLoop n fuel (acc ++ d))

/-- `ReadExact(n)` (R111). -/
def readExact (n : Nat) : Prog (List Byte) :=
  (Prog.setLocals fun l => l.withBytes []).andThen (readExactLoop n n [])

/-! ## Error completion, epilogue and retry: what an exception is here -/

/-- The error code a condition is reported as (R171, R172). -/
def Cond.err : Cond → Err
  | .transportError => .transportError
  | .busBusy => .busBusy
  | .verifyFailed => .verifyFailed
  | .passTimeout => .transportError

/-- The error epilogue of R172 for TransportError and BusBusy: the bounded hard reset, its result ignored, and after
a search command `LAST_DEVICE <- 1`. -/
def epilogue (isSearch : Bool) : Prog Unit :=
  hardResetBounded.bind fun _ =>
    if isSearch then Prog.setRegs fun r => { r with lastDevice := true } else Prog.ret ()

/-- The error completion of an escaped condition: VerifyFailed at once with phase `verify`; the others after the
epilogue, with the phase they arose in (R172, R174). -/
def errorCompletion (isSearch : Bool) (c : Cond) : Prog Completion :=
  match c with
  | .verifyFailed => Prog.ret ⟨.verifyFailed, .verify, 0⟩
  | c =>
    (Prog.ask fun e => e.locals.phase).bind fun ph => (epilogue isSearch).andThen (Prog.ret ⟨c.err, ph, 0⟩)

/-- A bus command that does not restart on a transport failure (R172, R173). -/
def guarded (isSearch : Bool) (body : Prog Completion) : Prog Completion :=
  body.catch (errorCompletion isSearch)

/-- `ATT <- ATT + 1` (R173). -/
def nextAttempt : Prog Unit := Prog.setRegs fun r => { r with att := r.att + 1#4 }

/-- `ATT <- 1` (R20, R150). -/
def firstAttempt : Prog Unit := Prog.setRegs fun r => { r with att := 1#4 }

/-- Whether `ATT < RETRY_ATTEMPTS`. -/
def attemptsLeft : Prog Bool := Prog.ask fun e => decide (e.regs.att.toNat < e.params.retryAttempts)

/-- The whole-memory commands' retry wrapper (R150, R173): TransportError and BusBusy run the epilogue and then the
body again from its first line while attempts are left. `fuel` bounds the restarts and is `RETRY_ATTEMPTS`. -/
def restarting (body : Prog Completion) : Nat → Prog Completion
  | 0 => guarded false body
  | fuel + 1 =>
    body.catch fun c =>
      match c with
      | .verifyFailed => errorCompletion false .verifyFailed
      | c =>
        (Prog.ask fun e => e.locals.phase).bind fun ph =>
          (epilogue false).andThen <|
            attemptsLeft.bind fun more =>
              if more then nextAttempt.andThen (restarting body fuel) else Prog.ret ⟨c.err, ph, 0⟩

/-- A body under the retry wrapper, from the first attempt (R150). -/
def retried (body : Prog Completion) : Prog Completion :=
  firstAttempt.andThen <| (Prog.ask fun e => e.params.retryAttempts).bind fun n => restarting body n

/-! ## Acceptance, suspension, completion -/

/-- The locals at the start of a command or pass: the model's choice where the pseudocode has given them no value yet (DESIGN
CHOICE, log 23). -/
def Locals.start : Locals where
  phase := .noPhase
  k := 0
  lastZero := 0
  page := 0
  bytesRead := []

/-- The sequencer at the acceptance of a command or the start of a pass. -/
def State.eng (s : State) (timed : Bool) : Eng where
  regs := s.toRegs
  params := s.params
  locals := .start
  script := s.inputs
  got := []
  timed := timed
  raised := 0
  received := []

/-- The state with the sequencer's registers, unconsumed moves and event flags stored back. -/
def State.absorb (s : State) (e : Eng) : State :=
  { s with toRegs := e.regs, inputs := e.script, event := raiseFlags s.event e.raised }

/-- The state in which a command or pass that `s` started waits at link operation `op`: the lock is held (R62). -/
def State.suspend (s : State) (job : Job) (op : LinkOp) (e : Eng) : State :=
  { s with
    toRegs := e.regs
    inputs := e.script
    lock := true
    seq := .busy job op e.locals s.toRegs e.got }

/-- Runs the body of an accepted command that uses the bus, as far as the replies ready at the link port carry it
(R43, R62): it ends by `complete` (R170) or waits with the lock held. DESIGN CHOICE (log 22): a body that issues no link
operation (MEM_WRITEALL with NPAGES_A=0, MEM_WRITEDIFF of identical images; R152, R153) ends in the acceptance step, so the
`LOCK <- 1` and the `LOCK <- 0` of R62 fall in one step and no state with LOCK=1 stands between them. -/
def runCommand (i : Instr) (body : Prog Completion) (s : State) : Host.Outcome State Fault Refusal :=
  match body (s.eng false) with
  | .ok c e => .next ((s.clearDone.absorb e).complete i.opc c)
  | .raise c e => .next ((s.clearDone.absorb e).complete i.opc ⟨c.err, e.locals.phase, 0⟩)
  | .wait op e => .next (s.clearDone.suspend (.command i) op e)
  | .fault f => .fault f

/-- Completes an accepted command at once, with nothing else changed (R175). -/
def completeNow (opc : Byte) (c : Completion) (s : State) : Host.Outcome State Fault Refusal :=
  .next (s.clearDone.complete opc c)

/-- Acceptance of a decoded command: the usage checks of R175, then its body. -/
def accept (i : Instr) (body : Prog Completion) (s : State) : Host.Outcome State Fault Refusal :=
  match usageError i s with
  | some c => completeNow i.opc c s
  | none => runCommand i body s

end Sys2Proof.Machine
end

