-- ==== Sys2Proof/Machine/Crc16.lean ====
section
/-! DEFINITION. The CRC-16 unit: CRC16_CLR, CRC16_BYTE, CRC16_CHK, CRC16_GEN (spec/45_crc16.md R160 to R164). The four
commands use no link operation and take no lock; they complete in the step that accepts them. -/

namespace Sys2Proof.Machine

/-- One shift of the CRC-16 register (R162). -/
def crc16Shift (r : Half) : Half := if r.getLsbD 0 then (r >>> 1) ^^^ Config.crc16Poly else r >>> 1

/-- `Crc16Step(r, b)` (R162). -/
def crc16Step (r : Half) (b : Byte) : Half := Nat.repeat crc16Shift 8 (r ^^^ b.setWidth 16)

/-- `Crc16(bytes, r0)` (R162). -/
def crc16 (bytes : List Byte) (r0 : Half) : Half := bytes.foldl crc16Step r0

/-- An empty page: every byte the sentinel (R160). -/
def pageEmpty (pg : List Byte) : Bool := pg.all (· == Config.sentinel)

/-- Runs a CRC command that no usage error stops on page `p` of `IMG_A`; a byte of it that holds no value is the
model's fault (R31). -/
def onPage (p : Byte) (f : List Byte → Host.Outcome State Fault Refusal) (s : State) :
    Host.Outcome State Fault Refusal :=
  match s.mem.readBytes (imgAAddr p.toNat 0) Config.pageBytes with
  | .error a => .fault (.unwritten a)
  | .ok pg => f pg

/-- CRC16_CLR (R161). -/
def execCrc16Clr (s : State) : Host.Outcome State Fault Refusal :=
  completeNow Instr.crc16Clr.opc ⟨.ok, .noPhase, 0⟩ { s with crc16 := s.params.crc16Init }

/-- CRC16_BYTE v (R162). -/
def execCrc16Byte (v : Byte) (s : State) : Host.Outcome State Fault Refusal :=
  completeNow (Instr.crc16Byte v).opc ⟨.ok, .noPhase, 0⟩ { s with crc16 := crc16Step s.crc16 v }

/-- VAL of CRC16_CHK for an empty page: EMPTY and VALID (R163). -/
def valEmptyValid : Byte := 0b11#8

/-- VAL of CRC16_GEN for an empty page: EMPTY (R164). -/
def valEmpty : Byte := 0b10#8

/-- CRC16_CHK p (R163): all 32 bytes go through the register. -/
def execCrc16Chk (p : Byte) (s : State) : Host.Outcome State Fault Refusal :=
  onPage p (fun pg =>
    if pageEmpty pg then completeNow (Instr.crc16Chk p).opc ⟨.ok, .noPhase, valEmptyValid⟩ s
    else
      let r := crc16 pg s.params.crc16Init
      completeNow (Instr.crc16Chk p).opc
        ⟨.ok, .noPhase, if r = Config.crc16Residue then 1#8 else 0#8⟩ { s with crc16 := r }) s

/-- The two bytes stored for register value `r`: the complement, low byte first (R164). -/
def crcBytes (r : Half) : List Byte :=
  let v := r ^^^ Config.crc16Xorout
  [v.extractLsb' 0 8, v.extractLsb' 8 8]

/-- CRC16_GEN p (R164): the 30 data bytes go through the register; the complement is stored in bytes 30 and 31. -/
def execCrc16Gen (p : Byte) (s : State) : Host.Outcome State Fault Refusal :=
  onPage p (fun pg =>
    if pageEmpty pg then completeNow (Instr.crc16Gen p).opc ⟨.ok, .noPhase, valEmpty⟩ s
    else
      let r := crc16 (pg.take Config.crcDataBytes) s.params.crc16Init
      completeNow (Instr.crc16Gen p).opc ⟨.ok, .noPhase, 0⟩
        { s with crc16 := r, mem := s.mem.writeBytes (imgAAddr p.toNat 30) (crcBytes r) }) s

end Sys2Proof.Machine
end

