-- ==== Sys2Proof/Machine/Lifecycle.lean ====
section
/-! DEFINITION. CLAIM, CLOSE and SRCH_START (spec/40_lifecycle.md R90 to R93). -/

namespace Sys2Proof.Machine

/-- Every failure of CLAIM: CLAIM_ERROR with phase `claim`, no epilogue (R91). -/
def claimFailed : Prog Completion := Prog.ret ⟨.claimError, .claim, 0⟩

/-- The pseudocode of R91. -/
def claimBody : Prog Completion :=
  (link .claim).bind fun a =>
    match a with
    | .ok _ _ =>
      hardResetBounded.bind fun done =>
        if done then
          (bufferClear.andThen <|
            (Prog.setRegs fun r => { r with lc := .claimed }).andThen (Prog.ret ⟨.ok, .noPhase, 0⟩)).catch
            fun _ => claimFailed
        else claimFailed
    | _ => claimFailed

/-- CLAIM (R91). -/
def execClaim (s : State) : Host.Outcome State Fault Refusal := accept .claim claimBody s

/-- Part 1 of CLOSE, at the host's write of the word whatever `LOCK` is (R92). -/
def closeAtWrite (s : State) : State := { s with searching := false }

/-- Part 2 of CLOSE outside `Closed`: `Release`, its answer ignored, and `LC <- Closed` (R92). -/
def closeBody : Prog Completion :=
  (link .release).bind fun _ =>
    (Prog.setRegs fun r => { r with lc := .closed }).andThen (Prog.ret ⟨.ok, .noPhase, 0⟩)

/-- CLOSE, part 2, at acceptance: nothing on the link when already `Closed` (R92). -/
def execClose (s : State) : Host.Outcome State Fault Refusal :=
  if s.lc = .closed then completeNow Instr.close.opc ⟨.ok, .noPhase, 0⟩ s else accept .close closeBody s

/-- SRCH_START (R93): `SEARCHING <- 1`, with no link operation and no lock. -/
def execSrchStart (s : State) : Host.Outcome State Fault Refusal :=
  match usageError .srchStart s with
  | some c => completeNow Instr.srchStart.opc c s
  | none => completeNow Instr.srchStart.opc ⟨.ok, .noPhase, 0⟩ { s with searching := true }

end Sys2Proof.Machine
end

