-- ==== Sys2Proof/Machine/Line.lean ====
section
/-! DEFINITION. The line primitives OW_RESET, OW_SPEED, OW_WBIT, OW_RBIT, OW_WRITE, OW_READ and OW_ROM
(spec/41_line_primitives.md R104 to R110): helpers of Machine/Ops.lean under the error epilogue, phase `none`, never
retried. -/

namespace Sys2Proof.Machine

/-- A successful completion without a value. -/
def done : Prog Completion := Prog.ret ⟨.ok, .noPhase, 0⟩

/-- OW_RESET (R104). -/
def execOwReset (s : State) : Host.Outcome State Fault Refusal :=
  accept .owReset (guarded false (busReset.andThen done)) s

/-- OW_SPEED f (R105). -/
def execOwSpeed (f : Bool) (s : State) : Host.Outcome State Fault Refusal :=
  accept (.owSpeed f) (guarded false ((setSpeed f).andThen done)) s

/-- OW_WBIT f (R106). -/
def execOwWbit (f : Bool) (s : State) : Host.Outcome State Fault Refusal :=
  accept (.owWbit f) (guarded false ((writeBit f).andThen done)) s

/-- OW_RBIT (R107): VAL is the bit. -/
def execOwRbit (s : State) : Host.Outcome State Fault Refusal :=
  accept .owRbit
    (guarded false (readBit.bind fun b => Prog.ret ⟨.ok, .noPhase, BitVec.setWidth 8 (bit b)⟩)) s

/-- OW_WRITE n, c (R108): sends `TXBUF[0..n-1]`. -/
def execOwWrite (n : Byte) (c : Bool) (s : State) : Host.Outcome State Fault Refusal :=
  accept (.owWrite n c)
    (guarded false ((loadBytes (txAddr 0) n.toNat).bind fun bytes => (writeWire bytes c).andThen done)) s

/-- What OW_READ does with the bytes that arrived (R109). -/
def storeRx (d : List Byte) : Prog Completion :=
  (storeBytes (rxAddr 0) d).andThen <|
    (Prog.setRegs fun r => { r with rxLen := BitVec.ofNat 8 d.length }).andThen <|
      Prog.ret ⟨.ok, .noPhase, BitVec.ofNat 8 d.length⟩

/-- OW_READ n (R109). -/
def execOwRead (n : Byte) (s : State) : Host.Outcome State Fault Refusal :=
  accept (.owRead n) (guarded false ((readBulk n.toNat).bind storeRx)) s

/-- OW_ROM s, d (R110). A selector that selects nothing has not passed the operand check (R74). -/
def romBody (sel : BitVec 2) (d : Bool) : Prog Completion :=
  match romSel? sel with
  | some x => (romCommand x d).andThen done
  | none => Prog.ret ⟨.badOperand, .noPhase, 0⟩

/-- OW_ROM s, d (R110). -/
def execOwRom (sel : BitVec 2) (d : Bool) (s : State) : Host.Outcome State Fault Refusal :=
  accept (.owRom sel d) (guarded false (romBody sel d)) s

end Sys2Proof.Machine
end

