-- ==== Sys2Proof/Machine/Scratchpad.lean ====
section
/-! DEFINITION. The scratchpad cycle, PG_WRITE and RG_WRITE (spec/43_scratchpad_write.md R140 to R143). -/

namespace Sys2Proof.Machine

/-- `Reset(); RomCommand(match, d, TARGET_ID)`, which opens steps 1, 4 and 6 (R141). -/
def selectTarget (d : Bool) : Prog Unit := busReset.andThen (romCommand .matchRom d)

/-- Step 3: every slice with wire-clear (R141). -/
def writeSlices : List (List Byte) → Prog Unit
  | [] => Prog.ret ()
  | sl :: rest => (writeWire sl true).andThen (writeSlices rest)

/-- Steps 1 to 3: the payload into the scratchpad (R141). -/
def fillScratchpad (off : Half) (data : List Byte) (d : Bool) : Prog Unit :=
  (setPhase .write).andThen <|
    (selectTarget d).andThen <|
      (Prog.ask fun e => e.params).bind fun p =>
        (writeWire [p.cmdWsp, offLo off, offHi off] true).andThen (writeSlices (slices p.wrChunk data))

/-- Step 4: the read-back of `n` bytes (R141). -/
def readScratchpad (n : Nat) (d : Bool) : Prog (List Byte) :=
  (setPhase .verify).andThen <|
    (selectTarget d).andThen <|
      (Prog.ask fun e => e.params).bind fun p =>
        (writeWire [p.cmdRsp] true).andThen <|
          if p.spPreamble > 0 then (readExact p.spPreamble).bind fun _ => readExact n else readExact n

/-- Step 6: the copy command (R141). -/
def copyScratchpad (off : Half) (n : Nat) (d : Bool) : Prog Unit :=
  (setPhase .write).andThen <|
    (selectTarget d).andThen <|
      (Prog.ask fun e => e.params.cmdCsp).bind fun csp =>
        writeWire [csp, offLo off, offHi off, endOff off n] true

/-- `ScratchpadCycle(off, data, d)` (R141): step 5 restarts the cycle while `ATT < RETRY_ATTEMPTS`. `fuel` bounds the
restarts and is `RETRY_ATTEMPTS`. -/
def cycleLoop (off : Half) (data : List Byte) (d : Bool) : Nat → Prog Unit
  | 0 => Prog.raise .verifyFailed
  | fuel + 1 =>
    (fillScratchpad off data d).andThen <|
      (readScratchpad data.length d).bind fun rb =>
        if rb = data then copyScratchpad off data.length d
        else
          attemptsLeft.bind fun more =>
            if more then nextAttempt.andThen (cycleLoop off data d fuel) else Prog.raise .verifyFailed

/-- `ScratchpadCycle(off, data, d)` (R141). -/
def scratchpadCycle (off : Half) (data : List Byte) (d : Bool) : Prog Unit :=
  (Prog.ask fun e => e.params.retryAttempts).bind fun n => cycleLoop off data d n

/-- The cycle of page `p` of `IMG_A` (R142, R152). -/
def writePage (p : Nat) (d : Bool) : Prog Unit :=
  (loadBytes (imgAAddr p 0) Config.pageBytes).bind fun data => scratchpadCycle (pageOff p) data d

/-- PG_WRITE p, d (R142). -/
def execPgWrite (p : Byte) (d : Bool) (s : State) : Host.Outcome State Fault Refusal :=
  accept (.pgWrite p d)
    (guarded false (firstAttempt.andThen ((setPhase .write).andThen ((writePage p.toNat d).andThen done)))) s

/-- RG_WRITE h, l, n (R143): `TXBUF[0..n-1]` at standard speed. -/
def execRgWrite (h l n : Byte) (s : State) : Host.Outcome State Fault Refusal :=
  accept (.rgWrite h l n)
    (guarded false
      (firstAttempt.andThen <|
        (setPhase .write).andThen <|
          (loadBytes (txAddr 0) n.toNat).bind fun data =>
            (scratchpadCycle (regionOff h l) data false).andThen done)) s

end Sys2Proof.Machine
end

