-- ==== Sys2Proof/Machine/MemoryOps.lean ====
section
/-! DEFINITION. MEM_READALL, MEM_WRITEALL and MEM_WRITEDIFF (spec/44_memory_ops.md R150 to R153). -/

namespace Sys2Proof.Machine

/-- Notes bytes received for `IMG_A` from host address `a` (93 U6). -/
def noteReceived (a : Nat) (bs : List Byte) : Prog Unit :=
  fun e => .ok () { e with received := e.received ++ cellsFrom a bs }

/-- `IMG_A[p][0..31] <- ReadExact(32)` (R151). The bytes of a read that is cut short are noted as received. -/
def readPage (p : Nat) : Prog Unit :=
  (Prog.setLocals fun l => l.withPage p).andThen <|
    ((readExact Config.pageBytes).catch fun c =>
      (Prog.ask fun e => e.locals.bytesRead).bind fun bs =>
        (noteReceived (imgAAddr p 0) bs).andThen (Prog.raise c)).bind fun data =>
      (noteReceived (imgAAddr p 0) data).andThen (storeBytes (imgAAddr p 0) data)

/-- The pages, in the order given (R151). -/
def readPages : List Nat → Prog Unit
  | [] => Prog.ret ()
  | p :: ps => (readPage p).andThen (readPages ps)

/-- The body of MEM_READALL (R151). -/
def readallBody (f : Bool) : Prog Completion :=
  (setPhase .read).andThen <|
    (selectTarget f).andThen <|
      (Prog.ask fun e => e.params.cmdRm).bind fun rm =>
        (writeWire [rm, 0x00#8, 0x00#8] true).andThen <|
          (readPages (List.range Config.numPages)).andThen <|
            (Prog.setRegs fun r => { r with npagesA := 256#9 }).andThen done

/-- FREE VALUE (93 U6): what the byte at `a` may be after a failed MEM_READALL: its old content, or a byte received
for it. -/
def mixCandidates (old received : Memory) (a : Nat) : List (Option Byte) :=
  old.read? a :: (received.filter fun c => c.1 = a).map fun c => some c.2

/-- FREE VALUE (93 U6): the content chosen for address `a` by draw number `n`. -/
def mixChoice (n : Nat) (old received : Memory) (a : Nat) : Option Byte :=
  let cs := mixCandidates old received a
  (cs[Config.freeChoice n a % cs.length]?).join

/-- Stores the choices for the addresses bytes were received for; a choice of "no value" lists nothing. -/
def mixInto (n : Nat) (old received : Memory) : List Nat → Memory → Memory
  | [], m => m
  | a :: as, m =>
    mixInto n old received as
      (match mixChoice n old received a with
        | some b => m.write a b
        | none => m)

/-- `IMG_A` after a MEM_READALL that ended in an error: each byte received for is a free choice between the old byte
and a byte received (R151, 93 U6). -/
def mixImage (old : Memory) : Prog Unit := fun e =>
  .ok () { e with
    regs := { e.regs with
      mem := mixInto e.regs.draws old e.received (e.received.map (·.1)) old
      draws := e.regs.draws + 1 } }

/-- MEM_READALL with its retry, and the free mix after an error completion (R151). -/
def readallCommand (f : Bool) : Prog Completion :=
  (Prog.ask fun e => e.regs.mem).bind fun old =>
    (retried (readallBody f)).bind fun c =>
      if c.err = .ok then Prog.ret c else (mixImage old).andThen (Prog.ret c)

/-- MEM_READALL f (R151). -/
def execMemReadall (f : Bool) (s : State) : Host.Outcome State Fault Refusal :=
  accept (.memReadall f) (readallCommand f) s

/-- Pages 0 to n-1 of `IMG_A`, in ascending order (R152). -/
def writePages (d : Bool) : List Nat → Prog Unit
  | [] => Prog.ret ()
  | p :: ps =>
    (Prog.setLocals fun l => l.withPage p).andThen <| (writePage p d).andThen (writePages d ps)

/-- The body of MEM_WRITEALL (R152). -/
def writeallBody (f : Bool) : Prog Completion :=
  (setPhase .write).andThen <|
    (Prog.ask fun e => e.regs.npagesA.toNat).bind fun n => (writePages f (List.range n)).andThen done

/-- MEM_WRITEALL f (R152). -/
def execMemWriteall (f : Bool) (s : State) : Host.Outcome State Fault Refusal :=
  accept (.memWriteall f) (retried (writeallBody f)) s

/-- Page `p` if it differs from the previous image in any of its 32 bytes (R153). -/
def writeIfChanged (d : Bool) (p : Nat) : Prog Unit :=
  (loadBytes (imgAAddr p 0) Config.pageBytes).bind fun new =>
    (loadBytes (imgBAddr p 0) Config.pageBytes).bind fun old =>
      if new = old then Prog.ret () else scratchpadCycle (pageOff p) new d

/-- The pages that changed, in ascending order (R153). -/
def diffPages (d : Bool) : List Nat → Prog Unit
  | [] => Prog.ret ()
  | p :: ps =>
    (Prog.setLocals fun l => l.withPage p).andThen <| (writeIfChanged d p).andThen (diffPages d ps)

/-- The body of MEM_WRITEDIFF (R153). -/
def writediffBody (f : Bool) : Prog Completion :=
  (setPhase .write).andThen <|
    (Prog.ask fun e => e.regs.npagesA.toNat).bind fun n => (diffPages f (List.range n)).andThen done

/-- MEM_WRITEDIFF f (R153); its LENGTH_MISMATCH is a usage error. -/
def execMemWritediff (f : Bool) (s : State) : Host.Outcome State Fault Refusal :=
  accept (.memWritediff f) (retried (writediffBody f)) s

end Sys2Proof.Machine
end

