-- ==== Sys2Proof/Machine/Search.lean ====
section
/-! DEFINITION. The ROM search: SRCH_FIRST, SRCH_NEXT, SRCH_ENUM (spec/42_rom_search.md R120 to R129). -/

namespace Sys2Proof.Machine

/-- One shift of the 8-bit CRC register (R121). -/
def crc8Shift (poly r : Byte) : Byte := if r.getLsbD 0 then (r >>> 1) ^^^ poly else r >>> 1

/-- One byte into the 8-bit CRC register (R121). -/
def crc8Step (poly r b : Byte) : Byte := Nat.repeat (crc8Shift poly) 8 (r ^^^ b)

/-- `Crc8(bytes)`, start value 0x00 (R121). -/
def crc8 (poly : Byte) (bytes : List Byte) : Byte := bytes.foldl (crc8Step poly) 0x00#8

/-- The "64 bit positions" in the order they are walked (R120). -/
def positions : List Nat := List.range' 1 64

/-- The direction taken at position `k` for id bit `b` and complement `c`, not both 1 (R122, R123): the id bit where
they differ; at a discrepancy the previous id's bit before `LAST_DISC`, 1 at it, 0 beyond it. -/
def direction (b c : Bool) (k lastDisc : Nat) (old : Bool) : Bool :=
  if b ≠ c then b else if k < lastDisc then old else decide (k = lastDisc)

/-- The bookmark after position `k`: every discrepancy at which 0 is taken records it (R123, conflict C3). -/
def bookmark (b c d : Bool) (k lastZero : Nat) : Nat := if b = c ∧ d = false then k else lastZero

/-- `PassFail()` (R124): returns false, the spec's `failed`. -/
def passFail : Prog Bool := (Prog.setRegs fun r => { r with lastDevice := true }).andThen (Prog.ret false)

/-- The walk over the positions left, with `last_zero` so far; `none` where both bits read 1 (R123). `last_zero` is
recorded before the direction is written. DESIGN CHOICE (log 23): after the walk, in the steps before the next pass's walk and
in the epilogue, `SEQ` keeps the last `k` and `last_zero`. -/
def walk : List Nat → Nat → Prog (Option Nat)
  | [], lz => Prog.ret (some lz)
  | k :: ks, lz =>
    (Prog.setLocals fun l => l.withWalk k lz).andThen <|
      readBit.bind fun b =>
        readBit.bind fun c =>
          if b && c then Prog.ret none
          else
            (Prog.ask fun e => direction b c k e.regs.lastDisc.toNat (romBit e.regs.romId k)).bind fun d =>
              (Prog.setLocals fun l => l.withWalk k (bookmark b c d k lz)).andThen <|
                (writeBit d).andThen <|
                  (Prog.setRegs fun r => { r with romId := setRomBit r.romId k d }).andThen <|
                    walk ks (bookmark b c d k lz)

/-- Whether the assembled id is one: CRC8 over its 8 bytes 0 and a non-zero family code (R123). -/
def validId (poly : Byte) (id : RomId) : Bool := crc8 poly (romBytes id) == 0#8 && romByte id 0 != 0#8

/-- The bookkeeping of a successful pass (R123). -/
def passFound (lz : Nat) : Prog Bool :=
  (Prog.setRegs fun r => { r with lastDisc := BitVec.ofNat 7 lz, lastDevice := decide (lz = 0) }).andThen
    (Prog.ret true)

/-- `SearchPass()` (R123): true is the spec's `found`. -/
def searchPass : Prog Bool :=
  busReset.andThen <|
    (setSpeed false).andThen <|
      (writeWire [Config.cmdSearch] true).andThen <|
        (walk positions 0).bind fun w =>
          match w with
          | none => passFail
          | some lz =>
            (Prog.ask fun e => validId e.params.crc8Poly e.regs.romId).bind fun valid =>
              if valid then passFound lz else passFail

/-- `LAST_DISC <- 0; LAST_DEVICE <- 0; ROM_ID <- zeros(8)` (R125, R127). -/
def searchInit : Prog Unit :=
  Prog.setRegs fun r => { r with lastDisc := 0#7, lastDevice := false, romId := 0#64 }

/-- One pass as a command's body (R125, R126). -/
def passBody : Prog Completion :=
  searchPass.bind fun found =>
    if found then done else Prog.ret ⟨.searchFailed, .search, 0⟩

/-- SRCH_FIRST (R125). -/
def execSrchFirst (s : State) : Host.Outcome State Fault Refusal :=
  accept .srchFirst (guarded true ((setPhase .search).andThen (searchInit.andThen passBody))) s

/-- SRCH_NEXT (R126); its NO_NEXT is a usage error. -/
def execSrchNext (s : State) : Host.Outcome State Fault Refusal :=
  accept .srchNext (guarded true ((setPhase .search).andThen passBody)) s

/-- The loop of `Enumerate` with room for `n` more ids (R127). -/
def enumLoop : Nat → List RomId → Prog (List RomId × Bool)
  | 0, ids => Prog.ret (ids, true)
  | n + 1, ids =>
    searchPass.bind fun found =>
      if found then
        (Prog.ask fun e => (e.regs.romId, e.regs.lastDevice)).bind fun r =>
          if r.2 then Prog.ret (ids ++ [r.1], false) else enumLoop n (ids ++ [r.1])
      else Prog.ret (ids, false)

/-- `Enumerate()` (R127): the ids found, and whether the table filled first. -/
def enumerate : Prog (List RomId × Bool) :=
  searchInit.andThen <| (Prog.ask fun e => e.params.maxDev).bind fun n => enumLoop n []

/-- The batch in the `DET` window: entry after entry, 8 bytes each (R41, R129). -/
def batchBytes (ids : List RomId) : List Byte := ids.flatMap romBytes

/-- `Deliver(ids, trunc)` (R129). -/
def deliver (ids : List RomId) (trunc : Bool) : Prog Unit :=
  (storeBytes (detAddr 0 0) (batchBytes ids)).andThen <|
    (Prog.setRegs fun r => { r with detCount := BitVec.ofNat 6 ids.length, detTrunc := trunc }).andThen <|
      raiseEvent evDetect

/-- SRCH_ENUM's body (R128): VAL is the number of ids delivered. -/
def enumBody : Prog Completion :=
  enumerate.bind fun r =>
    (deliver r.1 r.2).andThen (Prog.ret ⟨.ok, .noPhase, BitVec.ofNat 8 r.1.length⟩)

/-- SRCH_ENUM (R128). -/
def execSrchEnum (s : State) : Host.Outcome State Fault Refusal :=
  accept .srchEnum (guarded true ((setPhase .search).andThen enumBody)) s

/-- The body and end of a background pass (R96): delivery, or on any condition the bounded hard reset with its
result ignored, `LAST_DEVICE <- 1` and `EVENT.SRCHERR <- 1`. PassTimeout can end the enumeration only (R97). -/
def backgroundBody : Prog Unit := fun e =>
  match enumerate e with
  | .ok r e' => deliver r.1 r.2 e'
  | .raise _ e' => ((epilogue true).andThen (raiseEvent evSrchErr)) { e' with timed := false }
  | .wait op e' => .wait op e'
  | .fault f => .fault f

/-- A background pass from the step that takes the lock (R95, R96): it writes neither `RESULT` nor `EVENT.DONE`. -/
def runBackground (s : State) : Host.Outcome State Fault Refusal :=
  match backgroundBody (s.eng true) with
  | .ok _ e => .next { s.absorb e with lock := false, seq := .idle }
  | .raise _ e => .next { s.absorb e with lock := false, seq := .idle }
  | .wait op e => .next (s.suspend .background op e)
  | .fault f => .fault f

/-- Whether `BgStart` is enabled when TICK is offered (R95). -/
def bgEnabled (s : State) : Bool := s.lc = .claimed && s.searching && !s.lock

end Sys2Proof.Machine
end

