-- ==== Sys2Proof/Machine/Dispatch.lean ====
section
/-! DEFINITION. The meaning of every command at its acceptance (spec/20_memory.md R43), one arm a constructor. -/

namespace Sys2Proof.Machine

def exec (i : Instr) (s : State) : Host.Outcome State Fault Refusal :=
  match i with
  | .claim => Sys2Proof.Machine.execClaim s
  | .close => Sys2Proof.Machine.execClose s
  | .srchStart => Sys2Proof.Machine.execSrchStart s
  | .owReset => Sys2Proof.Machine.execOwReset s
  | .owSpeed f => Sys2Proof.Machine.execOwSpeed f s
  | .owWbit f => Sys2Proof.Machine.execOwWbit f s
  | .owRbit => Sys2Proof.Machine.execOwRbit s
  | .owWrite n c => Sys2Proof.Machine.execOwWrite n c s
  | .owRead n => Sys2Proof.Machine.execOwRead n s
  | .owRom sel d => Sys2Proof.Machine.execOwRom sel d s
  | .srchFirst => Sys2Proof.Machine.execSrchFirst s
  | .srchNext => Sys2Proof.Machine.execSrchNext s
  | .srchEnum => Sys2Proof.Machine.execSrchEnum s
  | .pgWrite p d => Sys2Proof.Machine.execPgWrite p d s
  | .rgWrite h l n => Sys2Proof.Machine.execRgWrite h l n s
  | .memReadall f => Sys2Proof.Machine.execMemReadall f s
  | .memWriteall f => Sys2Proof.Machine.execMemWriteall f s
  | .memWritediff f => Sys2Proof.Machine.execMemWritediff f s
  | .crc16Clr => Sys2Proof.Machine.execCrc16Clr s
  | .crc16Byte v => Sys2Proof.Machine.execCrc16Byte v s
  | .crc16Chk p => Sys2Proof.Machine.execCrc16Chk p s
  | .crc16Gen p => Sys2Proof.Machine.execCrc16Gen p s

end Sys2Proof.Machine
end

