-- ==== Sys2Proof/Machine/Port.lean ====
section
/-! DEFINITION. The host port (spec/20_memory.md R40 to R48), the acceptance of command words (R43, R63, R195), the
moves of the link environment (R95, R97), hardware reset (spec/70_reset_and_hazards.md R190), and what one move does.
Machine/Step.lean only calls `takeMove`. -/

namespace Sys2Proof.Machine

/-- The twelve registers and five buffer windows of R41. -/
inductive Place where
  | cmd
  | status
  | result
  | event
  | tgtLo
  | tgtHi
  | romLo
  | romHi
  | crc16
  | npages
  | detCnt
  | rxLen
  /-- A byte of a buffer window; `owned` is false for `DET` only (R44, R45). -/
  | buffer (writable owned : Bool)
  deriving DecidableEq, Repr

/-- The host address map of R41: a register at its own address, a buffer byte at each address of its window. -/
def placeOf (addr : Half) : Option Place :=
  let a := addr.toNat
  if a = 0x0000 then some .cmd
  else if a = 0x0004 then some .status
  else if a = 0x0008 then some .result
  else if a = 0x000C then some .event
  else if a = 0x0010 then some .tgtLo
  else if a = 0x0014 then some .tgtHi
  else if a = 0x0018 then some .romLo
  else if a = 0x001C then some .romHi
  else if a = 0x0020 then some .crc16
  else if a = 0x0024 then some .npages
  else if a = 0x0028 then some .detCnt
  else if a = 0x002C then some .rxLen
  else if 0x0100 ≤ a ∧ a ≤ 0x01FF then some (.buffer true true)
  else if 0x0200 ≤ a ∧ a ≤ 0x02FF then some (.buffer false true)
  else if 0x0400 ≤ a ∧ a ≤ 0x04FF then some (.buffer false false)
  else if 0x2000 ≤ a ∧ a ≤ 0x3FFF then some (.buffer true true)
  else if 0x4000 ≤ a ∧ a ≤ 0x5FFF then some (.buffer true true)
  else none

/-- The access width a place takes (R42). -/
def Place.width : Place → Width
  | .buffer _ _ => .byte
  | _ => .word

/-- Whether the engine owns the place while `LOCK=1` (R45); the others are accessible at any time (R44). -/
def Place.owned : Place → Bool
  | .tgtLo | .tgtHi | .romLo | .romHi | .crc16 | .npages | .rxLen => true
  | .buffer _ owned => owned
  | .cmd | .status | .result | .event | .detCnt => false

/-- Why an access to an address is refused whatever it reads or writes (R42, R45, R48); none when it is not. -/
def accessRefusal (s : State) (addr : Half) (n : Width) : Option Refusal :=
  match placeOf addr with
  | none => if n = .word ∧ addr.toNat % 4 ≠ 0 then some (.misaligned addr) else some (.unmapped addr)
  | some pl =>
    if n = .word ∧ addr.toNat % 4 ≠ 0 then some (.misaligned addr)
    else if n ≠ pl.width then some (.accessWidth addr)
    else if pl = .buffer false false ∧ s.params.maxDev ≤ (addr.toNat - 0x0400) / 8 then
      some (.detBeyond ((addr.toNat - 0x0400) / 8))
    else if s.lock && pl.owned then some (.engineOwned addr)
    else none

/-- The `NPAGES` register: `NPAGES_A` in 8:0, `NPAGES_B` in 24:16 (R41). -/
def npagesWord (s : State) : Word := 0#7 ++ s.npagesB ++ 0#7 ++ s.npagesA

/-- The value of a register, its unused bits 0 (R41, R183). -/
def registerValue (s : State) : Place → Option Word
  | .cmd => none
  | .status => some (statusWord s)
  | .result => some s.result
  | .event => some s.event
  | .tgtLo => some (s.targetId.extractLsb' 0 32)
  | .tgtHi => some (s.targetId.extractLsb' 32 32)
  | .romLo => some (s.romId.extractLsb' 0 32)
  | .romHi => some (s.romId.extractLsb' 32 32)
  | .crc16 => some (s.crc16.setWidth 32)
  | .npages => some (npagesWord s)
  | .detCnt => some (s.detCount.setWidth 32)
  | .rxLen => some (s.rxLen.setWidth 32)
  | .buffer _ _ => none

/-- `MemRead(host, addr, n)` (R40 to R48): the value is left in `hostRead`; no read has a side effect (R47). -/
def hostMemRead (addr : Half) (n : Width) (s : State) : Host.Outcome State Fault Refusal :=
  match accessRefusal s addr n with
  | some r => .refused r
  | none =>
    match placeOf addr with
    | none => .refused (.unmapped addr)
    | some (.buffer _ _) =>
      match s.mem.read? addr.toNat with
      | some b => .next { s with hostRead := some (b.setWidth 32) }
      | none => .fault (.unwritten addr.toNat)
    | some pl =>
      match registerValue s pl with
      | some v => .next { s with hostRead := some v }
      | none => .refused (.writeOnly addr)

/-- A word no row of the table matches, at acceptance: ILLEGAL_CMD, nothing else changed (R74, R175). -/
def acceptIllegal (w : Word) (s : State) : Host.Outcome State Fault Refusal :=
  completeNow (opcField w) ⟨.illegalCmd, .noPhase, 0⟩ s

/-- Runs `f` with the moves `ms` alone at the link port; `rest` is still to come after it. A step hands the sequencer
at most one answer, so that it advances by one link operation (R28, log 3). -/
def offer (ms rest : List Move) (f : State → Host.Outcome State Fault Refusal) (s : State) :
    Host.Outcome State Fault Refusal :=
  match f { s with inputs := ms } with
  | .next t => .next { t with inputs := t.inputs ++ rest }
  | .fault x => .fault x
  | .refused x => .refused x

/-- Acceptance of a command word with `LOCK=0` (R43): a command that uses the link is then at its first link
operation. -/
def acceptWord (w : Word) (s : State) : Host.Outcome State Fault Refusal :=
  match decode w with
  | some i => offer [] s.inputs (exec i) s
  | none => acceptIllegal w s

/-- A host write of a word to CMD (R43, R92, R195): CLOSE's part 1 acts at the write; the word is accepted when the
lock is free and no word is held before it, held when nothing else is held or it is CLOSE's, and refused otherwise. -/
def writeCmd (w : Word) (s : State) : Host.Outcome State Fault Refusal :=
  let isClose := decode w = some .close
  let s := if isClose then closeAtWrite s else s
  if !s.lock ∧ s.port = [] then acceptWord w s
  else if s.port = [] ∨ isClose then .next { s with port := s.port ++ [w] }
  else .refused (.wordHeld w)

/-- A page count as written: a field over 256 leaves the register unchanged (R48). -/
def npagesField (old new : BitVec 9) : BitVec 9 := if new.toNat ≤ 256 then new else old

/-- A host write of a register's value (R41, R47); none where it is read only. CMD is `writeCmd`'s. -/
def writeRegister (s : State) (v : Word) : Place → Option State
  | .event => some { s with event := clearFlags s.event v }
  | .tgtLo => some { s with targetId := s.targetId.extractLsb' 32 32 ++ v }
  | .tgtHi => some { s with targetId := v ++ s.targetId.extractLsb' 0 32 }
  | .crc16 => some { s with crc16 := v.extractLsb' 0 16 }
  | .npages =>
    some { s with
      npagesA := npagesField s.npagesA (v.extractLsb' 0 9)
      npagesB := npagesField s.npagesB (v.extractLsb' 16 9) }
  | .cmd | .status | .result | .romLo | .romHi | .detCnt | .rxLen | .buffer _ _ => none

/-- `MemWrite(host, addr, n, v)` (R40 to R48). -/
def hostMemWrite (addr : Half) (n : Width) (v : Word) (s : State) : Host.Outcome State Fault Refusal :=
  match accessRefusal s addr n with
  | some r => .refused r
  | none =>
    match placeOf addr with
    | none => .refused (.unmapped addr)
    | some .cmd => writeCmd v s
    | some (.buffer true _) => .next { s with mem := s.mem.write addr.toNat (v.extractLsb' 0 8) }
    | some pl =>
      match writeRegister s v pl with
      | some t => .next t
      | none => .refused (.readOnly addr)

/-- The arbiter's move: the oldest held word is accepted if the lock is free (R43, R63). -/
def acceptHeld (s : State) : Host.Outcome State Fault Refusal :=
  match s.lock, s.port with
  | false, w :: rest => acceptWord w { s with port := rest }
  | _, _ => .next s

/-- What a job runs: the command's meaning, or the background pass. -/
def Job.run : Job → State → Host.Outcome State Fault Refusal
  | .command i => exec i
  | .background => runBackground

/-- The state a job in progress started from, as far as the job sees it: the registers at its entry, the sequencer
idle, the lock free. -/
def State.rewind (s : State) (entry : Regs) : State := { s with toRegs := entry, seq := .idle, lock := false }

/-- An answer or a PassTimeout from the environment: it goes to the waiting link operation, and the job goes on to its
next one (R28, R61, log 3); with none waiting it changes nothing. -/
def answerMove (m : Move) (s : State) : Host.Outcome State Fault Refusal :=
  match s.seq with
  | .idle => .next s
  | .busy job _ _ entry got => offer (got ++ [m]) s.inputs job.run (s.rewind entry)

/-- TICK: `BgStart` where it is enabled (R95); elsewhere it changes nothing. -/
def tickMove (s : State) : Host.Outcome State Fault Refusal :=
  if bgEnabled s then offer [] s.inputs runBackground s else .next s

/-- Hardware reset (R190): every piece of the engine's state to its reset value, the command in progress and the held
words dropped, no link operation issued. The parameters, the moves to come and the model's own records stay. -/
def hardwareReset (s : State) : State :=
  { State.reset with
    params := s.params
    inputs := s.inputs
    issued := s.issued
    draws := s.draws
    hostRead := s.hostRead }

/-- One move (R8), taken off the front of `inputs` already. -/
def applyMove (m : Move) (s : State) : Host.Outcome State Fault Refusal :=
  match m with
  | .read addr n => hostMemRead addr n s
  | .write addr n v => hostMemWrite addr n v s
  | .accept => acceptHeld s
  | .reply r => answerMove (.reply r) s
  | .tick => tickMove s
  | .passTimeout => answerMove .passTimeout s
  | .hardwareReset => .next (hardwareReset s)

/-- One step of the machine: the next move; with none to come, a held word is accepted as soon as the lock is free,
and otherwise the machine waits (R43, R63, R190). -/
def takeMove (s : State) : Host.Outcome State Fault Refusal :=
  match s.inputs with
  | [] => acceptHeld s
  | m :: rest => applyMove m { s with inputs := rest }

/-- The host's write of a command word to CMD (R43), as a move. -/
def cmdMove (w : Word) : Move := .write 0x0000#16 .word w

end Sys2Proof.Machine
end

