-- ==== Sys2Proof/Machine/Step.lean ====
section
/-! DEFINITION. One step, and how the host places one command word (log 4). -/

namespace Sys2Proof.Machine

/-- One step: the next move of an agent (R8, Machine/Port.lean). -/
def step (s : State) : Host.Outcome State Fault Refusal := takeMove s

/-- `s` with one command word as the host's very next write to CMD, where the engine accepts it at once: no command
in progress, the lock free, no word held (R43). -/
def State.withFetchWord (s : State) (nbits w : Nat) : State :=
  { s with
    lock := false
    seq := .idle
    port := []
    inputs := cmdMove (BitVec.ofNat 32 (w % 2 ^ nbits)) :: s.inputs }

end Sys2Proof.Machine
end

