-- ==== Sys2Proof/Safety.lean ====
section
/-! DEFINITION. The terms claims are stated in: the invariant of the machine, safe steps, and the scripts of an
environment that answers the link operations of a command. -/

namespace Sys2Proof.Machine

/-! ## The invariant -/

/-- A host address of a buffer window; of the `DET` window only the entries below MAXDEV exist (R41, R48). -/
def bufferAddr (p : Params) (a : Nat) : Bool :=
  (0x0100 ≤ a && a ≤ 0x02FF) || (0x0400 ≤ a && a < 0x0400 + 8 * p.maxDev) || (0x2000 ≤ a && a ≤ 0x5FFF)

/-- What every reachable register file satisfies: canonical buffers inside their windows, the ranges of R17, R20, R23
and R24, and the reserved parts and codes of `RESULT` (R25, R171, R174). -/
structure Regs.Inv (p : Params) (r : Regs) : Prop where
  /-- The canonical form of memory. -/
  memWf : r.mem.wf
  /-- Only buffer bytes are listed. -/
  memIn : ∀ c ∈ r.mem, bufferAddr p c.1 = true
  /-- `ATT` never exceeds RETRY_ATTEMPTS (R20). -/
  att : r.att.toNat ≤ p.retryAttempts
  /-- `LAST_DISC` is 0 to 64 (R17). -/
  lastDisc : r.lastDisc.toNat ≤ 64
  /-- `NPAGES_A` is 0 to 256 (R23). -/
  npagesA : r.npagesA.toNat ≤ 256
  /-- `NPAGES_B` is 0 to 256 (R23). -/
  npagesB : r.npagesB.toNat ≤ 256
  /-- `DET_COUNT` is 0 to MAXDEV (R24). -/
  detCount : r.detCount.toNat ≤ p.maxDev
  /-- `RESULT` bits 7 and 23:16 read 0 (R25). -/
  resultZero : r.result.getLsbD 7 = false ∧ r.result.extractLsb' 16 8 = 0#8
  /-- ERR 11 to 15 and PHASE 6 and 7 are never written (R171, R174). -/
  resultCodes : (resultErr r.result).toNat ≤ 10 ∧ (resultPhase r.result).toNat ≤ 5
  /-- If ERR is OK the phase is `none` (R170). -/
  resultOk : resultErr r.result = 0#4 → resultPhase r.result = 0#3

/-- Whether the job could have started from these registers: a command where it is legal (R90), a pass in `Claimed`
(R95). -/
def Job.startable (job : Job) (entry : Regs) : Bool :=
  match job with
  | .command i => legalIn i entry.lc
  | .background => entry.lc = .claimed

/-- What holds while a job is in progress: it started from registers that satisfied the invariant, in a lifecycle
state that allows it, and nothing it may suspend in has changed `LC`, `TARGET_ID`, `CRC16`, `NPAGES_B` or `RESULT`
since. -/
def Seq.Inv (p : Params) (r : Regs) : Seq → Prop
  | .idle => True
  | .busy job _ _ entry _ =>
    entry.Inv p ∧ job.startable entry = true ∧ r.lc = entry.lc ∧ r.targetId = entry.targetId ∧
      r.crc16 = entry.crc16 ∧ r.npagesB = entry.npagesB ∧ r.result = entry.result

/-- The invariant of the machine. -/
structure State.Inv (s : State) : Prop where
  /-- The parameters are in R6's ranges. -/
  params : s.params.wf
  /-- The registers. -/
  regs : s.toRegs.Inv s.params
  /-- The sequencer. -/
  seqInv : s.seq.Inv s.params s.toRegs
  /-- `LOCK=1` exactly while a command or pass is in progress (R12). -/
  lock : s.lock = true ↔ s.seq ≠ .idle
  /-- `EVENT` bits 31:3 read 0 (R26). -/
  event : s.event.extractLsb' 3 29 = 0#29
  /-- Every word held behind another is CLOSE's (R195). -/
  port : ∀ w ∈ s.port.tail, decode w = some .close

/-! ## Safe steps -/

/-- The step completes: neither a read of a byte that holds no value nor a host access without a meaning. -/
def SafeStep (s : State) : Prop := ∃ t, step s = .next t

/-- A host access: the only moves that can be refused (R42, R45, R48, R195). -/
def Move.isAccess : Move → Bool
  | .read _ _ => true
  | .write _ _ _ => true
  | .accept | .reply _ | .tick | .passTimeout | .hardwareReset => false

/-! ## Completion -/

/-- `s` after a command that completed with result word `r`: `RESULT`, `EVENT.DONE`, `LOCK` and `SEQ` as R170 says,
everything else as in `s`. -/
def State.completed (s : State) (r : Word) : State :=
  { s with result := r, event := s.event ||| 1#32, lock := false, seq := .idle }

/-- `s` with the registers `f` changes, `ops` issued on the link, and `rest` of the moves still to come. -/
def State.ran (s : State) (ops : List LinkOp) (rest : List Move) : State :=
  { s with issued := s.issued ++ ops, inputs := rest }

/-! ## Acceptance -/

/-- The three ways in which a step accepts the command word `w`, with the state in which it is accepted: the host writes it to
CMD with no word held, CLOSE's part 1 acting at the write (R43, R92); the arbiter takes the oldest word held (R63); and so does
the machine when no move is to come (log 1). -/
inductive Accepts (s : State) (w : Word) : State → Prop where
  | written (rest : List Move) : s.port = [] → s.inputs = cmdMove w :: rest →
      Accepts s w { s with inputs := rest, searching := if decode w = some .close then false else s.searching }
  | arbitrated (ws : List Word) (rest : List Move) : s.port = w :: ws → s.inputs = .accept :: rest →
      Accepts s w { s with inputs := rest, port := ws }
  | drained (ws : List Word) : s.port = w :: ws → s.inputs = [] → Accepts s w { s with port := ws }

/-! ## Environments -/

/-- An `ok` answer with `busy = 0`, whatever data it carries. -/
def Move.isAck : Move → Bool
  | .reply (.ok _ busy) => !busy
  | _ => false

/-- `n` such answers. -/
def Acks (n : Nat) (ms : List Move) : Prop := ms.length = n ∧ ∀ m ∈ ms, m.isAck = true

/-- An `ok` answer of `In` that carries these bytes. -/
def bytesReply (bs : List Byte) : Move := .reply (.ok bs false)

/-- An `ok` answer of `Stat`. -/
def busyReply (b : Bool) : Move := .reply (.ok [] b)

/-- An answer that is not `ok` (R60). -/
def Reply.failed : Reply → Bool
  | .ok _ _ => false
  | .fail => true
  | .timeout => true

/-- `n` bytes arrive at `ReadExact` in these pieces: none is empty or longer than RD_CHUNK, and together they are `n` bytes,
so that none is longer than what is still wanted (R55, R111). -/
def Arrive (p : Params) (n : Nat) (pieces : List (List Byte)) : Prop :=
  pieces.flatten.length = n ∧ ∀ d ∈ pieces, d ≠ [] ∧ d.length ≤ p.rdChunk

/-- The answers that carry the pieces. -/
def readReplies (pieces : List (List Byte)) : List Move := pieces.map bytesReply

/-- The link operations `ReadExact` issues as the pieces arrive: each asks for RD_CHUNK bytes or for what is still wanted
(R111). -/
def readOps (chunk : Nat) : List (List Byte) → List LinkOp
  | [] => []
  | d :: ds => .bulkIn (min chunk (d :: ds).flatten.length) :: readOps chunk ds

/-- The answers to one position of a search walk: the id bit `bc.1`, its complement `bc.2`, the direction written
(R107, R123). -/
def positionReplies (bc : Bool × Bool) : List Move :=
  [bytesReply [], bytesReply [BitVec.setWidth 8 (bit bc.1)], bytesReply [], bytesReply [BitVec.setWidth 8 (bit bc.2)],
    bytesReply []]

/-- The link operations of `Write(bytes, 1)` (R108). -/
def writeOps (bytes : List Byte) : List LinkOp :=
  [.bulkOut bytes, .ctl (.count bytes.length), .bulkIn bytes.length]

/-- The link operations of `Reset(); RomCommand(match, d, TARGET_ID)` answered at once (R104, R110). -/
def selectOps (p : Params) (id : RomId) (d : Bool) : List LinkOp :=
  [.ctl .reset, .stat, .ctl (.rom (romx p .matchRom d)), .ctl (.speed d), .bulkOut (romBytes id)]

/-- The link operations of steps 1 to 3 of a scratchpad cycle (R141). -/
def fillOps (p : Params) (id : RomId) (off : Half) (data : List Byte) (d : Bool) : List LinkOp :=
  selectOps p id d ++ writeOps [p.cmdWsp, offLo off, offHi off] ++ (slices p.wrChunk data).flatMap writeOps

/-- The link operations of step 4 (R141), a preamble and the read-back arriving in these pieces. -/
def verifyOps (p : Params) (id : RomId) (preamble back : List (List Byte)) (d : Bool) : List LinkOp :=
  selectOps p id d ++ writeOps [p.cmdRsp] ++ readOps p.rdChunk preamble ++ readOps p.rdChunk back

/-- The link operations of step 6 (R141). -/
def copyOps (p : Params) (id : RomId) (off : Half) (n : Nat) (d : Bool) : List LinkOp :=
  selectOps p id d ++ writeOps [p.cmdCsp, offLo off, offHi off, endOff off n]

/-- The link operations of a scratchpad cycle whose read-back matches: the payload is what the pieces of `back` make up
(R141). -/
def cycleOps (p : Params) (id : RomId) (off : Half) (preamble back : List (List Byte)) (d : Bool) : List LinkOp :=
  fillOps p id off back.flatten d ++ verifyOps p id preamble back d ++ copyOps p id off back.flatten.length d

/-- The buffer bytes from host address `a` are `bs`. -/
def HoldsBytes (m : Memory) (a : Nat) (bs : List Byte) : Prop := ∀ i < bs.length, m.read? (a + i) = bs[i]?

/-- `n` answers of HardReset that the bounded retry tries again (R103). -/
def timeouts (n : Nat) : List Move := List.replicate n (.reply .timeout)

/-- `n` answers of Stat that read busy (R102). -/
def busyPolls (n : Nat) : List Move := List.replicate n (busyReply true)

/-- Answers under which steps 1 to 4 run once, a preamble and the read-back arriving in these pieces. -/
def AttemptReplies (p : Params) (preamble : List (List Byte)) (data : List Byte) (back : List (List Byte))
    (ms : List Move) : Prop :=
  Arrive p p.spPreamble preamble ∧ Arrive p data.length back ∧ ∃ fill sel,
    Acks (8 + 3 * (slices p.wrChunk data).length) fill ∧ Acks 8 sel ∧
      ms = fill ++ sel ++ readReplies preamble ++ readReplies back

/-- Answers under which a scratchpad cycle succeeds at its first attempt: the payload is what the pieces of `back` make up
(R141). -/
def CycleReplies (p : Params) (preamble back : List (List Byte)) (ms : List Move) : Prop :=
  ∃ att copy, AttemptReplies p preamble back.flatten back att ∧ Acks 8 copy ∧ ms = att ++ copy

/-- An attempt of a scratchpad cycle whose read-back differs from the payload: the pieces in which the preamble and the
bytes read arrive. -/
structure Mismatch where
  /-- SP_PREAMBLE bytes. -/
  preamble : List (List Byte)
  /-- The bytes read back. -/
  back : List (List Byte)
  deriving DecidableEq, Repr

/-- Answers under which the attempts of the list read back, in order, something else than `data` (R141 step 5). -/
def MismatchReplies (p : Params) (data : List Byte) : List Mismatch → List Move → Prop
  | [], ms => ms = []
  | x :: xs, ms =>
    ∃ a b, x.back.flatten ≠ data ∧ AttemptReplies p x.preamble data x.back a ∧ MismatchReplies p data xs b ∧ ms = a ++ b

/-- The link operations of those attempts: steps 1 to 4, no copy command (R144). -/
def mismatchOps (p : Params) (id : RomId) (off : Half) (data : List Byte) (d : Bool) (xs : List Mismatch) :
    List LinkOp :=
  xs.flatMap fun x => fillOps p id off data d ++ verifyOps p id x.preamble x.back d

/-- A page cycle to come: its page, the attempts whose read-back differs, the pieces in which the preamble and the matching
read-back arrive. -/
structure PageJob where
  /-- The page index. -/
  page : Nat
  /-- The attempts before the one that matches. -/
  misses : List Mismatch
  /-- SP_PREAMBLE bytes. -/
  preamble : List (List Byte)
  /-- The 32 bytes of the page. -/
  back : List (List Byte)
  deriving DecidableEq, Repr

/-- The payload of a page cycle: what its matching read-back reads. -/
def PageJob.data (j : PageJob) : List Byte := j.back.flatten

/-- Answers under which every page cycle of the list succeeds after its mismatches. -/
def PageReplies (p : Params) : List PageJob → List Move → Prop
  | [], ms => ms = []
  | j :: js, ms =>
    ∃ a b c, MismatchReplies p j.data j.misses a ∧ CycleReplies p j.preamble j.back b ∧ PageReplies p js c ∧
      ms = a ++ b ++ c

/-- The link operations of those cycles: page `k` at chip address `32*k` (R152, R153). -/
def pagesOps (p : Params) (id : RomId) (d : Bool) (js : List PageJob) : List LinkOp :=
  js.flatMap fun j =>
    mismatchOps p id (pageOff j.page) j.data d j.misses ++ cycleOps p id (pageOff j.page) j.preamble j.back d

/-- How many of their attempts read back something else: each draws one from the command's `ATT` (R173). -/
def missesOf (js : List PageJob) : Nat := (js.map fun j => j.misses.length).sum

/-- The link operations between the last two bus resets of `ops`, and those after the last. -/
def lastResets (ops : List LinkOp) : List LinkOp × List LinkOp :=
  ops.foldl (fun w op => if op = .ctl .reset then (w.2, []) else (w.1, w.2 ++ [op])) ([], [])

/-- How many bytes an `Out` sends. -/
def LinkOp.outLength : LinkOp → Option Nat
  | .bulkOut bytes => some bytes.length
  | _ => none

/-- An `In`. -/
def LinkOp.isIn : LinkOp → Bool
  | .bulkIn _ => true
  | _ => false

/-- These operations after a bus reset are steps 1 to 3 of a scratchpad cycle, whole: the second `Out`, after the chip's id, is
the write command with its two offset bytes, and the last write is drained. Steps that a condition cuts short end with the
epilogue's hard reset; steps 4 and 6 send a command of one byte and of four (R141, R172). -/
def filledScratchpad (ops : List LinkOp) : Bool :=
  (ops.filterMap LinkOp.outLength)[1]? == some 3 && ops.getLast?.any LinkOp.isIn

/-- The phase of a writing command whose last link operations are `ops`: `verify` from the bus reset of step 4 until the next
one, `write` otherwise (R141, R174). -/
def cyclePhase (ops : List LinkOp) : Phase := if filledScratchpad (lastResets ops).1 then .verify else .write

/-- The link operations before the walk of a search pass (R123 step 1). -/
def searchOps : List LinkOp := [.ctl .reset, .stat, .ctl (.speed false)] ++ writeOps [Config.cmdSearch]

/-- The link operations of one position of the walk at which direction `d` is taken (R123). -/
def positionOps (d : Bool) : List LinkOp := [.ctl .rbit, .bulkIn 1, .ctl .rbit, .bulkIn 1, .ctl (.wbit d)]

/-- The link operations of a whole walk that assembles `id` (R123). -/
def walkOps (id : RomId) : List LinkOp := positions.flatMap fun k => positionOps (romBit id k)

/-- Position `k` of a pass is a discrepancy at which 0 was taken (R122, R123). -/
def ZeroTaken (bits : List (Bool × Bool)) (id : RomId) (k : Nat) : Prop :=
  1 ≤ k ∧ bits[k - 1]? = some (false, false) ∧ romBit id k = false

/-- `lz` is the last-zero bookmark of a pass that read `bits` and assembled `id` (R123, conflict C3). -/
def LastZero (bits : List (Bool × Bool)) (id : RomId) (lz : Nat) : Prop :=
  (lz = 0 ∨ ZeroTaken bits id lz) ∧ ∀ k, lz < k → ¬ZeroTaken bits id k

/-! ## Failures, environments that answer a whole batch, bytes received -/

/-- How the bounded hard reset ends (R103): whether it is answered `ok`, its answers, the link operations they answer. -/
inductive HardResetEnds (p : Params) : Bool → List Move → List LinkOp → Prop where
  /-- `ok` after `n` timeouts. -/
  | ok (n : Nat) (a : List Move) : n < p.hrAttempts → Acks 1 a →
      HardResetEnds p true (timeouts n ++ a) (List.replicate (n + 1) .hardReset)
  /-- `fail` after `n` timeouts. -/
  | fail (n : Nat) : n < p.hrAttempts →
      HardResetEnds p false (timeouts n ++ [.reply .fail]) (List.replicate (n + 1) .hardReset)
  /-- A timeout at every attempt. -/
  | timeouts : HardResetEnds p false (timeouts p.hrAttempts) (List.replicate p.hrAttempts .hardReset)

/-- How a command or pass that waits at link operation `op`, the one before it having been `prev`, comes to a condition
(R60, R102 to R104, R107, R111): the condition, whether a hard reset answered `ok` clears `SPD_VALID` on the way, the
answers that bring it about and the link operations they answer. -/
inductive Breaks (p : Params) (prev : Option LinkOp) (op : LinkOp) :
    Cond → Bool → List Move → List LinkOp → Prop where
  /-- A transfer is not answered `ok`; the reset command is no such transfer, Reset() has an answer to its failure. -/
  | transfer (r : Reply) : op ≠ .ctl .reset → op ≠ .hardReset → op ≠ .claim → op ≠ .release → r.failed = true →
      Breaks p prev op .transportError false [.reply r] [op]
  /-- ReadBit or ReadExact is answered `ok` without a byte. ReadBit's `In` follows its `Ctl(RBIT)`, and ReadExact's another
  `In`, the drain of the `Write` before it or its own; a drain follows `Ctl(COUNT)`, OW_READ's `In` is its first operation. -/
  | empty (n : Nat) (b : Bool) : op = .bulkIn n → (prev = some (.ctl .rbit) ∨ ∃ k, prev = some (.bulkIn k)) →
      Breaks p prev op .transportError false [.reply (.ok [] b)] [op]
  /-- Reset(): the reset command is not answered `ok` and the hard reset does not succeed. -/
  | noReset (r : Reply) (hm : List Move) (hops : List LinkOp) : op = .ctl .reset → r.failed = true →
      HardResetEnds p false hm hops → Breaks p prev op .transportError false (.reply r :: hm) (.ctl .reset :: hops)
  /-- Reset(): the busy indicator does not clear within POLL_LIMIT polls. -/
  | busy (a : List Move) : op = .ctl .reset → Acks 1 a →
      Breaks p prev op .busBusy false (a ++ busyPolls p.pollLimit) (.ctl .reset :: List.replicate p.pollLimit .stat)
  /-- The same after the hard reset that answers a failed reset command. -/
  | busyAfterHardReset (r : Reply) (hm : List Move) (hops : List LinkOp) : op = .ctl .reset → r.failed = true →
      HardResetEnds p true hm hops → Breaks p prev op .busBusy true (.reply r :: hm ++ busyPolls p.pollLimit)
        (.ctl .reset :: hops ++ List.replicate p.pollLimit .stat)

/-- A search pass answered at once: the answers before its walk, the bits read, the id assembled, the bookmark left. -/
structure Pass where
  /-- The six answers before the walk. -/
  start : List Move
  /-- The id bit and its complement at each position. -/
  bits : List (Bool × Bool)
  /-- The id assembled. -/
  id : RomId
  /-- `last_zero` at its end. -/
  zero : Nat
  deriving DecidableEq, Repr

/-- The answers of a pass. -/
def Pass.replies (x : Pass) : List Move := x.start ++ x.bits.flatMap positionReplies

/-- The link operations of a pass. -/
def Pass.ops (x : Pass) : List LinkOp := searchOps ++ walkOps x.id

/-- `x` is a pass that is found, from `ROM_ID = old` and `LAST_DISC = ld` (R122, R123). -/
structure Pass.FoundFrom (p : Params) (old : RomId) (ld : Nat) (x : Pass) : Prop where
  /-- Everything before the walk is answered `ok`. -/
  start : Acks 6 x.start
  /-- There are 64 positions. -/
  length : x.bits.length = 64
  /-- Some chip answers at each. -/
  answered : ∀ bc ∈ x.bits, bc ≠ (true, true)
  /-- The direction rule. -/
  bit : ∀ k bc, 1 ≤ k → x.bits[k - 1]? = some bc → romBit x.id k =
    if bc.1 ≠ bc.2 then bc.1 else if k < ld then romBit old k else decide (k = ld)
  /-- The id validates. -/
  valid : validId p.crc8Poly x.id = true
  /-- The bookmark. -/
  zero : LastZero x.bits x.id x.zero

/-- Passes that follow one another, each from the id and the bookmark of the one before (R126, R127). -/
def FoundPasses (p : Params) : RomId → Nat → List Pass → Prop
  | _, _, [] => True
  | old, ld, x :: xs => x.FoundFrom p old ld ∧ FoundPasses p x.id x.zero xs

/-- The id that a pass which reads `bits` assembles from `ROM_ID = old` and `LAST_DISC = ld`: at each position read the
direction taken, beyond them the bit `ROM_ID` held (R122, R123). -/
def Assembles (old : RomId) (ld : Nat) (bits : List (Bool × Bool)) (id : RomId) : Prop :=
  ∀ k, 1 ≤ k → k ≤ 64 → romBit id k =
    match bits[k - 1]? with
    | some bc => if bc.1 ≠ bc.2 then bc.1 else if k < ld then romBit old k else decide (k = ld)
    | none => romBit old k

/-- A search pass that fails, from `ROM_ID = old` and `LAST_DISC = ld` (R122 to R124): its answers, its link operations and
the `ROM_ID` it leaves. -/
inductive FailedPass (p : Params) (old : RomId) (ld : Nat) : List Move → List LinkOp → RomId → Prop where
  /-- Two ones at the position after `bits`: no direction is written there. -/
  | noResponder (start : List Move) (bits : List (Bool × Bool)) (id : RomId) : Acks 6 start → bits.length < 64 →
      (∀ bc ∈ bits, bc ≠ (true, true)) → Assembles old ld bits id →
      FailedPass p old ld (start ++ bits.flatMap positionReplies ++ (positionReplies (true, true)).take 4)
        (searchOps ++ ((positions.take bits.length).flatMap fun k => positionOps (romBit id k)) ++
          [.ctl .rbit, .bulkIn 1, .ctl .rbit, .bulkIn 1]) id
  /-- Every position is answered and the id does not validate. -/
  | invalid (start : List Move) (bits : List (Bool × Bool)) (id : RomId) : Acks 6 start → bits.length = 64 →
      (∀ bc ∈ bits, bc ≠ (true, true)) → Assembles old ld bits id → validId p.crc8Poly id = false →
      FailedPass p old ld (start ++ bits.flatMap positionReplies) (searchOps ++ walkOps id) id

/-- The bytes MEM_READALL receives for `IMG_A`, with their host addresses, in the operations `zs` with their answers
(R151): after a bus reset the first bulk-in drains the command echo, and the bytes of the others are the chip's from
address 0 on; `pos` is the host address of the next byte, none before the drain. -/
def receivedFor : Option Nat → List (LinkOp × Reply) → Memory
  | _, [] => []
  | _, (.ctl .reset, _) :: zs => receivedFor none zs
  | none, (.bulkIn _, .ok _ _) :: zs => receivedFor (some 0x2000) zs
  | some a, (.bulkIn n, .ok d _) :: zs =>
    cellsFrom a (d.take n) ++ receivedFor (some (a + (d.take n).length)) zs
  | pos, _ :: zs => receivedFor pos zs

end Sys2Proof.Machine
end

