-- ==== Sys2Proof/Certificates/Slice0/Obligations.lean ====
section
/-! DEFINITION. The statements for the provers, each over the model alone. -/

open Sys2Proof Sys2Proof.Machine

/-! ## Encoding -/

/-- Every command, with every operand value its format has bits for, is what its word decodes to (R71 to R73). -/
def Obligations.DecodeEncodeRoundTrip : Prop :=
  ∀ i : Instr, decode (encode i) = some i

/-- A word that decodes is the encoding of what it decodes to: no bit of it is dropped (R70: unused bits are 0). -/
def Obligations.DecodedWordIsItsEncoding : Prop :=
  ∀ (w : Word) (i : Instr), decode w = some i → encode i = w

/-- R75: a word is row `r`'s command iff `(w and r.mask) = r.match`, and no two rows match one word. -/
def Obligations.DecoderIsTheOpcodeTable : Prop :=
  (∀ (w : Word) (r : Row), r ∈ opcodeRows → (r.matches w = true ↔ ∃ i, decode w = some i ∧ i.row = r)) ∧
  (∀ (w : Word) (i : Instr), decode w = some i → i.row ∈ opcodeRows) ∧
  (∀ (w : Word) (r r' : Row), r ∈ opcodeRows → r' ∈ opcodeRows → r.matches w = true → r'.matches w = true → r = r')

/-- Words written out from R73 and the vector V7 decode to the commands they stand for. -/
def Obligations.SampleWordsDecode : Prop :=
  decode 0x01000000#32 = some .claim ∧ decode 0x14030001#32 = some (.owWrite 3 true) ∧
  decode 0x15040000#32 = some (.owRead 4) ∧ decode 0x16000201#32 = some (.owRom 2 true) ∧
  decode 0x30FF0001#32 = some (.pgWrite 255 true) ∧ decode 0x31020004#32 = some (.rgWrite 2 0 4) ∧
  decode 0x3A000001#32 = some (.memWritediff true) ∧ decode 0x410000A5#32 = some (.crc16Byte 0xA5) ∧
  decode 0x14030002#32 = none ∧ decode 0x16000400#32 = none ∧ decode 0x42030001#32 = none ∧
  decode 0x00000000#32 = none

/-! ## One step: command words and the lock -/

/-- R43, R63, R92: with the lock free, a step that accepts a word runs the decoded command, in each of the three ways a word is
accepted (`Accepts`). The command has no answer yet, so it completes or comes to its first link operation, and the moves to
come stay (`offer`). -/
def Obligations.StepRunsDecodedCommand : Prop :=
  ∀ (s s' : State) (w : Word) (i : Instr), s.lock = false → decode w = some i → Accepts s w s' →
    step s = offer [] s'.inputs (exec i) s'

/-- R43, R62, R92, R195: while `LOCK=1`, or while a word is held, a command word is not accepted: with none held it is held,
a CLOSE is queued behind the words held and replaces none, its part 1 acting at the write, and any other word written
while one is held is refused. Nothing else happens. While `LOCK=1` the words held stay held: the arbiter's move changes
nothing, nor does a step with no move to come, and no step but hardware reset takes a word from the port. -/
def Obligations.CommandWordsAreHeld : Prop :=
  ∀ s : State,
    (∀ (w : Word) (rest : List Move), s.lock = true ∨ s.port ≠ [] → s.inputs = cmdMove w :: rest →
      (decode w = some .close →
        step s = .next { s with inputs := rest, searching := false, port := s.port ++ [w] }) ∧
      (decode w ≠ some .close → s.port = [] → step s = .next { s with inputs := rest, port := [w] }) ∧
      (decode w ≠ some .close → s.port ≠ [] → step s = .refused (.wordHeld w))) ∧
    (s.lock = true →
      (∀ rest, s.inputs = .accept :: rest → step s = .next { s with inputs := rest }) ∧
      (s.inputs = [] → step s = .next s) ∧
      ∀ t, step s = .next t → s.inputs.head? ≠ some .hardwareReset → ∃ ws, t.port = s.port ++ ws)

/-- R28, R61: a command or pass advances one link operation a step. Where it waits after the answers `ms`, a step takes
one more answer and runs it on to its next link operation, as it would have run on both. So the steps that take its
acceptance, or TICK, and then the answers one by one come to the state its meaning gives on all of them. R97: a command has no
PassTimeout; where one is declared while a command waits, the command waits as before. -/
def Obligations.AnswersComeOneAStep : Prop :=
  ∀ (s : State) (ms rest : List Move), (∀ m ∈ ms, ∃ q, m = .reply q) → s.seq = .idle → s.lock = false →
    (∀ (i : Instr) (t : State) (r : Reply), exec i { s with inputs := ms } = .next t → t.lock = true →
      step { t with inputs := .reply r :: rest } = offer (ms ++ [.reply r]) rest (exec i) s ∧
        step { t with inputs := .passTimeout :: rest } = .next { t with inputs := rest }) ∧
    (∀ (t : State) (r : Reply), runBackground { s with inputs := ms } = .next t → t.lock = true →
      step { t with inputs := .reply r :: rest } = offer (ms ++ [.reply r]) rest runBackground s) ∧
    (∀ (i : Instr) (u : State), s.port = [] →
      exec i { s with inputs := ms, searching := if i = .close then false else s.searching } = .next u →
      u.inputs = [] →
      core.run (ms.length + 1) { s with inputs := cmdMove (encode i) :: ms ++ rest } =
        .next { u with inputs := rest }) ∧
    (∀ u : State, s.lc = .claimed → s.searching = true → runBackground { s with inputs := ms } = .next u →
      u.inputs = [] →
      core.run (ms.length + 1) { s with inputs := .tick :: ms ++ rest } = .next { u with inputs := rest })

/-! ## Reset -/

/-- R31, R190: the values the spec gives for reset; TXBUF, RXBUF, IMG_A, IMG_B and DET hold no value. -/
def Obligations.ResetValues : Prop :=
  let s := State.reset
  s.lc = .unclaimed ∧ s.lock = false ∧ s.searching = false ∧ s.targetId = 0#64 ∧ s.romId = 0#64 ∧
  s.crc16 = 0x0000#16 ∧ s.crc16 = s.params.crc16Init ∧ s.lastDisc = 0#7 ∧ s.lastDevice = true ∧
  s.spdValid = false ∧ s.spdOd = false ∧ s.att = 0#4 ∧ s.rxLen = 0#8 ∧ s.npagesA = 256#9 ∧ s.npagesB = 256#9 ∧
  s.detCount = 0#6 ∧ s.detTrunc = false ∧ s.result = 0#32 ∧ s.event = 0#32 ∧ s.seq = .idle ∧ s.port = [] ∧
  ∀ a, s.mem.read? a = none

/-- R190: hardware reset puts every piece of the engine's state at its reset value, drops the command in progress and
the held words, and issues no link operation, in every state. -/
def Obligations.HardwareResetDropsEverything : Prop :=
  ∀ (s : State) (rest : List Move), s.inputs = .hardwareReset :: rest →
    ∃ t, step s = .next t ∧ t.toRegs = { Regs.reset with issued := s.issued, draws := s.draws } ∧
      t.lock = false ∧ t.searching = false ∧ t.event = 0#32 ∧ t.seq = .idle ∧ t.port = [] ∧
      t.params = s.params ∧ t.inputs = rest

/-! ## The invariant -/

/-- The invariant holds after reset. -/
def Obligations.ResetSatisfiesInvariant : Prop := State.Inv State.reset

/-- From every state that meets the invariant, a step gives a state that meets it: the lock is held exactly while a
command or pass is in progress, `ATT` never exceeds RETRY_ATTEMPTS, `LAST_DISC`, the page counts and `DET_COUNT` keep
their ranges, the reserved parts of `RESULT` and `EVENT` read 0, and the buffers keep their canonical form. -/
def Obligations.StepKeepsInvariant : Prop :=
  ∀ s t : State, s.Inv → step s = .next t → t.Inv

/-! ## Usage errors -/

/-- R90, R74: a command that is not legal in the lifecycle state completes at once with BAD_STATE; in `Claimed` an operand
out of range completes at once with BAD_OPERAND. Nothing else changes. -/
def Obligations.BadStateAndBadOperand : Prop :=
  (∀ s : State, s.lc ≠ .unclaimed → exec .claim s = .next (s.completed 0x01000008#32)) ∧
  (∀ (i : Instr) (s : State), s.lc ≠ .claimed → i ≠ .claim → i ≠ .close → i.opc.toNat < 0x40 →
    exec i s = .next (s.completed (i.opc ++ 0x000008#24))) ∧
  ∀ s : State, s.lc = .claimed →
    (∀ c, exec (.owWrite 0 c) s = .next (s.completed 0x14000009#32)) ∧
    exec (.owRead 0) s = .next (s.completed 0x15000009#32) ∧
    (∀ d, exec (.owRom 3 d) s = .next (s.completed 0x16000009#32)) ∧
    (s.params.romxSearchOd = none → exec (.owRom 1 true) s = .next (s.completed 0x16000009#32)) ∧
    (∀ h l n : Byte, n = 0 ∨ 32 < n.toNat → exec (.rgWrite h l n) s = .next (s.completed 0x31000009#32))

/-- R175: at acceptance, in each of the three ways a word is accepted (`Accepts`), the first check that applies completes the
command; none of them takes the lock, issues a link operation or changes anything but `RESULT` and `EVENT.DONE`. -/
def Obligations.UsageChecksInOrder : Prop :=
  ∀ (s s' : State) (w : Word), s.lock = false → s.seq = .idle → Accepts s w s' →
    (decode w = none → step s = .next (s'.completed (opcField w ++ 0x000007#24))) ∧
    (∀ i, decode w = some i → legalIn i s.lc = false → step s = .next (s'.completed (i.opc ++ 0x000008#24))) ∧
    (∀ i, decode w = some i → legalIn i s.lc = true → operandInRange s.params i = false →
      step s = .next (s'.completed (i.opc ++ 0x000009#24))) ∧
    (decode w = some .srchNext → s.lc = .claimed → s.lastDevice = true →
      step s = .next (s'.completed 0x2100002A#32)) ∧
    (∀ f, decode w = some (.memWritediff f) → s.lc = .claimed → s.npagesA ≠ s.npagesB →
      step s = .next (s'.completed 0x3A000045#32))

/-! ## Completion and suspension -/

/-- A command that runs either completes, with `RESULT` holding its OPC, zeros in bits 23:16 and 7, and
phase `none` if ERR is OK, `EVENT.DONE` set, the lock free and the sequencer idle (R170); or it waits at a link operation
with the lock held, `RESULT` as before and `EVENT.DONE` clear (R43). That MEM_WRITEALL with `NPAGES_A=0` and MEM_WRITEDIFF of
identical images complete in the step that accepts them is the model's choice (log 22, DESIGN CHOICE), and so is that SEQ
holds the registers at acceptance (log 3, DESIGN CHOICE); no rule says either. -/
def Obligations.CommandCompletesOrHoldsTheLock : Prop :=
  ∀ (i : Instr) (s t : State), exec i s = .next t →
    (t.lock = false ∧ t.seq = .idle ∧ t.event.getLsbD 0 = true ∧ resultOpc t.result = i.opc ∧
      t.result.extractLsb' 16 8 = 0#8 ∧ t.result.getLsbD 7 = false ∧
      (resultErr t.result = 0#4 → resultPhase t.result = 0#3)) ∨
    (t.lock = true ∧ t.result = s.result ∧ t.event = s.event &&& ~~~1#32 ∧
      ∃ op l got, t.seq = .busy (.command i) op l s.toRegs got)

/-- No command is refused, in any state: only host accesses are (R42, R45, R48, R195). -/
def Obligations.OnlyHostAccessesAreRefused : Prop :=
  (∀ (i : Instr) (s : State) (r : Refusal), exec i s ≠ .refused r) ∧
  (∀ (s : State) (r : Refusal), step s = .refused r → ∃ m rest, s.inputs = m :: rest ∧ m.isAccess = true)

/-- R31, 93 U9: in a state that meets the invariant a command stops with a fault only where it reads a byte of `TXBUF`,
`IMG_A` or `IMG_B` that nothing has written. -/
def Obligations.CommandFaultsOnlyOnUnwrittenBytes : Prop :=
  ∀ (i : Instr) (s : State) (a : Nat), s.Inv → exec i s = .fault (.unwritten a) →
    s.mem.read? a = none ∧ (0x0100 ≤ a ∧ a ≤ 0x01FF ∨ 0x2000 ≤ a ∧ a ≤ 0x5FFF)

/-! ## Lifecycle commands -/

/-- R91: CLAIM whose operations are answered `ok` (the hard reset after timeouts the bounded retry allows, the busy indicator
clearing within POLL_LIMIT polls) claims the adapter. Where the claim, the hard reset or the buffer clear fails, the last by a failed Stat or by POLL_LIMIT busy polls,
it completes with CLAIM_ERROR and phase `claim`, leaves `Unclaimed` and runs no further hard reset. -/
def Obligations.ClaimClaimsOrFails : Prop :=
  ∀ (s : State) (n : Nat) (r : Reply) (a b c rest : List Move),
    s.lc = .unclaimed → s.params.wf → n < s.params.hrAttempts → Acks 1 a → Acks 1 b → Acks 1 c →
    (∀ k, k < s.params.pollLimit → s.inputs = a ++ timeouts n ++ b ++ busyPolls k ++ c ++ rest →
      exec .claim s = .next ({ s.ran ([LinkOp.claim] ++ List.replicate (n + 1) LinkOp.hardReset ++
        List.replicate (k + 1) LinkOp.stat) rest with lc := .claimed, spdValid := false }.completed 0x01000000#32)) ∧
    (r.failed = true → s.inputs = .reply r :: rest →
      exec .claim s = .next ((s.ran [.claim] rest).completed 0x01000011#32)) ∧
    (s.inputs = a ++ timeouts n ++ .reply .fail :: rest →
      exec .claim s = .next ((s.ran ([LinkOp.claim] ++ List.replicate (n + 1) LinkOp.hardReset) rest).completed
        0x01000011#32)) ∧
    (s.inputs = a ++ timeouts s.params.hrAttempts ++ rest →
      exec .claim s = .next ((s.ran ([LinkOp.claim] ++ List.replicate s.params.hrAttempts LinkOp.hardReset)
        rest).completed 0x01000011#32)) ∧
    (s.inputs = a ++ timeouts n ++ b ++ busyPolls s.params.pollLimit ++ rest →
      exec .claim s = .next ({ s.ran ([LinkOp.claim] ++ List.replicate (n + 1) LinkOp.hardReset ++
        List.replicate s.params.pollLimit LinkOp.stat) rest with spdValid := false }.completed 0x01000011#32)) ∧
    (∀ k, k < s.params.pollLimit → r.failed = true →
      s.inputs = a ++ timeouts n ++ b ++ busyPolls k ++ .reply r :: rest →
      exec .claim s = .next ({ s.ran ([LinkOp.claim] ++ List.replicate (n + 1) LinkOp.hardReset ++
        List.replicate (k + 1) LinkOp.stat) rest with spdValid := false }.completed 0x01000011#32))

/-- R92: CLOSE's part 2, at its acceptance, releases the adapter whatever the answer and goes to `Closed`; in `Closed` it does
nothing on the link. `SEARCHING` is cleared in part 1, at the write; that part 2 leaves it is the model's reading (log 13,
DEDUCED). -/
def Obligations.CloseReleasesOnce : Prop :=
  (∀ (s : State) (r : Reply) (rest : List Move), s.lc ≠ .closed → s.inputs = .reply r :: rest →
    exec .close s = .next ({ s.ran [.release] rest with lc := .closed }.completed 0x02000000#32)) ∧
  (∀ s : State, s.lc = .closed → exec .close s = .next (s.completed 0x02000000#32))

/-- R93: SRCH_START sets `SEARCHING` with no link operation and no lock. -/
def Obligations.SrchStartEnablesSearching : Prop :=
  ∀ s : State, s.lc = .claimed →
    exec .srchStart s = .next ({ s with searching := true }.completed 0x03000000#32)

/-- Frame of CLAIM, of CLOSE's part 2 and of SRCH_START, however they end (R91 to R93): of the engine's registers only `LC`
and `SPD_VALID` change (CLOSE changes no `SPD_VALID`, SRCH_START neither), no event flag but DONE, and every byte of memory
reads as before. `exec .close` is CLOSE's part 2, at its acceptance; CLOSE clears `SEARCHING` in its part 1, at the write
(R13, R92). Of what `exec` runs here only SRCH_START changes `SEARCHING`; that CLOSE's part 2 leaves it is the model's
reading (log 13, DEDUCED). -/
def Obligations.LifecycleCommandsFrame : Prop :=
  ∀ (i : Instr) (s t : State), i = .claim ∨ i = .close ∨ i = .srchStart → exec i s = .next t →
    t.targetId = s.targetId ∧ t.romId = s.romId ∧ t.crc16 = s.crc16 ∧ t.lastDisc = s.lastDisc ∧
    t.lastDevice = s.lastDevice ∧ t.spdOd = s.spdOd ∧ t.att = s.att ∧ t.rxLen = s.rxLen ∧ t.npagesA = s.npagesA ∧
    t.npagesB = s.npagesB ∧ t.detCount = s.detCount ∧ t.detTrunc = s.detTrunc ∧ t.params = s.params ∧
    t.port = s.port ∧ t.hostRead = s.hostRead ∧ (∀ k, 1 ≤ k → t.event.getLsbD k = s.event.getLsbD k) ∧
    (∀ x, t.mem.read? x = s.mem.read? x) ∧ (i ≠ .claim → t.spdValid = s.spdValid) ∧
    (i = .srchStart → t.lc = s.lc ∧ t.issued = s.issued) ∧ (i ≠ .srchStart → t.searching = s.searching)

/-- R11, R90, R190: a step changes `LC` only by a CLAIM that completes OK, a CLOSE that completes, or hardware reset;
so `Closed` is left by hardware reset alone. -/
def Obligations.LifecycleChangesOnlyByClaimCloseReset : Prop :=
  ∀ s t : State, s.Inv → step s = .next t → t.lc ≠ s.lc →
    (s.lc = .unclaimed ∧ t.lc = .claimed ∧ t.result = 0x01000000#32) ∨
    (t.lc = .closed ∧ t.result = 0x02000000#32) ∨
    (t.lc = .unclaimed ∧ s.inputs.head? = some .hardwareReset)

/-! ## Line primitives -/

/-- R104: OW_RESET answered `ok`, the busy indicator clearing within POLL_LIMIT polls; and its failure branch: the
hard reset and the same buffer clear, completing OK although the reset command was not answered `ok` (R198). -/
def Obligations.OwResetSucceeds : Prop :=
  ∀ (s : State) (k n : Nat) (r : Reply) (a b rest : List Move), s.lc = .claimed → k < s.params.pollLimit →
    n < s.params.hrAttempts → Acks 1 a → Acks 1 b →
    (s.inputs = a ++ busyPolls k ++ b ++ rest →
      exec .owReset s = .next ((s.ran ([LinkOp.ctl .reset] ++ List.replicate (k + 1) LinkOp.stat) rest).completed 0x10000000#32)) ∧
    (r.failed = true → s.inputs = .reply r :: timeouts n ++ a ++ busyPolls k ++ b ++ rest →
      exec .owReset s = .next ({ s.ran ([LinkOp.ctl .reset] ++ List.replicate (n + 1) LinkOp.hardReset ++
        List.replicate (k + 1) LinkOp.stat) rest with spdValid := false }.completed 0x10000000#32))

/-- R105, R106: OW_SPEED selects the speed and records it; OW_WBIT writes its bit. -/
def Obligations.OwSpeedAndOwWbitSucceed : Prop :=
  ∀ (s : State) (f : Bool) (a rest : List Move), s.lc = .claimed → Acks 1 a → s.inputs = a ++ rest →
    exec (.owSpeed f) s = .next ({ s.ran [.ctl (.speed f)] rest with
      spdValid := true, spdOd := f }.completed 0x11000000#32) ∧
    exec (.owWbit f) s = .next ((s.ran [.ctl (.wbit f)] rest).completed 0x12000000#32)

/-- R107: OW_RBIT reports bit 0 of the one byte read as VAL. -/
def Obligations.OwRbitReportsTheBit : Prop :=
  ∀ (s : State) (b : Byte) (a rest : List Move), s.lc = .claimed → Acks 1 a →
    s.inputs = a ++ bytesReply [b] :: rest →
    exec .owRbit s = .next ((s.ran [.ctl .rbit, .bulkIn 1] rest).completed
      (if b.getLsbD 0 then 0x13000100#32 else 0x13000000#32))

/-- R108: OW_WRITE sends `TXBUF[0..n-1]`, signals the count, and with `c = 1` drains once, whatever the drain
returns. -/
def Obligations.OwWriteSendsTxbuf : Prop :=
  ∀ (s : State) (n : Byte) (bytes : List Byte) (a b rest : List Move), s.lc = .claimed → n ≠ 0 →
    bytes.length = n.toNat → HoldsBytes s.mem 0x0100 bytes → Acks 2 a → Acks 1 b →
    (s.inputs = a ++ rest →
      exec (.owWrite n false) s = .next ((s.ran [.bulkOut bytes, .ctl (.count n.toNat)] rest).completed
        0x14000000#32)) ∧
    (s.inputs = a ++ b ++ rest →
      exec (.owWrite n true) s = .next ((s.ran [.bulkOut bytes, .ctl (.count n.toNat), .bulkIn n.toNat]
        rest).completed 0x14000000#32))

/-- R109: OW_READ stores what arrives, short answers included, and reports how many bytes; the rest of the buffers
keeps its content. -/
def Obligations.OwReadStoresWhatArrives : Prop :=
  ∀ (s : State) (n : Byte) (d : List Byte) (rest : List Move), s.lc = .claimed → n ≠ 0 → d.length ≤ n.toNat →
    s.inputs = bytesReply d :: rest →
    ∃ m, exec (.owRead n) s = .next ({ s.ran [.bulkIn n.toNat] rest with
        mem := m, rxLen := BitVec.ofNat 8 d.length }.completed (0x1500#16 ++ BitVec.ofNat 8 d.length ++ 0x00#8)) ∧
      HoldsBytes m 0x0200 d ∧ ∀ x, x < 0x0200 ∨ 0x0200 + d.length ≤ x → m.read? x = s.mem.read? x

/-- R110: OW_ROM issues the ROM command of its selector and speed, sets the speed, and sends `TARGET_ID` for match and
eight zero bytes for search and skip. -/
def Obligations.OwRomAddressesChips : Prop :=
  ∀ (s : State) (d : Bool) (a rest : List Move), s.lc = .claimed → Acks 3 a → s.inputs = a ++ rest →
    let after := fun (x : Byte) (id : List Byte) =>
      ({ s.ran [.ctl (.rom x), .ctl (.speed d), .bulkOut id] rest with
        spdValid := true, spdOd := d }).completed 0x16000000#32
    exec (.owRom 0 d) s = .next (after (if d then s.params.romxMatchOd else s.params.romxMatch)
      (romBytes s.targetId)) ∧
    exec (.owRom 2 d) s = .next (after (if d then s.params.romxSkipOd else s.params.romxSkip)
      (List.replicate 8 0#8)) ∧
    (d = false → exec (.owRom 1 d) s = .next (after s.params.romxSearch (List.replicate 8 0#8))) ∧
    (∀ x, d = true → s.params.romxSearchOd = some x →
      exec (.owRom 1 d) s = .next (after x (List.replicate 8 0#8)))

/-- R60, R102, R107, R111, R172 to R174: a line primitive, a search command, PG_WRITE or RG_WRITE that waits at any of its
link operations, whatever the answers `ms` before it, and then comes to a condition there (`Breaks`), runs the error
epilogue, however its hard reset ends, and completes with TRANSPORT_ERROR or BUS_BUSY, never retried; the phase is the one it
arose in: none, `search`, and for the writes `verify` during step 4 of the cycle, `write` otherwise, as the link operations
issued since acceptance and the one waited at tell (`cyclePhase`). A hard reset answered `ok` clears `SPD_VALID`, another
leaves it. A search command also leaves `LAST_DEVICE=1`. -/
def Obligations.FailureEndsUnrestartedCommand : Prop :=
  ∀ (i : Instr) (s t : State) (ms fm hm rest : List Move) (op : LinkOp) (l : Locals) (entry : Regs) (got : List Move)
    (c : Cond) (fops hops : List LinkOp) (cleared ok : Bool), 0x10 ≤ i.opc.toNat → i.opc.toNat ≤ 0x31 →
    (∀ m ∈ ms, ∃ q, m = .reply q) → exec i { s with inputs := ms } = .next t →
    t.seq = .busy (.command i) op l entry got →
    Breaks s.params (t.issued.drop s.issued.length).getLast? op c cleared fm fops → HardResetEnds s.params ok hm hops →
    exec i { s with inputs := ms ++ fm ++ hm ++ rest } = .next ({ t with
      issued := t.issued ++ fops ++ hops, inputs := rest, spdValid := t.spdValid && !cleared && !ok,
      lastDevice := if i.opc.toNat / 16 = 2 then true else t.lastDevice }.completed
        (i.opc ++ 0x0000#16 ++ 0#1 ++ l.phase.code ++ (if c = Cond.busBusy then 3#4 else 2#4))) ∧
    (i.opc.toNat / 16 = 1 → l.phase = .noPhase) ∧ (i.opc.toNat / 16 = 2 → l.phase = .search) ∧
    (i.opc.toNat / 16 = 3 → l.phase = cyclePhase (t.issued.drop s.issued.length ++ [op]))

/-- Frame of the seven line primitives, however they end (R104 to R110): only `SPD_VALID`, `SPD_OD` and, for OW_READ,
`RX_LEN` change among the registers; no event flag but DONE; every byte of memory but the `RXBUF[0..n-1]` of OW_READ n
reads as before. -/
def Obligations.LinePrimitivesFrame : Prop :=
  ∀ (i : Instr) (s t : State), 0x10 ≤ i.opc.toNat → i.opc.toNat ≤ 0x16 → exec i s = .next t →
    t.lc = s.lc ∧ t.targetId = s.targetId ∧ t.romId = s.romId ∧ t.crc16 = s.crc16 ∧ t.lastDisc = s.lastDisc ∧
    t.lastDevice = s.lastDevice ∧ t.att = s.att ∧ t.npagesA = s.npagesA ∧ t.npagesB = s.npagesB ∧
    t.detCount = s.detCount ∧ t.detTrunc = s.detTrunc ∧ t.searching = s.searching ∧ t.params = s.params ∧
    t.port = s.port ∧ t.hostRead = s.hostRead ∧ (∀ k, 1 ≤ k → t.event.getLsbD k = s.event.getLsbD k) ∧
    ((∀ n, i ≠ .owRead n) → t.rxLen = s.rxLen) ∧
    ∀ x, (∀ n, i = .owRead n → x < 0x0200 ∨ 0x0200 + n.toNat ≤ x) → t.mem.read? x = s.mem.read? x

/-! ## ROM search -/

/-- R121: a byte string followed by its own CRC8 has CRC8 0, and no other last byte gives 0, for every polynomial with
its top bit set. -/
def Obligations.Crc8ValidatesExactlyItsOwnCrcByte : Prop :=
  ∀ (poly : Byte) (bytes : List Byte) (b : Byte), poly.getLsbD 7 = true →
    (crc8 poly (bytes ++ [b]) = 0#8 ↔ b = crc8 poly bytes)

/-- R122, R123, R124, R126: SRCH_NEXT walks the 64 positions. It takes the id bit where bit and complement differ; at a
discrepancy the previous id's bit before `LAST_DISC`, 1 at it, 0 beyond it. An id that validates is found and the last
discrepancy at which 0 was taken becomes `LAST_DISC`, `LAST_DEVICE` saying whether there was none; an id that does not
validate ends the pass with SEARCH_FAILED, `LAST_DISC` unchanged and `LAST_DEVICE=1`. -/
def Obligations.SrchNextFollowsTheBookmark : Prop :=
  ∀ (s : State) (bits : List (Bool × Bool)) (pre rest : List Move), s.lc = .claimed → s.params.wf →
    s.lastDevice = false → s.lastDisc.toNat ≤ 64 → bits.length = 64 → (∀ bc ∈ bits, bc ≠ (true, true)) →
    Acks 6 pre → s.inputs = pre ++ bits.flatMap positionReplies ++ rest →
    ∃ id : RomId,
      (∀ k bc, 1 ≤ k → bits[k - 1]? = some bc → romBit id k =
        if bc.1 ≠ bc.2 then bc.1
        else if k < s.lastDisc.toNat then romBit s.romId k else decide (k = s.lastDisc.toNat)) ∧
      (validId s.params.crc8Poly id = true → ∃ lz, LastZero bits id lz ∧ lz ≤ 64 ∧
        exec .srchNext s = .next ({ s.ran (searchOps ++ walkOps id) rest with
          spdValid := true, spdOd := false, romId := id, lastDisc := BitVec.ofNat 7 lz,
          lastDevice := decide (lz = 0) }.completed 0x21000000#32)) ∧
      (validId s.params.crc8Poly id = false →
        exec .srchNext s = .next ({ s.ran (searchOps ++ walkOps id) rest with
          spdValid := true, spdOd := false, romId := id, lastDevice := true }.completed 0x21000026#32))

/-- R125: SRCH_FIRST starts from no bookmark and an empty id, so every discrepancy takes 0 and the id assembled is the
id bits read. -/
def Obligations.SrchFirstTakesZeroAtDiscrepancies : Prop :=
  ∀ (s : State) (bits : List (Bool × Bool)) (id : RomId) (pre rest : List Move), s.lc = .claimed → s.params.wf →
    bits.length = 64 → (∀ bc ∈ bits, bc ≠ (true, true)) → (∀ k bc, 1 ≤ k → bits[k - 1]? = some bc →
      romBit id k = bc.1) →
    Acks 6 pre → s.inputs = pre ++ bits.flatMap positionReplies ++ rest →
    (validId s.params.crc8Poly id = true → ∃ lz, LastZero bits id lz ∧ lz ≤ 64 ∧
      exec .srchFirst s = .next ({ s.ran (searchOps ++ walkOps id) rest with
        spdValid := true, spdOd := false, romId := id, lastDisc := BitVec.ofNat 7 lz,
        lastDevice := decide (lz = 0) }.completed 0x20000000#32)) ∧
    (validId s.params.crc8Poly id = false →
      exec .srchFirst s = .next ({ s.ran (searchOps ++ walkOps id) rest with
        spdValid := true, spdOd := false, romId := id, lastDisc := 0#7,
        lastDevice := true }.completed 0x20000026#32))

/-- R122 to R126: a pass that fails, two ones ending it at a position or its id not validating, completes SRCH_NEXT and
SRCH_FIRST with SEARCH_FAILED, phase `search` and `LAST_DEVICE=1`; no hard reset follows. `ROM_ID` keeps the bits assembled,
and `LAST_DISC` its value, which SRCH_FIRST has set to 0. -/
def Obligations.NoResponderFailsThePass : Prop :=
  ∀ (s : State) (ms rest : List Move) (ops : List LinkOp) (id : RomId), s.lc = .claimed → s.params.wf →
    s.inputs = ms ++ rest →
    (s.lastDevice = false → FailedPass s.params s.romId s.lastDisc.toNat ms ops id →
      exec .srchNext s = .next ({ s.ran ops rest with
        spdValid := true, spdOd := false, romId := id, lastDevice := true }.completed 0x21000026#32)) ∧
    (FailedPass s.params 0#64 0 ms ops id →
      exec .srchFirst s = .next ({ s.ran ops rest with
        spdValid := true, spdOd := false, romId := id, lastDisc := 0#7, lastDevice := true }.completed 0x20000026#32))

/-- R127, R128, R129: SRCH_ENUM runs search passes, each from the bookmark of the one before, and delivers the ids found
with DETECT in one step. It ends after the pass that leaves no bookmark; with `DET_TRUNC=1` when the table is full before
that; and at a pass that fails, which is no error. -/
def Obligations.SrchEnumDeliversBatch : Prop :=
  ∀ (s : State) (xs : List Pass) (rest : List Move), s.lc = .claimed → s.params.wf →
    FoundPasses s.params 0#64 0 xs → (∀ x ∈ xs.dropLast, x.zero ≠ 0) → xs.length ≤ s.params.maxDev →
    let result := (0x2200#16 : Half) ++ BitVec.ofNat 8 xs.length ++ 0x00#8
    let holds := fun m : Memory => HoldsBytes m 0x0400 (xs.flatMap fun x => romBytes x.id) ∧
      ∀ x, x < 0x0400 ∨ 0x0400 + 8 * xs.length ≤ x → m.read? x = s.mem.read? x
    (∀ x, xs.getLast? = some x → s.inputs = xs.flatMap Pass.replies ++ rest →
      (x.zero = 0 → ∃ m, holds m ∧ exec .srchEnum s = .next ({ s.ran (xs.flatMap Pass.ops) rest with
        spdValid := true, spdOd := false, romId := x.id, lastDisc := 0#7, lastDevice := true, mem := m,
        detCount := BitVec.ofNat 6 xs.length, detTrunc := false, event := s.event ||| 2#32 }.completed result)) ∧
      (x.zero ≠ 0 → xs.length = s.params.maxDev →
        ∃ m, holds m ∧ exec .srchEnum s = .next ({ s.ran (xs.flatMap Pass.ops) rest with
        spdValid := true, spdOd := false, romId := x.id, lastDisc := BitVec.ofNat 7 x.zero, lastDevice := false,
        mem := m, detCount := BitVec.ofNat 6 xs.length, detTrunc := true,
        event := s.event ||| 2#32 }.completed result))) ∧
    (∀ (ms : List Move) (ops : List LinkOp) (id : RomId), (∀ x ∈ xs, x.zero ≠ 0) → xs.length < s.params.maxDev →
      let ld := (xs.getLast?.map Pass.zero).getD 0
      FailedPass s.params ((xs.getLast?.map Pass.id).getD 0#64) ld ms ops id →
      s.inputs = xs.flatMap Pass.replies ++ (ms ++ rest) →
      ∃ m, holds m ∧ exec .srchEnum s = .next ({ s.ran (xs.flatMap Pass.ops ++ ops) rest with
        spdValid := true, spdOd := false, romId := id, lastDisc := BitVec.ofNat 7 ld, lastDevice := true, mem := m,
        detCount := BitVec.ofNat 6 xs.length, detTrunc := false, event := s.event ||| 2#32 }.completed result))

/-- Frame of the three search commands, however they end (R125, R126, R128): `LC`, `TARGET_ID`, `CRC16`, `ATT`,
`RX_LEN`, the page counts and `SEARCHING` keep their values, and every byte outside the existing `DET` entries reads
as before; SRCH_FIRST and SRCH_NEXT leave the `DET` window, `DET_COUNT`, `DET_TRUNC` and DETECT alone too. -/
def Obligations.SearchCommandsFrame : Prop :=
  ∀ (i : Instr) (s t : State), 0x20 ≤ i.opc.toNat → i.opc.toNat ≤ 0x22 → exec i s = .next t →
    t.lc = s.lc ∧ t.targetId = s.targetId ∧ t.crc16 = s.crc16 ∧ t.att = s.att ∧ t.rxLen = s.rxLen ∧
    t.npagesA = s.npagesA ∧ t.npagesB = s.npagesB ∧ t.searching = s.searching ∧ t.params = s.params ∧
    t.port = s.port ∧ t.hostRead = s.hostRead ∧ t.event.getLsbD 2 = s.event.getLsbD 2 ∧
    (∀ x, x < 0x0400 ∨ 0x0400 + 8 * s.params.maxDev ≤ x → t.mem.read? x = s.mem.read? x) ∧
    (i ≠ .srchEnum → t.mem = s.mem ∧ t.detCount = s.detCount ∧ t.detTrunc = s.detTrunc ∧
      ∀ k, 1 ≤ k → t.event.getLsbD k = s.event.getLsbD k)

/-! ## The background pass -/

/-- R95: TICK starts a pass exactly when `LC=Claimed`, `SEARCHING=1` and `LOCK=0`, and the pass is then at its first link
operation with the lock held. A TICK offered elsewhere starts none; that it is dropped there is the model's choice
(log 1). -/
def Obligations.TickStartsPassWhenEnabled : Prop :=
  ∀ (s : State) (rest : List Move), s.inputs = .tick :: rest →
    (¬(s.lc = .claimed ∧ s.searching = true ∧ s.lock = false) → step s = .next { s with inputs := rest }) ∧
    (s.lc = .claimed → s.searching = true → s.lock = false → s.params.wf →
      ∃ t l entry, step s = .next t ∧ t.lock = true ∧
        t.seq = .busy .background (.ctl .reset) l entry [] ∧ t.issued = s.issued ∧ t.inputs = rest)

/-- R96, R127, R129: a background pass runs the search passes of the chips on the bus, delivers their ids, sets DETECT,
and leaves `RESULT`, `ATT` and DONE alone. It ends after the pass that leaves no bookmark; with `DET_TRUNC=1` when the table is
full before that; and at a pass that fails, which is no error. -/
def Obligations.BackgroundPassDelivers : Prop :=
  ∀ (s : State) (xs : List Pass) (rest : List Move), s.lock = false → s.seq = .idle → s.params.wf →
    FoundPasses s.params 0#64 0 xs → (∀ y ∈ xs.dropLast, y.zero ≠ 0) → xs.length ≤ s.params.maxDev →
    let holds := fun m : Memory => HoldsBytes m 0x0400 (xs.flatMap fun x => romBytes x.id) ∧
      ∀ x, x < 0x0400 ∨ 0x0400 + 8 * xs.length ≤ x → m.read? x = s.mem.read? x
    (∀ x, xs.getLast? = some x → s.inputs = xs.flatMap Pass.replies ++ rest →
      (x.zero = 0 → ∃ m, holds m ∧ runBackground s = .next { s.ran (xs.flatMap Pass.ops) rest with
        spdValid := true, spdOd := false, romId := x.id, lastDisc := 0#7, lastDevice := true, mem := m,
        detCount := BitVec.ofNat 6 xs.length, detTrunc := false, event := s.event ||| 2#32 }) ∧
      (x.zero ≠ 0 → xs.length = s.params.maxDev →
        ∃ m, holds m ∧ runBackground s = .next { s.ran (xs.flatMap Pass.ops) rest with
        spdValid := true, spdOd := false, romId := x.id, lastDisc := BitVec.ofNat 7 x.zero, lastDevice := false,
        mem := m, detCount := BitVec.ofNat 6 xs.length, detTrunc := true, event := s.event ||| 2#32 })) ∧
    (∀ (ms : List Move) (ops : List LinkOp) (id : RomId), (∀ x ∈ xs, x.zero ≠ 0) → xs.length < s.params.maxDev →
      let ld := (xs.getLast?.map Pass.zero).getD 0
      FailedPass s.params ((xs.getLast?.map Pass.id).getD 0#64) ld ms ops id →
      s.inputs = xs.flatMap Pass.replies ++ (ms ++ rest) →
      ∃ m, holds m ∧ runBackground s = .next { s.ran (xs.flatMap Pass.ops ++ ops) rest with
        spdValid := true, spdOd := false, romId := id, lastDisc := BitVec.ofNat 7 ld, lastDevice := true, mem := m,
        detCount := BitVec.ofNat 6 xs.length, detTrunc := false, event := s.event ||| 2#32 })

/-- R96, R97, R103: a background pass that waits, whatever has been answered before, is ended by PassTimeout between any two
link operations of its enumeration, and by any condition (`Breaks`) at an operation: the bounded hard reset, however it
ends, `LAST_DEVICE=1`, SRCHERR, nothing delivered, the lock free. A hard reset answered `ok` clears `SPD_VALID`, another
leaves it. -/
def Obligations.PassTimeoutEndsThePass : Prop :=
  ∀ (s t : State) (ms hm rest : List Move) (hops : List LinkOp) (ok : Bool), s.params.wf →
    (∀ m ∈ ms, ∃ q, m = .reply q) → runBackground { s with inputs := ms } = .next t → HardResetEnds s.params ok hm hops →
    let ended := fun (ops : List LinkOp) (cleared : Bool) => ({ t with
      issued := t.issued ++ ops ++ hops, inputs := rest, spdValid := t.spdValid && !cleared && !ok,
      lastDevice := true, event := s.event ||| 4#32, lock := false, seq := .idle } : State)
    (∀ (op : LinkOp) (e : Eng), ms ≠ [] → enumerate (State.eng { s with inputs := ms } true) = .wait op e →
      core.run (hm.length + 1) { t with inputs := .passTimeout :: hm ++ rest } = .next (ended [] false) ∧
      t.lock = true ∧ t.mem = s.mem ∧ t.detCount = s.detCount ∧ t.detTrunc = s.detTrunc) ∧
    (∀ (op : LinkOp) (l : Locals) (entry : Regs) (got fm : List Move) (fops : List LinkOp) (c : Cond) (cleared : Bool),
      t.seq = .busy .background op l entry got →
      Breaks s.params (t.issued.drop s.issued.length).getLast? op c cleared fm fops →
      runBackground { s with inputs := ms ++ fm ++ hm ++ rest } = .next (ended fops cleared) ∧
      t.mem = s.mem ∧ t.detCount = s.detCount ∧ t.detTrunc = s.detTrunc)

/-- R96: a background pass, however far it gets, never writes `RESULT`, `ATT` or DONE, and never `TARGET_ID`, `CRC16`,
`LC`, the page counts or a byte outside the existing `DET` entries. -/
def Obligations.BackgroundPassFrame : Prop :=
  ∀ s t : State, runBackground s = .next t →
    t.result = s.result ∧ t.att = s.att ∧ t.event.getLsbD 0 = s.event.getLsbD 0 ∧ t.targetId = s.targetId ∧
    t.crc16 = s.crc16 ∧ t.lc = s.lc ∧ t.npagesA = s.npagesA ∧ t.npagesB = s.npagesB ∧ t.rxLen = s.rxLen ∧
    t.searching = s.searching ∧ t.params = s.params ∧ t.port = s.port ∧
    ∀ x, x < 0x0400 ∨ 0x0400 + 8 * s.params.maxDev ≤ x → t.mem.read? x = s.mem.read? x

/-! ## Scratchpad writes -/

/-- R111, R141, R142: PG_WRITE runs the scratchpad cycle of page `p` until the read-back, in whatever pieces it arrives, equals
the page, here after fewer than RETRY_ATTEMPTS mismatches, and only then sends the copy command; `ATT` counts the attempts. -/
def Obligations.PgWriteCommitsAfterMatchingReadBack : Prop :=
  ∀ (s : State) (p : Byte) (d : Bool) (data : List Byte) (pre back : List (List Byte)) (xs : List Mismatch)
    (bad good rest : List Move), s.lc = .claimed → s.params.wf → data.length = 32 →
    HoldsBytes s.mem (0x2000 + 32 * p.toNat) data → xs.length < s.params.retryAttempts →
    MismatchReplies s.params data xs bad → back.flatten = data → CycleReplies s.params pre back good →
    s.inputs = bad ++ good ++ rest →
    exec (.pgWrite p d) s = .next ({ s.ran
      (mismatchOps s.params s.targetId (pageOff p.toNat) data d xs ++
        cycleOps s.params s.targetId (pageOff p.toNat) pre back d) rest with
      att := BitVec.ofNat 4 (xs.length + 1), spdValid := true, spdOd := d }.completed 0x30000000#32)

/-- R142, R144, R172: PG_WRITE whose read-back differs RETRY_ATTEMPTS times ends with VERIFY_FAILED, phase `verify`,
without a hard reset and without ever sending the copy command. -/
def Obligations.PgWriteVerifyFailedSendsNoCopy : Prop :=
  ∀ (s : State) (p : Byte) (d : Bool) (data : List Byte) (xs : List Mismatch) (bad rest : List Move),
    s.lc = .claimed → s.params.wf → data.length = 32 → HoldsBytes s.mem (0x2000 + 32 * p.toNat) data →
    xs.length = s.params.retryAttempts → MismatchReplies s.params data xs bad → s.inputs = bad ++ rest →
    exec (.pgWrite p d) s = .next ({ s.ran (mismatchOps s.params s.targetId (pageOff p.toNat) data d xs) rest with
      att := BitVec.ofNat 4 s.params.retryAttempts, spdValid := true, spdOd := d }.completed 0x30000054#32)

/-- R111, R141, R143, R172: RG_WRITE runs the same cycle at chip address `h*256 + l` on `TXBUF[0..n-1]`, at standard speed,
until the read-back, in whatever pieces it arrives, equals the payload; `ATT` counts the attempts. A read-back that differs
RETRY_ATTEMPTS times ends it with VERIFY_FAILED, phase `verify`, without a hard reset and without a copy command. -/
def Obligations.RgWriteWritesRegion : Prop :=
  ∀ (s : State) (h l n : Byte) (data : List Byte) (pre back : List (List Byte)) (xs : List Mismatch)
    (bad good rest : List Move), s.lc = .claimed → s.params.wf → 1 ≤ n.toNat → n.toNat ≤ 32 → data.length = n.toNat →
    HoldsBytes s.mem 0x0100 data → MismatchReplies s.params data xs bad →
    (xs.length < s.params.retryAttempts → back.flatten = data → CycleReplies s.params pre back good →
      s.inputs = bad ++ good ++ rest →
      exec (.rgWrite h l n) s = .next ({ s.ran (mismatchOps s.params s.targetId (h ++ l) data false xs ++
        cycleOps s.params s.targetId (h ++ l) pre back false) rest with
        att := BitVec.ofNat 4 (xs.length + 1), spdValid := true, spdOd := false }.completed 0x31000000#32)) ∧
    (xs.length = s.params.retryAttempts → s.inputs = bad ++ rest →
      exec (.rgWrite h l n) s = .next ({ s.ran (mismatchOps s.params s.targetId (h ++ l) data false xs) rest with
        att := BitVec.ofNat 4 s.params.retryAttempts, spdValid := true, spdOd := false }.completed 0x31000054#32))

/-! ## Whole-memory commands -/

/-- R111, R151: MEM_READALL answered `ok`, each page arriving in whatever pieces, reads the 256 pages into `IMG_A` and sets
`NPAGES_A` to 256. -/
def Obligations.MemReadallFillsImage : Prop :=
  ∀ (s : State) (f : Bool) (img : List (List (List Byte))) (pre rest : List Move), s.lc = .claimed → s.params.wf →
    img.length = 256 → (∀ pg ∈ img, Arrive s.params 32 pg) → Acks 8 pre →
    s.inputs = pre ++ img.flatMap readReplies ++ rest →
    ∃ m, exec (.memReadall f) s = .next ({ s.ran (selectOps s.params s.targetId f ++
        writeOps [s.params.cmdRm, 0#8, 0#8] ++ img.flatMap (readOps s.params.rdChunk)) rest with
        att := 1#4, spdValid := true, spdOd := f, npagesA := 256#9, mem := m }.completed 0x38000000#32) ∧
      (∀ k pg, img[k]? = some pg → HoldsBytes m (0x2000 + 32 * k) pg.flatten) ∧
      ∀ x, x < 0x2000 ∨ 0x4000 ≤ x → m.read? x = s.mem.read? x

/-- R150, R172 to R174: a whole-memory command that waits at any link operation of its body, after any answers and any
attempts, and then comes to a condition there (`Breaks`), runs the error epilogue, however its hard reset ends. While
attempts are left it increments `ATT` and runs its whole body again, from the first Ctl(RESET) on: answered `ok`, what it reads
arriving in whatever pieces, it completes OK as at a first attempt. A read-back that differs in the body run again draws on the same `ATT`, and with
none left it ends with VERIFY_FAILED, phase `verify`, no further hard reset. With no attempt left the condition itself
completes the command with TRANSPORT_ERROR or BUS_BUSY and the phase it arose in: `read` for MEM_READALL, for the writing
commands `verify` during step 4 of a cycle and `write` otherwise (`cyclePhase`). -/
def Obligations.WholeMemoryCommandsRestartTheirBody : Prop :=
  ∀ (i : Instr) (s t : State) (ms fm hm rest : List Move) (op : LinkOp) (l : Locals) (entry : Regs) (got : List Move)
    (c : Cond) (fops hops : List LinkOp) (cleared ok : Bool), s.params.wf → i.opc = 0x38#8 ∨ i.opc = 0x39#8 ∨ i.opc = 0x3A#8 →
    (∀ m ∈ ms, ∃ q, m = .reply q) → exec i { s with inputs := ms } = .next t →
    t.seq = .busy (.command i) op l entry got →
    Breaks s.params (t.issued.drop s.issued.length).getLast? op c cleared fm fops → HardResetEnds s.params ok hm hops →
    let run := fun good => exec i { s with inputs := ms ++ fm ++ hm ++ good ++ rest }
    let ops := t.issued ++ fops ++ hops
    let spd := t.spdValid && !cleared && !ok
    let result := i.opc ++ 0x0000#16 ++ 0#1 ++ l.phase.code ++ (if c = Cond.busBusy then 3#4 else 2#4)
    let written := fun (f : Bool) (js : List PageJob) (good : List Move) =>
      t.att.toNat + 1 + missesOf js ≤ s.params.retryAttempts →
      run good = .next ({ t with
        issued := ops ++ pagesOps s.params s.targetId f js, inputs := rest, att := t.att + BitVec.ofNat 4 (1 + missesOf js),
        spdValid := if js = [] then spd else true, spdOd := if js = [] then t.spdOd else f
        }.completed (i.opc ++ 0x000000#24))
    let mismatched := fun (f : Bool) (js : List PageJob) (good : List Move) (k : Nat) (data : List Byte) =>
      ∀ (xs : List Mismatch) (bad : List Move), xs ≠ [] → MismatchReplies s.params data xs bad →
      t.att.toNat + missesOf js + xs.length = s.params.retryAttempts →
      run (good ++ bad) = .next ({ t with
        issued := ops ++ (pagesOps s.params s.targetId f js ++ mismatchOps s.params s.targetId (pageOff k) data f xs),
        inputs := rest, att := BitVec.ofNat 4 s.params.retryAttempts, spdValid := true, spdOd := f
        }.completed (i.opc ++ 0x000054#24))
    (t.att.toNat < s.params.retryAttempts →
      (∀ (f : Bool) (img : List (List (List Byte))) (pre : List Move), i = .memReadall f → img.length = 256 →
        (∀ pg ∈ img, Arrive s.params 32 pg) → Acks 8 pre →
        ∃ m, run (pre ++ img.flatMap readReplies) = .next ({ t with
            issued := ops ++ (selectOps s.params s.targetId f ++ writeOps [s.params.cmdRm, 0#8, 0#8] ++
              img.flatMap (readOps s.params.rdChunk)), inputs := rest,
            att := t.att + 1#4, spdValid := true, spdOd := f, npagesA := 256#9, mem := m }.completed 0x38000000#32) ∧
          (∀ k pg, img[k]? = some pg → HoldsBytes m (0x2000 + 32 * k) pg.flatten) ∧
          ∀ x, x < 0x2000 ∨ 0x4000 ≤ x → m.read? x = s.mem.read? x) ∧
      (∀ (f : Bool) (js : List PageJob) (good : List Move), i = .memWriteall f →
        (∀ j ∈ js, j.data.length = 32 ∧ HoldsBytes s.mem (0x2000 + 32 * j.page) j.data) →
        PageReplies s.params js good →
        (js.map PageJob.page = List.range s.npagesA.toNat → written f js good) ∧
        (∀ (k : Nat) (data : List Byte), js.map PageJob.page = List.range k → k < s.npagesA.toNat → data.length = 32 →
          HoldsBytes s.mem (0x2000 + 32 * k) data → mismatched f js good k data)) ∧
      (∀ (f : Bool) (new old : Nat → List Byte) (js : List PageJob) (good : List Move), i = .memWritediff f →
        (∀ k < s.npagesA.toNat, (new k).length = 32 ∧ (old k).length = 32 ∧
          HoldsBytes s.mem (0x2000 + 32 * k) (new k) ∧ HoldsBytes s.mem (0x4000 + 32 * k) (old k)) →
        (∀ j ∈ js, j.data = new j.page) → PageReplies s.params js good →
        (js.map PageJob.page = (List.range s.npagesA.toNat).filter (fun k => new k ≠ old k) → written f js good) ∧
        (∀ k, js.map PageJob.page = (List.range k).filter (fun k => new k ≠ old k) → k < s.npagesA.toNat → new k ≠ old k →
          mismatched f js good k (new k)))) ∧
    (t.att.toNat = s.params.retryAttempts →
      (i.opc ≠ 0x38#8 → run [] = .next ({ t with issued := ops, inputs := rest, spdValid := spd }.completed result)) ∧
      (i.opc = 0x38#8 → ∃ m, run [] = .next ({ t with
        issued := ops, inputs := rest, spdValid := spd, mem := m, draws := t.draws + 1 }.completed result))) ∧
    t.att.toNat ≤ s.params.retryAttempts ∧
    (i.opc = 0x38#8 → l.phase = .read) ∧ (i.opc ≠ 0x38#8 → l.phase = cyclePhase (t.issued.drop s.issued.length ++ [op]))

/-- Frame of MEM_READALL, however it ends (R151): no byte outside `IMG_A` changes and no byte loses its value; after an
error each byte of `IMG_A` reads as before or holds a byte received for it, in some attempt (93 U6); of the registers only
`ATT`, `SPD_VALID`, `SPD_OD` and, where it completes OK, `NPAGES_A` change, and no event flag but DONE. -/
def Obligations.MemReadallFrame : Prop :=
  ∀ (s t : State) (f : Bool), exec (.memReadall f) s = .next t →
    (∀ x, x < 0x2000 ∨ 0x4000 ≤ x → t.mem.read? x = s.mem.read? x) ∧
    (∀ x, s.mem.read? x ≠ none → t.mem.read? x ≠ none) ∧
    t.lc = s.lc ∧ t.targetId = s.targetId ∧ t.romId = s.romId ∧ t.crc16 = s.crc16 ∧ t.lastDisc = s.lastDisc ∧
    t.lastDevice = s.lastDevice ∧ t.rxLen = s.rxLen ∧ t.npagesB = s.npagesB ∧ t.detCount = s.detCount ∧
    t.detTrunc = s.detTrunc ∧ t.searching = s.searching ∧ t.params = s.params ∧ t.port = s.port ∧
    t.hostRead = s.hostRead ∧ (∀ k, 1 ≤ k → t.event.getLsbD k = s.event.getLsbD k) ∧
    (t.npagesA = s.npagesA ∨ t.npagesA = 256#9 ∧ resultErr t.result = 0#4) ∧
    (t.lock = false → resultErr t.result ≠ 0#4 → (∀ m ∈ s.inputs, ∃ q, m = .reply q) →
      ∃ zs : List (LinkOp × Reply), t.issued = s.issued ++ zs.map (·.1) ∧
        s.inputs = zs.map (fun z => .reply z.2) ++ t.inputs ∧
        ∀ x, t.mem.read? x = s.mem.read? x ∨ ∃ b, t.mem.read? x = some b ∧ (x, b) ∈ receivedFor none zs)

/-- R141, R152, R172, R173: MEM_WRITEALL runs the cycle of every page 0 to NPAGES_A - 1 in ascending order. A read-back that
differs restarts its page's cycle and draws on the command's one `ATT`; where none is left it ends the command with
VERIFY_FAILED, phase `verify`, no hard reset and no copy command for that page. -/
def Obligations.MemWriteallWritesEveryPage : Prop :=
  ∀ (s : State) (f : Bool) (js : List PageJob) (ms rest : List Move), s.lc = .claimed → s.params.wf →
    (∀ j ∈ js, j.data.length = 32 ∧ HoldsBytes s.mem (0x2000 + 32 * j.page) j.data) → PageReplies s.params js ms →
    (js.map PageJob.page = List.range s.npagesA.toNat → 1 + missesOf js ≤ s.params.retryAttempts → s.inputs = ms ++ rest →
      exec (.memWriteall f) s = .next ({ s.ran (pagesOps s.params s.targetId f js) rest with
        att := BitVec.ofNat 4 (1 + missesOf js), spdValid := if js = [] then s.spdValid else true,
        spdOd := if js = [] then s.spdOd else f }.completed 0x39000000#32)) ∧
    (∀ (k : Nat) (data : List Byte) (xs : List Mismatch) (bad : List Move), js.map PageJob.page = List.range k →
      k < s.npagesA.toNat → data.length = 32 → HoldsBytes s.mem (0x2000 + 32 * k) data → xs ≠ [] →
      MismatchReplies s.params data xs bad → missesOf js + xs.length = s.params.retryAttempts →
      s.inputs = ms ++ bad ++ rest →
      exec (.memWriteall f) s = .next ({ s.ran (pagesOps s.params s.targetId f js ++
        mismatchOps s.params s.targetId (pageOff k) data f xs) rest with
        att := BitVec.ofNat 4 s.params.retryAttempts, spdValid := true, spdOd := f }.completed 0x39000054#32))

/-- R141, R153, R172, R173: MEM_WRITEDIFF runs the cycles of exactly the pages whose 32 bytes differ, in ascending order;
identical images make no link operation. `IMG_B` is not written. A read-back that differs restarts its page's cycle and
draws on the command's one `ATT`; where none is left it ends the command with VERIFY_FAILED, phase `verify`, no hard reset and
no copy command for that page. -/
def Obligations.MemWritediffWritesChangedPages : Prop :=
  ∀ (s : State) (f : Bool) (new old : Nat → List Byte) (js : List PageJob) (ms rest : List Move), s.lc = .claimed →
    s.params.wf → s.npagesA = s.npagesB →
    (∀ k < s.npagesA.toNat, (new k).length = 32 ∧ (old k).length = 32 ∧
      HoldsBytes s.mem (0x2000 + 32 * k) (new k) ∧ HoldsBytes s.mem (0x4000 + 32 * k) (old k)) →
    (∀ j ∈ js, j.data = new j.page) → PageReplies s.params js ms →
    (js.map PageJob.page = (List.range s.npagesA.toNat).filter (fun k => new k ≠ old k) →
      1 + missesOf js ≤ s.params.retryAttempts → s.inputs = ms ++ rest →
      exec (.memWritediff f) s = .next ({ s.ran (pagesOps s.params s.targetId f js) rest with
        att := BitVec.ofNat 4 (1 + missesOf js), spdValid := if js = [] then s.spdValid else true,
        spdOd := if js = [] then s.spdOd else f }.completed 0x3A000000#32)) ∧
    (∀ (k : Nat) (xs : List Mismatch) (bad : List Move),
      js.map PageJob.page = (List.range k).filter (fun k => new k ≠ old k) → k < s.npagesA.toNat → new k ≠ old k →
      xs ≠ [] → MismatchReplies s.params (new k) xs bad → missesOf js + xs.length = s.params.retryAttempts →
      s.inputs = ms ++ bad ++ rest →
      exec (.memWritediff f) s = .next ({ s.ran (pagesOps s.params s.targetId f js ++
        mismatchOps s.params s.targetId (pageOff k) (new k) f xs) rest with
        att := BitVec.ofNat 4 s.params.retryAttempts, spdValid := true, spdOd := f }.completed 0x3A000054#32))

/-- R154: images of 256 pages that differ only at page `k` make exactly one scratchpad cycle, at chip address
`32*k`. -/
def Obligations.DiffMinimality : Prop :=
  ∀ (s : State) (f : Bool) (new old : Nat → List Byte) (k : Nat) (pre back : List (List Byte)) (ms rest : List Move),
    s.lc = .claimed → s.params.wf → s.npagesA = 256#9 → s.npagesB = 256#9 → k < 256 →
    (∀ j < 256, (new j).length = 32 ∧ (old j).length = 32 ∧
      HoldsBytes s.mem (0x2000 + 32 * j) (new j) ∧ HoldsBytes s.mem (0x4000 + 32 * j) (old j)) →
    (∀ j < 256, new j ≠ old j ↔ j = k) → back.flatten = new k → CycleReplies s.params pre back ms →
    s.inputs = ms ++ rest →
    exec (.memWritediff f) s = .next ({ s.ran
      (cycleOps s.params s.targetId (BitVec.ofNat 16 (32 * k)) pre back f) rest with
      att := 1#4, spdValid := true, spdOd := f }.completed 0x3A000000#32)

/-- Frame of PG_WRITE, RG_WRITE, MEM_WRITEALL and MEM_WRITEDIFF, however they end: of the engine's registers only
`ATT`, `SPD_VALID` and `SPD_OD` change, no event flag but DONE, and every byte of memory reads as before (R142, R143,
R152, R153). -/
def Obligations.WritingCommandsFrame : Prop :=
  ∀ (i : Instr) (s t : State), i.opc = 0x30#8 ∨ i.opc = 0x31#8 ∨ i.opc = 0x39#8 ∨ i.opc = 0x3A#8 →
    exec i s = .next t →
    t.mem = s.mem ∧ t.lc = s.lc ∧ t.targetId = s.targetId ∧ t.romId = s.romId ∧ t.crc16 = s.crc16 ∧
    t.lastDisc = s.lastDisc ∧ t.lastDevice = s.lastDevice ∧ t.rxLen = s.rxLen ∧ t.npagesA = s.npagesA ∧
    t.npagesB = s.npagesB ∧ t.detCount = s.detCount ∧ t.detTrunc = s.detTrunc ∧ t.searching = s.searching ∧
    t.params = s.params ∧ t.port = s.port ∧ t.hostRead = s.hostRead ∧
    ∀ k, 1 ≤ k → t.event.getLsbD k = s.event.getLsbD k

/-! ## CRC-16 -/

/-- R161, R162: CRC16_CLR sets the register to CRC16_INIT, CRC16_BYTE feeds one byte, least significant bit first; both
in every lifecycle state, with nothing else changed and no link operation. -/
def Obligations.Crc16ClrAndByte : Prop :=
  ∀ s : State,
    exec .crc16Clr s = .next ({ s with crc16 := s.params.crc16Init }.completed 0x40000000#32) ∧
    ∀ v : Byte, exec (.crc16Byte v) s = .next ({ s with
      crc16 := Nat.repeat (fun r : Half => if r.getLsbD 0 then (r >>> 1) ^^^ 0xA001#16 else r >>> 1) 8
        (s.crc16 ^^^ v.setWidth 16) }.completed 0x41000000#32)

/-- R163: CRC16_CHK on a page that holds values: an empty page is VALID and EMPTY and leaves the register; any other
page goes through the register whole, and is valid iff that leaves 0xB001. A page that
lacks a value stops it at the first byte that has none (R31; 93 U9). -/
def Obligations.Crc16ChkValidates : Prop :=
  (∀ (s : State) (p : Byte) (bs : List Byte), bs.length < 32 → HoldsBytes s.mem (0x2000 + 32 * p.toNat) bs →
    s.mem.read? (0x2000 + 32 * p.toNat + bs.length) = none →
    exec (.crc16Chk p) s = .fault (.unwritten (0x2000 + 32 * p.toNat + bs.length))) ∧
  ∀ (s : State) (p : Byte) (pg : List Byte), pg.length = 32 → HoldsBytes s.mem (0x2000 + 32 * p.toNat) pg →
    (pg = List.replicate 32 0x55#8 → exec (.crc16Chk p) s = .next (s.completed 0x42000300#32)) ∧
    (pg ≠ List.replicate 32 0x55#8 →
      exec (.crc16Chk p) s = .next ({ s with crc16 := crc16 pg s.params.crc16Init }.completed
        (if crc16 pg s.params.crc16Init = 0xB001#16 then 0x42000100#32 else 0x42000000#32)))

/-- R164: CRC16_GEN stamps bytes 30 and 31 of a page that is not empty with the complement of the CRC of its 30 data
bytes, low byte first, and changes no other byte; an empty page is left as it is, VAL 0b10 (log 21). A page that
lacks a value stops it at the first byte that has none (R31; 93 U9). -/
def Obligations.Crc16GenStamps : Prop :=
  (∀ (s : State) (p : Byte) (bs : List Byte), bs.length < 32 → HoldsBytes s.mem (0x2000 + 32 * p.toNat) bs →
    s.mem.read? (0x2000 + 32 * p.toNat + bs.length) = none →
    exec (.crc16Gen p) s = .fault (.unwritten (0x2000 + 32 * p.toNat + bs.length))) ∧
  ∀ (s : State) (p : Byte) (pg : List Byte), pg.length = 32 → HoldsBytes s.mem (0x2000 + 32 * p.toNat) pg →
    (pg = List.replicate 32 0x55#8 → exec (.crc16Gen p) s = .next (s.completed 0x43000200#32)) ∧
    (pg ≠ List.replicate 32 0x55#8 →
      let r := crc16 (pg.take 30) s.params.crc16Init
      ∃ m, exec (.crc16Gen p) s = .next ({ s with crc16 := r, mem := m }.completed 0x43000000#32) ∧
        m.read? (0x2000 + 32 * p.toNat + 30) = some ((r ^^^ 0xFFFF#16).extractLsb' 0 8) ∧
        m.read? (0x2000 + 32 * p.toNat + 31) = some ((r ^^^ 0xFFFF#16).extractLsb' 8 8) ∧
        ∀ x, x < 0x2000 + 32 * p.toNat + 30 ∨ 0x2000 + 32 * p.toNat + 32 ≤ x → m.read? x = s.mem.read? x)

/-- R165: for every start value, the register over all 32 bytes is 0xB001 iff the stored pair, low byte first, is the
complement of the register over the 30 data bytes. -/
def Obligations.Crc16ResidueMeansStoredComplement : Prop :=
  ∀ (data : List Byte) (lo hi : Byte) (init : Half),
    crc16 (data ++ [lo, hi]) init = 0xB001#16 ↔ crc16 data init ^^^ 0xFFFF#16 = hi ++ lo

/-- R167: after CRC16_GEN on a page, CRC16_CHK reports it valid. -/
def Obligations.StampedPageValidates : Prop :=
  ∀ (s t : State) (p : Byte), exec (.crc16Gen p) s = .next t →
    ∃ u, exec (.crc16Chk p) t = .next u ∧ (resultVal u.result).getLsbD 0 = true

/-- R167: changing any single byte of a valid page makes its register end elsewhere, for every start value. -/
def Obligations.EverySingleByteChangeIsDetected : Prop :=
  ∀ (pg : List Byte) (j : Nat) (b : Byte) (init : Half), j < pg.length → pg[j]? ≠ some b →
    crc16 pg init = 0xB001#16 → crc16 (pg.set j b) init ≠ 0xB001#16

/-! ## The host port -/

/-- R27, R48: a host may read `STATUS` whatever `LOCK` is, and its fields are these; bits 15 and 31:20 read 0. It is read
only: that a write to it is refused by name is the model's choice (log 16). -/
def Obligations.StatusLayout : Prop :=
  ∀ s : State,
    (∀ rest, s.inputs = .read 0x0004#16 .word :: rest →
      step s = .next { s with inputs := rest, hostRead := some (statusWord s) }) ∧
    (∀ v rest, s.inputs = .write 0x0004#16 .word v :: rest → step s = .refused (.readOnly 0x0004#16)) ∧
    (statusWord s).extractLsb' 0 2 = (match s.lc with | .unclaimed => 0#2 | .claimed => 1#2 | .closed => 2#2) ∧
    (statusWord s).getLsbD 2 = s.lock ∧ (statusWord s).getLsbD 3 = s.searching ∧
    (statusWord s).getLsbD 4 = s.lastDevice ∧ (statusWord s).getLsbD 5 = s.spdValid ∧
    (statusWord s).getLsbD 6 = s.spdOd ∧ (statusWord s).getLsbD 7 = s.detTrunc ∧
    (statusWord s).extractLsb' 8 7 = s.lastDisc ∧ (statusWord s).getLsbD 15 = false ∧
    (statusWord s).extractLsb' 16 4 = s.att ∧ (statusWord s).extractLsb' 20 12 = 0#12

/-- R41, R44, R46, R47, R31: host reads, which have no side effect. A 4-byte read of a register returns its value, low
byte first: STATUS, RESULT, EVENT and DETCNT whatever `LOCK` is, the others while `LOCK=0`. A 1-byte read of a buffer
window returns the byte, and stops where nothing has been written: DET at any time for entries below MAXDEV, the other
windows while `LOCK=0`. That a 1-byte read leaves its byte zero-extended is the model's reading (log 11, DEDUCED). -/
def Obligations.HostReadsReturnValues : Prop :=
  ∀ (s : State) (a : Half) (rest : List Move),
    (∀ v : Word, s.inputs = .read a .word :: rest →
      (a, v) ∈ [(0x0004#16, statusWord s), (0x0008#16, s.result), (0x000C#16, s.event),
          (0x0028#16, s.detCount.setWidth 32)] ∨
        (s.lock = false ∧ (a, v) ∈ [(0x0010#16, s.targetId.extractLsb' 0 32),
          (0x0014#16, s.targetId.extractLsb' 32 32), (0x0018#16, s.romId.extractLsb' 0 32),
          (0x001C#16, s.romId.extractLsb' 32 32), (0x0020#16, s.crc16.setWidth 32),
          (0x0024#16, 0#7 ++ s.npagesB ++ 0#7 ++ s.npagesA), (0x002C#16, s.rxLen.setWidth 32)]) →
      step s = .next { s with inputs := rest, hostRead := some v }) ∧
    (s.inputs = .read a .byte :: rest →
      (0x0400 ≤ a.toNat ∧ a.toNat ≤ 0x04FF ∧ (a.toNat - 0x0400) / 8 < s.params.maxDev) ∨
        (s.lock = false ∧ (0x0100 ≤ a.toNat ∧ a.toNat ≤ 0x02FF ∨ 0x2000 ≤ a.toNat ∧ a.toNat ≤ 0x5FFF)) →
      (∀ b, s.mem.read? a.toNat = some b →
        step s = .next { s with inputs := rest, hostRead := some (b.setWidth 32) }) ∧
      (s.mem.read? a.toNat = none → step s = .fault (.unwritten a.toNat)))

/-- R41, R14, R16, R26, R48: host writes with `LOCK=0`. EVENT clears the flags written 1 and may be written at any time;
TGT_LO, TGT_HI and CRC16 store; an NPAGES field over 256 leaves that count unchanged and the other is written; TXBUF,
IMG_A and IMG_B store the byte and no other byte changes. That a 1-byte write of any value stores its bits 7:0 is the
model's reading (log 11, DEDUCED). -/
def Obligations.HostWritesStore : Prop :=
  ∀ (s : State) (a : Half) (n : Width) (v : Word) (rest : List Move), s.inputs = .write a n v :: rest →
    let s' := { s with inputs := rest }
    (a = 0x000C#16 → n = .word → step s = .next { s' with event := s.event &&& ~~~v }) ∧
    (s.lock = false → n = .word →
      (a = 0x0010#16 → step s = .next { s' with targetId := s.targetId.extractLsb' 32 32 ++ v }) ∧
      (a = 0x0014#16 → step s = .next { s' with targetId := v ++ s.targetId.extractLsb' 0 32 }) ∧
      (a = 0x0020#16 → step s = .next { s' with crc16 := v.extractLsb' 0 16 }) ∧
      (a = 0x0024#16 → step s = .next { s' with
        npagesA := if (v.extractLsb' 0 9).toNat ≤ 256 then v.extractLsb' 0 9 else s.npagesA
        npagesB := if (v.extractLsb' 16 9).toNat ≤ 256 then v.extractLsb' 16 9 else s.npagesB })) ∧
    (s.lock = false → n = .byte →
      (0x0100 ≤ a.toNat ∧ a.toNat ≤ 0x01FF ∨ 0x2000 ≤ a.toNat ∧ a.toNat ≤ 0x5FFF) →
      ∃ m, step s = .next { s' with mem := m } ∧
        ∀ x, m.read? x = if x = a.toNat then some (v.extractLsb' 0 8) else s.mem.read? x)

/-- R42, R45, R48: a read of CMD, a write to a read-only location, an access of the wrong width to a register or a buffer
window, one at an address where no register starts and no buffer byte lies, and one to a `DET` entry at or beyond MAXDEV
are refused in every state; so is, while `LOCK=1`, an access of the right width to `TARGET_ID`, `ROM_ID`, `CRC16`,
`NPAGES`, `RXLEN`, `TXBUF`, `RXBUF`, `IMG_A` or `IMG_B`. -/
def Obligations.HostAccessesRefused : Prop :=
  ∀ (s : State) (m : Move) (a : Half) (rest : List Move), s.inputs = m :: rest →
    let window := 0x0100 ≤ a.toNat ∧ a.toNat ≤ 0x02FF ∨ 0x0400 ≤ a.toNat ∧ a.toNat ≤ 0x04FF ∨
      0x2000 ≤ a.toNat ∧ a.toNat ≤ 0x5FFF
    let register := a.toNat ≤ 0x002C ∧ a.toNat % 4 = 0
    let bytes := m = .read a .byte ∨ ∃ v, m = .write a .byte v
    let word := m = .read a .word ∨ ∃ v, m = .write a .word v
    let det := 0x0400 ≤ a.toNat ∧ a.toNat ≤ 0x04FF
    (m = .read 0x0000#16 .word → step s = .refused (.writeOnly 0x0000#16)) ∧
    (∀ v, m = .write a .word v → a ∈ [0x0004#16, 0x0008#16, 0x0028#16] → step s = .refused (.readOnly a)) ∧
    (∀ v, m = .write a .word v → s.lock = false → a ∈ [0x0018#16, 0x001C#16, 0x002C#16] →
      step s = .refused (.readOnly a)) ∧
    (∀ v, m = .write a .byte v → s.lock = false → 0x0200 ≤ a.toNat ∧ a.toNat ≤ 0x02FF →
      step s = .refused (.readOnly a)) ∧
    (∀ v, m = .write a .byte v → det → (a.toNat - 0x0400) / 8 < s.params.maxDev → step s = .refused (.readOnly a)) ∧
    (bytes → det → s.params.maxDev ≤ (a.toNat - 0x0400) / 8 →
      step s = .refused (.detBeyond ((a.toNat - 0x0400) / 8))) ∧
    (bytes → register → step s = .refused (.accessWidth a)) ∧
    (word → a.toNat % 4 = 0 → window → step s = .refused (.accessWidth a)) ∧
    (word → a.toNat % 4 ≠ 0 → step s = .refused (.misaligned a)) ∧
    (bytes ∨ word ∧ a.toNat % 4 = 0 → ¬window → ¬register → step s = .refused (.unmapped a)) ∧
    (s.lock = true → word →
      a ∈ [0x0010#16, 0x0014#16, 0x0018#16, 0x001C#16, 0x0020#16, 0x0024#16, 0x002C#16] →
      step s = .refused (.engineOwned a)) ∧
    (s.lock = true → bytes → window → ¬det → step s = .refused (.engineOwned a))

/-- R14, R16, R45: a step changes `TARGET_ID` only by a host write to TGT_LO or TGT_HI or by hardware reset, and
`NPAGES_B` only by a host write to NPAGES or by hardware reset: no command and no pass writes them. -/
def Obligations.EngineNeverWritesTargetId : Prop :=
  ∀ s t : State, s.Inv → step s = .next t →
    (t.targetId ≠ s.targetId → s.inputs.head? = some .hardwareReset ∨
      ∃ v, s.inputs.head? = some (.write 0x0010#16 .word v) ∨ s.inputs.head? = some (.write 0x0014#16 .word v)) ∧
    (t.npagesB ≠ s.npagesB → s.inputs.head? = some .hardwareReset ∨
      ∃ v, s.inputs.head? = some (.write 0x0024#16 .word v))
end

