-- ==== Sys2Proof/Laws/Memory.lean ====
section
/-! SUPPORT. The laws of the buffers: a read after a write, and the canonical form every operation keeps. -/

namespace Sys2Proof.Machine

@[simp] theorem cellsFrom_nil (a : Nat) : cellsFrom a [] = [] := rfl

@[simp] theorem cellsFrom_cons (a : Nat) (b : Byte) (bs : List Byte) :
    cellsFrom a (b :: bs) = (a, b) :: cellsFrom (a + 1) bs := rfl

/-- The addresses of the cells are those of the bytes. -/
theorem mem_cellsFrom_addr {a : Nat} {bs : List Byte} {c : Host.Cell} (h : c ∈ cellsFrom a bs) :
    a ≤ c.1 ∧ c.1 < a + bs.length := by
  induction bs generalizing a with
  | nil => simp at h
  | cons b bs ih =>
    simp only [cellsFrom_cons, List.mem_cons] at h
    rcases h with rfl | h
    · simp
    · have := ih h
      simp only [List.length_cons]
      omega

theorem cellsFrom_wf (a : Nat) (bs : List Byte) : Memory.wf (cellsFrom a bs) := by
  induction bs generalizing a with
  | nil => exact List.Pairwise.nil
  | cons b bs ih => exact List.pairwise_cons.2 ⟨fun c hc => (mem_cellsFrom_addr hc).1, ih _⟩

@[simp] theorem Memory.read?_nil (a : Nat) : Memory.read? [] a = none := rfl

theorem Memory.read?_cons (c : Host.Cell) (m : Memory) (a : Nat) :
    Memory.read? (c :: m) a = if c.1 = a then some c.2 else Memory.read? m a := rfl

theorem Memory.read?_append (m n : Memory) (a : Nat) :
    Memory.read? (m ++ n) a = (Memory.read? m a).or (Memory.read? n a) := by
  induction m with
  | nil => rfl
  | cons c m ih =>
    rw [List.cons_append, read?_cons, read?_cons]
    split
    · rfl
    · exact ih

/-- A read looks only at entries at its address. -/
theorem Memory.read?_filter (m : Memory) (q : Nat → Bool) (a : Nat) :
    Memory.read? (m.filter fun c => q c.1) a = if q a then Memory.read? m a else none := by
  induction m with
  | nil => simp
  | cons c m ih =>
    by_cases hc : c.1 = a
    · subst hc
      by_cases hq : q c.1 <;> simp_all [read?_cons]
    · by_cases hq : q c.1 <;> simp_all [read?_cons]

/-- The cells' bytes, read back. -/
theorem Memory.read?_cellsFrom (a : Nat) (bs : List Byte) (x : Nat) :
    Memory.read? (cellsFrom a bs) x = if a ≤ x then bs[x - a]? else none := by
  induction bs generalizing a with
  | nil => simp
  | cons b bs ih =>
    rw [cellsFrom_cons, read?_cons, ih]
    by_cases h : a = x
    · simp [h]
    · by_cases hle : a ≤ x
      · have h1 : a + 1 ≤ x := by omega
        have h2 : x - a = (x - (a + 1)) + 1 := by omega
        simp [h, hle, h1, h2]
      · have h1 : ¬a + 1 ≤ x := by omega
        simp [h, hle, h1]

/-- A read after a write: inside the stored bytes the byte stored, elsewhere what was there. -/
theorem Memory.read?_writeBytes (m : Memory) (a : Nat) (bs : List Byte) (x : Nat) :
    (m.writeBytes a bs).read? x = if a ≤ x ∧ x < a + bs.length then bs[x - a]? else m.read? x := by
  unfold Memory.writeBytes
  rw [read?_append, read?_append, read?_cellsFrom,
    read?_filter m (fun y => decide (y < a)), read?_filter m (fun y => decide (a + bs.length ≤ y))]
  by_cases h1 : x < a
  · have : ¬a ≤ x := by omega
    have : ¬a + bs.length ≤ x := by omega
    simp [*]
  · by_cases h2 : x < a + bs.length
    · have h3 : a ≤ x := by omega
      have h4 : x - a < bs.length := by omega
      simp [h1, h2, h3, List.getElem?_eq_getElem h4]
    · have h3 : a ≤ x := by omega
      have h4 : bs.length ≤ x - a := by omega
      have h5 : a + bs.length ≤ x := by omega
      simp [h1, h2, h3, h5, List.getElem?_eq_none h4]

theorem Memory.read?_writeBytes_outside {m : Memory} {a : Nat} {bs : List Byte} {x : Nat}
    (h : x < a ∨ a + bs.length ≤ x) : (m.writeBytes a bs).read? x = m.read? x := by
  rw [read?_writeBytes, if_neg (by omega)]

/-- Every entry after a write is an old one or a stored byte's. -/
theorem Memory.mem_writeBytes {m : Memory} {a : Nat} {bs : List Byte} {c : Host.Cell} (h : c ∈ m.writeBytes a bs) :
    c ∈ m ∨ (a ≤ c.1 ∧ c.1 < a + bs.length) := by
  unfold Memory.writeBytes at h
  simp only [List.mem_append, List.mem_filter] at h
  rcases h with (h | h) | h
  · exact .inl h.1
  · exact .inr (mem_cellsFrom_addr h)
  · exact .inl h.1

/-- A write keeps the canonical form. -/
theorem Memory.writeBytes_wf {m : Memory} (hm : m.wf) (a : Nat) (bs : List Byte) : (m.writeBytes a bs).wf := by
  unfold Memory.writeBytes
  refine List.pairwise_append.2 ⟨List.pairwise_append.2 ⟨hm.filter _, cellsFrom_wf a bs, ?_⟩, hm.filter _, ?_⟩
  · intro c hc d hd
    have h1 : c.1 < a := by simpa using (List.mem_filter.1 hc).2
    have h2 := mem_cellsFrom_addr hd
    omega
  · intro c hc d hd
    have h2 : a + bs.length ≤ d.1 := by simpa using (List.mem_filter.1 hd).2
    rcases List.mem_append.1 hc with hc | hc
    · have h1 : c.1 < a := by simpa using (List.mem_filter.1 hc).2
      omega
    · have h1 := mem_cellsFrom_addr hc
      omega

/-- Storing one byte keeps the canonical form. -/
theorem Memory.write_wf {m : Memory} (hm : m.wf) (a : Nat) (b : Byte) : (m.write a b).wf := writeBytes_wf hm a [b]

/-- The byte just stored is read, every other address reads as before. -/
theorem Memory.read?_write (m : Memory) (a : Nat) (b : Byte) (x : Nat) :
    (m.write a b).read? x = if x = a then some b else m.read? x := by
  unfold Memory.write
  rw [read?_writeBytes]
  by_cases h : x = a
  · subst h; simp
  · rw [if_neg (by simp; omega), if_neg h]

/-- A buffer read succeeds exactly when every byte holds a value, and then gives those bytes. -/
theorem Memory.readBytes_ok {m : Memory} {a n : Nat} {bs : List Byte} :
    m.readBytes a n = .ok bs ↔ bs.length = n ∧ ∀ i < n, m.read? (a + i) = bs[i]? := by
  induction n generalizing a bs with
  | zero =>
    simp only [Memory.readBytes, Except.ok.injEq, Nat.not_lt_zero, false_implies, implies_true, and_true]
    exact ⟨fun h => h ▸ rfl, fun h => (List.eq_nil_of_length_eq_zero h).symm⟩
  | succ n ih =>
    unfold Memory.readBytes
    cases hb : m.read? a with
    | none =>
      simp only [reduceCtorEq, false_iff, not_and]
      intro hl h
      have := h 0 (by omega)
      rw [Nat.add_zero, hb] at this
      rw [eq_comm, List.getElem?_eq_none_iff] at this
      omega
    | some b =>
      simp only []
      cases hr : m.readBytes (a + 1) n with
      | error x =>
        simp only [reduceCtorEq, false_iff, not_and]
        intro hl h
        cases bs with
        | nil => simp at hl
        | cons c cs =>
          have : m.readBytes (a + 1) n = .ok cs := ih.2 ⟨by simpa using hl, fun i hi => by
            have := h (i + 1) (by omega)
            rwa [List.getElem?_cons_succ, show a + (i + 1) = a + 1 + i by omega] at this⟩
          rw [hr] at this
          cases this
      | ok cs =>
        have hcs := ih.1 hr
        simp only [Except.ok.injEq]
        constructor
        · rintro rfl
          refine ⟨by simp [hcs.1], fun i hi => ?_⟩
          cases i with
          | zero => simpa using hb
          | succ i =>
            rw [List.getElem?_cons_succ, ← hcs.2 i (by omega)]
            congr 1
            omega
        · rintro ⟨hl, h⟩
          cases bs with
          | nil => simp at hl
          | cons c ds =>
            have h0 := h 0 (by omega)
            rw [Nat.add_zero, hb] at h0
            simp only [List.length_cons, Nat.add_right_cancel_iff] at hl
            have hd : m.readBytes (a + 1) n = .ok ds := ih.2 ⟨hl, fun i hi => by
              have := h (i + 1) (by omega)
              rwa [List.getElem?_cons_succ, show a + (i + 1) = a + 1 + i by omega] at this⟩
            rw [hr] at hd
            cases hd
            simp at h0
            simp [h0]

/-- A buffer read that fails names an address that holds no value. -/
theorem Memory.readBytes_error {m : Memory} {a n x : Nat} (h : m.readBytes a n = .error x) :
    m.read? x = none ∧ a ≤ x ∧ x < a + n := by
  induction n generalizing a with
  | zero => simp [Memory.readBytes] at h
  | succ n ih =>
    unfold Memory.readBytes at h
    cases hb : m.read? a with
    | none =>
      rw [hb] at h
      cases h
      exact ⟨hb, by omega, by omega⟩
    | some b =>
      rw [hb] at h
      simp only [] at h
      cases hr : m.readBytes (a + 1) n with
      | error y =>
        rw [hr] at h
        cases h
        have := ih hr
        exact ⟨this.1, by omega, by omega⟩
      | ok cs =>
        rw [hr] at h
        cases h

/-- A read stops at the first address that holds no value (R31). -/
theorem Memory.readBytes_stops {m : Memory} {a n : Nat} {bs : List Byte} (hl : bs.length < n)
    (h : ∀ i < bs.length, m.read? (a + i) = bs[i]?) (hn : m.read? (a + bs.length) = none) :
    m.readBytes a n = .error (a + bs.length) := by
  induction bs generalizing a n with
  | nil =>
    obtain ⟨n, rfl⟩ : ∃ k, n = k + 1 := ⟨n - 1, by simp at hl; omega⟩
    rw [List.length_nil, Nat.add_zero] at hn ⊢
    rw [Memory.readBytes, hn]
    rfl
  | cons b bs ih =>
    obtain ⟨n, rfl⟩ : ∃ k, n = k + 1 := ⟨n - 1, by simp at hl; omega⟩
    rw [List.length_cons] at hl hn ⊢
    have h0 : m.read? a = some b := h 0 (by simp)
    have h1 := ih (a := a + 1) (n := n) (by omega)
      (fun i hi => by
        have := h (i + 1) (by simpa using hi)
        rwa [List.getElem?_cons_succ, show a + (i + 1) = a + 1 + i by omega] at this)
      (by rwa [show a + 1 + bs.length = a + (bs.length + 1) by omega])
    rw [Memory.readBytes, h0, h1]
    simp only [Except.error.injEq]
    omega

end Sys2Proof.Machine
end

