-- ==== Sys2Proof/Laws/Prog.lean ====
section
/-! SUPPORT. Running the sequencer's programs: one equation per combinator, and what each helper does in an
environment that answers at once. `Eng.adv` says what a run of answered link operations leaves, so that the helpers'
lemmas chain. -/

namespace Sys2Proof.Machine

/-! ## Combinators -/

@[simp] theorem Locals.withPhase_phase (l : Locals) (ph) : (l.withPhase ph).phase = ph := rfl
@[simp] theorem Locals.withPhase_bytesRead (l : Locals) (ph) : (l.withPhase ph).bytesRead = l.bytesRead := rfl
@[simp] theorem Locals.withPhase_withPhase (l : Locals) (a b) : (l.withPhase a).withPhase b = l.withPhase b := rfl
@[simp] theorem Locals.withBytes_phase (l : Locals) (bs) : (l.withBytes bs).phase = l.phase := rfl
@[simp] theorem Locals.withBytes_bytesRead (l : Locals) (bs) : (l.withBytes bs).bytesRead = bs := rfl
@[simp] theorem Locals.withBytes_withBytes (l : Locals) (a b) : (l.withBytes a).withBytes b = l.withBytes b := rfl
@[simp] theorem Locals.withPhase_withBytes (l : Locals) (ph bs) :
    (l.withPhase ph).withBytes bs = (l.withBytes bs).withPhase ph := rfl
@[simp] theorem Locals.withPage_phase (l : Locals) (p) : (l.withPage p).phase = l.phase := rfl
@[simp] theorem Locals.withPage_page (l : Locals) (p) : (l.withPage p).page = p := rfl
theorem Locals.withBytes_self (l : Locals) : l.withBytes l.bytesRead = l := rfl

/-- `e` with other locals. -/
def Eng.setLoc (e : Eng) (l : Locals) : Eng := { e with locals := l }

@[simp] theorem Eng.setLoc_script (e : Eng) (l) : (e.setLoc l).script = e.script := rfl
@[simp] theorem Eng.setLoc_params (e : Eng) (l) : (e.setLoc l).params = e.params := rfl
@[simp] theorem Eng.setLoc_locals (e : Eng) (l) : (e.setLoc l).locals = l := rfl
@[simp] theorem Eng.setLoc_timed (e : Eng) (l) : (e.setLoc l).timed = e.timed := rfl
@[simp] theorem Eng.setLoc_raised (e : Eng) (l) : (e.setLoc l).raised = e.raised := rfl
@[simp] theorem Eng.setLoc_received (e : Eng) (l) : (e.setLoc l).received = e.received := rfl
@[simp] theorem Eng.setLoc_got (e : Eng) (l) : (e.setLoc l).got = e.got := rfl
@[simp] theorem Eng.setLoc_regs (e : Eng) (l) : (e.setLoc l).regs = e.regs := rfl
@[simp] theorem Eng.setLoc_setLoc (e : Eng) (l l') : (e.setLoc l).setLoc l' = e.setLoc l' := rfl
theorem Eng.setLoc_self (e : Eng) : e.setLoc e.locals = e := rfl

@[simp] theorem Prog.ret_run {α : Type} (a : α) (e : Eng) : Prog.ret a e = .ok a e := rfl

@[simp] theorem Prog.raise_run {α : Type} (c : Cond) (e : Eng) : (Prog.raise c : Prog α) e = .raise c e := rfl

@[simp] theorem Prog.ask_run {α : Type} (f : Eng → α) (e : Eng) : Prog.ask f e = .ok (f e) e := rfl

@[simp] theorem Prog.setRegs_run (f : Regs → Regs) (e : Eng) :
    Prog.setRegs f e = .ok () { e with regs := f e.regs } := rfl

@[simp] theorem Prog.setLocals_run (f : Locals → Locals) (e : Eng) :
    Prog.setLocals f e = .ok () (e.setLoc (f e.locals)) := rfl

@[simp] theorem setPhase_run (ph : Phase) (e : Eng) :
    setPhase ph e = .ok () (e.setLoc (e.locals.withPhase ph)) := rfl

theorem Prog.bind_ok {α β : Type} {x : Prog α} {f : α → Prog β} {e e' : Eng} {a : α} (h : x e = .ok a e') :
    x.bind f e = f a e' := by
  simp only [Prog.bind, h]

theorem Prog.bind_raise {α β : Type} {x : Prog α} {f : α → Prog β} {e e' : Eng} {c : Cond} (h : x e = .raise c e') :
    x.bind f e = .raise c e' := by
  simp only [Prog.bind, h]

theorem Prog.bind_wait {α β : Type} {x : Prog α} {f : α → Prog β} {e e' : Eng} {op : LinkOp}
    (h : x e = .wait op e') : x.bind f e = .wait op e' := by
  simp only [Prog.bind, h]

theorem Prog.bind_fault {α β : Type} {x : Prog α} {f : α → Prog β} {e : Eng} {r : Fault} (h : x e = .fault r) :
    x.bind f e = .fault r := by
  simp only [Prog.bind, h]

theorem Prog.andThen_ok {β : Type} {x : Prog Unit} {y : Prog β} {e e' : Eng} (h : x e = .ok () e') :
    x.andThen y e = y e' := Prog.bind_ok h

theorem Prog.andThen_raise {β : Type} {x : Prog Unit} {y : Prog β} {e e' : Eng} {c : Cond} (h : x e = .raise c e') :
    x.andThen y e = .raise c e' := Prog.bind_raise h

theorem Prog.catch_ok {α : Type} {x : Prog α} {h : Cond → Prog α} {e e' : Eng} {a : α} (hx : x e = .ok a e') :
    x.catch h e = .ok a e' := by
  simp only [Prog.catch, hx]

theorem Prog.catch_raise {α : Type} {x : Prog α} {h : Cond → Prog α} {e e' : Eng} {c : Cond}
    (hx : x e = .raise c e') : x.catch h e = h c e' := by
  simp only [Prog.catch, hx]

@[simp] theorem Prog.ret_bind {α β : Type} (a : α) (f : α → Prog β) : (Prog.ret a).bind f = f a := rfl

@[simp] theorem Prog.ask_bind {α β : Type} (g : Eng → α) (f : α → Prog β) (e : Eng) :
    (Prog.ask g).bind f e = f (g e) e := rfl

@[simp] theorem Prog.setRegs_andThen {β : Type} (f : Regs → Regs) (y : Prog β) (e : Eng) :
    (Prog.setRegs f).andThen y e = y { e with regs := f e.regs } := rfl

@[simp] theorem Prog.setLocals_andThen {β : Type} (f : Locals → Locals) (y : Prog β) (e : Eng) :
    (Prog.setLocals f).andThen y e = y (e.setLoc (f e.locals)) := rfl

@[simp] theorem setPhase_andThen {β : Type} (ph : Phase) (y : Prog β) (e : Eng) :
    (setPhase ph).andThen y e = y (e.setLoc (e.locals.withPhase ph)) := rfl

theorem Prog.bind_assoc {α β γ : Type} (x : Prog α) (f : α → Prog β) (g : β → Prog γ) :
    (x.bind f).bind g = x.bind fun a => (f a).bind g := by
  funext e
  simp only [Prog.bind]
  cases x e <;> rfl

theorem Prog.andThen_bind {β γ : Type} (x : Prog Unit) (y : Prog β) (g : β → Prog γ) :
    (x.andThen y).bind g = x.andThen (y.bind g) := Prog.bind_assoc x (fun _ => y) g

theorem Prog.andThen_assoc {γ : Type} (x y : Prog Unit) (z : Prog γ) :
    (x.andThen y).andThen z = x.andThen (y.andThen z) := Prog.bind_assoc x (fun _ => y) fun _ => z

/-! ## Answered link operations -/

/-- `e` after the link operations `ops` were answered by the moves `ms`, with `rest` still to come. -/
def Eng.adv (e : Eng) (ops : List LinkOp) (ms rest : List Move) : Eng :=
  { e with
    script := rest
    got := e.got ++ ms
    regs := { e.regs with issued := e.regs.issued ++ ops } }

@[simp] theorem Eng.adv_script (e : Eng) (ops ms rest) : (e.adv ops ms rest).script = rest := rfl
@[simp] theorem Eng.adv_params (e : Eng) (ops ms rest) : (e.adv ops ms rest).params = e.params := rfl
@[simp] theorem Eng.adv_locals (e : Eng) (ops ms rest) : (e.adv ops ms rest).locals = e.locals := rfl
@[simp] theorem Eng.adv_timed (e : Eng) (ops ms rest) : (e.adv ops ms rest).timed = e.timed := rfl
@[simp] theorem Eng.adv_raised (e : Eng) (ops ms rest) : (e.adv ops ms rest).raised = e.raised := rfl
@[simp] theorem Eng.adv_received (e : Eng) (ops ms rest) : (e.adv ops ms rest).received = e.received := rfl
@[simp] theorem Eng.adv_got (e : Eng) (ops ms rest) : (e.adv ops ms rest).got = e.got ++ ms := rfl
@[simp] theorem Eng.adv_regs (e : Eng) (ops ms rest) :
    (e.adv ops ms rest).regs = { e.regs with issued := e.regs.issued ++ ops } := rfl

@[simp] theorem Eng.adv_adv (e : Eng) (ops ops' : List LinkOp) (ms ms' rest rest' : List Move) :
    (e.adv ops ms rest).adv ops' ms' rest' = e.adv (ops ++ ops') (ms ++ ms') rest' := by
  simp [Eng.adv, List.append_assoc]

@[simp] theorem Eng.adv_setLoc (e : Eng) (l : Locals) (ops ms rest) :
    (e.adv ops ms rest).setLoc l = (e.setLoc l).adv ops ms rest := rfl

theorem Eng.adv_nil (e : Eng) : e.adv [] [] e.script = e := by
  simp [Eng.adv]

/-- A link operation whose reply is ready (R52). -/
theorem link_reply {e : Eng} {op : LinkOp} {r : Reply} {rest : List Move} (h : e.script = .reply r :: rest) :
    link op e = .ok r (e.adv [op] [.reply r] rest) := by
  unfold link
  rw [h]
  rfl

/-- With no move to come the operation waits (R28). -/
theorem link_wait {e : Eng} {op : LinkOp} (h : e.script = []) : link op e = .wait op e := by
  cases e
  subst h
  rfl

/-- `Xfer` on an `ok` answer (R60). -/
theorem xfer_ok {e : Eng} {op : LinkOp} {d : List Byte} {b : Bool} {rest : List Move}
    (h : e.script = .reply (.ok d b) :: rest) :
    xfer op e = .ok (d, b) (e.adv [op] [.reply (.ok d b)] rest) := by
  unfold xfer
  rw [Prog.bind_ok (link_reply h)]
  rfl

/-- `Xfer` on any other answer raises TransportError (R60). -/
theorem xfer_failed {e : Eng} {op : LinkOp} {r : Reply} {rest : List Move} (hr : r.failed = true)
    (h : e.script = .reply r :: rest) : xfer op e = .raise .transportError (e.adv [op] [.reply r] rest) := by
  unfold xfer
  rw [Prog.bind_ok (link_reply h)]
  cases r with
  | ok d b => simp [Reply.failed] at hr
  | fail => rfl
  | timeout => rfl

theorem send_ok {e : Eng} {op : LinkOp} {d : List Byte} {b : Bool} {rest : List Move}
    (h : e.script = .reply (.ok d b) :: rest) : send op e = .ok () (e.adv [op] [.reply (.ok d b)] rest) := by
  unfold send
  rw [Prog.bind_ok (xfer_ok h)]
  rfl

theorem send_failed {e : Eng} {op : LinkOp} {r : Reply} {rest : List Move} (hr : r.failed = true)
    (h : e.script = .reply r :: rest) : send op e = .raise .transportError (e.adv [op] [.reply r] rest) := by
  unfold send
  rw [Prog.bind_raise (xfer_failed hr h)]

/-! ## Acknowledged operations -/

theorem Move.isAck_cases {m : Move} (h : m.isAck = true) : ∃ d, m = .reply (.ok d false) := by
  cases m with
  | reply r =>
    cases r with
    | ok d b => cases b <;> simp_all [Move.isAck]
    | fail => simp [Move.isAck] at h
    | timeout => simp [Move.isAck] at h
  | _ => simp [Move.isAck] at h

theorem Acks.nil {ms : List Move} (h : Acks 0 ms) : ms = [] := List.eq_nil_of_length_eq_zero h.1

/-- The first of some acknowledgements. -/
theorem Acks.cons {n : Nat} {ms : List Move} (h : Acks (n + 1) ms) :
    ∃ d ms', ms = .reply (.ok d false) :: ms' ∧ Acks n ms' := by
  cases ms with
  | nil => simp [Acks] at h
  | cons m ms' =>
    obtain ⟨d, rfl⟩ := Move.isAck_cases (h.2 m (by simp))
    exact ⟨d, ms', rfl, by simpa using h.1, fun x hx => h.2 x (by simp [hx])⟩

/-- Some acknowledgements split in two. -/
theorem Acks.split {m n : Nat} {ms : List Move} (h : Acks (m + n) ms) :
    ∃ a b, ms = a ++ b ∧ Acks m a ∧ Acks n b := by
  refine ⟨ms.take m, ms.drop m, (List.take_append_drop m ms).symm, ⟨?_, ?_⟩, ⟨?_, ?_⟩⟩
  · have := h.1
    simp
    omega
  · exact fun x hx => h.2 x (List.mem_of_mem_take hx)
  · have := h.1
    simp
    omega
  · exact fun x hx => h.2 x (List.mem_of_mem_drop hx)

theorem send_ack {e : Eng} {op : LinkOp} {ms rest : List Move} (h : Acks 1 ms) (hs : e.script = ms ++ rest) :
    send op e = .ok () (e.adv [op] ms rest) := by
  obtain ⟨d, ms', rfl, h'⟩ := h.cons
  obtain rfl := h'.nil
  exact send_ok hs

/-- `BufferClear` when the first poll reads not busy (R102). -/
theorem bufferClear_ack {e : Eng} {ms rest : List Move} (hp : 1 ≤ e.params.pollLimit) (h : Acks 1 ms)
    (hs : e.script = ms ++ rest) : bufferClear e = .ok () (e.adv [.stat] ms rest) := by
  obtain ⟨d, ms', rfl, h'⟩ := h.cons
  obtain rfl := h'.nil
  unfold bufferClear
  rw [Prog.ask_bind]
  obtain ⟨n, hn⟩ : ∃ n, e.params.pollLimit = n + 1 := ⟨e.params.pollLimit - 1, by omega⟩
  rw [hn, pollLoop, Prog.bind_ok (xfer_ok hs)]
  rfl

/-- `Reset()` answered at once (R104). -/
theorem busReset_ack {e : Eng} {ms rest : List Move} (hp : 1 ≤ e.params.pollLimit) (h : Acks 2 ms)
    (hs : e.script = ms ++ rest) : busReset e = .ok () (e.adv [.ctl .reset, .stat] ms rest) := by
  obtain ⟨d, ms', rfl, h'⟩ := h.cons
  rw [List.cons_append] at hs
  unfold busReset
  rw [Prog.bind_ok (link_reply hs)]
  simp only []
  rw [bufferClear_ack (e := e.adv _ _ _) hp h' (rest := rest) rfl]
  simp

/-- `e` after an `ok` speed selection (R19). -/
def Eng.setSpd (e : Eng) (od : Bool) : Eng := { e with regs := { e.regs with spdValid := true, spdOd := od } }

@[simp] theorem Eng.setSpd_script (e : Eng) (od) : (e.setSpd od).script = e.script := rfl
@[simp] theorem Eng.setSpd_params (e : Eng) (od) : (e.setSpd od).params = e.params := rfl
@[simp] theorem Eng.setSpd_locals (e : Eng) (od) : (e.setSpd od).locals = e.locals := rfl
@[simp] theorem Eng.setSpd_timed (e : Eng) (od) : (e.setSpd od).timed = e.timed := rfl
@[simp] theorem Eng.setSpd_raised (e : Eng) (od) : (e.setSpd od).raised = e.raised := rfl
@[simp] theorem Eng.setSpd_received (e : Eng) (od) : (e.setSpd od).received = e.received := rfl
@[simp] theorem Eng.setSpd_got (e : Eng) (od) : (e.setSpd od).got = e.got := rfl
@[simp] theorem Eng.setSpd_regs (e : Eng) (od) :
    (e.setSpd od).regs = { e.regs with spdValid := true, spdOd := od } := rfl

@[simp] theorem Eng.adv_setSpd (e : Eng) (od : Bool) (ops ms rest) :
    (e.adv ops ms rest).setSpd od = (e.setSpd od).adv ops ms rest := rfl

@[simp] theorem Eng.setLoc_setSpd (e : Eng) (l : Locals) (od : Bool) :
    (e.setLoc l).setSpd od = (e.setSpd od).setLoc l := rfl

@[simp] theorem Eng.setSpd_setSpd (e : Eng) (a b : Bool) : (e.setSpd a).setSpd b = e.setSpd b := rfl

/-- `SetSpeed` answered at once (R105). -/
theorem setSpeed_ack {e : Eng} {od : Bool} {ms rest : List Move} (h : Acks 1 ms) (hs : e.script = ms ++ rest) :
    setSpeed od e = .ok () ((e.setSpd od).adv [.ctl (.speed od)] ms rest) := by
  unfold setSpeed
  rw [Prog.andThen_ok (send_ack h hs)]
  rfl

/-- `RomCommand(match, d, TARGET_ID)` answered at once (R110). -/
theorem romCommand_match_ack {e : Eng} {d : Bool} {ms rest : List Move} (h : Acks 3 ms)
    (hs : e.script = ms ++ rest) :
    romCommand .matchRom d e = .ok ()
      ((e.setSpd d).adv
        [.ctl (.rom (romx e.params .matchRom d)), .ctl (.speed d), .bulkOut (romBytes e.regs.targetId)] ms rest) := by
  obtain ⟨a, b, rfl, ha, hb⟩ := Acks.split (m := 1) (n := 2) h
  obtain ⟨b1, b2, rfl, hb1, hb2⟩ := Acks.split (m := 1) (n := 1) hb
  unfold romCommand
  rw [Prog.ask_bind, Prog.andThen_ok (send_ack ha (by rw [hs, List.append_assoc])),
    Prog.andThen_ok (setSpeed_ack (e := e.adv _ _ _) hb1 (by rw [Eng.adv_script, List.append_assoc])),
    Prog.ask_bind]
  simp only [if_true]
  rw [send_ack (rest := rest) hb2 rfl]
  simp [Eng.adv, Eng.setSpd, List.append_assoc]

/-- `Reset(); RomCommand(match, d, TARGET_ID)` answered at once (R141). -/
theorem selectTarget_ack {e : Eng} {d : Bool} {ms rest : List Move} (hp : 1 ≤ e.params.pollLimit) (h : Acks 5 ms)
    (hs : e.script = ms ++ rest) :
    selectTarget d e = .ok () ((e.setSpd d).adv (selectOps e.params e.regs.targetId d) ms rest) := by
  obtain ⟨a, b, rfl, ha, hb⟩ := Acks.split (m := 2) (n := 3) h
  unfold selectTarget
  rw [Prog.andThen_ok (busReset_ack hp ha (by rw [hs, List.append_assoc])),
    romCommand_match_ack (e := e.adv _ _ _) hb rfl]
  simp [selectOps]

/-- `Write(bytes, 1)` answered at once; the drained data is not looked at (R108). -/
theorem writeWire_ack {e : Eng} {bytes : List Byte} {ms rest : List Move} (h : Acks 3 ms)
    (hs : e.script = ms ++ rest) : writeWire bytes true e = .ok () (e.adv (writeOps bytes) ms rest) := by
  obtain ⟨d1, ms1, rfl, h1⟩ := h.cons
  obtain ⟨d2, ms2, rfl, h2⟩ := h1.cons
  simp only [List.cons_append] at hs
  unfold writeWire
  rw [Prog.andThen_ok (send_ok hs), Prog.andThen_ok (send_ok rfl)]
  simp only [if_true]
  rw [send_ack h2 rfl]
  simp [writeOps]

/-- One full answer to a bulk read (R109). -/
theorem readBulk_bytes {e : Eng} {m : Nat} {d : List Byte} {rest : List Move} (hd : d.length ≤ m)
    (hs : e.script = bytesReply d :: rest) :
    readBulk m e = .ok d (e.adv [.bulkIn m] [bytesReply d] rest) := by
  unfold readBulk
  rw [Prog.bind_ok (xfer_ok hs), Prog.ret_run, List.take_of_length_le hd]
  rfl

/-- `ReadBit` answered at once (R107): bit 0 of the one byte. -/
theorem readBit_bytes {e : Eng} {d : List Byte} {b : Byte} {rest : List Move}
    (hs : e.script = bytesReply d :: bytesReply [b] :: rest) :
    readBit e = .ok (b.getLsbD 0) (e.adv [.ctl .rbit, .bulkIn 1] [bytesReply d, bytesReply [b]] rest) := by
  unfold readBit
  rw [Prog.andThen_ok (send_ok hs), Prog.bind_ok (readBulk_bytes (d := [b]) (by simp) rfl)]
  simp [bytesReply]

end Sys2Proof.Machine
end

