-- ==== Sys2Proof/Laws/Within.lean ====
section
/-! SUPPORT. What a piece of pseudocode can do, said once for every environment. A `Law` relates the sequencer before
and after (`R`), before and where it waits (`W`), and before to a fault (`F`); `Runs` says that one run obeys it and,
where it returns, that a postcondition holds. The structures `Law.Line`, `Law.Search` and `Law.Writes` list the changes
each family of helpers makes; a law closed under them holds of every program of the family. -/

namespace Sys2Proof.Machine

/-- What runs are held to. -/
structure Law where
  /-- From the start of a run to its return or to the condition it raised. -/
  R : Eng → Eng → Prop
  /-- From the start of a run to where it waits. -/
  W : Eng → Eng → Prop
  /-- From the start of a run to the fault it ended in. -/
  F : Eng → Fault → Prop

/-- An outcome of a run from `e` obeys `L`, and what is returned satisfies `Q`. -/
def Res.Obeys {α : Type} (L : Law) (e : Eng) (Q : α → Eng → Prop) : Res α → Prop
  | .ok a e' => L.R e e' ∧ Q a e'
  | .raise _ e' => L.R e e'
  | .wait _ e' => L.W e e'
  | .fault f => L.F e f

/-- The run of `x` from `e` obeys `L`, and what it returns satisfies `Q`. -/
def Runs {α : Type} (L : Law) (x : Prog α) (e : Eng) (Q : α → Eng → Prop) : Prop := (x e).Obeys L e Q

/-- Every run of `x` obeys `L`. -/
def Within {α : Type} (L : Law) (x : Prog α) : Prop := ∀ e, Runs L x e fun _ _ => True

/-- A law closed under composition, under link operations and under changes of the locals, that keeps the parameters. -/
structure Law.Closed (L : Law) : Prop where
  refl : ∀ e, L.R e e
  trans : ∀ {a b c}, L.R a b → L.R b c → L.R a c
  transW : ∀ {a b c}, L.R a b → L.W b c → L.W a c
  transF : ∀ {a b f}, L.R a b → L.F b f → L.F a f
  link : ∀ op, Within L (link op)
  locals : ∀ e l, L.R e (e.setLoc l)
  params : ∀ {a b}, L.R a b → b.params = a.params

variable {α β : Type} {L : Law}

theorem Runs.mono {x : Prog α} {e : Eng} {Q Q' : α → Eng → Prop} (h : Runs L x e Q) (hq : ∀ a e', Q a e' → Q' a e') :
    Runs L x e Q' := by
  unfold Runs at *
  cases hx : x e with
  | ok a e' =>
    rw [hx] at h
    exact ⟨h.1, hq a e' h.2⟩
  | _ =>
    rw [hx] at h
    exact h

theorem Within.runs {x : Prog α} (h : Within L x) (e : Eng) : Runs L x e fun _ _ => True := h e

theorem Runs.ret (hL : L.Closed) {a : α} {e : Eng} {Q : α → Eng → Prop} (h : Q a e) : Runs L (Prog.ret a) e Q :=
  ⟨hL.refl e, h⟩

theorem Within.ret (hL : L.Closed) (a : α) : Within L (Prog.ret a) := fun _ => .ret hL trivial

theorem Within.raise (hL : L.Closed) (c : Cond) : Within L (Prog.raise c : Prog α) := fun e => hL.refl e

theorem Runs.ask (hL : L.Closed) {f : Eng → α} {e : Eng} {Q : α → Eng → Prop} (h : Q (f e) e) :
    Runs L (Prog.ask f) e Q := ⟨hL.refl e, h⟩

theorem Within.ask (hL : L.Closed) (f : Eng → α) : Within L (Prog.ask f) := fun _ => .ask hL trivial

/-- An outcome that follows a lawful beginning. -/
theorem Res.Obeys.after (hL : L.Closed) {e e' : Eng} {Q : α → Eng → Prop} {r : Res α} (h : L.R e e')
    (hr : r.Obeys L e' Q) : r.Obeys L e Q := by
  cases r with
  | ok b e'' => exact ⟨hL.trans h hr.1, hr.2⟩
  | raise c e'' => exact hL.trans h hr
  | wait op e'' => exact hL.transW h hr
  | fault f => exact hL.transF h hr

theorem Runs.bind (hL : L.Closed) {x : Prog α} {f : α → Prog β} {e : Eng} {Q : α → Eng → Prop}
    {Q' : β → Eng → Prop} (hx : Runs L x e Q) (hf : ∀ a e', L.R e e' → Q a e' → Runs L (f a) e' Q') :
    Runs L (x.bind f) e Q' := by
  unfold Runs at hx ⊢
  cases h : x e with
  | ok a e' =>
    rw [h] at hx
    rw [Prog.bind_ok h]
    exact (hf a e' hx.1 hx.2).after hL hx.1
  | raise c e' =>
    rw [h] at hx
    rw [Prog.bind_raise h]
    exact hx
  | wait op e' =>
    rw [h] at hx
    rw [Prog.bind_wait h]
    exact hx
  | fault r =>
    rw [h] at hx
    rw [Prog.bind_fault h]
    exact hx

theorem Within.bind (hL : L.Closed) {x : Prog α} {f : α → Prog β} (hx : Within L x) (hf : ∀ a, Within L (f a)) :
    Within L (x.bind f) := fun e => .bind hL (hx e) fun a e' _ _ => hf a e'

theorem Within.andThen (hL : L.Closed) {x : Prog Unit} {y : Prog β} (hx : Within L x) (hy : Within L y) :
    Within L (x.andThen y) := .bind hL hx fun _ => hy

theorem Runs.andThen (hL : L.Closed) {x : Prog Unit} {y : Prog β} {e : Eng} {Q : Unit → Eng → Prop}
    {Q' : β → Eng → Prop} (hx : Runs L x e Q) (hy : ∀ e', L.R e e' → Q () e' → Runs L y e' Q') :
    Runs L (x.andThen y) e Q' := .bind hL hx fun _ => hy

theorem Runs.catch (hL : L.Closed) {x : Prog α} {h : Cond → Prog α} {e : Eng} {Q : α → Eng → Prop}
    (hx : Runs L x e Q) (hh : ∀ c e', L.R e e' → Runs L (h c) e' Q) : Runs L (x.catch h) e Q := by
  unfold Runs Prog.catch at *
  cases hxe : x e with
  | ok a e' =>
    rw [hxe] at hx
    exact hx
  | raise c e' =>
    rw [hxe] at hx
    exact (hh c e' hx).after hL hx
  | wait op e' =>
    rw [hxe] at hx
    exact hx
  | fault r =>
    rw [hxe] at hx
    exact hx

theorem Within.catch (hL : L.Closed) {x : Prog α} {h : Cond → Prog α} (hx : Within L x) (hh : ∀ c, Within L (h c)) :
    Within L (x.catch h) := fun e => .catch hL (hx e) fun c e' _ => hh c e'

theorem Within.ite {p : Prop} [Decidable p] {x y : Prog α} (hx : Within L x) (hy : Within L y) :
    Within L (if p then x else y) := by
  split
  · exact hx
  · exact hy

theorem Within.setRegs {f : Regs → Regs} (h : ∀ e : Eng, L.R e { e with regs := f e.regs }) :
    Within L (Prog.setRegs f) := fun e => ⟨h e, trivial⟩

theorem Within.setLocals (hL : L.Closed) (f : Locals → Locals) : Within L (Prog.setLocals f) :=
  fun e => ⟨hL.locals e _, trivial⟩

theorem Within.setPhase (hL : L.Closed) (ph : Phase) : Within L (setPhase ph) := .setLocals hL _

/-! ## Link operations -/

/-- What `Link` can do: answer or raise PassTimeout, or wait; only the moves, the record of operations and, where it
waits, the moves dropped change. -/
theorem link_cases (op : LinkOp) (e : Eng) :
    (∃ r sc g, link op e = .ok r { e with
      script := sc, got := g, regs := { e.regs with issued := e.regs.issued ++ [op] } }) ∨
    (∃ sc g, e.timed = true ∧ link op e = .raise .passTimeout { e with script := sc, got := g }) ∨
    (∃ sc, link op e = .wait op { e with script := sc } ∧ ∀ r rest, sc ≠ .reply r :: rest) := by
  unfold link
  generalize e.script = script
  induction script with
  | nil => exact .inr (.inr ⟨[], rfl, by simp⟩)
  | cons m rest ih =>
    cases m with
    | reply r => exact .inl ⟨r, rest, _, rfl⟩
    | passTimeout =>
      by_cases h : (e.timed && !e.got.isEmpty) = true
      · refine .inr (.inl ⟨rest, e.got ++ [.passTimeout], ?_, ?_⟩)
        · simp only [Bool.and_eq_true] at h
          exact h.1
        · change (if (e.timed && !e.got.isEmpty) = true then _ else _) = _
          rw [if_pos h]
      · have h2 : linkFrom op (.passTimeout :: rest) e = linkFrom op rest e := by
          change (if (e.timed && !e.got.isEmpty) = true then _ else _) = _
          rw [if_neg h]
        rw [h2]
        exact ih
    | read a n => exact .inr (.inr ⟨_, rfl, by simp⟩)
    | write a n v => exact .inr (.inr ⟨_, rfl, by simp⟩)
    | accept => exact .inr (.inr ⟨_, rfl, by simp⟩)
    | tick => exact .inr (.inr ⟨_, rfl, by simp⟩)
    | hardwareReset => exact .inr (.inr ⟨_, rfl, by simp⟩)

/-- A law holds of link operations if it allows the changes they make. -/
theorem Within.link_of {op : LinkOp}
    (hok : ∀ (e : Eng) sc g i, L.R e { e with script := sc, got := g, regs := { e.regs with issued := i } })
    (hr : ∀ (e : Eng) sc g, L.R e { e with script := sc, got := g })
    (hw : ∀ (e : Eng) sc, L.W e { e with script := sc }) : Within L (Machine.link op) := by
  intro e
  unfold Runs
  rcases link_cases op e with ⟨r, sc, g, h⟩ | ⟨sc, g, -, h⟩ | ⟨sc, h, -⟩
  · rw [h]; exact ⟨hok e _ _ _, trivial⟩
  · rw [h]; exact hr e _ _
  · rw [h]; exact hw e _

theorem Within.xfer (hL : L.Closed) (op : LinkOp) : Within L (xfer op) :=
  .bind hL (hL.link op) fun a => by
    cases a with
    | ok d b => exact .ret hL _
    | fail => exact .raise hL _
    | timeout => exact .raise hL _

theorem Within.send (hL : L.Closed) (op : LinkOp) : Within L (send op) :=
  .bind hL (.xfer hL op) fun _ => .ret hL _

/-! ## Line primitives -/

/-- A law closed under what a bounded hard reset changes. -/
structure Law.Resets (L : Law) : Prop extends L.Closed where
  spdLost : ∀ e : Eng, L.R e { e with regs := { e.regs with spdValid := false } }

/-- A law closed under what the line primitives' helpers change: the speed registers. -/
structure Law.Line (L : Law) : Prop extends L.Resets where
  spdSet : ∀ (e : Eng) od, L.R e (e.setSpd od)

theorem Within.pollLoop (hL : L.Closed) (n : Nat) : Within L (pollLoop n) := by
  induction n with
  | zero => exact .raise hL _
  | succ n ih => exact .bind hL (.xfer hL _) fun r => .ite ih (.ret hL _)

theorem Within.bufferClear (hL : L.Closed) : Within L bufferClear := .bind hL (.ask hL _) fun n => .pollLoop hL n

theorem Within.hardResetLoop (hL : L.Resets) (n : Nat) : Within L (hardResetLoop n) := by
  induction n with
  | zero => exact .ret hL.toClosed _
  | succ n ih =>
    refine .bind hL.toClosed (hL.link _) fun a => ?_
    cases a with
    | ok d b => exact .andThen hL.toClosed (.setRegs hL.spdLost) (.ret hL.toClosed _)
    | fail => exact .ret hL.toClosed _
    | timeout => exact ih

theorem Within.hardResetBounded (hL : L.Resets) : Within L hardResetBounded :=
  .bind hL.toClosed (.ask hL.toClosed _) fun n => .hardResetLoop hL n

theorem Within.busReset (hL : L.Resets) : Within L busReset := by
  have hfail : Within L (Machine.hardResetBounded.bind fun ok =>
      if ok then Machine.bufferClear else Prog.raise .transportError) :=
    .bind hL.toClosed (.hardResetBounded hL) fun _ => .ite (.bufferClear hL.toClosed) (.raise hL.toClosed _)
  refine .bind hL.toClosed (hL.link _) fun a => ?_
  cases a with
  | ok d b => exact .bufferClear hL.toClosed
  | fail => exact hfail
  | timeout => exact hfail

theorem Within.setSpeed (hL : L.Line) (od : Bool) : Within L (setSpeed od) :=
  .andThen hL.toClosed (.send hL.toClosed _) fun e => ⟨hL.spdSet e od, trivial⟩

theorem Within.writeBit (hL : L.Closed) (b : Bool) : Within L (writeBit b) := .send hL _

theorem Within.readBulk (hL : L.Closed) (m : Nat) : Within L (readBulk m) :=
  .bind hL (.xfer hL _) fun _ => .ret hL _

/-- A bulk read returns at most the bytes asked for (R52). -/
theorem Runs.readBulk (hL : L.Closed) (m : Nat) (e : Eng) :
    Runs L (readBulk m) e fun d _ => d.length ≤ m :=
  .bind hL (Within.xfer hL _ e) fun r e' _ _ => .ret hL (by simp)

theorem Within.readBit (hL : L.Closed) : Within L readBit := by
  refine .andThen hL (.send hL _) (.bind hL (.readBulk hL _) fun d => ?_)
  match d with
  | [] => exact .raise hL _
  | [_] => exact .ret hL _
  | _ :: _ :: _ => exact .raise hL _

theorem Within.writeWire (hL : L.Closed) (bytes : List Byte) (clr : Bool) : Within L (writeWire bytes clr) :=
  .andThen hL (.send hL _) (.andThen hL (.send hL _) (.ite (.send hL _) (.ret hL _)))

theorem Within.romCommand (hL : L.Line) (s : RomSel) (d : Bool) : Within L (romCommand s d) :=
  .bind hL.toClosed (.ask hL.toClosed _) fun _ =>
    .andThen hL.toClosed (.send hL.toClosed _) <|
      .andThen hL.toClosed (.setSpeed hL d) <|
        .bind hL.toClosed (.ask hL.toClosed _) fun _ => .send hL.toClosed _

theorem Within.readExactLoop (hL : L.Closed) (n fuel : Nat) (acc : List Byte) :
    Within L (readExactLoop n fuel acc) := by
  induction fuel generalizing acc with
  | zero => exact .ret hL _
  | succ fuel ih =>
    exact .ite (.ret hL _) <| .bind hL (.ask hL _) fun c => .bind hL (.readBulk hL _) fun d =>
      .ite (.raise hL _) (.andThen hL (.setLocals hL _) (ih _))

theorem Within.readExact (hL : L.Closed) (n : Nat) : Within L (readExact n) :=
  .andThen hL (.setLocals hL _) (.readExactLoop hL _ _ _)

/-- `ReadExact(n)` returns exactly `n` bytes (R111), and the locals hold at most `n` where it is cut short. -/
theorem Runs.readExactLoop (hL : L.Closed) (n fuel : Nat) (acc : List Byte) (e : Eng) (h : acc.length ≤ n)
    (hf : n ≤ acc.length + fuel) : Runs L (readExactLoop n fuel acc) e fun d _ => d.length = n := by
  induction fuel generalizing acc e with
  | zero => exact .ret hL (by omega)
  | succ fuel ih =>
    unfold Machine.readExactLoop
    by_cases h1 : n ≤ acc.length
    · rw [if_pos h1]
      exact .ret hL (by omega)
    · rw [if_neg h1]
      refine .bind hL (.ask hL (Q := fun _ _ => True) trivial) fun c e1 _ _ =>
        .bind hL (.readBulk hL _ e1) fun d e2 _ hd => ?_
      by_cases h2 : d = []
      · rw [if_pos h2]
        exact hL.refl _
      · rw [if_neg h2]
        have h3 : 1 ≤ d.length := List.length_pos_iff.2 h2
        refine .andThen hL (Within.setLocals hL _ e2) fun e3 _ _ => ih _ _ ?_ ?_
        · rw [List.length_append]; omega
        · rw [List.length_append]; omega

theorem Runs.readExact (hL : L.Closed) (n : Nat) (e : Eng) : Runs L (readExact n) e fun d _ => d.length = n :=
  .andThen hL (Within.setLocals hL _ e) fun e' _ _ => .readExactLoop hL n n [] e' (by simp) (by simp)

/-! ## Error completion -/

theorem Within.done (hL : L.Closed) : Within L done := .ret hL _

/-- The epilogue of a command that is no search (R172). -/
theorem Within.epilogue (hL : L.Resets) : Within L (epilogue false) :=
  .bind hL.toClosed (.hardResetBounded hL) fun _ => .ret hL.toClosed _

/-- The epilogue of a search command (R172). -/
theorem Within.epilogueSearch (hL : L.Resets) (hd : ∀ e : Eng, L.R e { e with regs := { e.regs with lastDevice := true } }) :
    Within L (Machine.epilogue true) :=
  .bind hL.toClosed (.hardResetBounded hL) fun _ => .ite (.setRegs hd) (.ret hL.toClosed _)

end Sys2Proof.Machine
end

