-- ==== Sys2Proof/Laws/Bodies.lean ====
section
/-! SUPPORT. What the bodies of the commands and the background pass can do (Laws/Within.lean): one structure of closure
conditions per family, and one lemma per body. -/

namespace Sys2Proof.Machine

variable {L : Law}

/-! ## ROM search -/

/-- A law closed under what a search pass changes. -/
structure Law.Search (L : Law) : Prop extends L.Line where
  lastDevice : ∀ e : Eng, L.R e { e with regs := { e.regs with lastDevice := true } }
  romId : ∀ (e : Eng) id, L.R e { e with regs := { e.regs with romId := id } }
  found : ∀ (e : Eng) lz, lz ≤ 64 →
    L.R e { e with regs := { e.regs with lastDisc := BitVec.ofNat 7 lz, lastDevice := decide (lz = 0) } }
  init : ∀ e : Eng, L.R e { e with regs := { e.regs with lastDisc := 0#7, lastDevice := false, romId := 0#64 } }

/-- The walk ends with a bookmark that is a position, or 0 (R120, R123). -/
theorem Runs.walk (hL : L.Search) (ks : List Nat) (lz : Nat) (e : Eng) (hks : ∀ k ∈ ks, k ≤ 64) (hlz : lz ≤ 64) :
    Runs L (walk ks lz) e fun w _ => ∀ z, w = some z → z ≤ 64 := by
  have hC := hL.toClosed
  induction ks generalizing lz e with
  | nil => exact .ret hC fun z hz => by simp_all
  | cons k ks ih =>
    refine .andThen hC (Within.setLocals hC _ e) fun e1 _ _ => .bind hC (Within.readBit hC e1) fun b e2 _ _ =>
      .bind hC (Within.readBit hC e2) fun c e3 _ _ => ?_
    by_cases h : (b && c) = true
    · rw [if_pos h]
      exact .ret hC fun z hz => by simp at hz
    · rw [if_neg h]
      refine .bind hC (Within.ask hC _ e3) fun d e4 _ _ => .andThen hC (Within.setLocals hC _ e4) fun e5 _ _ =>
        .andThen hC (Within.writeBit hC _ e5) fun e6 _ _ => .andThen hC (Within.setRegs (fun e => hL.romId e _) e6)
          fun e7 _ _ => ih _ _ (fun x hx => hks x (by simp [hx])) ?_
      unfold bookmark
      split
      · exact hks k (by simp)
      · exact hlz

theorem Within.passFail (hL : L.Search) : Within L passFail :=
  .andThen hL.toClosed (.setRegs hL.lastDevice) (.ret hL.toClosed _)

theorem positions_le {k : Nat} (h : k ∈ positions) : k ≤ 64 := by
  simp only [positions, List.mem_range'_1] at h
  omega

theorem Within.searchPass (hL : L.Search) : Within L searchPass := by
  have hC := hL.toClosed
  refine .andThen hC (.busReset hL.toResets) (.andThen hC (.setSpeed hL.toLine _) (.andThen hC (.writeWire hC _ _) ?_))
  intro e
  refine .bind hC (Runs.walk hL _ 0 e (fun _ => positions_le) (by omega)) fun w e1 _ hw => ?_
  cases w with
  | none => exact Within.passFail hL e1
  | some lz =>
    refine .bind hC (Within.ask hC _ e1) fun v e2 _ _ => ?_
    split
    · exact .andThen hC (Within.setRegs (fun e => hL.found e lz (hw lz rfl)) e2) fun e3 _ _ => Within.ret hC _ e3
    · exact Within.passFail hL e2

theorem Within.searchInit (hL : L.Search) : Within L searchInit := .setRegs hL.init

theorem Within.passBody (hL : L.Search) : Within L passBody :=
  .bind hL.toClosed (.searchPass hL) fun _ => .ite (.done hL.toClosed) (.ret hL.toClosed _)

/-- An enumeration returns at most as many ids as there is room for (R127). -/
theorem Runs.enumLoop (hL : L.Search) (n : Nat) (ids : List RomId) (e : Eng) :
    Runs L (enumLoop n ids) e fun r _ => r.1.length ≤ ids.length + n := by
  have hC := hL.toClosed
  induction n generalizing ids e with
  | zero => exact .ret hC (by simp)
  | succ n ih =>
    refine .bind hC (Within.searchPass hL e) fun found e1 _ _ => ?_
    cases found with
    | false => exact .ret hC (by simp)
    | true =>
      rw [if_pos rfl]
      refine .bind hC (α := RomId × Bool) (Within.ask hC _ e1) fun r e2 _ _ => ?_
      by_cases h : r.2 = true
      · rw [if_pos h]
        exact .ret hC (by simp)
      · rw [if_neg h]
        exact (ih _ e2).mono fun a e' ha => by
          rw [List.length_append, List.length_singleton] at ha
          omega

/-- Also for the parameters at its start: at most MAXDEV ids (R127). -/
theorem Runs.enumerate (hL : L.Search) (e : Eng) :
    Runs L enumerate e fun r e' => r.1.length ≤ e'.params.maxDev := by
  have hC := hL.toClosed
  refine .andThen hC (Within.searchInit hL e) fun e1 _ _ =>
    .bind hC (.ask hC (Q := fun n e' => n = e'.params.maxDev) rfl) fun n e2 _ hn => ?_
  have h := Runs.enumLoop hL n [] e2
  unfold Runs at h ⊢
  cases hr : Machine.enumLoop n [] e2 with
  | ok r e3 =>
    rw [hr] at h
    have h2 : r.1.length ≤ [].length + n := h.2
    refine ⟨h.1, ?_⟩
    change r.1.length ≤ e3.params.maxDev
    rw [hC.params h.1, ← hn]
    simpa using h2
  | _ =>
    rw [hr] at h
    exact h

/-- The engine after a batch of at most MAXDEV ids is delivered (R129). -/
def Eng.delivered (e : Eng) (ids : List RomId) (trunc : Bool) : Eng :=
  { e with
    regs := { e.regs with
      mem := e.regs.mem.writeBytes (detAddr 0 0) (batchBytes ids)
      detCount := BitVec.ofNat 6 ids.length
      detTrunc := trunc }
    raised := raiseFlags e.raised evDetect }

theorem deliver_run (ids : List RomId) (trunc : Bool) (e : Eng) : deliver ids trunc e = .ok () (e.delivered ids trunc) :=
  rfl

/-- A law closed under what SRCH_ENUM and the background pass change. -/
structure Law.Delivers (L : Law) : Prop extends L.Search where
  deliver : ∀ (e : Eng) ids trunc, ids.length ≤ e.params.maxDev → L.R e (e.delivered ids trunc)

theorem Within.enumBody (hL : L.Delivers) : Within L enumBody := by
  have hC := hL.toClosed
  intro e
  refine .bind hC (Runs.enumerate hL.toSearch e) fun r e1 _ hr => .andThen hC (Q := fun _ _ => True) ?_ fun e2 _ _ =>
    Within.ret hC _ e2
  exact ⟨hL.deliver e1 r.1 r.2 hr, trivial⟩

/-- The error completion of a search command (R172). -/
theorem Within.errorCompletionSearch (hL : L.Search) (c : Cond) : Within L (errorCompletion true c) := by
  have hC := hL.toClosed
  have h : Within L ((Prog.ask fun e => e.locals.phase).bind fun ph =>
      (Machine.epilogue true).andThen (Prog.ret (⟨c.err, ph, 0⟩ : Completion))) :=
    .bind hC (.ask hC _) fun _ => .andThen hC (.epilogueSearch hL.toResets hL.lastDevice) (.ret hC _)
  cases c with
  | verifyFailed => exact .ret hC _
  | _ => exact h

theorem Within.guardedSearch (hL : L.Search) {body : Prog Completion} (h : Within L body) :
    Within L (guarded true body) := .catch hL.toClosed h (.errorCompletionSearch hL)

/-- A law closed under what a background pass changes beside deliveries (R96). -/
structure Law.Background (L : Law) : Prop extends L.Delivers where
  untimed : ∀ e : Eng, L.R e { e with timed := false }
  srchErr : ∀ e : Eng, L.R e { e with raised := raiseFlags e.raised evSrchErr }

theorem Within.backgroundBody (hL : L.Background) : Within L backgroundBody := by
  have hC := hL.toClosed
  intro e
  have h := Runs.enumerate hL.toSearch e
  unfold Runs at h
  unfold Runs Machine.backgroundBody
  cases hr : Machine.enumerate e with
  | ok r e1 =>
    rw [hr] at h
    exact Res.Obeys.after hC h.1 (r := Machine.deliver r.1 r.2 e1) ⟨hL.deliver e1 r.1 r.2 h.2, trivial⟩
  | raise c e1 =>
    rw [hr] at h
    have h1 : Within L ((Machine.epilogue true).andThen (raiseEvent evSrchErr)) :=
      .andThen hC (.epilogueSearch hL.toResets hL.lastDevice) fun e => ⟨hL.srchErr e, trivial⟩
    exact Res.Obeys.after hC (hC.trans h (hL.untimed e1)) (h1 _)
  | wait op e1 =>
    rw [hr] at h
    exact h
  | fault f =>
    rw [hr] at h
    exact h

/-! ## Line primitives -/

/-- The error completion of a command that is no search (R172). -/
theorem Within.errorCompletion (hL : L.Line) (c : Cond) : Within L (errorCompletion false c) := by
  have hC := hL.toClosed
  have h : Within L ((Prog.ask fun e => e.locals.phase).bind fun ph =>
      (Machine.epilogue false).andThen (Prog.ret (⟨c.err, ph, 0⟩ : Completion))) :=
    .bind hC (.ask hC _) fun _ => .andThen hC (.epilogue hL.toResets) (.ret hC _)
  cases c with
  | verifyFailed => exact .ret hC _
  | _ => exact h

theorem Within.guarded (hL : L.Line) {body : Prog Completion} (h : Within L body) :
    Within L (guarded false body) := .catch hL.toClosed h (.errorCompletion hL)

theorem Within.romBody (hL : L.Line) (sel : BitVec 2) (d : Bool) : Within L (romBody sel d) := by
  unfold Machine.romBody
  cases romSel? sel with
  | none => exact .ret hL.toClosed _
  | some x => exact .andThen hL.toClosed (.romCommand hL x d) (.done hL.toClosed)

/-- A law closed under what CLAIM and CLOSE change. -/
structure Law.Lifecycle (L : Law) : Prop extends L.Resets where
  claimed : ∀ e : Eng, L.R e { e with regs := { e.regs with lc := .claimed } }

theorem Within.claimBody (hL : L.Lifecycle) : Within L claimBody := by
  have hC := hL.toClosed
  have hf : Within L claimFailed := .ret hC _
  refine .bind hC (hC.link _) fun a => ?_
  cases a with
  | ok d b =>
    exact .bind hC (.hardResetBounded hL.toResets) fun _ => .ite
      (.catch hC (.andThen hC (.bufferClear hC) (.andThen hC (.setRegs hL.claimed) (.ret hC _))) fun _ => hf) hf
  | fail => exact hf
  | timeout => exact hf

theorem Within.closeBody (hC : L.Closed) (h : ∀ e : Eng, L.R e { e with regs := { e.regs with lc := .closed } }) :
    Within L closeBody :=
  .bind hC (hC.link _) fun _ => .andThen hC (.setRegs h) (.ret hC _)

/-! ## Scratchpad writes -/

/-- Where a command may read bytes: `TXBUF`, `IMG_A` and `IMG_B` (R41). -/
def sourceAddr (a : Nat) : Prop := 0x0100 ≤ a ∧ a ≤ 0x01FF ∨ 0x2000 ≤ a ∧ a ≤ 0x5FFF

/-- The page count is in its range (R23). -/
def Eng.pagesOk (e : Eng) : Prop := e.regs.npagesA.toNat ≤ 256

/-- Nothing is asked of a read: the page count is out of its range, or the law allows every fault. -/
def Law.Lax (L : Law) (e : Eng) : Prop := ¬e.pagesOk ∨ ∀ e f, L.F e f

/-- A law closed under what the attempts of a writing or whole-memory command change. -/
structure Law.Attempts (L : Law) : Prop extends L.Line where
  firstAttempt : ∀ e : Eng, L.R e { e with regs := { e.regs with att := 1#4 } }
  nextAttempt : ∀ e : Eng, e.regs.att.toNat < e.params.retryAttempts →
    L.R e { e with regs := { e.regs with att := e.regs.att + 1#4 } }

/-- A law closed under what the writing commands do: attempts, and reads that only a source byte without a value stops
while the page count is in its range. -/
structure Law.Writes (L : Law) : Prop extends L.Attempts where
  load : ∀ (e : Eng) a, sourceAddr a ∨ L.Lax e → e.regs.mem.read? a = none → L.F e (.unwritten a)
  lax : ∀ {a b}, L.R a b → L.Lax a → L.Lax b

/-- A read of source bytes. -/
theorem Runs.loadBytes (hL : L.Writes) (a n : Nat) (e : Eng) (h : (∀ i < n, sourceAddr (a + i)) ∨ L.Lax e) :
    Runs L (loadBytes a n) e fun _ _ => True := by
  unfold Runs Machine.loadBytes
  cases hr : e.regs.mem.readBytes a n with
  | ok bs => exact ⟨hL.refl e, trivial⟩
  | error x =>
    obtain ⟨h1, h2, h3⟩ := Memory.readBytes_error hr
    refine hL.load e x (h.imp_left fun h => ?_) h1
    have := h (x - a) (by omega)
    rwa [Nat.add_sub_cancel' h2] at this

theorem Within.loadBytes (hL : L.Writes) (a n : Nat) (h : ∀ i < n, sourceAddr (a + i)) : Within L (loadBytes a n) :=
  fun e => .loadBytes hL a n e (.inl h)

/-- `ATT <- ATT + 1` runs only while attempts are left (R141, R173). -/
theorem Within.ifAttemptsLeft (hL : L.Attempts) {α : Type} {x y : Prog α} (hx : Within L x) (hy : Within L y) :
    Within L (attemptsLeft.bind fun more => if more then Machine.nextAttempt.andThen x else y) := by
  have hC := hL.toClosed
  intro e
  refine .bind hC (.ask hC (Q := fun m e' => m = true → e'.regs.att.toNat < e'.params.retryAttempts)
    fun h => of_decide_eq_true h) fun m e1 _ hm => ?_
  cases m with
  | false => exact hy e1
  | true =>
    exact .andThen hC (Q := fun _ _ => True) ⟨hL.nextAttempt e1 (hm rfl), trivial⟩ fun e2 _ _ => hx e2

theorem Within.selectTarget (hL : L.Line) (d : Bool) : Within L (selectTarget d) :=
  .andThen hL.toClosed (.busReset hL.toResets) (.romCommand hL _ d)

theorem Within.writeSlices (hC : L.Closed) (sls : List (List Byte)) : Within L (writeSlices sls) := by
  induction sls with
  | nil => exact .ret hC _
  | cons sl sls ih => exact .andThen hC (.writeWire hC _ _) ih

theorem Within.fillScratchpad (hL : L.Line) (off : Half) (data : List Byte) (d : Bool) :
    Within L (fillScratchpad off data d) :=
  .andThen hL.toClosed (.setPhase hL.toClosed _) <| .andThen hL.toClosed (.selectTarget hL d) <|
    .bind hL.toClosed (.ask hL.toClosed _) fun _ =>
      .andThen hL.toClosed (.writeWire hL.toClosed _ _) (.writeSlices hL.toClosed _)

theorem Within.readScratchpad (hL : L.Line) (n : Nat) (d : Bool) : Within L (readScratchpad n d) :=
  .andThen hL.toClosed (.setPhase hL.toClosed _) <| .andThen hL.toClosed (.selectTarget hL d) <|
    .bind hL.toClosed (.ask hL.toClosed _) fun _ =>
      .andThen hL.toClosed (.writeWire hL.toClosed _ _) <|
        .ite (.bind hL.toClosed (.readExact hL.toClosed _) fun _ => .readExact hL.toClosed _)
          (.readExact hL.toClosed _)

theorem Within.copyScratchpad (hL : L.Line) (off : Half) (n : Nat) (d : Bool) : Within L (copyScratchpad off n d) :=
  .andThen hL.toClosed (.setPhase hL.toClosed _) <| .andThen hL.toClosed (.selectTarget hL d) <|
    .bind hL.toClosed (.ask hL.toClosed _) fun _ => .writeWire hL.toClosed _ _

theorem Within.cycleLoop (hL : L.Writes) (off : Half) (data : List Byte) (d : Bool) (fuel : Nat) :
    Within L (cycleLoop off data d fuel) := by
  have hC := hL.toClosed
  induction fuel with
  | zero => exact .raise hC _
  | succ fuel ih =>
    exact .andThen hC (.fillScratchpad hL.toLine _ _ _) <| .bind hC (.readScratchpad hL.toLine _ _) fun rb =>
      .ite (.copyScratchpad hL.toLine _ _ _) (.ifAttemptsLeft hL.toAttempts ih (.raise hC _))

theorem Within.scratchpadCycle (hL : L.Writes) (off : Half) (data : List Byte) (d : Bool) :
    Within L (scratchpadCycle off data d) :=
  .bind hL.toClosed (.ask hL.toClosed _) fun _ => .cycleLoop hL _ _ _ _

theorem sourceAddr_imgA {p : Nat} (hp : p < 256) : ∀ i < 32, sourceAddr (imgAAddr p 0 + i) := by
  intro i hi
  unfold sourceAddr imgAAddr
  omega

theorem sourceAddr_imgB {p : Nat} (hp : p < 256) : ∀ i < 32, sourceAddr (imgBAddr p 0 + i) := by
  intro i hi
  unfold sourceAddr imgBAddr
  omega

theorem sourceAddr_tx {n : Nat} (hn : n ≤ 256) : ∀ i < n, sourceAddr (txAddr 0 + i) := by
  intro i hi
  unfold sourceAddr txAddr
  omega

theorem Runs.writePage (hL : L.Writes) (p : Nat) (d : Bool) (e : Eng) (h : p < 256 ∨ L.Lax e) :
    Runs L (writePage p d) e fun _ _ => True :=
  .bind hL.toClosed (.loadBytes hL _ _ e (h.imp_left sourceAddr_imgA)) fun _ e1 _ _ =>
    Within.scratchpadCycle hL _ _ _ e1

theorem Within.writePage (hL : L.Writes) {p : Nat} (hp : p < 256) (d : Bool) : Within L (writePage p d) :=
  fun e => .writePage hL p d e (.inl hp)

theorem Within.firstAttempt (hL : L.Attempts) : Within L firstAttempt := .setRegs hL.firstAttempt

/-- PG_WRITE's body. -/
theorem Within.pgWrite (hL : L.Writes) (p : Byte) (d : Bool) :
    Within L (Machine.guarded false (Machine.firstAttempt.andThen ((Machine.setPhase .write).andThen
      ((Machine.writePage p.toNat d).andThen Machine.done)))) :=
  .guarded hL.toLine <| .andThen hL.toClosed (.firstAttempt hL.toAttempts) <| .andThen hL.toClosed (.setPhase hL.toClosed _) <|
    .andThen hL.toClosed (.writePage hL p.isLt d) (.done hL.toClosed)

/-- RG_WRITE's body. -/
theorem Within.rgWrite (hL : L.Writes) (h l n : Byte) :
    Within L (Machine.guarded false (Machine.firstAttempt.andThen <| (Machine.setPhase .write).andThen <|
      (Machine.loadBytes (txAddr 0) n.toNat).bind fun data =>
        (Machine.scratchpadCycle (regionOff h l) data false).andThen Machine.done)) :=
  .guarded hL.toLine <| .andThen hL.toClosed (.firstAttempt hL.toAttempts) <| .andThen hL.toClosed (.setPhase hL.toClosed _) <|
    .bind hL.toClosed (.loadBytes hL _ _ (sourceAddr_tx (by have := n.isLt; omega))) fun _ =>
      .andThen hL.toClosed (.scratchpadCycle hL _ _ _) (.done hL.toClosed)

/-! ## Whole-memory commands -/

theorem Within.restarting (hL : L.Attempts) {body : Prog Completion} (h : Within L body) (fuel : Nat) :
    Within L (restarting body fuel) := by
  have hC := hL.toClosed
  induction fuel with
  | zero => exact .guarded hL.toLine h
  | succ fuel ih =>
    refine .catch hC h fun c => ?_
    have hc : Within L ((Prog.ask fun e => e.locals.phase).bind fun ph =>
        (Machine.epilogue false).andThen <| attemptsLeft.bind fun more =>
          if more then Machine.nextAttempt.andThen (Machine.restarting body fuel)
          else Prog.ret (⟨c.err, ph, 0⟩ : Completion)) :=
      .bind hC (.ask hC _) fun _ => .andThen hC (.epilogue hL.toResets) (.ifAttemptsLeft hL ih (.ret hC _))
    cases c with
    | verifyFailed => exact .errorCompletion hL.toLine _
    | _ => exact hc

theorem Within.retried (hL : L.Attempts) {body : Prog Completion} (h : Within L body) : Within L (retried body) :=
  .andThen hL.toClosed (.firstAttempt hL) <| .bind hL.toClosed (.ask hL.toClosed _) fun _ => .restarting hL h _

theorem Runs.writePages (hL : L.Writes) (d : Bool) {ps : List Nat} (e : Eng) (h : (∀ p ∈ ps, p < 256) ∨ L.Lax e) :
    Runs L (writePages d ps) e fun _ _ => True := by
  have hC := hL.toClosed
  induction ps generalizing e with
  | nil => exact .ret hC trivial
  | cons p ps ih =>
    refine .andThen hC (Within.setLocals hC _ e) fun e1 h1 _ => .andThen hC
      (Runs.writePage hL p d e1 (h.imp (fun h => h p (by simp)) (hL.lax h1))) fun e2 h2 _ => ih e2 ?_
    exact h.imp (fun h q hq => h q (by simp [hq])) (hL.lax (hC.trans h1 h2))

theorem Runs.writeIfChanged (hL : L.Writes) (d : Bool) (p : Nat) (e : Eng) (h : p < 256 ∨ L.Lax e) :
    Runs L (writeIfChanged d p) e fun _ _ => True := by
  have hC := hL.toClosed
  refine .bind hC (.loadBytes hL _ _ e (h.imp_left sourceAddr_imgA)) fun new e1 h1 _ =>
    .bind hC (.loadBytes hL _ _ e1 (h.imp sourceAddr_imgB (hL.lax h1))) fun old e2 _ _ => ?_
  split
  · exact .ret hC trivial
  · exact Within.scratchpadCycle hL _ _ _ e2

theorem Runs.diffPages (hL : L.Writes) (d : Bool) {ps : List Nat} (e : Eng) (h : (∀ p ∈ ps, p < 256) ∨ L.Lax e) :
    Runs L (diffPages d ps) e fun _ _ => True := by
  have hC := hL.toClosed
  induction ps generalizing e with
  | nil => exact .ret hC trivial
  | cons p ps ih =>
    refine .andThen hC (Within.setLocals hC _ e) fun e1 h1 _ => .andThen hC
      (Runs.writeIfChanged hL d p e1 (h.imp (fun h => h p (by simp)) (hL.lax h1))) fun e2 h2 _ =>
        ih e2 ?_
    exact h.imp (fun h q hq => h q (by simp [hq])) (hL.lax (hC.trans h1 h2))

/-- The pages of an image in range are pages of the buffer (R23). -/
theorem pages_lt (L : Law) (e : Eng) : (∀ p ∈ List.range e.regs.npagesA.toNat, p < 256) ∨ L.Lax e := by
  by_cases h : e.pagesOk
  · refine .inl fun p hp => ?_
    unfold Eng.pagesOk at h
    have := List.mem_range.1 hp
    omega
  · exact .inr (.inl h)

/-- A body that visits the pages of `IMG_A` in ascending order (R152, R153). -/
theorem Within.overPages (hL : L.Writes) {f : List Nat → Prog Unit}
    (h : ∀ ps e, (∀ p ∈ ps, p < 256) ∨ L.Lax e → Runs L (f ps) e fun _ _ => True) :
    Within L ((Machine.setPhase .write).andThen <|
      (Prog.ask fun e => e.regs.npagesA.toNat).bind fun n => (f (List.range n)).andThen Machine.done) := by
  have hC := hL.toClosed
  refine .andThen hC (.setPhase hC _) fun e => .bind hC (.ask hC (Q := fun n e' => e' = e ∧ n = e.regs.npagesA.toNat)
    ⟨rfl, rfl⟩) fun n e1 _ hn => ?_
  obtain ⟨rfl, rfl⟩ := hn
  exact .andThen hC (h _ e1 (pages_lt L e1)) fun e2 _ _ => Within.done hC e2

theorem Within.writeallBody (hL : L.Writes) (f : Bool) : Within L (writeallBody f) :=
  .overPages hL fun _ e h => .writePages hL f e h

theorem Within.writediffBody (hL : L.Writes) (f : Bool) : Within L (writediffBody f) :=
  .overPages hL fun _ e h => .diffPages hL f e h

/-- A law closed under what reading the pages into `IMG_A` changes (R151). -/
structure Law.Pages (L : Law) : Prop extends L.Attempts where
  page : ∀ (e : Eng) p data, p < 256 → data.length = 32 →
    L.R e { e with regs := { e.regs with mem := e.regs.mem.writeBytes (imgAAddr p 0) data } }
  note : ∀ (e : Eng) p bs, p < 256 → bs.length ≤ 32 →
    L.R e { e with received := e.received ++ cellsFrom (imgAAddr p 0) bs }

/-- A law closed under what MEM_READALL changes before its end (R151). -/
structure Law.ReadAll (L : Law) : Prop extends L.Pages where
  npages : ∀ e : Eng, L.R e { e with regs := { e.regs with npagesA := 256#9 } }

theorem xfer_locals (op : LinkOp) (e : Eng) :
    (∃ r e', xfer op e = .ok r e' ∧ e'.locals = e.locals) ∨
    (∃ c e', xfer op e = .raise c e' ∧ e'.locals = e.locals) ∨ ∃ op' e', xfer op e = .wait op' e' := by
  unfold xfer
  rcases link_cases op e with ⟨r, sc, g, h⟩ | ⟨sc, g, -, h⟩ | ⟨sc, h, -⟩
  · rw [Prog.bind_ok h]
    cases r with
    | ok d b => exact .inl ⟨_, _, rfl, rfl⟩
    | fail => exact .inr (.inl ⟨_, _, rfl, rfl⟩)
    | timeout => exact .inr (.inl ⟨_, _, rfl, rfl⟩)
  · exact .inr (.inl ⟨_, _, Prog.bind_raise h, rfl⟩)
  · exact .inr (.inr ⟨_, _, Prog.bind_wait h⟩)

/-- A bulk read leaves the locals alone. -/
theorem readBulk_locals (m : Nat) (e : Eng) :
    (∃ d e', readBulk m e = .ok d e' ∧ e'.locals = e.locals) ∨
    (∃ c e', readBulk m e = .raise c e' ∧ e'.locals = e.locals) ∨ ∃ op e', readBulk m e = .wait op e' := by
  unfold readBulk
  rcases xfer_locals (.bulkIn m) e with ⟨r, e', h, hl⟩ | ⟨c, e', h, hl⟩ | ⟨op, e', h⟩
  · exact .inl ⟨_, _, Prog.bind_ok h, hl⟩
  · exact .inr (.inl ⟨_, _, Prog.bind_raise h, hl⟩)
  · exact .inr (.inr ⟨_, _, Prog.bind_wait h⟩)

theorem readBulk_length {m : Nat} {e e' : Eng} {d : List Byte} (h : readBulk m e = .ok d e') : d.length ≤ m := by
  unfold readBulk at h
  cases hx : xfer (.bulkIn m) e with
  | ok r e1 =>
    rw [Prog.bind_ok hx, Prog.ret_run] at h
    cases h
    simp
  | raise c e1 =>
    rw [Prog.bind_raise hx] at h
    cases h
  | wait op e1 =>
    rw [Prog.bind_wait hx] at h
    cases h
  | fault f =>
    rw [Prog.bind_fault hx] at h
    cases h

/-- Where `ReadExact(n)` is cut short the locals hold at most the `n` bytes wanted (R111). -/
theorem readExactLoop_raise {n fuel : Nat} {acc : List Byte} {e e' : Eng} {c : Cond} (h : acc.length ≤ n)
    (hl : e.locals.bytesRead = acc) (hr : readExactLoop n fuel acc e = .raise c e') :
    e'.locals.bytesRead.length ≤ n := by
  induction fuel generalizing acc e with
  | zero => simp [readExactLoop] at hr
  | succ fuel ih =>
    unfold readExactLoop at hr
    by_cases h1 : n ≤ acc.length
    · rw [if_pos h1] at hr
      simp at hr
    · rw [if_neg h1, Prog.ask_bind] at hr
      rcases readBulk_locals (min e.params.rdChunk (n - acc.length)) e with ⟨d, e1, he, hl1⟩ | ⟨c1, e1, he, hl1⟩ |
        ⟨op, e1, he⟩
      · rw [Prog.bind_ok he] at hr
        by_cases h2 : d = []
        · rw [if_pos h2, Prog.raise_run] at hr
          cases hr
          rw [hl1, hl]
          exact h
        · rw [if_neg h2, Prog.setLocals_andThen] at hr
          refine ih ?_ ?_ hr
          · have := readBulk_length he
            rw [List.length_append]
            omega
          · rfl
      · rw [Prog.bind_raise he] at hr
        cases hr
        rw [hl1, hl]
        exact h
      · rw [Prog.bind_wait he] at hr
        cases hr

theorem Within.readPage (hL : L.Pages) {p : Nat} (hp : p < 256) : Within L (readPage p) := by
  have hC := hL.toClosed
  have hnote : ∀ bs : List Byte, bs.length ≤ 32 → Within L (noteReceived (imgAAddr p 0) bs) :=
    fun bs hb e => ⟨hL.note e p bs hp hb, trivial⟩
  refine .andThen hC (.setLocals hC _) fun e => .bind hC (Q := fun d _ => d.length = 32) ?_ fun d e1 _ hd => ?_
  · unfold Runs Prog.catch
    have h0 := Runs.readExact hC Config.pageBytes e
    unfold Runs at h0
    cases hr : Machine.readExact Config.pageBytes e with
    | raise c e1 =>
      rw [hr] at h0
      have hb : e1.locals.bytesRead.length ≤ 32 := by
        unfold Machine.readExact at hr
        rw [Prog.setLocals_andThen] at hr
        exact readExactLoop_raise (acc := []) (Nat.zero_le _) (by rw [Eng.setLoc_locals]; rfl) hr
      exact Res.Obeys.after hC h0 (hC.trans (hL.note e1 p _ hp hb) (hC.refl _))
    | _ =>
      rw [hr] at h0
      exact h0
  · exact .andThen hC (hnote d hd.le e1) fun e2 _ _ => ⟨hL.page e2 p d hp hd, trivial⟩

theorem Within.readPages (hL : L.Pages) {ps : List Nat} (h : ∀ p ∈ ps, p < 256) : Within L (readPages ps) := by
  have hC := hL.toClosed
  induction ps with
  | nil => exact .ret hC _
  | cons p ps ih => exact .andThen hC (.readPage hL (h p (by simp))) (ih fun q hq => h q (by simp [hq]))

theorem Within.readallBody (hL : L.ReadAll) (f : Bool) : Within L (readallBody f) := by
  have hC := hL.toClosed
  exact .andThen hC (.setPhase hC _) <| .andThen hC (.selectTarget hL.toLine f) <| .bind hC (.ask hC _) fun _ =>
    .andThen hC (.writeWire hC _ _) <| .andThen hC (.readPages hL.toPages fun p hp => List.mem_range.1 hp) <|
      .andThen hC (.setRegs hL.npages) (.done hC)

/-- The engine after an error completion of MEM_READALL that began with the buffers `old` (R151, 93 U6). -/
def Eng.mixed (e : Eng) (old : Memory) : Eng :=
  { e with regs := { e.regs with
      mem := mixInto e.regs.draws old e.received (e.received.map (·.1)) old
      draws := e.regs.draws + 1 } }

/-- MEM_READALL whole: what is allowed before its end, and the mix at an error completion (R151). -/
theorem Within.readallCommand (hL : L.ReadAll) (hm : ∀ e e' : Eng, L.R e e' → L.R e (e'.mixed e.regs.mem)) (f : Bool) :
    Within L (readallCommand f) := by
  intro e
  have h0 := Within.retried hL.toAttempts (Within.readallBody hL f) e
  unfold Runs at h0 ⊢
  unfold Machine.readallCommand
  rw [Prog.ask_bind]
  cases hr : Machine.retried (Machine.readallBody f) e with
  | ok c e1 =>
    rw [hr] at h0
    rw [Prog.bind_ok hr]
    by_cases h : c.err = .ok
    · rw [if_pos h]
      exact h0
    · rw [if_neg h]
      exact ⟨hm e e1 h0.1, trivial⟩
  | raise c e1 =>
    rw [hr] at h0
    rw [Prog.bind_raise hr]
    exact h0
  | wait op e1 =>
    rw [hr] at h0
    rw [Prog.bind_wait hr]
    exact h0
  | fault r =>
    rw [hr] at h0
    rw [Prog.bind_fault hr]
    exact h0

end Sys2Proof.Machine
end

