-- ==== Sys2Proof/Laws/Crc.lean ====
section
/-! SUPPORT. The two CRC registers (spec/42_rom_search.md R121, spec/45_crc16.md R162): a shift loses nothing where
the polynomial's top bit is set, so a byte step is injective in the register and in the byte. -/

namespace Sys2Proof.Machine

/-- One shift of a reflected CRC register whose polynomial has its top bit set is injective. -/
theorem crcShift_injective {w : Nat} {poly x y : BitVec w} (hp : poly.getLsbD (w - 1) = true)
    (h : (if x.getLsbD 0 then (x >>> 1) ^^^ poly else x >>> 1) =
      (if y.getLsbD 0 then (y >>> 1) ^^^ poly else y >>> 1)) : x = y := by
  have htop : ∀ z : BitVec w, (if z.getLsbD 0 then (z >>> 1) ^^^ poly else z >>> 1).getLsbD (w - 1) = z.getLsbD 0 := by
    intro z
    have hz : (z >>> 1).getLsbD (w - 1) = false := by
      rw [BitVec.getLsbD_ushiftRight]
      exact BitVec.getLsbD_of_ge _ _ (by omega)
    by_cases h0 : z.getLsbD 0 = true
    · rw [if_pos h0, BitVec.getLsbD_xor, hz, hp, h0]
      rfl
    · rw [if_neg h0, hz]
      simpa using h0
  have h0 : x.getLsbD 0 = y.getLsbD 0 := by rw [← htop x, ← htop y, h]
  have h1 : x >>> 1 = y >>> 1 := by
    rw [h0] at h
    by_cases hy : y.getLsbD 0 = true
    · rw [if_pos hy, if_pos hy] at h
      have := congrArg (· ^^^ poly) h
      simpa [BitVec.xor_assoc] using this
    · rwa [if_neg hy, if_neg hy] at h
  refine BitVec.eq_of_getLsbD_eq fun i hi => ?_
  cases i with
  | zero => exact h0
  | succ i =>
    have := congrArg (fun z => z.getLsbD i) h1
    simpa [BitVec.getLsbD_ushiftRight, Nat.add_comm] using this

theorem repeat_injective {α : Type} {f : α → α} (hf : ∀ x y, f x = f y → x = y) (n : Nat) {x y : α}
    (h : Nat.repeat f n x = Nat.repeat f n y) : x = y := by
  induction n with
  | zero => exact h
  | succ n ih => exact ih (hf _ _ h)

/-- Eight shifts of the CRC-16 register lose nothing. -/
theorem crc16Shifts_injective {x y : Half} (h : Nat.repeat crc16Shift 8 x = Nat.repeat crc16Shift 8 y) : x = y :=
  repeat_injective (fun _ _ h => crcShift_injective (by decide) h) 8 h

/-- `Crc16Step` is injective in the register. -/
theorem crc16Step_injective {r r' : Half} {b : Byte} (h : crc16Step r b = crc16Step r' b) : r = r' := by
  have := congrArg (· ^^^ b.setWidth 16) (crc16Shifts_injective h)
  simpa [BitVec.xor_assoc] using this

/-- `Crc16Step` is injective in the byte. -/
theorem crc16Step_byte_injective {r : Half} {b c : Byte} (h : crc16Step r b = crc16Step r c) : b = c := by
  have h1 := crc16Shifts_injective h
  have h2 : b.setWidth 16 = c.setWidth 16 := by
    have := congrArg (r ^^^ ·) h1
    simpa [← BitVec.xor_assoc] using this
  refine BitVec.eq_of_getLsbD_eq fun i hi => ?_
  have := congrArg (fun z => z.getLsbD i) h2
  simpa [BitVec.getLsbD_setWidth, show i < 16 by omega] using this

theorem crc16_nil (r : Half) : crc16 [] r = r := rfl

theorem crc16_cons (b : Byte) (bs : List Byte) (r : Half) : crc16 (b :: bs) r = crc16 bs (crc16Step r b) := rfl

theorem crc16_append (bs cs : List Byte) (r : Half) : crc16 (bs ++ cs) r = crc16 cs (crc16 bs r) :=
  List.foldl_append

/-- The shift is linear over exclusive or. -/
theorem crc16Shift_xor (x y : Half) : crc16Shift (x ^^^ y) = crc16Shift x ^^^ crc16Shift y := by
  unfold crc16Shift
  refine BitVec.eq_of_getLsbD_eq fun i _ => ?_
  rw [BitVec.getLsbD_xor]
  cases x.getLsbD 0 <;> cases y.getLsbD 0 <;>
    simp [BitVec.getLsbD_xor, BitVec.getLsbD_ushiftRight, Bool.xor_left_comm, Bool.xor_comm]

theorem crc16Shifts_xor (n : Nat) (x y : Half) :
    Nat.repeat crc16Shift n (x ^^^ y) = Nat.repeat crc16Shift n x ^^^ Nat.repeat crc16Shift n y := by
  induction n with
  | zero => rfl
  | succ n ih => simp only [Nat.repeat, ih, crc16Shift_xor]

/-- `Crc8`'s byte step gives 0 exactly when the byte is the register, where the polynomial's top bit is set. -/
theorem crc8Step_eq_zero {poly r b : Byte} (hp : poly.getLsbD 7 = true) : crc8Step poly r b = 0#8 ↔ b = r := by
  have h0 : Nat.repeat (crc8Shift poly) 8 0#8 = 0#8 := by simp [Nat.repeat, crc8Shift]
  constructor
  · intro h
    have h1 : r ^^^ b = 0#8 :=
      repeat_injective (f := crc8Shift poly) (fun _ _ h => crcShift_injective hp h) 8 (h.trans h0.symm)
    have := congrArg (r ^^^ ·) h1
    simpa [← BitVec.xor_assoc] using this
  · rintro rfl
    unfold crc8Step
    rw [BitVec.xor_self, h0]

end Sys2Proof.Machine
end

