-- ==== Sys2Proof/Laws/Encode.lean ====
section
/-! SUPPORT. The four fields of a command word (spec/30_encoding.md R70, R71): taking them apart and putting them
together, and masks field by field. -/

namespace Sys2Proof

theorem opcField_ofFields (o a b c : Byte) : opcField (ofFields o a b c) = o := by
  refine BitVec.eq_of_getLsbD_eq fun i hi => ?_
  simp only [opcField, ofFields, BitVec.getLsbD_extractLsb', BitVec.getLsbD_append]
  simp [hi, show ¬24 + i < 8 by omega, show ¬24 + i - 8 < 8 by omega, show ¬24 + i - 8 - 8 < 8 by omega,
    show 24 + i - 8 - 8 - 8 = i by omega]

theorem fieldA_ofFields (o a b c : Byte) : fieldA (ofFields o a b c) = a := by
  refine BitVec.eq_of_getLsbD_eq fun i hi => ?_
  simp only [fieldA, ofFields, BitVec.getLsbD_extractLsb', BitVec.getLsbD_append]
  simp [hi, show ¬16 + i < 8 by omega, show ¬16 + i - 8 < 8 by omega, show 16 + i - 8 - 8 = i by omega]

theorem fieldB_ofFields (o a b c : Byte) : fieldB (ofFields o a b c) = b := by
  refine BitVec.eq_of_getLsbD_eq fun i hi => ?_
  simp only [fieldB, ofFields, BitVec.getLsbD_extractLsb', BitVec.getLsbD_append]
  simp [hi, show ¬8 + i < 8 by omega, show 8 + i - 8 = i by omega]

theorem fieldC_ofFields (o a b c : Byte) : fieldC (ofFields o a b c) = c := by
  refine BitVec.eq_of_getLsbD_eq fun i hi => ?_
  simp only [fieldC, ofFields, BitVec.getLsbD_extractLsb', BitVec.getLsbD_append]
  simp [hi]

theorem ofFields_inj {o a b c o' a' b' c' : Byte} :
    ofFields o a b c = ofFields o' a' b' c' ↔ o = o' ∧ a = a' ∧ b = b' ∧ c = c' := by
  refine ⟨fun h => ⟨?_, ?_, ?_, ?_⟩, by rintro ⟨rfl, rfl, rfl, rfl⟩; rfl⟩
  · simpa only [opcField_ofFields] using congrArg opcField h
  · simpa only [fieldA_ofFields] using congrArg fieldA h
  · simpa only [fieldB_ofFields] using congrArg fieldB h
  · simpa only [fieldC_ofFields] using congrArg fieldC h

/-- A word is put together from its fields. -/
theorem ofFields_fields (w : Word) : ofFields (opcField w) (fieldA w) (fieldB w) (fieldC w) = w := by
  refine BitVec.eq_of_getLsbD_eq fun i hi => ?_
  simp only [ofFields, BitVec.getLsbD_append, opcField, fieldA, fieldB, fieldC, BitVec.getLsbD_extractLsb']
  by_cases h1 : i < 8
  · simp [h1]
  by_cases h2 : i - 8 < 8
  · simp [h1, h2, show 8 + (i - 8) = i by omega]
  by_cases h3 : i - 8 - 8 < 8
  · simp [h1, h2, h3, show 16 + (i - 8 - 8) = i by omega]
  · simp [h1, h2, h3, show i - 8 - 8 - 8 < 8 by omega, show 24 + (i - 8 - 8 - 8) = i by omega]

/-- A mask acts field by field. -/
theorem ofFields_and (o a b c o' a' b' c' : Byte) :
    ofFields o a b c &&& ofFields o' a' b' c' = ofFields (o &&& o') (a &&& a') (b &&& b') (c &&& c') := by
  refine BitVec.eq_of_getLsbD_eq fun i hi => ?_
  simp only [ofFields, BitVec.getLsbD_append, BitVec.getLsbD_and]
  split
  · rfl
  split
  · rfl
  split <;> rfl

theorem decode_ofFields (o a b c : Byte) : decode (ofFields o a b c) = decodeFields o a b c := by
  unfold decode
  rw [opcField_ofFields, fieldA_ofFields, fieldB_ofFields, fieldC_ofFields]

/-- Whether a word matches a row, field by field (R75). -/
theorem matches_ofFields (po pa pb pc mo ma mb mc o a b c : Byte) :
    (Row.mk (ofFields po pa pb pc) (ofFields mo ma mb mc)).matches (ofFields o a b c) = true ↔
      o &&& mo = po ∧ a &&& ma = pa ∧ b &&& mb = pb ∧ c &&& mc = pc := by
  unfold Row.matches
  rw [beq_iff_eq, ofFields_and, ofFields_inj]

theorem flagOf?_flagByte (f : Bool) : flagOf? (flagByte f) = some f := by cases f <;> rfl

theorem flagByte_of {c : Byte} {f : Bool} (h : flagOf? c = some f) : flagByte f = c := by
  unfold flagOf? at h
  split at h
  · cases h
    simp_all [flagByte]
  split at h
  · cases h
    simp_all [flagByte]
  · cases h

theorem selOf?_setWidth : ∀ s : BitVec 2, selOf? (s.setWidth 8) = some s := by decide

theorem setWidth_of : ∀ (b : Byte) (s : BitVec 2), selOf? b = some s → s.setWidth 8 = b := by decide

end Sys2Proof
end

