-- ==== Sys2Proof/Laws/State.lean ====
section
/-! SUPPORT. What each named update of State leaves in each field, by `rfl` (no later proof unfolds one). -/

namespace Sys2Proof.Machine

/-! ## Acceptance clears DONE -/

@[simp] theorem State.clearDone_toRegs (s : State) : (s.clearDone).toRegs = s.toRegs := rfl
@[simp] theorem State.clearDone_lc (s : State) : (s.clearDone).lc = s.lc := rfl
@[simp] theorem State.clearDone_targetId (s : State) : (s.clearDone).targetId = s.targetId := rfl
@[simp] theorem State.clearDone_romId (s : State) : (s.clearDone).romId = s.romId := rfl
@[simp] theorem State.clearDone_crc16 (s : State) : (s.clearDone).crc16 = s.crc16 := rfl
@[simp] theorem State.clearDone_lastDisc (s : State) : (s.clearDone).lastDisc = s.lastDisc := rfl
@[simp] theorem State.clearDone_lastDevice (s : State) : (s.clearDone).lastDevice = s.lastDevice := rfl
@[simp] theorem State.clearDone_spdValid (s : State) : (s.clearDone).spdValid = s.spdValid := rfl
@[simp] theorem State.clearDone_spdOd (s : State) : (s.clearDone).spdOd = s.spdOd := rfl
@[simp] theorem State.clearDone_att (s : State) : (s.clearDone).att = s.att := rfl
@[simp] theorem State.clearDone_rxLen (s : State) : (s.clearDone).rxLen = s.rxLen := rfl
@[simp] theorem State.clearDone_npagesA (s : State) : (s.clearDone).npagesA = s.npagesA := rfl
@[simp] theorem State.clearDone_npagesB (s : State) : (s.clearDone).npagesB = s.npagesB := rfl
@[simp] theorem State.clearDone_detCount (s : State) : (s.clearDone).detCount = s.detCount := rfl
@[simp] theorem State.clearDone_detTrunc (s : State) : (s.clearDone).detTrunc = s.detTrunc := rfl
@[simp] theorem State.clearDone_result (s : State) : (s.clearDone).result = s.result := rfl
@[simp] theorem State.clearDone_mem (s : State) : (s.clearDone).mem = s.mem := rfl
@[simp] theorem State.clearDone_issued (s : State) : (s.clearDone).issued = s.issued := rfl
@[simp] theorem State.clearDone_draws (s : State) : (s.clearDone).draws = s.draws := rfl
@[simp] theorem State.clearDone_params (s : State) : (s.clearDone).params = s.params := rfl
@[simp] theorem State.clearDone_lock (s : State) : (s.clearDone).lock = s.lock := rfl
@[simp] theorem State.clearDone_searching (s : State) : (s.clearDone).searching = s.searching := rfl
@[simp] theorem State.clearDone_event (s : State) : (s.clearDone).event = clearFlags s.event evDone := rfl
@[simp] theorem State.clearDone_seq (s : State) : (s.clearDone).seq = s.seq := rfl
@[simp] theorem State.clearDone_port (s : State) : (s.clearDone).port = s.port := rfl
@[simp] theorem State.clearDone_hostRead (s : State) : (s.clearDone).hostRead = s.hostRead := rfl
@[simp] theorem State.clearDone_inputs (s : State) : (s.clearDone).inputs = s.inputs := rfl

/-! ## Completion -/

@[simp] theorem State.complete_lc (s : State) (o : Byte) (c : Completion) : (s.complete o c).lc = s.lc := rfl
@[simp] theorem State.complete_targetId (s : State) (o : Byte) (c : Completion) : (s.complete o c).targetId = s.targetId := rfl
@[simp] theorem State.complete_romId (s : State) (o : Byte) (c : Completion) : (s.complete o c).romId = s.romId := rfl
@[simp] theorem State.complete_crc16 (s : State) (o : Byte) (c : Completion) : (s.complete o c).crc16 = s.crc16 := rfl
@[simp] theorem State.complete_lastDisc (s : State) (o : Byte) (c : Completion) : (s.complete o c).lastDisc = s.lastDisc := rfl
@[simp] theorem State.complete_lastDevice (s : State) (o : Byte) (c : Completion) : (s.complete o c).lastDevice = s.lastDevice := rfl
@[simp] theorem State.complete_spdValid (s : State) (o : Byte) (c : Completion) : (s.complete o c).spdValid = s.spdValid := rfl
@[simp] theorem State.complete_spdOd (s : State) (o : Byte) (c : Completion) : (s.complete o c).spdOd = s.spdOd := rfl
@[simp] theorem State.complete_att (s : State) (o : Byte) (c : Completion) : (s.complete o c).att = s.att := rfl
@[simp] theorem State.complete_rxLen (s : State) (o : Byte) (c : Completion) : (s.complete o c).rxLen = s.rxLen := rfl
@[simp] theorem State.complete_npagesA (s : State) (o : Byte) (c : Completion) : (s.complete o c).npagesA = s.npagesA := rfl
@[simp] theorem State.complete_npagesB (s : State) (o : Byte) (c : Completion) : (s.complete o c).npagesB = s.npagesB := rfl
@[simp] theorem State.complete_detCount (s : State) (o : Byte) (c : Completion) : (s.complete o c).detCount = s.detCount := rfl
@[simp] theorem State.complete_detTrunc (s : State) (o : Byte) (c : Completion) : (s.complete o c).detTrunc = s.detTrunc := rfl
@[simp] theorem State.complete_result (s : State) (o : Byte) (c : Completion) : (s.complete o c).result = resultWord o c := rfl
@[simp] theorem State.complete_mem (s : State) (o : Byte) (c : Completion) : (s.complete o c).mem = s.mem := rfl
@[simp] theorem State.complete_issued (s : State) (o : Byte) (c : Completion) : (s.complete o c).issued = s.issued := rfl
@[simp] theorem State.complete_draws (s : State) (o : Byte) (c : Completion) : (s.complete o c).draws = s.draws := rfl
@[simp] theorem State.complete_params (s : State) (o : Byte) (c : Completion) : (s.complete o c).params = s.params := rfl
@[simp] theorem State.complete_lock (s : State) (o : Byte) (c : Completion) : (s.complete o c).lock = false := rfl
@[simp] theorem State.complete_searching (s : State) (o : Byte) (c : Completion) : (s.complete o c).searching = s.searching := rfl
@[simp] theorem State.complete_event (s : State) (o : Byte) (c : Completion) : (s.complete o c).event = raiseFlags s.event evDone := rfl
@[simp] theorem State.complete_seq (s : State) (o : Byte) (c : Completion) : (s.complete o c).seq = .idle := rfl
@[simp] theorem State.complete_port (s : State) (o : Byte) (c : Completion) : (s.complete o c).port = s.port := rfl
@[simp] theorem State.complete_hostRead (s : State) (o : Byte) (c : Completion) : (s.complete o c).hostRead = s.hostRead := rfl
@[simp] theorem State.complete_inputs (s : State) (o : Byte) (c : Completion) : (s.complete o c).inputs = s.inputs := rfl

/-! ## The sequencer's registers stored back -/

@[simp] theorem State.absorb_toRegs (s : State) (e : Eng) : (s.absorb e).toRegs = e.regs := rfl
@[simp] theorem State.absorb_lc (s : State) (e : Eng) : (s.absorb e).lc = e.regs.lc := rfl
@[simp] theorem State.absorb_targetId (s : State) (e : Eng) : (s.absorb e).targetId = e.regs.targetId := rfl
@[simp] theorem State.absorb_romId (s : State) (e : Eng) : (s.absorb e).romId = e.regs.romId := rfl
@[simp] theorem State.absorb_crc16 (s : State) (e : Eng) : (s.absorb e).crc16 = e.regs.crc16 := rfl
@[simp] theorem State.absorb_lastDisc (s : State) (e : Eng) : (s.absorb e).lastDisc = e.regs.lastDisc := rfl
@[simp] theorem State.absorb_lastDevice (s : State) (e : Eng) : (s.absorb e).lastDevice = e.regs.lastDevice := rfl
@[simp] theorem State.absorb_spdValid (s : State) (e : Eng) : (s.absorb e).spdValid = e.regs.spdValid := rfl
@[simp] theorem State.absorb_spdOd (s : State) (e : Eng) : (s.absorb e).spdOd = e.regs.spdOd := rfl
@[simp] theorem State.absorb_att (s : State) (e : Eng) : (s.absorb e).att = e.regs.att := rfl
@[simp] theorem State.absorb_rxLen (s : State) (e : Eng) : (s.absorb e).rxLen = e.regs.rxLen := rfl
@[simp] theorem State.absorb_npagesA (s : State) (e : Eng) : (s.absorb e).npagesA = e.regs.npagesA := rfl
@[simp] theorem State.absorb_npagesB (s : State) (e : Eng) : (s.absorb e).npagesB = e.regs.npagesB := rfl
@[simp] theorem State.absorb_detCount (s : State) (e : Eng) : (s.absorb e).detCount = e.regs.detCount := rfl
@[simp] theorem State.absorb_detTrunc (s : State) (e : Eng) : (s.absorb e).detTrunc = e.regs.detTrunc := rfl
@[simp] theorem State.absorb_result (s : State) (e : Eng) : (s.absorb e).result = e.regs.result := rfl
@[simp] theorem State.absorb_mem (s : State) (e : Eng) : (s.absorb e).mem = e.regs.mem := rfl
@[simp] theorem State.absorb_issued (s : State) (e : Eng) : (s.absorb e).issued = e.regs.issued := rfl
@[simp] theorem State.absorb_draws (s : State) (e : Eng) : (s.absorb e).draws = e.regs.draws := rfl
@[simp] theorem State.absorb_params (s : State) (e : Eng) : (s.absorb e).params = s.params := rfl
@[simp] theorem State.absorb_lock (s : State) (e : Eng) : (s.absorb e).lock = s.lock := rfl
@[simp] theorem State.absorb_searching (s : State) (e : Eng) : (s.absorb e).searching = s.searching := rfl
@[simp] theorem State.absorb_event (s : State) (e : Eng) : (s.absorb e).event = raiseFlags s.event e.raised := rfl
@[simp] theorem State.absorb_seq (s : State) (e : Eng) : (s.absorb e).seq = s.seq := rfl
@[simp] theorem State.absorb_port (s : State) (e : Eng) : (s.absorb e).port = s.port := rfl
@[simp] theorem State.absorb_hostRead (s : State) (e : Eng) : (s.absorb e).hostRead = s.hostRead := rfl
@[simp] theorem State.absorb_inputs (s : State) (e : Eng) : (s.absorb e).inputs = e.script := rfl

/-! ## Suspension at the link port -/

@[simp] theorem State.suspend_toRegs (s : State) (j : Job) (op : LinkOp) (e : Eng) : (s.suspend j op e).toRegs = e.regs := rfl
@[simp] theorem State.suspend_lc (s : State) (j : Job) (op : LinkOp) (e : Eng) : (s.suspend j op e).lc = e.regs.lc := rfl
@[simp] theorem State.suspend_targetId (s : State) (j : Job) (op : LinkOp) (e : Eng) : (s.suspend j op e).targetId = e.regs.targetId := rfl
@[simp] theorem State.suspend_romId (s : State) (j : Job) (op : LinkOp) (e : Eng) : (s.suspend j op e).romId = e.regs.romId := rfl
@[simp] theorem State.suspend_crc16 (s : State) (j : Job) (op : LinkOp) (e : Eng) : (s.suspend j op e).crc16 = e.regs.crc16 := rfl
@[simp] theorem State.suspend_lastDisc (s : State) (j : Job) (op : LinkOp) (e : Eng) : (s.suspend j op e).lastDisc = e.regs.lastDisc := rfl
@[simp] theorem State.suspend_lastDevice (s : State) (j : Job) (op : LinkOp) (e : Eng) : (s.suspend j op e).lastDevice = e.regs.lastDevice := rfl
@[simp] theorem State.suspend_spdValid (s : State) (j : Job) (op : LinkOp) (e : Eng) : (s.suspend j op e).spdValid = e.regs.spdValid := rfl
@[simp] theorem State.suspend_spdOd (s : State) (j : Job) (op : LinkOp) (e : Eng) : (s.suspend j op e).spdOd = e.regs.spdOd := rfl
@[simp] theorem State.suspend_att (s : State) (j : Job) (op : LinkOp) (e : Eng) : (s.suspend j op e).att = e.regs.att := rfl
@[simp] theorem State.suspend_rxLen (s : State) (j : Job) (op : LinkOp) (e : Eng) : (s.suspend j op e).rxLen = e.regs.rxLen := rfl
@[simp] theorem State.suspend_npagesA (s : State) (j : Job) (op : LinkOp) (e : Eng) : (s.suspend j op e).npagesA = e.regs.npagesA := rfl
@[simp] theorem State.suspend_npagesB (s : State) (j : Job) (op : LinkOp) (e : Eng) : (s.suspend j op e).npagesB = e.regs.npagesB := rfl
@[simp] theorem State.suspend_detCount (s : State) (j : Job) (op : LinkOp) (e : Eng) : (s.suspend j op e).detCount = e.regs.detCount := rfl
@[simp] theorem State.suspend_detTrunc (s : State) (j : Job) (op : LinkOp) (e : Eng) : (s.suspend j op e).detTrunc = e.regs.detTrunc := rfl
@[simp] theorem State.suspend_result (s : State) (j : Job) (op : LinkOp) (e : Eng) : (s.suspend j op e).result = e.regs.result := rfl
@[simp] theorem State.suspend_mem (s : State) (j : Job) (op : LinkOp) (e : Eng) : (s.suspend j op e).mem = e.regs.mem := rfl
@[simp] theorem State.suspend_issued (s : State) (j : Job) (op : LinkOp) (e : Eng) : (s.suspend j op e).issued = e.regs.issued := rfl
@[simp] theorem State.suspend_draws (s : State) (j : Job) (op : LinkOp) (e : Eng) : (s.suspend j op e).draws = e.regs.draws := rfl
@[simp] theorem State.suspend_params (s : State) (j : Job) (op : LinkOp) (e : Eng) : (s.suspend j op e).params = s.params := rfl
@[simp] theorem State.suspend_lock (s : State) (j : Job) (op : LinkOp) (e : Eng) : (s.suspend j op e).lock = true := rfl
@[simp] theorem State.suspend_searching (s : State) (j : Job) (op : LinkOp) (e : Eng) : (s.suspend j op e).searching = s.searching := rfl
@[simp] theorem State.suspend_event (s : State) (j : Job) (op : LinkOp) (e : Eng) : (s.suspend j op e).event = s.event := rfl
@[simp] theorem State.suspend_seq (s : State) (j : Job) (op : LinkOp) (e : Eng) : (s.suspend j op e).seq = .busy j op e.locals s.toRegs e.got := rfl
@[simp] theorem State.suspend_port (s : State) (j : Job) (op : LinkOp) (e : Eng) : (s.suspend j op e).port = s.port := rfl
@[simp] theorem State.suspend_hostRead (s : State) (j : Job) (op : LinkOp) (e : Eng) : (s.suspend j op e).hostRead = s.hostRead := rfl
@[simp] theorem State.suspend_inputs (s : State) (j : Job) (op : LinkOp) (e : Eng) : (s.suspend j op e).inputs = e.script := rfl

/-! ## The completed state of a claim -/

@[simp] theorem State.completed_lc (s : State) (r : Word) : (s.completed r).lc = s.lc := rfl
@[simp] theorem State.completed_targetId (s : State) (r : Word) : (s.completed r).targetId = s.targetId := rfl
@[simp] theorem State.completed_romId (s : State) (r : Word) : (s.completed r).romId = s.romId := rfl
@[simp] theorem State.completed_crc16 (s : State) (r : Word) : (s.completed r).crc16 = s.crc16 := rfl
@[simp] theorem State.completed_lastDisc (s : State) (r : Word) : (s.completed r).lastDisc = s.lastDisc := rfl
@[simp] theorem State.completed_lastDevice (s : State) (r : Word) : (s.completed r).lastDevice = s.lastDevice := rfl
@[simp] theorem State.completed_spdValid (s : State) (r : Word) : (s.completed r).spdValid = s.spdValid := rfl
@[simp] theorem State.completed_spdOd (s : State) (r : Word) : (s.completed r).spdOd = s.spdOd := rfl
@[simp] theorem State.completed_att (s : State) (r : Word) : (s.completed r).att = s.att := rfl
@[simp] theorem State.completed_rxLen (s : State) (r : Word) : (s.completed r).rxLen = s.rxLen := rfl
@[simp] theorem State.completed_npagesA (s : State) (r : Word) : (s.completed r).npagesA = s.npagesA := rfl
@[simp] theorem State.completed_npagesB (s : State) (r : Word) : (s.completed r).npagesB = s.npagesB := rfl
@[simp] theorem State.completed_detCount (s : State) (r : Word) : (s.completed r).detCount = s.detCount := rfl
@[simp] theorem State.completed_detTrunc (s : State) (r : Word) : (s.completed r).detTrunc = s.detTrunc := rfl
@[simp] theorem State.completed_result (s : State) (r : Word) : (s.completed r).result = r := rfl
@[simp] theorem State.completed_mem (s : State) (r : Word) : (s.completed r).mem = s.mem := rfl
@[simp] theorem State.completed_issued (s : State) (r : Word) : (s.completed r).issued = s.issued := rfl
@[simp] theorem State.completed_draws (s : State) (r : Word) : (s.completed r).draws = s.draws := rfl
@[simp] theorem State.completed_params (s : State) (r : Word) : (s.completed r).params = s.params := rfl
@[simp] theorem State.completed_lock (s : State) (r : Word) : (s.completed r).lock = false := rfl
@[simp] theorem State.completed_searching (s : State) (r : Word) : (s.completed r).searching = s.searching := rfl
@[simp] theorem State.completed_event (s : State) (r : Word) : (s.completed r).event = s.event ||| 1#32 := rfl
@[simp] theorem State.completed_seq (s : State) (r : Word) : (s.completed r).seq = .idle := rfl
@[simp] theorem State.completed_port (s : State) (r : Word) : (s.completed r).port = s.port := rfl
@[simp] theorem State.completed_hostRead (s : State) (r : Word) : (s.completed r).hostRead = s.hostRead := rfl
@[simp] theorem State.completed_inputs (s : State) (r : Word) : (s.completed r).inputs = s.inputs := rfl

/-! ## The sequencer at acceptance -/

@[simp] theorem State.eng_regs (s : State) (t : Bool) : (s.eng t).regs = s.toRegs := rfl
@[simp] theorem State.eng_params (s : State) (t : Bool) : (s.eng t).params = s.params := rfl
@[simp] theorem State.eng_locals (s : State) (t : Bool) : (s.eng t).locals = .start := rfl
@[simp] theorem State.eng_script (s : State) (t : Bool) : (s.eng t).script = s.inputs := rfl
@[simp] theorem State.eng_got (s : State) (t : Bool) : (s.eng t).got = [] := rfl
@[simp] theorem State.eng_timed (s : State) (t : Bool) : (s.eng t).timed = t := rfl
@[simp] theorem State.eng_raised (s : State) (t : Bool) : (s.eng t).raised = 0 := rfl
@[simp] theorem State.eng_received (s : State) (t : Bool) : (s.eng t).received = [] := rfl

end Sys2Proof.Machine
end

