-- ==== Sys2Proof/Laws/Exec.lean ====
section
/-! SUPPORT. What `exec` can answer: completion, suspension, or a read of a byte without a value; and, for every
command that uses the bus, the law its body obeys (Laws/Bodies.lean). -/

namespace Sys2Proof.Machine

/-- What a law must allow for the body of each command to obey it. -/
def Law.Allows (L : Law) : Instr → Prop
  | .claim => L.Lifecycle
  | .close => L.Closed ∧ ∀ e : Eng, L.R e { e with regs := { e.regs with lc := .closed } }
  | .srchStart => True
  | .owReset | .owSpeed _ | .owWbit _ | .owRbit | .owRom _ _ => L.Line
  | .owWrite _ _ => L.Line ∧ ∀ (e : Eng) a, sourceAddr a → e.regs.mem.read? a = none → L.F e (.unwritten a)
  | .owRead n => L.Line ∧ ∀ (e : Eng) (d : List Byte), d.length ≤ n.toNat →
      L.R e { e with regs := { e.regs with
        mem := e.regs.mem.writeBytes (rxAddr 0) d, rxLen := BitVec.ofNat 8 d.length } }
  | .srchFirst | .srchNext => L.Search
  | .srchEnum => L.Delivers
  | .pgWrite _ _ | .rgWrite _ _ _ | .memWriteall _ | .memWritediff _ => L.Writes
  | .memReadall _ => L.ReadAll ∧ ∀ e e' : Eng, L.R e e' → L.R e (e'.mixed e.regs.mem)
  | .crc16Clr | .crc16Byte _ | .crc16Chk _ | .crc16Gen _ => True

variable {L : Law}

theorem Within.owWrite (hL : L.Line)
    (hl : ∀ (e : Eng) a, sourceAddr a → e.regs.mem.read? a = none → L.F e (.unwritten a)) (n : Byte) (c : Bool) :
    Within L (Machine.guarded false ((Machine.loadBytes (txAddr 0) n.toNat).bind fun bytes =>
      (Machine.writeWire bytes c).andThen Machine.done)) := by
  have hC := hL.toClosed
  refine .guarded hL <| .bind hC (fun e => ?_) fun bytes => .andThen hC (.writeWire hC _ _) (.done hC)
  unfold Runs Machine.loadBytes
  cases hr : e.regs.mem.readBytes (txAddr 0) n.toNat with
  | ok bs => exact ⟨hL.refl e, trivial⟩
  | error x =>
    obtain ⟨h1, h2, h3⟩ := Memory.readBytes_error hr
    refine hl e x (.inl ?_) h1
    have := n.isLt
    unfold txAddr at h2 h3
    omega

theorem Within.owRead (hL : L.Line) (n : Byte)
    (hrx : ∀ (e : Eng) (d : List Byte), d.length ≤ n.toNat →
      L.R e { e with regs := { e.regs with
        mem := e.regs.mem.writeBytes (rxAddr 0) d, rxLen := BitVec.ofNat 8 d.length } }) :
    Within L (Machine.guarded false ((Machine.readBulk n.toNat).bind storeRx)) :=
  .guarded hL fun e => .bind hL.toClosed (.readBulk hL.toClosed _ e) fun d e1 _ hd => ⟨hrx e1 d hd, trivial⟩

/-- Whether a command's body may use the link (the others complete when they are accepted). -/
def Instr.usesBus : Instr → Bool
  | .srchStart | .crc16Clr | .crc16Byte _ | .crc16Chk _ | .crc16Gen _ => false
  | _ => true

/-- A command that uses the bus runs one body, which obeys every law that allows the command. -/
theorem exec_bus (i : Instr) (hi : Instr.usesBus i = true) : ∃ body : Prog Completion,
    (∀ s, (i = .close → s.lc ≠ .closed) → exec i s = accept i body s) ∧ ∀ L : Law, L.Allows i → Within L body := by
  cases i with
  | claim => exact ⟨_, fun _ _ => rfl, fun L h => .claimBody h⟩
  | close => exact ⟨_, fun s h => if_neg (h rfl), fun L h => .closeBody h.1 h.2⟩
  | srchStart => cases hi
  | owReset => exact ⟨_, fun _ _ => rfl, fun L h => .guarded h (.andThen h.toClosed (.busReset h.toResets) (.done h.toClosed))⟩
  | owSpeed f =>
    exact ⟨_, fun _ _ => rfl, fun L h => .guarded h (.andThen h.toClosed (.setSpeed h f) (.done h.toClosed))⟩
  | owWbit f =>
    exact ⟨_, fun _ _ => rfl, fun L h => .guarded h (.andThen h.toClosed (.writeBit h.toClosed f) (.done h.toClosed))⟩
  | owRbit =>
    exact ⟨_, fun _ _ => rfl, fun L h => .guarded h (.bind h.toClosed (.readBit h.toClosed) fun _ => .ret h.toClosed _)⟩
  | owWrite n c => exact ⟨_, fun _ _ => rfl, fun L h => .owWrite h.1 h.2 n c⟩
  | owRead n => exact ⟨_, fun _ _ => rfl, fun L h => .owRead h.1 n h.2⟩
  | owRom sel d => exact ⟨_, fun _ _ => rfl, fun L h => .guarded h (.romBody h sel d)⟩
  | srchFirst =>
    exact ⟨_, fun _ _ => rfl, fun L h => .guardedSearch h
      (.andThen h.toClosed (.setPhase h.toClosed _) (.andThen h.toClosed (.searchInit h) (.passBody h)))⟩
  | srchNext =>
    exact ⟨_, fun _ _ => rfl, fun L h => .guardedSearch h (.andThen h.toClosed (.setPhase h.toClosed _) (.passBody h))⟩
  | srchEnum =>
    exact ⟨_, fun _ _ => rfl, fun L h => .guardedSearch h.toSearch
      (.andThen h.toClosed (.setPhase h.toClosed _) (.enumBody h))⟩
  | pgWrite p d => exact ⟨_, fun _ _ => rfl, fun L h => .pgWrite h p d⟩
  | rgWrite h l n => exact ⟨_, fun _ _ => rfl, fun L hL => .rgWrite hL h l n⟩
  | memReadall f => exact ⟨_, fun _ _ => rfl, fun L h => .readallCommand h.1 h.2 f⟩
  | memWriteall f => exact ⟨_, fun _ _ => rfl, fun L h => .retried h.toAttempts (.writeallBody h f)⟩
  | memWritediff f => exact ⟨_, fun _ _ => rfl, fun L h => .retried h.toAttempts (.writediffBody h f)⟩
  | crc16Clr => cases hi
  | crc16Byte v => cases hi
  | crc16Chk p => cases hi
  | crc16Gen p => cases hi

/-- Everything acceptance of a command can answer (R43, R175). -/
theorem accept_cases (i : Instr) {body : Prog Completion} (s : State) (hb : Within L body) :
    (∃ c, usageError i s = some c ∧ accept i body s = .next (s.clearDone.complete i.opc c)) ∨
    (usageError i s = none ∧
      ((∃ c e, L.R (s.eng false) e ∧ accept i body s = .next ((s.clearDone.absorb e).complete i.opc c)) ∨
       (∃ op e, body (s.eng false) = .wait op e ∧ L.W (s.eng false) e ∧
        accept i body s = .next (s.clearDone.suspend (.command i) op e)) ∨
       ∃ f, L.F (s.eng false) f ∧ accept i body s = .fault f)) := by
  unfold accept
  cases hu : usageError i s with
  | some c => exact .inl ⟨c, rfl, rfl⟩
  | none =>
    refine .inr ⟨rfl, ?_⟩
    have h := hb (s.eng false)
    unfold Runs at h
    unfold runCommand
    simp only []
    cases hr : body (s.eng false) with
    | ok c e =>
      rw [hr] at h
      exact .inl ⟨c, e, h.1, rfl⟩
    | raise c e =>
      rw [hr] at h
      exact .inl ⟨_, e, h, rfl⟩
    | wait op e =>
      rw [hr] at h
      exact .inr (.inl ⟨op, e, rfl, h, rfl⟩)
    | fault f =>
      rw [hr] at h
      exact .inr (.inr ⟨f, h, rfl⟩)

/-- Every next state of a command that uses the bus, under a law that allows it. -/
theorem exec_next {i : Instr} {s t : State} (hi : Instr.usesBus i = true) (ha : L.Allows i)
    (hc : i = .close → s.lc ≠ .closed) (h : exec i s = .next t) :
    (∃ c, usageError i s = some c ∧ t = s.clearDone.complete i.opc c) ∨
    (usageError i s = none ∧ ∃ c e, L.R (s.eng false) e ∧ t = (s.clearDone.absorb e).complete i.opc c) ∨
    (usageError i s = none ∧ ∃ op e, L.W (s.eng false) e ∧ t = s.clearDone.suspend (.command i) op e) := by
  obtain ⟨body, hb, hw⟩ := exec_bus i hi
  rw [hb s hc] at h
  rcases accept_cases i s (hw _ ha) with ⟨c, hu, h1⟩ | ⟨hu, ⟨c, e, hR, h1⟩ | ⟨op, e, -, hR, h1⟩ | ⟨x, -, h1⟩⟩
  · rw [h1] at h
    cases h
    exact .inl ⟨c, hu, rfl⟩
  · rw [h1] at h
    cases h
    exact .inr (.inl ⟨hu, c, e, hR, rfl⟩)
  · rw [h1] at h
    cases h
    exact .inr (.inr ⟨hu, op, e, hR, rfl⟩)
  · rw [h1] at h
    cases h

/-- Everything a background pass can answer (R96). -/
theorem runBackground_cases (s : State) (hL : L.Background) :
    (∃ e, L.R (s.eng true) e ∧ runBackground s = .next { s.absorb e with lock := false, seq := .idle }) ∨
    (∃ op e, backgroundBody (s.eng true) = .wait op e ∧ L.W (s.eng true) e ∧
      runBackground s = .next (s.suspend .background op e)) ∨
    ∃ f, L.F (s.eng true) f ∧ runBackground s = .fault f := by
  have h := Within.backgroundBody hL (s.eng true)
  unfold Runs at h
  unfold runBackground
  cases hr : backgroundBody (s.eng true) with
  | ok c e =>
    rw [hr] at h
    exact .inl ⟨e, h.1, rfl⟩
  | raise c e =>
    rw [hr] at h
    exact .inl ⟨e, h, rfl⟩
  | wait op e =>
    rw [hr] at h
    exact .inr (.inl ⟨op, e, rfl, h, rfl⟩)
  | fault f =>
    rw [hr] at h
    exact .inr (.inr ⟨f, h, rfl⟩)

/-- Everything a CRC command on a page can answer (R163, R164). -/
theorem onPage_cases (p : Byte) (f : List Byte → Host.Outcome State Fault Refusal) (s : State) :
    (∃ pg, s.mem.readBytes (imgAAddr p.toNat 0) 32 = .ok pg ∧ onPage p f s = f pg) ∨
    ∃ a, s.mem.read? a = none ∧ imgAAddr p.toNat 0 ≤ a ∧ a < imgAAddr p.toNat 0 + 32 ∧
      onPage p f s = .fault (.unwritten a) := by
  unfold onPage
  cases hr : s.mem.readBytes (imgAAddr p.toNat 0) Config.pageBytes with
  | ok pg => exact .inl ⟨pg, rfl, rfl⟩
  | error a =>
    obtain ⟨h1, h2, h3⟩ := Memory.readBytes_error hr
    exact .inr ⟨a, h1, h2, h3, rfl⟩

/-- Everything a command that does not use the bus can answer: it completes at once, with SEARCHING, the CRC register or
the two CRC bytes of a page changed, or it stops on a page byte that holds no value. -/
theorem exec_noBus (i : Instr) (hi : Instr.usesBus i = false) (s : State) :
    (∃ c s1, (s1 = s ∨ (i = .srchStart ∧ s1 = { s with searching := true }) ∨
        ((∀ p, i ≠ .crc16Gen p) ∧ 0x40 ≤ i.opc.toNat ∧ ∃ r, s1 = { s with crc16 := r }) ∨
        ∃ p r bs, i = .crc16Gen p ∧ bs.length = 2 ∧
          s1 = { s with crc16 := r, mem := s.mem.writeBytes (imgAAddr p.toNat 30) bs }) ∧
      exec i s = .next (s1.clearDone.complete i.opc c)) ∨
    ∃ a, s.mem.read? a = none ∧ 0x2000 ≤ a ∧ a ≤ 0x3FFF ∧ exec i s = .fault (.unwritten a) := by
  have hpage : ∀ (p : Byte) (a : Nat), imgAAddr p.toNat 0 ≤ a → a < imgAAddr p.toNat 0 + 32 → 0x2000 ≤ a ∧ a ≤ 0x3FFF := by
    intro p a h1 h2
    have := p.isLt
    unfold imgAAddr at h1 h2
    omega
  cases i with
  | srchStart =>
    left
    change ∃ c s1, _ ∧ execSrchStart s = _
    unfold execSrchStart
    cases usageError .srchStart s with
    | some c => exact ⟨c, s, .inl rfl, rfl⟩
    | none => exact ⟨_, _, .inr (.inl ⟨rfl, rfl⟩), rfl⟩
  | crc16Clr => exact .inl ⟨_, _, .inr (.inr (.inl ⟨by simp, by simp [Instr.opc], _, rfl⟩)), rfl⟩
  | crc16Byte v => exact .inl ⟨_, _, .inr (.inr (.inl ⟨by simp, by simp [Instr.opc], _, rfl⟩)), rfl⟩
  | crc16Chk p =>
    change (∃ c s1, _ ∧ execCrc16Chk p s = _) ∨ ∃ a, _ ∧ _ ∧ _ ∧ execCrc16Chk p s = _
    unfold execCrc16Chk
    rcases onPage_cases p _ s with ⟨pg, -, h⟩ | ⟨a, h1, h2, h3, h⟩
    · rw [h]
      left
      split
      · exact ⟨_, s, .inl rfl, rfl⟩
      · exact ⟨_, _, .inr (.inr (.inl ⟨by simp, by simp [Instr.opc], _, rfl⟩)), rfl⟩
    · exact .inr ⟨a, h1, (hpage p a h2 h3).1, (hpage p a h2 h3).2, h⟩
  | crc16Gen p =>
    change (∃ c s1, _ ∧ execCrc16Gen p s = _) ∨ ∃ a, _ ∧ _ ∧ _ ∧ execCrc16Gen p s = _
    unfold execCrc16Gen
    rcases onPage_cases p _ s with ⟨pg, -, h⟩ | ⟨a, h1, h2, h3, h⟩
    · rw [h]
      left
      split
      · exact ⟨_, s, .inl rfl, rfl⟩
      · exact ⟨_, _, .inr (.inr (.inr ⟨p, _, _, rfl, rfl, rfl⟩)), rfl⟩
    · exact .inr ⟨a, h1, (hpage p a h2 h3).1, (hpage p a h2 h3).2, h⟩
  | _ => cases hi

/-- Completion sets DONE, whether acceptance had cleared it or not (R43, R170). -/
theorem State.clearDone_completed (s : State) (w : Word) : s.clearDone.completed w = s.completed w := by
  have h : ∀ e : Word, e &&& ~~~1#32 ||| 1#32 = e ||| 1#32 := by
    intro e
    refine BitVec.eq_of_getLsbD_eq fun i hi => ?_
    simp only [BitVec.getLsbD_or, BitVec.getLsbD_and, BitVec.getLsbD_not, hi]
    cases (1#32).getLsbD i <;> simp
  unfold State.clearDone State.completed clearFlags evDone
  rw [h]

/-- Completion in the terms claims use. -/
theorem complete_eq_completed (s : State) (opc : Byte) (c : Completion) :
    s.clearDone.complete opc c = s.completed (resultWord opc c) := s.clearDone_completed _

/-- A command that no usage check stops runs its body. -/
theorem accept_run {i : Instr} {body : Prog Completion} {s : State} (h : usageError i s = none) :
    accept i body s = runCommand i body s := by
  unfold accept
  rw [h]

/-- A command that holds the lock waits where its body does (R62). -/
theorem accept_waits {i : Instr} {body : Prog Completion} {s t : State} (h : accept i body s = .next t)
    (hl : t.lock = true) : usageError i s = none ∧
      ∃ op e, body (s.eng false) = .wait op e ∧ t = s.clearDone.suspend (.command i) op e := by
  unfold accept at h
  cases hu : usageError i s with
  | some c =>
    rw [hu] at h
    cases h
    cases hl
  | none =>
    rw [hu] at h
    simp only [runCommand] at h
    cases hr : body (s.eng false) with
    | ok c e => rw [hr] at h; cases h; cases hl
    | raise c e => rw [hr] at h; cases h; cases hl
    | wait op e =>
      rw [hr] at h
      cases h
      exact ⟨rfl, op, e, rfl, rfl⟩
    | fault f => rw [hr] at h; cases h

/-- A command whose body returns has completed (R170). -/
theorem runCommand_ok {i : Instr} {body : Prog Completion} {s : State} {c : Completion} {e : Eng}
    (h : body (s.eng false) = .ok c e) (hr : e.raised = 0#32) :
    runCommand i body s =
      .next ({ s with toRegs := e.regs, inputs := e.script }.completed (resultWord i.opc c)) := by
  unfold runCommand
  rw [h]
  simp only []
  rw [← complete_eq_completed]
  unfold State.absorb State.complete State.clearDone
  rw [hr]
  simp [raiseFlags]

/-- What the usage checks of a bus command see in `Claimed` (R175). -/
theorem usageError_none {i : Instr} {s : State} (hl : legalIn i s.lc = true) (ho : operandInRange s.params i = true)
    (h1 : i = .srchNext → s.lastDevice = false) (h2 : ∀ f, i = .memWritediff f → s.npagesA = s.npagesB) :
    usageError i s = none := by
  unfold usageError
  rw [hl, ho]
  cases i with
  | srchNext => simp [h1 rfl]
  | memWritediff f => simp [h2 f rfl]
  | _ => rfl

/-- A command that fails a usage check. -/
theorem exec_usage {i : Instr} {s : State} {c : Completion} (hi : i ≠ .close) (hc : i.opc.toNat < 0x40)
    (h : usageError i s = some c) : exec i s = .next (s.completed (resultWord i.opc c)) := by
  rw [← complete_eq_completed]
  by_cases hb : Instr.usesBus i = true
  · obtain ⟨body, hbd, -⟩ := exec_bus i hb
    rw [hbd s (fun h => absurd h hi)]
    unfold accept
    rw [h]
    rfl
  · cases i with
    | srchStart =>
      change execSrchStart s = _
      unfold execSrchStart
      rw [h]
      rfl
    | crc16Clr => simp [Instr.opc] at hc
    | crc16Byte v => simp [Instr.opc] at hc
    | crc16Chk p => simp [Instr.opc] at hc
    | crc16Gen p => simp [Instr.opc] at hc
    | _ => exact absurd rfl hb

end Sys2Proof.Machine
end

