-- ==== Sys2Proof/Laws/Mix.lean ====
section
/-! SUPPORT. What the free mix of a failed MEM_READALL (R151, 93 U6) can leave, whatever the choices are. -/

namespace Sys2Proof.Machine

theorem mixInto_read? (n : Nat) (old received : Memory) (as : List Nat) (m : Memory) (x : Nat) (hx : x ∉ as) :
    (mixInto n old received as m).read? x = m.read? x := by
  induction as generalizing m with
  | nil => rfl
  | cons a as ih =>
    rw [mixInto, ih _ (fun h => hx (by simp [h]))]
    cases mixChoice n old received a with
    | none => rfl
    | some b =>
      rw [Memory.read?_write, if_neg]
      rintro rfl
      exact hx (by simp)

theorem mixInto_keeps (n : Nat) (old received : Memory) (as : List Nat) (m : Memory) (x : Nat) (h : m.read? x ≠ none) :
    (mixInto n old received as m).read? x ≠ none := by
  induction as generalizing m with
  | nil => exact h
  | cons a as ih =>
    refine ih _ ?_
    cases mixChoice n old received a with
    | none => exact h
    | some b =>
      rw [Memory.read?_write]
      split
      · simp
      · exact h

theorem mixInto_wf (n : Nat) (old received : Memory) (as : List Nat) (m : Memory) (h : m.wf) :
    (mixInto n old received as m).wf := by
  induction as generalizing m with
  | nil => exact h
  | cons a as ih =>
    refine ih _ ?_
    cases mixChoice n old received a with
    | none => exact h
    | some b => exact Memory.write_wf h a b

theorem mixInto_mem (n : Nat) (old received : Memory) (as : List Nat) (m : Memory) {c : Host.Cell}
    (h : c ∈ mixInto n old received as m) : c ∈ m ∨ c.1 ∈ as := by
  induction as generalizing m with
  | nil => exact .inl h
  | cons a as ih =>
    rcases ih _ h with h | h
    · cases hm : mixChoice n old received a with
      | none =>
        rw [hm] at h
        exact .inl h
      | some b =>
        rw [hm] at h
        rcases Memory.mem_writeBytes h with h | h
        · exact .inl h
        · right
          simp at h
          simp
          omega
    · exact .inr (by simp [h])

/-- A choice is the old content of the address or a byte received for it (93 U6). -/
theorem mixChoice_candidate (n : Nat) (old received : Memory) (a : Nat) :
    mixChoice n old received a = old.read? a ∨ ∃ b, mixChoice n old received a = some b ∧ (a, b) ∈ received := by
  unfold mixChoice
  simp only []
  cases hc : (mixCandidates old received a)[Config.freeChoice n a % (mixCandidates old received a).length]? with
  | none =>
    refine absurd (List.getElem?_eq_none_iff.1 hc) (Nat.not_le.2 (Nat.mod_lt _ ?_))
    simp [mixCandidates]
  | some o =>
    have hm := List.mem_of_getElem? hc
    rw [Option.join]
    unfold mixCandidates at hm
    simp only [List.mem_cons, List.mem_map, List.mem_filter, decide_eq_true_eq] at hm
    rcases hm with rfl | ⟨⟨x, b⟩, ⟨h1, rfl⟩, rfl⟩
    · exact .inl rfl
    · exact .inr ⟨b, rfl, h1⟩

/-- What the mix leaves at any address: what was there, its old content, or a byte received for it. -/
theorem mixInto_candidate (n : Nat) (old received : Memory) (as : List Nat) (m : Memory) (x : Nat) :
    (mixInto n old received as m).read? x = m.read? x ∨ (mixInto n old received as m).read? x = old.read? x ∨
      ∃ b, (mixInto n old received as m).read? x = some b ∧ (x, b) ∈ received := by
  induction as generalizing m with
  | nil => exact .inl rfl
  | cons a as ih =>
    rw [mixInto]
    refine (ih _).elim (fun h => ?_) .inr
    rw [h]
    have hc := mixChoice_candidate n old received a
    cases hm : mixChoice n old received a with
    | none => exact .inl rfl
    | some b =>
      rw [hm] at hc
      rw [Memory.read?_write]
      by_cases hx : x = a
      · subst hx
        rw [if_pos rfl]
        exact .inr hc
      · rw [if_neg hx]
        exact .inl rfl

end Sys2Proof.Machine
end

