-- ==== Sys2Proof/Laws/Faults.lean ====
section
/-! SUPPORT. What can stop a command: a source byte that holds no value now and held none when the command was
accepted. -/

namespace Sys2Proof.Machine

/-- A write takes no value away. -/
theorem Memory.writeBytes_none {m : Memory} {a x : Nat} {bs : List Byte} (h : (m.writeBytes a bs).read? x = none) :
    m.read? x = none := by
  rw [Memory.read?_writeBytes] at h
  split at h
  · rw [List.getElem?_eq_none_iff] at h
    omega
  · exact h

/-- No byte loses its value, and only a source byte without one stops a run; with `pages` the page count is kept and
must be in its range. -/
def Law.faults (pages : Prop) : Law :=
  let R := fun e e' : Eng => e'.params = e.params ∧ (pages → e'.regs.npagesA = e.regs.npagesA) ∧
    ∀ x, e'.regs.mem.read? x = none → e.regs.mem.read? x = none
  { R := R
    W := R
    F := fun e y => (pages → e.pagesOk) → ∃ a, y = .unwritten a ∧ e.regs.mem.read? a = none ∧ sourceAddr a }

variable {pages : Prop}

theorem Law.faults_same {e e' : Eng} (h1 : e'.params = e.params) (h2 : e'.regs.npagesA = e.regs.npagesA)
    (h3 : e'.regs.mem = e.regs.mem) : (Law.faults pages).R e e' := ⟨h1, fun _ => h2, by rw [h3]; exact fun _ => id⟩

theorem Law.faults_delivers : (Law.faults pages).Delivers where
  refl _ := Law.faults_same rfl rfl rfl
  trans h1 h2 := ⟨h2.1.trans h1.1, fun h => (h2.2.1 h).trans (h1.2.1 h), fun x hx => h1.2.2 x (h2.2.2 x hx)⟩
  transW h1 h2 := ⟨h2.1.trans h1.1, fun h => (h2.2.1 h).trans (h1.2.1 h), fun x hx => h1.2.2 x (h2.2.2 x hx)⟩
  transF h1 h2 hp := by
    obtain ⟨a, h3, h4, h5⟩ := h2 fun h => by
      unfold Eng.pagesOk
      rw [h1.2.1 h]
      exact hp h
    exact ⟨a, h3, h1.2.2 a h4, h5⟩
  link _ := .link_of (fun _ _ _ _ => Law.faults_same rfl rfl rfl) (fun _ _ _ => Law.faults_same rfl rfl rfl)
    fun _ _ => Law.faults_same rfl rfl rfl
  locals _ _ := Law.faults_same rfl rfl rfl
  params h := h.1
  spdLost _ := Law.faults_same rfl rfl rfl
  spdSet _ _ := Law.faults_same rfl rfl rfl
  lastDevice _ := Law.faults_same rfl rfl rfl
  romId _ _ := Law.faults_same rfl rfl rfl
  found _ _ _ := Law.faults_same rfl rfl rfl
  init _ := Law.faults_same rfl rfl rfl
  deliver _ _ _ _ := ⟨rfl, fun _ => rfl, fun _ h => Memory.writeBytes_none h⟩

theorem Law.faults_attempts : (Law.faults pages).Attempts where
  toLine := Law.faults_delivers.toLine
  firstAttempt _ := Law.faults_same rfl rfl rfl
  nextAttempt _ _ := Law.faults_same rfl rfl rfl

/-- The commands that read pages of an image keep the page count, so that it bounds the pages read. -/
theorem Law.faults_writes : (Law.faults True).Writes where
  toAttempts := Law.faults_attempts
  load e a h hm hp := by
    rcases h with h | h | h
    · exact ⟨a, rfl, hm, h⟩
    · exact absurd (hp trivial) h
    · exact h e _ hp
  lax h1 h := h.imp_left fun h => by
    unfold Eng.pagesOk
    rw [h1.2.1 trivial]
    exact h

/-- Every command's body obeys it. -/
theorem Law.faults_allows (i : Instr) : (Law.faults True).Allows i ∨ (Law.faults False).Allows i := by
  have hL : (Law.faults True).Delivers := Law.faults_delivers
  have hF : (Law.faults False).Delivers := Law.faults_delivers
  have hw := Law.faults_writes
  cases i with
  | claim => exact .inl { hL with claimed := fun _ => Law.faults_same rfl rfl rfl }
  | close => exact .inl ⟨hL.toClosed, fun _ => Law.faults_same rfl rfl rfl⟩
  | srchStart => exact .inl trivial
  | owReset => exact .inl hL.toLine
  | owSpeed f => exact .inl hL.toLine
  | owWbit f => exact .inl hL.toLine
  | owRbit => exact .inl hL.toLine
  | owWrite n c => exact .inl ⟨hL.toLine, fun _ a ha hm _ => ⟨a, rfl, hm, ha⟩⟩
  | owRead n => exact .inl ⟨hL.toLine, fun _ _ _ => ⟨rfl, fun _ => rfl, fun _ h => Memory.writeBytes_none h⟩⟩
  | owRom s d => exact .inl hL.toLine
  | srchFirst => exact .inl hL.toSearch
  | srchNext => exact .inl hL.toSearch
  | srchEnum => exact .inl hL
  | pgWrite p d => exact .inl hw
  | rgWrite h l n => exact .inl hw
  | memReadall f =>
    exact .inr ⟨{ Law.faults_attempts with
      page := fun _ _ _ _ _ => ⟨rfl, fun _ => rfl, fun _ h => Memory.writeBytes_none h⟩
      note := fun _ _ _ _ _ => Law.faults_same rfl rfl rfl
      npages := fun _ => ⟨rfl, fun h => h.elim, fun _ => id⟩ }, fun e e' h => ⟨h.1, fun h => h.elim, fun x hx => by
        by_contra hc
        exact mixInto_keeps _ _ _ _ _ x hc hx⟩⟩
  | memWriteall f => exact .inl hw
  | memWritediff f => exact .inl hw
  | crc16Clr => exact .inl trivial
  | crc16Byte v => exact .inl trivial
  | crc16Chk p => exact .inl trivial
  | crc16Gen p => exact .inl trivial

end Sys2Proof.Machine
end

