-- ==== Sys2Proof/Laws/Frames.lean ====
section
/-! SUPPORT. Frames: a view of the registers that none of a command's changes touches reads the same after it, however
it ends. -/

namespace Sys2Proof.Machine

/-- The law that the views `f` of the registers and `g` of the raised event flags do not change. -/
def Law.view {β γ : Type} (f : Regs → β) (g : Word → γ) : Law where
  R e e' := e'.params = e.params ∧ g e'.raised = g e.raised ∧ f e'.regs = f e.regs
  W e e' := e'.params = e.params ∧ g e'.raised = g e.raised ∧ f e'.regs = f e.regs
  F _ _ := True

variable {β γ : Type} {f : Regs → β} {g : Word → γ}

theorem Law.view_closed (h : ∀ r ops, f { r with issued := ops } = f r) : (Law.view f g).Closed where
  refl _ := ⟨rfl, rfl, rfl⟩
  trans h1 h2 := ⟨h2.1.trans h1.1, h2.2.1.trans h1.2.1, h2.2.2.trans h1.2.2⟩
  transW h1 h2 := ⟨h2.1.trans h1.1, h2.2.1.trans h1.2.1, h2.2.2.trans h1.2.2⟩
  transF _ _ := trivial
  link _ := .link_of (fun e _ _ i => ⟨rfl, rfl, h e.regs i⟩) (fun _ _ _ => ⟨rfl, rfl, rfl⟩) fun _ _ => ⟨rfl, rfl, rfl⟩
  locals _ _ := ⟨rfl, rfl, rfl⟩
  params h := h.1

/-- A view that ignores the record of operations and the speed registers. -/
theorem Law.view_line (h : ∀ r ops v o, f { r with issued := ops, spdValid := v, spdOd := o } = f r) :
    (Law.view f g).Line where
  toClosed := Law.view_closed fun r ops => h r ops r.spdValid r.spdOd
  spdLost e := ⟨rfl, rfl, h e.regs e.regs.issued false e.regs.spdOd⟩
  spdSet e od := ⟨rfl, rfl, h e.regs e.regs.issued true od⟩

/-- A view that ignores what a search pass changes. -/
theorem Law.view_search
    (h : ∀ r ops v o id ld dev, f { r with
      issued := ops, spdValid := v, spdOd := o, romId := id, lastDisc := ld, lastDevice := dev } = f r) :
    (Law.view f g).Search where
  toLine := Law.view_line fun r ops v o => h r ops v o r.romId r.lastDisc r.lastDevice
  lastDevice e := ⟨rfl, rfl, h e.regs e.regs.issued e.regs.spdValid e.regs.spdOd e.regs.romId e.regs.lastDisc true⟩
  romId e id := ⟨rfl, rfl, h e.regs e.regs.issued e.regs.spdValid e.regs.spdOd id e.regs.lastDisc e.regs.lastDevice⟩
  found e _ _ := ⟨rfl, rfl, h e.regs e.regs.issued e.regs.spdValid e.regs.spdOd e.regs.romId _ _⟩
  init e := ⟨rfl, rfl, h e.regs e.regs.issued e.regs.spdValid e.regs.spdOd _ _ _⟩

/-- A view that ignores what the writing commands change. -/
theorem Law.view_writes (h : ∀ r ops v o a, f { r with issued := ops, spdValid := v, spdOd := o, att := a } = f r) :
    (Law.view f g).Writes where
  toLine := Law.view_line fun r ops v o => h r ops v o r.att
  firstAttempt e := ⟨rfl, rfl, h e.regs e.regs.issued e.regs.spdValid e.regs.spdOd _⟩
  nextAttempt e _ := ⟨rfl, rfl, h e.regs e.regs.issued e.regs.spdValid e.regs.spdOd _⟩
  load _ _ _ _ := trivial
  lax _ _ := .inr fun _ _ => trivial

/-- What a command that uses the bus leaves, however it ends: the views it does not touch, and of the rest of the state
all but the lock, `EVENT`, the sequencer and the moves consumed. -/
theorem exec_view {i : Instr} {s t : State} (hi : Instr.usesBus i = true) (ha : (Law.view f g).Allows i)
    (hr : ∀ r w, f { r with result := w } = f r) (hc : i = .close → s.lc ≠ .closed) (h : exec i s = .next t) :
    f t.toRegs = f s.toRegs ∧ t.params = s.params ∧ t.port = s.port ∧ t.hostRead = s.hostRead ∧
      t.searching = s.searching ∧ ∃ w, g w = g 0 ∧
        (t.event = raiseFlags (raiseFlags (clearFlags s.event evDone) w) evDone ∨ t.event = clearFlags s.event evDone) := by
  obtain ⟨body, hb, hw⟩ := exec_bus i hi
  rw [hb s hc] at h
  rcases accept_cases i s (hw _ ha) with ⟨c, -, h1⟩ | ⟨-, ⟨c, e, hR, h1⟩ | ⟨op, e, -, hR, h1⟩ | ⟨x, -, h1⟩⟩
  · rw [h1] at h
    cases h
    refine ⟨hr s.toRegs _, rfl, rfl, rfl, rfl, 0, rfl, .inl ?_⟩
    simp [State.complete, State.clearDone, raiseFlags]
  · rw [h1] at h
    cases h
    exact ⟨(hr e.regs _).trans hR.2.2, rfl, rfl, rfl, rfl, e.raised, hR.2.1, .inl rfl⟩
  · rw [h1] at h
    cases h
    exact ⟨hR.2.2, rfl, rfl, rfl, rfl, 0, rfl, .inr rfl⟩
  · rw [h1] at h
    cases h

theorem batchBytes_length (ids : List RomId) : (batchBytes ids).length = 8 * ids.length := by
  unfold batchBytes
  rw [List.length_flatMap]
  simp [romBytes]
  omega

/-- The law that, with MAXDEV at `n`, the views `f` and `g` and the buffers outside the existing `DET` entries do not
change. -/
def Law.batch {β γ : Type} (f : Regs → β) (g : Word → γ) (n : Nat) : Law :=
  let R := fun e e' : Eng => e'.params = e.params ∧ g e'.raised = g e.raised ∧ f e'.regs = f e.regs ∧
    (e.params.maxDev = n → ∀ x, x < 0x0400 ∨ 0x0400 + 8 * n ≤ x → e'.regs.mem.read? x = e.regs.mem.read? x)
  { R := R, W := R, F := fun _ _ => True }

/-- Views that ignore what an enumeration and its delivery change. -/
theorem Law.batch_delivers {n : Nat}
    (h : ∀ r ops v o id ld dev m dc dt, f { r with
      issued := ops, spdValid := v, spdOd := o, romId := id, lastDisc := ld, lastDevice := dev, mem := m,
      detCount := dc, detTrunc := dt } = f r)
    (hg : ∀ w, g (raiseFlags w evDetect) = g w) : (Law.batch f g n).Delivers := by
  have tr : ∀ {a b c}, (Law.batch f g n).R a b → (Law.batch f g n).R b c → (Law.batch f g n).R a c :=
    fun {a b c} h1 h2 => ⟨h2.1.trans h1.1, h2.2.1.trans h1.2.1, h2.2.2.1.trans h1.2.2.1, fun hn x hx =>
      (h2.2.2.2 (by rw [h1.1]; exact hn) x hx).trans (h1.2.2.2 hn x hx)⟩
  have hr : ∀ (e e' : Eng), e'.params = e.params → g e'.raised = g e.raised → e'.regs.mem = e.regs.mem →
      f e'.regs = f e.regs → (Law.batch f g n).R e e' :=
    fun e e' h1 h2 h3 h4 => ⟨h1, h2, h4, fun _ x _ => by rw [h3]⟩
  have hf : ∀ (r : Regs) ops v o id ld dev, f { r with
      issued := ops, spdValid := v, spdOd := o, romId := id, lastDisc := ld, lastDevice := dev } = f r :=
    fun r ops v o id ld dev => h r ops v o id ld dev r.mem r.detCount r.detTrunc
  exact {
    refl := fun e => hr e e rfl rfl rfl rfl
    trans := tr
    transW := tr
    transF := fun _ _ => trivial
    link := fun _ => .link_of
      (fun e _ _ i => hr _ _ rfl rfl rfl (hf e.regs i e.regs.spdValid e.regs.spdOd e.regs.romId e.regs.lastDisc
        e.regs.lastDevice))
      (fun _ _ _ => hr _ _ rfl rfl rfl rfl) fun _ _ => hr _ _ rfl rfl rfl rfl
    locals := fun _ _ => hr _ _ rfl rfl rfl rfl
    params := fun h => h.1
    spdLost := fun e => hr _ _ rfl rfl rfl (hf e.regs e.regs.issued false e.regs.spdOd e.regs.romId e.regs.lastDisc
      e.regs.lastDevice)
    spdSet := fun e od => hr _ _ rfl rfl rfl (hf e.regs e.regs.issued true od e.regs.romId e.regs.lastDisc
      e.regs.lastDevice)
    lastDevice := fun e => hr _ _ rfl rfl rfl (hf e.regs e.regs.issued e.regs.spdValid e.regs.spdOd e.regs.romId
      e.regs.lastDisc true)
    romId := fun e id => hr _ _ rfl rfl rfl (hf e.regs e.regs.issued e.regs.spdValid e.regs.spdOd id
      e.regs.lastDisc e.regs.lastDevice)
    found := fun e lz _ => hr _ _ rfl rfl rfl (hf e.regs e.regs.issued e.regs.spdValid e.regs.spdOd e.regs.romId _ _)
    init := fun e => hr _ _ rfl rfl rfl (hf e.regs e.regs.issued e.regs.spdValid e.regs.spdOd _ _ _)
    deliver := fun e ids trunc hl => ⟨rfl, hg _, h e.regs e.regs.issued e.regs.spdValid e.regs.spdOd e.regs.romId
      e.regs.lastDisc e.regs.lastDevice _ _ _, fun hn x hx => Memory.read?_writeBytes_outside (by
        rw [batchBytes_length]
        unfold detAddr
        omega)⟩ }

/-- Views that ignore what a background pass changes. -/
theorem Law.batch_background {n : Nat}
    (h : ∀ r ops v o id ld dev m dc dt, f { r with
      issued := ops, spdValid := v, spdOd := o, romId := id, lastDisc := ld, lastDevice := dev, mem := m,
      detCount := dc, detTrunc := dt } = f r)
    (hg : ∀ w, g (raiseFlags w evDetect) = g w) (hs : ∀ w, g (raiseFlags w evSrchErr) = g w) :
    (Law.batch f g n).Background where
  toDelivers := Law.batch_delivers h hg
  untimed _ := ⟨rfl, rfl, rfl, fun _ _ _ => rfl⟩
  srchErr _ := ⟨rfl, hs _, rfl, fun _ _ _ => rfl⟩

/-- An address of `IMG_A` (R41). -/
def imgAddr (a : Nat) : Prop := 0x2000 ≤ a ∧ a < 0x4000

theorem imgAddr_page {p n x : Nat} (hp : p < 256) (hn : n ≤ 32) (h : imgAAddr p 0 ≤ x ∧ x < imgAAddr p 0 + n) :
    imgAddr x := by
  unfold imgAAddr at h
  unfold imgAddr
  omega

/-- What MEM_READALL keeps: the views `f` and `g`, the buffers outside `IMG_A`, the fact that a byte holds a value, and
that bytes are received for `IMG_A` only. -/
def Law.image {β γ : Type} (f : Regs → β) (g : Word → γ) : Law :=
  let R := fun e e' : Eng => e'.params = e.params ∧ g e'.raised = g e.raised ∧ f e'.regs = f e.regs ∧
    ((∀ c ∈ e.received, imgAddr c.1) → (∀ c ∈ e'.received, imgAddr c.1) ∧
      ∀ x, (¬imgAddr x → e'.regs.mem.read? x = e.regs.mem.read? x) ∧
        (e.regs.mem.read? x ≠ none → e'.regs.mem.read? x ≠ none))
  { R := R, W := R, F := fun _ _ => True }

theorem Law.image_refl {e e' : Eng} (h1 : e'.params = e.params) (h2 : g e'.raised = g e.raised)
    (h3 : f e'.regs = f e.regs) (h4 : e'.received = e.received) (h5 : e'.regs.mem = e.regs.mem) :
    (Law.image f g).R e e' :=
  ⟨h1, h2, h3, fun h => ⟨by rwa [h4], fun x => ⟨fun _ => by rw [h5], by rw [h5]; exact id⟩⟩⟩

/-- Views that ignore what MEM_READALL changes. -/
theorem Law.image_readAll
    (h : ∀ r ops v o a n m, f { r with
      issued := ops, spdValid := v, spdOd := o, att := a, npagesA := n, mem := m } = f r) :
    (Law.image f g).ReadAll := by
  have tr : ∀ {a b c}, (Law.image f g).R a b → (Law.image f g).R b c → (Law.image f g).R a c :=
    fun {a b c} h1 h2 => ⟨h2.1.trans h1.1, h2.2.1.trans h1.2.1, h2.2.2.1.trans h1.2.2.1, fun hn => by
      obtain ⟨h3, h4⟩ := h1.2.2.2 hn
      obtain ⟨h5, h6⟩ := h2.2.2.2 h3
      exact ⟨h5, fun x => ⟨fun hx => ((h6 x).1 hx).trans ((h4 x).1 hx), fun hx => (h6 x).2 ((h4 x).2 hx)⟩⟩⟩
  have hf : ∀ (r : Regs) ops v o a n, f { r with
      issued := ops, spdValid := v, spdOd := o, att := a, npagesA := n } = f r :=
    fun r ops v o a n => h r ops v o a n r.mem
  exact {
    refl := fun _ => Law.image_refl rfl rfl rfl rfl rfl
    trans := tr
    transW := tr
    transF := fun _ _ => trivial
    link := fun _ => .link_of
      (fun e _ _ i => Law.image_refl rfl rfl (hf e.regs i e.regs.spdValid e.regs.spdOd e.regs.att e.regs.npagesA) rfl rfl)
      (fun _ _ _ => Law.image_refl rfl rfl rfl rfl rfl) fun _ _ => Law.image_refl rfl rfl rfl rfl rfl
    locals := fun _ _ => Law.image_refl rfl rfl rfl rfl rfl
    params := fun h => h.1
    spdLost := fun e => Law.image_refl rfl rfl
      (hf e.regs e.regs.issued false e.regs.spdOd e.regs.att e.regs.npagesA) rfl rfl
    spdSet := fun e od => Law.image_refl rfl rfl (hf e.regs e.regs.issued true od e.regs.att e.regs.npagesA) rfl rfl
    firstAttempt := fun e => Law.image_refl rfl rfl
      (hf e.regs e.regs.issued e.regs.spdValid e.regs.spdOd _ e.regs.npagesA) rfl rfl
    nextAttempt := fun e _ => Law.image_refl rfl rfl
      (hf e.regs e.regs.issued e.regs.spdValid e.regs.spdOd _ e.regs.npagesA) rfl rfl
    npages := fun e => Law.image_refl rfl rfl
      (hf e.regs e.regs.issued e.regs.spdValid e.regs.spdOd e.regs.att _) rfl rfl
    note := fun e p bs hp hb => ⟨rfl, rfl, rfl, fun h0 => ⟨fun c hc => by
      rcases List.mem_append.1 hc with hc | hc
      · exact h0 c hc
      · exact imgAddr_page hp hb (mem_cellsFrom_addr hc), fun x => ⟨fun _ => rfl, id⟩⟩⟩
    page := fun e p d hp hd => ⟨rfl, rfl, h e.regs e.regs.issued e.regs.spdValid e.regs.spdOd e.regs.att
      e.regs.npagesA _, fun h0 => ⟨h0, fun x => ⟨fun hx => Memory.read?_writeBytes_outside (by
        by_contra hc
        exact hx (imgAddr_page hp hd.le (by omega))), fun hx => by
          change (e.regs.mem.writeBytes _ d).read? x ≠ none
          rw [Memory.read?_writeBytes]
          split
          · rw [ne_eq, List.getElem?_eq_none_iff]
            omega
          · exact hx⟩⟩⟩ }

/-- The mix at an error completion is inside that law. -/
theorem Law.image_mixed
    (h : ∀ r m d, f { r with mem := m, draws := d } = f r) (e e' : Eng) (hR : (Law.image f g).R e e') :
    (Law.image f g).R e (e'.mixed e.regs.mem) := by
  refine ⟨hR.1, hR.2.1, (h e'.regs _ _).trans hR.2.2.1, fun h0 => ⟨(hR.2.2.2 h0).1, fun x => ⟨fun hx => ?_, fun hx => ?_⟩⟩⟩
  · refine mixInto_read? _ _ _ _ _ x fun hm => ?_
    obtain ⟨c, hc, rfl⟩ := List.mem_map.1 hm
    exact hx ((hR.2.2.2 h0).1 c hc)
  · exact mixInto_keeps _ _ _ _ _ x hx

/-! ## Event flags -/

/-- Clearing and setting DONE leaves every other event flag. -/
theorem event_bit {event t w : Word} {k : Nat} (hk : 1 ≤ k) (hw : w.getLsbD k = false)
    (h : t = raiseFlags (raiseFlags (clearFlags event evDone) w) evDone ∨ t = clearFlags event evDone) :
    t.getLsbD k = event.getLsbD k := by
  have h1 : evDone.getLsbD k = false := by
    unfold evDone
    rw [BitVec.getLsbD_one]
    simp
    omega
  by_cases h32 : k < 32
  · rw [BitVec.getLsbD_eq_getElem h32] at hw h1
    rcases h with rfl | rfl <;> simp [raiseFlags, clearFlags, hw, h1, h32]
  · rw [BitVec.getLsbD_of_ge _ _ (by omega), BitVec.getLsbD_of_ge _ _ (by omega)]

/-! ## Registers that only a completion changes -/

/-- The law that keeps the view `f`. -/
abbrev Law.keep {β : Type} (f : Regs → β) : Law := Law.view f fun _ => ()

/-- A run that keeps the view `f` unless it completes as `Q` says; where it keeps it and completes, ERR is not OK. -/
def Res.Settles (f : Regs → β) (Q : Completion → Eng → Prop) (e : Eng) : Res Completion → Prop
  | .ok c e' => Q c e' ∨ (c.err ≠ .ok ∧ f e'.regs = f e.regs)
  | .raise _ e' => f e'.regs = f e.regs
  | .wait _ e' => f e'.regs = f e.regs
  | .fault _ => True

variable {Q : Completion → Eng → Prop}

theorem Res.Settles.after {e e' : Eng} {r : Res Completion} (h : f e'.regs = f e.regs) (hr : r.Settles f Q e') :
    r.Settles f Q e := by
  cases r with
  | ok c e1 => exact Or.imp_right (fun hr => ⟨hr.1, hr.2.trans h⟩) hr
  | raise c e1 => exact Eq.trans hr h
  | wait op e1 => exact Eq.trans hr h
  | fault x => trivial

theorem settles_bind {α : Type} {x : Prog α} {y : α → Prog Completion} {e : Eng} (hx : Within (Law.keep f) x)
    (hy : ∀ a e, (y a e).Settles f Q e) : (x.bind y e).Settles f Q e := by
  have h := hx e
  unfold Runs at h
  cases hr : x e with
  | ok a e1 =>
    rw [hr] at h
    rw [Prog.bind_ok hr]
    exact (hy a e1).after h.1.2.2
  | raise c e1 =>
    rw [hr] at h
    rw [Prog.bind_raise hr]
    exact h.2.2
  | wait op e1 =>
    rw [hr] at h
    rw [Prog.bind_wait hr]
    exact h.2.2
  | fault x =>
    rw [Prog.bind_fault hr]
    trivial

theorem settles_andThen {x : Prog Unit} {y : Prog Completion} {e : Eng} (hx : Within (Law.keep f) x)
    (hy : ∀ e, (y e).Settles f Q e) : (x.andThen y e).Settles f Q e := settles_bind hx fun _ => hy

theorem Law.keep_set (g : Regs → Regs) (h : ∀ r, f (g r) = f r) : Within (Law.keep f) (Prog.setRegs g) :=
  fun e => ⟨⟨rfl, rfl, h e.regs⟩, trivial⟩

theorem settles_catch {x : Prog Completion} {h : Cond → Prog Completion} {e : Eng} (hx : (x e).Settles f Q e)
    (hh : ∀ c e, (h c e).Settles f Q e) : (x.catch h e).Settles f Q e := by
  unfold Prog.catch
  cases hr : x e with
  | ok a e1 =>
    rw [hr] at hx
    exact hx
  | raise c e1 =>
    rw [hr] at hx
    exact (hh c e1).after hx
  | wait op e1 =>
    rw [hr] at hx
    exact hx
  | fault x => trivial

theorem settles_errorCompletion (hL : (Law.keep f).Resets) (c : Cond) (e : Eng) :
    (errorCompletion false c e).Settles f Q e := by
  have h : ∀ c : Cond, c.err ≠ .ok → (((Prog.ask fun e => e.locals.phase).bind fun ph =>
      (epilogue false).andThen (Prog.ret (⟨c.err, ph, 0⟩ : Completion))) e).Settles f Q e := by
    refine fun c hc => settles_bind (.ask hL.toClosed _) fun _ _ => settles_andThen (.epilogue hL) fun _ => ?_
    exact .inr ⟨hc, rfl⟩
  cases c with
  | verifyFailed => exact .inr ⟨by decide, rfl⟩
  | _ => exact h _ (by decide)

theorem settles_restarting (hL : (Law.keep f).Resets) (ha : ∀ r a, f { r with att := a } = f r)
    {body : Prog Completion} (hb : ∀ e, (body e).Settles f Q e) (fuel : Nat) (e : Eng) :
    (restarting body fuel e).Settles f Q e := by
  induction fuel generalizing e with
  | zero => exact settles_catch (hb e) (settles_errorCompletion hL)
  | succ fuel ih =>
    refine settles_catch (hb e) fun c e => ?_
    have h : ∀ c : Cond, c.err ≠ .ok → (((Prog.ask fun e => e.locals.phase).bind fun ph =>
        (epilogue false).andThen <| attemptsLeft.bind fun more =>
          if more then nextAttempt.andThen (restarting body fuel) else Prog.ret (⟨c.err, ph, 0⟩ : Completion))
        e).Settles f Q e := by
      refine fun c hc => settles_bind (.ask hL.toClosed _) fun _ _ => settles_andThen (.epilogue hL) fun _ =>
        settles_bind (.ask hL.toClosed _) fun more e => ?_
      cases more with
      | true => exact settles_andThen (Law.keep_set _ fun _ => ha _ _) ih
      | false => exact .inr ⟨hc, rfl⟩
    cases c with
    | verifyFailed => exact settles_errorCompletion hL _ e
    | _ => exact h _ (by decide)

/-- The law that keeps `NPAGES_A` while the pages are read. -/
theorem Law.count_pages : (Law.keep fun r => r.npagesA).Pages where
  toLine := Law.view_line fun _ _ _ _ => rfl
  firstAttempt _ := ⟨rfl, rfl, rfl⟩
  nextAttempt _ _ := ⟨rfl, rfl, rfl⟩
  page _ _ _ _ _ := ⟨rfl, rfl, rfl⟩
  note _ _ _ _ _ := ⟨rfl, rfl, rfl⟩

/-- MEM_READALL sets `NPAGES_A` to 256 where it completes OK, and leaves it otherwise (R151). -/
theorem settles_readallCommand (f : Bool) (e : Eng) :
    (readallCommand f e).Settles (fun r => r.npagesA) (fun c e' => c.err = .ok ∧ e'.regs.npagesA = 256#9) e := by
  have hL := Law.count_pages
  have hbody : ∀ e, (readallBody f e).Settles (fun r => r.npagesA)
      (fun c e' => c.err = .ok ∧ e'.regs.npagesA = 256#9) e := by
    intro e
    refine settles_andThen (.setPhase hL.toClosed _) fun e => ?_
    refine settles_andThen (.selectTarget hL.toLine f) fun e => ?_
    refine settles_bind (.ask hL.toClosed _) fun rm e => ?_
    refine settles_andThen (.writeWire hL.toClosed _ _) fun e => ?_
    refine settles_andThen (.readPages hL fun _ hp => List.mem_range.1 hp) fun e => ?_
    exact .inl ⟨rfl, rfl⟩
  refine settles_bind (.ask hL.toClosed _) fun old e => ?_
  have h : (retried (readallBody f) e).Settles (fun r => r.npagesA)
      (fun c e' => c.err = .ok ∧ e'.regs.npagesA = 256#9) e := by
    refine settles_andThen (Law.keep_set _ fun _ => rfl) fun e => ?_
    exact settles_bind (.ask hL.toClosed _) fun n e => settles_restarting hL.toResets (fun _ _ => rfl) hbody n e
  cases hr : retried (readallBody f) e with
  | ok c e1 =>
    rw [hr] at h
    rw [Prog.bind_ok hr]
    by_cases hc : c.err = .ok
    · rw [if_pos hc]
      exact h
    · rw [if_neg hc]
      exact .inr ⟨hc, (Or.resolve_left h fun h => hc h.1).2⟩
  | raise c e1 =>
    rw [hr] at h
    rw [Prog.bind_raise hr]
    exact h
  | wait op e1 =>
    rw [hr] at h
    rw [Prog.bind_wait hr]
    exact h
  | fault x =>
    rw [Prog.bind_fault hr]
    trivial

theorem Law.lc_line : (Law.keep fun r => r.lc).Line := Law.view_line fun _ _ _ _ => rfl

/-- CLAIM changes `LC` only where it completes OK (R91). -/
theorem settles_claimBody (e : Eng) : (claimBody e).Settles (fun r => r.lc)
    (fun c e' => c = ⟨.ok, .noPhase, 0⟩ ∧ e'.regs.lc = .claimed) e := by
  have hL := Law.lc_line
  have hfail : ∀ e, (claimFailed e).Settles (fun r => r.lc)
      (fun c e' => c = ⟨.ok, .noPhase, 0⟩ ∧ e'.regs.lc = .claimed) e := fun e => .inr ⟨by decide, rfl⟩
  refine settles_bind (hL.link _) fun a e => ?_
  cases a with
  | ok d b =>
    refine settles_bind (.hardResetBounded hL.toResets) fun done e => ?_
    cases done with
    | false => exact hfail e
    | true =>
      refine settles_catch ?_ fun _ e => hfail e
      exact settles_andThen (.bufferClear hL.toClosed) fun _ => .inl ⟨rfl, rfl⟩
  | fail => exact hfail e
  | timeout => exact hfail e

/-- CLOSE changes `LC` only where it completes (R92). -/
theorem settles_closeBody (e : Eng) : (closeBody e).Settles (fun r => r.lc)
    (fun c e' => c = ⟨.ok, .noPhase, 0⟩ ∧ e'.regs.lc = .closed) e :=
  settles_bind (Law.lc_line.link _) fun _ _ => .inl ⟨rfl, rfl⟩

/-- A command that is accepted and whose body settles: it completes as `Q` says, or the view is kept. -/
theorem accept_settles {i : Instr} {body : Prog Completion} {s t : State}
    (hb : (body (s.eng false)).Settles f Q (s.eng false)) (hr : ∀ r w, f { r with result := w } = f r)
    (h : accept i body s = .next t) :
    (∃ c e, Q c e ∧ t = (s.clearDone.absorb e).complete i.opc c) ∨ f t.toRegs = f s.toRegs := by
  unfold accept at h
  cases hu : usageError i s with
  | some c =>
    rw [hu] at h
    cases h
    exact .inr (hr _ _)
  | none =>
    rw [hu] at h
    simp only [runCommand] at h
    cases hx : body (s.eng false) with
    | ok c e =>
      rw [hx] at h hb
      cases h
      exact Or.imp (fun hb => ⟨c, e, hb, rfl⟩) (fun hb => (hr _ _).trans hb.2) hb
    | raise c e =>
      rw [hx] at h hb
      cases h
      exact .inr ((hr _ _).trans hb)
    | wait op e =>
      rw [hx] at h hb
      cases h
      exact .inr hb
    | fault f =>
      rw [hx] at h
      cases h

end Sys2Proof.Machine
end

