-- ==== Sys2Proof/Laws/Result.lean ====
section
/-! SUPPORT. The fields of a result word read back what was put in (spec/10_state.md R25, spec/60_exceptions.md R170). -/

namespace Sys2Proof.Machine

/-- The bits of a result word, field by field. -/
theorem resultWord_getLsbD (opc : Byte) (c : Completion) (i : Nat) :
    (resultWord opc c).getLsbD i =
      if i < 4 then c.err.code.getLsbD i
      else if i < 7 then (if c.err = .ok then Phase.noPhase else c.phase).code.getLsbD (i - 4)
      else if i < 8 then false
      else if i < 16 then c.val.getLsbD (i - 8)
      else if i < 24 then false
      else opc.getLsbD (i - 24) := by
  unfold resultWord
  simp only [BitVec.getLsbD_append]
  by_cases h1 : i < 4
  · simp [h1]
  by_cases h2 : i < 7
  · simp [h1, h2, show i - 4 < 3 by omega]
  by_cases h3 : i < 8
  · have : i = 7 := by omega
    subst this
    simp
  by_cases h4 : i < 16
  · simp [h1, h2, h3, h4, show ¬i - 4 < 3 by omega, show ¬i - 4 - 3 < 1 by omega, show i - 8 < 8 by omega,
      show i - 4 - 3 - 1 = i - 8 by omega]
  by_cases h5 : i < 24
  · simp [h1, h2, h3, h4, h5, show ¬i - 4 < 3 by omega, show ¬i - 4 - 3 < 1 by omega,
      show ¬i - 4 - 3 - 1 < 8 by omega, show i - 4 - 3 - 1 - 8 < 8 by omega]
  · simp [h1, h2, h3, h4, h5, show ¬i - 4 < 3 by omega, show ¬i - 4 - 3 < 1 by omega,
      show ¬i - 4 - 3 - 1 < 8 by omega, show ¬i - 4 - 3 - 1 - 8 < 8 by omega,
      show i - 4 - 3 - 1 - 8 - 8 = i - 24 by omega]

theorem resultErr_word (opc : Byte) (c : Completion) : resultErr (resultWord opc c) = c.err.code := by
  refine BitVec.eq_of_getLsbD_eq fun i hi => ?_
  rw [resultErr, BitVec.getLsbD_extractLsb', resultWord_getLsbD]
  simp [hi]

theorem resultPhase_word (opc : Byte) (c : Completion) :
    resultPhase (resultWord opc c) = (if c.err = .ok then Phase.noPhase else c.phase).code := by
  refine BitVec.eq_of_getLsbD_eq fun i hi => ?_
  rw [resultPhase, BitVec.getLsbD_extractLsb', resultWord_getLsbD, if_neg (by omega), if_pos (by omega)]
  simp [hi]

theorem resultVal_word (opc : Byte) (c : Completion) : resultVal (resultWord opc c) = c.val := by
  refine BitVec.eq_of_getLsbD_eq fun i hi => ?_
  rw [resultVal, BitVec.getLsbD_extractLsb', resultWord_getLsbD, if_neg (by omega), if_neg (by omega),
    if_neg (by omega), if_pos (by omega)]
  simp [hi]

theorem resultOpc_word (opc : Byte) (c : Completion) : resultOpc (resultWord opc c) = opc := by
  refine BitVec.eq_of_getLsbD_eq fun i hi => ?_
  rw [resultOpc, BitVec.getLsbD_extractLsb', resultWord_getLsbD, if_neg (by omega), if_neg (by omega),
    if_neg (by omega), if_neg (by omega), if_neg (by omega)]
  simp [hi]

/-- Bits 7 and 23:16 of a result word are 0 (R25). -/
theorem resultWord_zero (opc : Byte) (c : Completion) :
    (resultWord opc c).getLsbD 7 = false ∧ (resultWord opc c).extractLsb' 16 8 = 0#8 := by
  refine ⟨by rw [resultWord_getLsbD]; simp, BitVec.eq_of_getLsbD_eq fun i hi => ?_⟩
  rw [BitVec.getLsbD_extractLsb', resultWord_getLsbD, if_neg (by omega), if_neg (by omega),
    if_neg (by omega), if_neg (by omega), if_pos (by omega)]
  simp

/-- ERR is at most 10, PHASE at most 5 (R171, R174). -/
theorem code_le (e : Err) (p : Phase) : e.code.toNat ≤ 10 ∧ p.code.toNat ≤ 5 := by
  cases e <;> cases p <;> decide

end Sys2Proof.Machine
end

