-- ==== Sys2Proof/Laws/Invariant.lean ====
section
/-! SUPPORT. The bodies of all commands, and the background pass, keep the invariant of the registers. -/

namespace Sys2Proof.Machine

/-- What the sequencer keeps while it runs: the registers' invariant, bytes received for `IMG_A` only, and the unused
bits of `EVENT`. -/
def Eng.Good (e : Eng) : Prop :=
  e.params.wf ∧ e.regs.Inv e.params ∧ (∀ c ∈ e.received, imgAddr c.1) ∧ e.raised.extractLsb' 3 29 = 0#29

/-- The law that keeps it. -/
def Law.inv : Law :=
  let R := fun e e' : Eng => e'.params = e.params ∧ (e.Good → e'.Good)
  { R := R, W := R, F := fun _ _ => True }

/-- A change of registers that keeps their invariant. -/
theorem Law.inv_regs {e : Eng} {r : Regs} (h : e.params.wf → e.regs.Inv e.params → r.Inv e.params) :
    Law.inv.R e { e with regs := r } := ⟨rfl, fun hg => ⟨hg.1, h hg.1 hg.2.1, hg.2.2⟩⟩

/-- A change of neither registers nor events nor the bytes received. -/
theorem Law.inv_same {e e' : Eng} (hp : e'.params = e.params) (hr : e'.regs = e.regs) (hc : e'.received = e.received)
    (hv : e'.raised = e.raised) : Law.inv.R e e' := by
  refine ⟨hp, fun hg => ?_⟩
  unfold Eng.Good
  rw [hp, hr, hc, hv]
  exact hg

/-- The buffers after a write inside their windows (R41). -/
theorem Regs.Inv.store {p : Params} {r : Regs} (h : r.Inv p) (a : Nat) (bs : List Byte)
    (ha : ∀ x, a ≤ x → x < a + bs.length → bufferAddr p x = true) :
    Regs.Inv p { r with mem := r.mem.writeBytes a bs } :=
  { h with
    memWf := Memory.writeBytes_wf h.memWf a bs
    memIn := fun c hc => (Memory.mem_writeBytes hc).elim (h.memIn c) fun hc => ha _ hc.1 hc.2 }

theorem bufferAddr_img {p : Params} {x : Nat} (h : imgAddr x) : bufferAddr p x = true := by
  unfold imgAddr at h
  unfold bufferAddr
  simp
  omega

/-- Setting flags among bits 2:0 leaves bits 31:3 at 0 (R26). -/
theorem raiseFlags_high {w f : Word} (hw : w.extractLsb' 3 29 = 0#29) (hf : f.extractLsb' 3 29 = 0#29) :
    (raiseFlags w f).extractLsb' 3 29 = 0#29 := by
  unfold raiseFlags
  rw [BitVec.extractLsb'_or, hw, hf]
  rfl

theorem clearFlags_high {w v : Word} (hw : w.extractLsb' 3 29 = 0#29) :
    (clearFlags w v).extractLsb' 3 29 = 0#29 := by
  unfold clearFlags
  rw [BitVec.extractLsb'_and, hw, BitVec.zero_and]

theorem ofNat_toNat_le {w n : Nat} : (BitVec.ofNat w n).toNat ≤ n := by
  rw [BitVec.toNat_ofNat]
  exact Nat.mod_le _ _

theorem Law.inv_background : Law.inv.Background where
  refl _ := ⟨rfl, id⟩
  trans h1 h2 := ⟨h2.1.trans h1.1, h2.2 ∘ h1.2⟩
  transW h1 h2 := ⟨h2.1.trans h1.1, h2.2 ∘ h1.2⟩
  transF _ _ := trivial
  link _ := .link_of (fun e _ _ _ => ⟨rfl, fun hg => ⟨hg.1, { hg.2.1 with }, hg.2.2⟩⟩)
    (fun _ _ _ => Law.inv_same rfl rfl rfl rfl) fun _ _ => Law.inv_same rfl rfl rfl rfl
  locals _ _ := Law.inv_same rfl rfl rfl rfl
  params h := h.1
  spdLost _ := Law.inv_regs fun _ h => { h with }
  spdSet _ _ := Law.inv_regs fun _ h => { h with }
  lastDevice _ := Law.inv_regs fun _ h => { h with }
  romId _ _ := Law.inv_regs fun _ h => { h with }
  found _ lz hlz := Law.inv_regs fun _ h => { h with lastDisc := (ofNat_toNat_le).trans hlz }
  init _ := Law.inv_regs fun _ h => { h with lastDisc := by simp }
  deliver e ids trunc hl := ⟨rfl, fun hg => ⟨hg.1, by
    have h := hg.2.1.store (detAddr 0 0) (batchBytes ids) (by
      intro x h1 h2
      rw [batchBytes_length] at h2
      unfold detAddr at h1 h2
      unfold bufferAddr
      simp
      omega)
    exact { h with detCount := (ofNat_toNat_le).trans hl }, hg.2.2.1, raiseFlags_high hg.2.2.2 (by decide)⟩⟩
  untimed _ := Law.inv_same rfl rfl rfl rfl
  srchErr _ := ⟨rfl, fun hg => ⟨hg.1, hg.2.1, hg.2.2.1, raiseFlags_high hg.2.2.2 (by decide)⟩⟩

theorem Law.inv_attempts : Law.inv.Attempts where
  toLine := Law.inv_background.toLine
  firstAttempt _ := Law.inv_regs fun hw h => { h with att := hw.1.1 }
  nextAttempt e hlt := Law.inv_regs fun _ h => { h with
    att := (BitVec.toNat_add e.regs.att 1#4).trans_le ((Nat.mod_le _ _).trans hlt) }

theorem Law.inv_writes : Law.inv.Writes where
  toAttempts := Law.inv_attempts
  load _ _ _ _ := trivial
  lax _ _ := .inr fun _ _ => trivial

theorem Law.inv_readAll : Law.inv.ReadAll where
  toAttempts := Law.inv_attempts
  page e p d hp hd := Law.inv_regs fun _ h => h.store _ _ fun x h1 h2 =>
    bufferAddr_img (imgAddr_page hp hd.le ⟨h1, h2⟩)
  note e p bs hp hb := ⟨rfl, fun hg => ⟨hg.1, hg.2.1, fun c hc => by
    rcases List.mem_append.1 hc with hc | hc
    · exact hg.2.2.1 c hc
    · exact imgAddr_page hp hb (mem_cellsFrom_addr hc), hg.2.2.2⟩⟩
  npages _ := Law.inv_regs fun _ h => { h with npagesA := by simp }

theorem Law.inv_mixed (e e' : Eng) (h : Law.inv.R e e') : Law.inv.R e (e'.mixed e.regs.mem) := by
  refine ⟨h.1, fun hg => ?_⟩
  have h1 := h.2 hg
  have hm := hg.2.1
  refine ⟨h1.1, { h1.2.1 with memWf := mixInto_wf _ _ _ _ _ hm.memWf, memIn := fun c hc => ?_ }, h1.2.2⟩
  have hp : (e'.mixed e.regs.mem).params = e.params := h.1
  rcases mixInto_mem _ _ _ _ _ hc with hc | hc
  · rw [hp]
    exact hm.memIn c hc
  · obtain ⟨d, hd, hd'⟩ := List.mem_map.1 hc
    rw [← hd']
    exact bufferAddr_img (h1.2.2.1 d hd)

/-- Every command's body keeps the invariant. -/
theorem Law.inv_allows (i : Instr) : Law.inv.Allows i := by
  have hL := Law.inv_background
  cases i with
  | claim => exact { hL with claimed := fun _ => Law.inv_regs fun _ h => { h with } }
  | close => exact ⟨hL.toClosed, fun _ => Law.inv_regs fun _ h => { h with }⟩
  | srchStart => exact trivial
  | owReset => exact hL.toLine
  | owSpeed f => exact hL.toLine
  | owWbit f => exact hL.toLine
  | owRbit => exact hL.toLine
  | owWrite n c => exact ⟨hL.toLine, fun _ _ _ _ => trivial⟩
  | owRead n =>
    refine ⟨hL.toLine, fun e d hd => Law.inv_regs fun _ h => ?_⟩
    have h1 := h.store (rxAddr 0) d fun x h1 h2 => by
      have := n.isLt
      unfold rxAddr at h1 h2
      unfold bufferAddr
      simp
      omega
    exact { h1 with }
  | owRom s d => exact hL.toLine
  | srchFirst => exact hL.toSearch
  | srchNext => exact hL.toSearch
  | srchEnum => exact hL.toDelivers
  | pgWrite p d => exact Law.inv_writes
  | rgWrite h l n => exact Law.inv_writes
  | memReadall f => exact ⟨Law.inv_readAll, Law.inv_mixed⟩
  | memWriteall f => exact Law.inv_writes
  | memWritediff f => exact Law.inv_writes
  | crc16Clr => exact trivial
  | crc16Byte v => exact trivial
  | crc16Chk p => exact trivial
  | crc16Gen p => exact trivial

/-! ## Where a command waits -/

/-- What no command changes before it completes. -/
def Regs.kept (r : Regs) : Lifecycle × RomId × Half × BitVec 9 × Word := (r.lc, r.targetId, r.crc16, r.npagesB, r.result)

/-- The law that keeps it. -/
abbrev Law.kept : Law := Law.keep Regs.kept

/-- The registers but `LC`, `TARGET_ID`, `CRC16`, `NPAGES_B` and `RESULT` replaced by those of `r'`. -/
def Regs.withOthers (r r' : Regs) : Regs :=
  { r' with lc := r.lc, targetId := r.targetId, crc16 := r.crc16, npagesB := r.npagesB, result := r.result }

theorem Law.keep_of {β : Type} {f : Regs → β} (h : ∀ r r', f (r.withOthers r') = f r) {e e' : Eng}
    (h1 : e'.params = e.params) (h2 : e'.regs = e.regs.withOthers e'.regs) : (Law.keep f).R e e' :=
  ⟨h1, rfl, by rw [h2]; exact h _ _⟩

/-- A view of those five registers is kept by a background pass. -/
theorem Law.keep_background {β : Type} {f : Regs → β} (h : ∀ r r', f (r.withOthers r') = f r) :
    (Law.keep f).Background where
  refl _ := ⟨rfl, rfl, rfl⟩
  trans h1 h2 := ⟨h2.1.trans h1.1, rfl, h2.2.2.trans h1.2.2⟩
  transW h1 h2 := ⟨h2.1.trans h1.1, rfl, h2.2.2.trans h1.2.2⟩
  transF _ _ := trivial
  link _ := .link_of (fun _ _ _ _ => Law.keep_of h rfl rfl) (fun _ _ _ => Law.keep_of h rfl rfl)
    fun _ _ => Law.keep_of h rfl rfl
  locals _ _ := Law.keep_of h rfl rfl
  params h := h.1
  spdLost _ := Law.keep_of h rfl rfl
  spdSet _ _ := Law.keep_of h rfl rfl
  lastDevice _ := Law.keep_of h rfl rfl
  romId _ _ := Law.keep_of h rfl rfl
  found _ _ _ := Law.keep_of h rfl rfl
  init _ := Law.keep_of h rfl rfl
  deliver _ _ _ _ := Law.keep_of h rfl rfl
  untimed _ := Law.keep_of h rfl rfl
  srchErr _ := Law.keep_of h rfl rfl

/-- A view of those five registers is kept by every command but CLAIM and CLOSE; one that leaves `LC` out by those
too. -/
theorem Law.keep_allows {β : Type} {f : Regs → β} (h : ∀ r r', f (r.withOthers r') = f r) (i : Instr)
    (hlc : i = .claim ∨ i = .close → ∀ r l, f { r with lc := l } = f r) : (Law.keep f).Allows i := by
  have hL := Law.keep_background h
  have hw : (Law.keep f).Writes := {
    hL with
    firstAttempt := fun _ => Law.keep_of h rfl rfl
    nextAttempt := fun _ _ => Law.keep_of h rfl rfl
    load := fun _ _ _ _ => trivial
    lax := fun _ _ => .inr fun _ _ => trivial }
  cases i with
  | claim => exact { hL with claimed := fun _ => ⟨rfl, rfl, hlc (.inl rfl) _ _⟩ }
  | close => exact ⟨hL.toClosed, fun _ => ⟨rfl, rfl, hlc (.inr rfl) _ _⟩⟩
  | srchStart => exact trivial
  | owReset => exact hL.toLine
  | owSpeed f => exact hL.toLine
  | owWbit f => exact hL.toLine
  | owRbit => exact hL.toLine
  | owWrite n c => exact ⟨hL.toLine, fun _ _ _ _ => trivial⟩
  | owRead n => exact ⟨hL.toLine, fun _ _ _ => Law.keep_of h rfl rfl⟩
  | owRom s d => exact hL.toLine
  | srchFirst => exact hL.toSearch
  | srchNext => exact hL.toSearch
  | srchEnum => exact hL.toDelivers
  | pgWrite p d => exact hw
  | rgWrite h l n => exact hw
  | memReadall f =>
    exact ⟨{ hw with
      page := fun _ _ _ _ _ => Law.keep_of h rfl rfl
      note := fun _ _ _ _ _ => Law.keep_of h rfl rfl
      npages := fun _ => Law.keep_of h rfl rfl },
      fun e e' h1 => ⟨h1.1, rfl, (h e'.regs (e'.mixed e.regs.mem).regs).trans h1.2.2⟩⟩
  | memWriteall f => exact hw
  | memWritediff f => exact hw
  | crc16Clr => exact trivial
  | crc16Byte v => exact trivial
  | crc16Chk p => exact trivial
  | crc16Gen p => exact trivial

/-- The part of it that CLAIM and CLOSE keep too. -/
def Regs.owned (r : Regs) : RomId × Half × BitVec 9 × Word := (r.targetId, r.crc16, r.npagesB, r.result)

theorem result_claim : resultWord Instr.claim.opc ⟨.ok, .noPhase, 0⟩ = 0x01000000#32 := by decide

theorem result_close : resultWord Instr.close.opc ⟨.ok, .noPhase, 0⟩ = 0x02000000#32 := by decide

/-- How a command changes `LC`: only CLAIM and CLOSE do, where they complete OK (R91, R92). -/
theorem exec_lc {i : Instr} {s t : State} (h : exec i s = .next t) : t.lc = s.lc ∨
    (i = .claim ∧ s.lc = .unclaimed ∧ t.lc = .claimed ∧ t.lock = false ∧ t.result = 0x01000000#32) ∨
    (i = .close ∧ t.lc = .closed ∧ t.lock = false ∧ t.result = 0x02000000#32) := by
  by_cases hb : Instr.usesBus i = true
  · by_cases h1 : i = .claim
    · subst h1
      by_cases hu : s.lc = .unclaimed
      · rcases accept_settles (i := .claim) (settles_claimBody _) (fun _ _ => rfl) h with ⟨c, e, ⟨rfl, hl⟩, rfl⟩ | h
        · exact .inr (.inl ⟨rfl, hu, hl, rfl, result_claim⟩)
        · exact .inl h
      · have hx : usageError .claim s = some ⟨.badState, .noPhase, 0⟩ := by
          unfold usageError legalIn
          simp [hu]
        change accept .claim claimBody s = _ at h
        unfold accept at h
        rw [hx] at h
        cases h
        exact .inl rfl
    by_cases h2 : i = .close
    · subst h2
      change execClose s = _ at h
      unfold execClose at h
      split at h
      · cases h
        exact .inl rfl
      · rcases accept_settles (settles_closeBody _) (fun _ _ => rfl) h with ⟨c, e, ⟨rfl, hl⟩, rfl⟩ | h
        · exact .inr (.inr ⟨rfl, hl, rfl, result_close⟩)
        · exact .inl h
    rcases exec_next hb (Law.keep_allows (f := Regs.kept) (fun _ _ => rfl) i fun h => by simp_all) (fun h => absurd h h2) h with ⟨c, -, rfl⟩ | ⟨-, c, e, hR, rfl⟩ |
      ⟨-, op, e, hR, rfl⟩
    · exact .inl rfl
    · exact .inl (congrArg Prod.fst hR.2.2)
    · exact .inl (congrArg Prod.fst hR.2.2)
  · rcases exec_noBus i (by simpa using hb) s with ⟨c, s1, hs1, h1⟩ | ⟨a, -, -, -, h1⟩
    · rw [h1] at h
      cases h
      rcases hs1 with rfl | ⟨-, rfl⟩ | ⟨-, -, r, rfl⟩ | ⟨p, r, bs, rfl, hl, rfl⟩ <;> exact .inl rfl
    · rw [h1] at h
      cases h

/-- No command writes `TARGET_ID` or `NPAGES_B` (R14, R23); where it waits it has changed none of `LC`, `CRC16` and
`RESULT` either. -/
theorem exec_kept {i : Instr} {s t : State} (h : exec i s = .next t) :
    t.targetId = s.targetId ∧ t.npagesB = s.npagesB ∧ (t.lock = true → t.toRegs.kept = s.toRegs.kept) := by
  by_cases hb : Instr.usesBus i = true
  · by_cases hc : i = .close → s.lc ≠ .closed
    · rcases exec_next hb (Law.keep_allows (f := Regs.owned) (fun _ _ => rfl) i fun _ _ _ => rfl) hc h with ⟨c, -, ht⟩ | ⟨-, c, e, hR, ht⟩ | ⟨-, op, e, hR, ht⟩
      · subst ht
        exact ⟨rfl, rfl, fun hl => by cases hl⟩
      · subst ht
        have h2 := hR.2.2
        simp only [Regs.owned, Prod.mk.injEq] at h2
        exact ⟨h2.1, h2.2.2.1, fun hl => by cases hl⟩
      · have h2 := hR.2.2
        simp only [Regs.owned, Prod.mk.injEq] at h2
        have hlc := exec_lc h
        subst ht
        refine ⟨h2.1, h2.2.2.1, fun hl => ?_⟩
        rcases hlc with hlc | ⟨-, -, -, hlc, -⟩ | ⟨-, -, hlc, -⟩
        · simp only [Regs.kept, Prod.mk.injEq]
          exact ⟨hlc, h2⟩
        · rw [hl] at hlc
          cases hlc
        · rw [hl] at hlc
          cases hlc
    · push Not at hc
      obtain ⟨rfl, hc⟩ := hc
      have h1 : exec .close s = completeNow Instr.close.opc ⟨.ok, .noPhase, 0⟩ s := if_pos hc
      rw [h1] at h
      cases h
      exact ⟨rfl, rfl, fun hl => by cases hl⟩
  · rcases exec_noBus i (by simpa using hb) s with ⟨c, s1, hs1, h1⟩ | ⟨a, -, -, -, h1⟩
    · rw [h1] at h
      cases h
      rcases hs1 with rfl | ⟨-, rfl⟩ | ⟨-, -, r, rfl⟩ | ⟨p, r, bs, rfl, hl, rfl⟩ <;>
        exact ⟨rfl, rfl, fun hl => by cases hl⟩
    · rw [h1] at h
      cases h

end Sys2Proof.Machine
end

