-- ==== Sys2Proof/Laws/Line.lean ====
section
/-! SUPPORT. The bounded loops of the line primitives (R102, R103), the error epilogue (R172), and completion of a
command whose body has been run. -/

namespace Sys2Proof.Machine

/-- `e` after an `ok` hard reset (R19, R103). -/
def Eng.lostSpd (e : Eng) : Eng := { e with regs := { e.regs with spdValid := false } }

@[simp] theorem Eng.lostSpd_script (e : Eng) : e.lostSpd.script = e.script := rfl
@[simp] theorem Eng.lostSpd_params (e : Eng) : e.lostSpd.params = e.params := rfl
@[simp] theorem Eng.lostSpd_locals (e : Eng) : e.lostSpd.locals = e.locals := rfl
@[simp] theorem Eng.lostSpd_timed (e : Eng) : e.lostSpd.timed = e.timed := rfl
@[simp] theorem Eng.lostSpd_raised (e : Eng) : e.lostSpd.raised = e.raised := rfl
@[simp] theorem Eng.lostSpd_received (e : Eng) : e.lostSpd.received = e.received := rfl
@[simp] theorem Eng.lostSpd_regs (e : Eng) : e.lostSpd.regs = { e.regs with spdValid := false } := rfl
@[simp] theorem Eng.adv_lostSpd (e : Eng) (ops ms rest) :
    (e.adv ops ms rest).lostSpd = e.lostSpd.adv ops ms rest := rfl
@[simp] theorem Eng.setLoc_lostSpd (e : Eng) (l) : (e.setLoc l).lostSpd = e.lostSpd.setLoc l := rfl

/-- `e` after a hard reset that was answered `ok`, or not (R19, R103). -/
def Eng.clearSpd (e : Eng) (ok : Bool) : Eng := { e with regs := { e.regs with spdValid := e.regs.spdValid && !ok } }

@[simp] theorem Eng.clearSpd_script (e : Eng) (b) : (e.clearSpd b).script = e.script := rfl
@[simp] theorem Eng.clearSpd_params (e : Eng) (b) : (e.clearSpd b).params = e.params := rfl
@[simp] theorem Eng.clearSpd_locals (e : Eng) (b) : (e.clearSpd b).locals = e.locals := rfl
@[simp] theorem Eng.clearSpd_raised (e : Eng) (b) : (e.clearSpd b).raised = e.raised := rfl
@[simp] theorem Eng.clearSpd_regs (e : Eng) (b) :
    (e.clearSpd b).regs = { e.regs with spdValid := e.regs.spdValid && !b } := rfl
@[simp] theorem Eng.adv_clearSpd (e : Eng) (b ops ms rest) :
    (e.adv ops ms rest).clearSpd b = (e.clearSpd b).adv ops ms rest := rfl
theorem Eng.clearSpd_true (e : Eng) : e.clearSpd true = e.lostSpd := by simp [Eng.clearSpd, Eng.lostSpd]
theorem Eng.clearSpd_false (e : Eng) : e.clearSpd false = e := by simp [Eng.clearSpd]

/-- `BufferClear`'s loop where the indicator clears after `k` busy polls (R102). -/
theorem pollLoop_clears {k n : Nat} {e : Eng} {a rest : List Move} (hk : k < n) (ha : Acks 1 a)
    (hs : e.script = busyPolls k ++ (a ++ rest)) :
    pollLoop n e = .ok () (e.adv (List.replicate (k + 1) .stat) (busyPolls k ++ a) rest) := by
  induction k generalizing n e with
  | zero =>
    obtain ⟨d, ms', rfl, h'⟩ := ha.cons
    obtain rfl := h'.nil
    obtain ⟨n, rfl⟩ : ∃ m, n = m + 1 := ⟨n - 1, by omega⟩
    rw [pollLoop, Prog.bind_ok (xfer_ok hs)]
    rfl
  | succ k ih =>
    obtain ⟨n, rfl⟩ : ∃ m, n = m + 1 := ⟨n - 1, by omega⟩
    rw [pollLoop, Prog.bind_ok (xfer_ok hs)]
    rw [if_pos rfl, ih (n := n) (by omega) rfl, Eng.adv_adv]
    rfl

/-- `BufferClear`'s loop where every poll reads busy (R102). -/
theorem pollLoop_busy {n : Nat} {e : Eng} {rest : List Move} (hs : e.script = busyPolls n ++ rest) :
    pollLoop n e = .raise .busBusy (e.adv (List.replicate n .stat) (busyPolls n) rest) := by
  induction n generalizing e with
  | zero =>
    have hs' : e.script = rest := hs
    subst hs'
    exact congrArg _ e.adv_nil.symm
  | succ n ih =>
    rw [pollLoop, Prog.bind_ok (xfer_ok hs), if_pos rfl, ih rfl, Eng.adv_adv]
    rfl

/-- `BufferClear`'s loop whose poll after `k` busy ones is not answered `ok` (R60, R102). -/
theorem pollLoop_fails {k n : Nat} {e : Eng} {r : Reply} {rest : List Move} (hk : k < n) (hr : r.failed = true)
    (hs : e.script = busyPolls k ++ .reply r :: rest) :
    pollLoop n e = .raise .transportError
      (e.adv (List.replicate (k + 1) .stat) (busyPolls k ++ [.reply r]) rest) := by
  induction k generalizing n e with
  | zero =>
    obtain ⟨n, rfl⟩ : ∃ m, n = m + 1 := ⟨n - 1, by omega⟩
    rw [pollLoop, Prog.bind_raise (xfer_failed hr hs)]
    rfl
  | succ k ih =>
    obtain ⟨n, rfl⟩ : ∃ m, n = m + 1 := ⟨n - 1, by omega⟩
    rw [pollLoop, Prog.bind_ok (xfer_ok hs)]
    rw [if_pos rfl, ih (n := n) (by omega) rfl, Eng.adv_adv]
    rfl

/-- `HardResetBounded`'s loop that succeeds after `n` timeouts (R103). -/
theorem hardResetLoop_ok {n m : Nat} {e : Eng} {a rest : List Move} (hn : n < m) (ha : Acks 1 a)
    (hs : e.script = timeouts n ++ (a ++ rest)) :
    hardResetLoop m e = .ok true (e.lostSpd.adv (List.replicate (n + 1) .hardReset) (timeouts n ++ a) rest) := by
  induction n generalizing m e with
  | zero =>
    obtain ⟨d, ms', rfl, h'⟩ := ha.cons
    obtain rfl := h'.nil
    obtain ⟨m, rfl⟩ : ∃ k, m = k + 1 := ⟨m - 1, by omega⟩
    rw [hardResetLoop, Prog.bind_ok (link_reply hs)]
    rfl
  | succ n ih =>
    obtain ⟨m, rfl⟩ : ∃ k, m = k + 1 := ⟨m - 1, by omega⟩
    rw [hardResetLoop, Prog.bind_ok (link_reply hs)]
    simp only []
    rw [ih (m := m) (by omega) rfl, Eng.adv_lostSpd, Eng.adv_adv]
    rfl

/-- The loop that an answer `fail` ends after `n` timeouts (R103). -/
theorem hardResetLoop_fail {n m : Nat} {e : Eng} {rest : List Move} (hn : n < m)
    (hs : e.script = timeouts n ++ .reply .fail :: rest) :
    hardResetLoop m e =
      .ok false (e.adv (List.replicate (n + 1) .hardReset) (timeouts n ++ [.reply .fail]) rest) := by
  induction n generalizing m e with
  | zero =>
    obtain ⟨m, rfl⟩ : ∃ k, m = k + 1 := ⟨m - 1, by omega⟩
    rw [hardResetLoop, Prog.bind_ok (link_reply hs)]
    rfl
  | succ n ih =>
    obtain ⟨m, rfl⟩ : ∃ k, m = k + 1 := ⟨m - 1, by omega⟩
    rw [hardResetLoop, Prog.bind_ok (link_reply hs)]
    simp only []
    rw [ih (m := m) (by omega) rfl, Eng.adv_adv]
    rfl

/-- The loop that times out at every attempt (R103). -/
theorem hardResetLoop_timeouts {m : Nat} {e : Eng} {rest : List Move} (hs : e.script = timeouts m ++ rest) :
    hardResetLoop m e = .ok false (e.adv (List.replicate m .hardReset) (timeouts m) rest) := by
  induction m generalizing e with
  | zero =>
    have hs' : e.script = rest := hs
    subst hs'
    exact congrArg _ e.adv_nil.symm
  | succ m ih =>
    rw [hardResetLoop, Prog.bind_ok (link_reply hs)]
    simp only []
    rw [ih rfl, Eng.adv_adv]
    rfl

/-- The loop that waits for its next answer after `k` timeouts (R28, R103). -/
theorem hardResetLoop_pending {k m : Nat} {e : Eng} (hk : k < m) (hs : e.script = timeouts k) :
    hardResetLoop m e = .wait .hardReset (e.adv (List.replicate k .hardReset) (timeouts k) []) := by
  induction k generalizing m e with
  | zero =>
    obtain ⟨m, rfl⟩ : ∃ j, m = j + 1 := ⟨m - 1, by omega⟩
    have hs' : e.script = [] := hs
    rw [hardResetLoop, Prog.bind_wait (link_wait hs')]
    exact congrArg _ (by rw [← hs']; exact e.adv_nil.symm)
  | succ k ih =>
    obtain ⟨m, rfl⟩ : ∃ j, m = j + 1 := ⟨m - 1, by omega⟩
    rw [hardResetLoop, Prog.bind_ok (link_reply hs)]
    simp only []
    rw [ih (m := m) (by omega) rfl, Eng.adv_adv]
    rfl

theorem bufferClear_clears {k : Nat} {e : Eng} {a rest : List Move} (hk : k < e.params.pollLimit) (ha : Acks 1 a)
    (hs : e.script = busyPolls k ++ (a ++ rest)) :
    bufferClear e = .ok () (e.adv (List.replicate (k + 1) .stat) (busyPolls k ++ a) rest) := pollLoop_clears hk ha hs

theorem bufferClear_busy {e : Eng} {rest : List Move} (hs : e.script = busyPolls e.params.pollLimit ++ rest) :
    bufferClear e = .raise .busBusy (e.adv (List.replicate e.params.pollLimit .stat) (busyPolls e.params.pollLimit) rest) :=
  pollLoop_busy hs

theorem bufferClear_fails {k : Nat} {e : Eng} {r : Reply} {rest : List Move} (hk : k < e.params.pollLimit)
    (hr : r.failed = true) (hs : e.script = busyPolls k ++ .reply r :: rest) :
    bufferClear e = .raise .transportError
      (e.adv (List.replicate (k + 1) .stat) (busyPolls k ++ [.reply r]) rest) := pollLoop_fails hk hr hs

theorem hardResetBounded_ok {n : Nat} {e : Eng} {a rest : List Move} (hn : n < e.params.hrAttempts) (ha : Acks 1 a)
    (hs : e.script = timeouts n ++ (a ++ rest)) :
    hardResetBounded e = .ok true (e.lostSpd.adv (List.replicate (n + 1) .hardReset) (timeouts n ++ a) rest) :=
  hardResetLoop_ok hn ha hs

theorem hardResetBounded_fail {n : Nat} {e : Eng} {rest : List Move} (hn : n < e.params.hrAttempts)
    (hs : e.script = timeouts n ++ .reply .fail :: rest) :
    hardResetBounded e =
      .ok false (e.adv (List.replicate (n + 1) .hardReset) (timeouts n ++ [.reply .fail]) rest) :=
  hardResetLoop_fail hn hs

theorem hardResetBounded_timeouts {e : Eng} {rest : List Move} (hs : e.script = timeouts e.params.hrAttempts ++ rest) :
    hardResetBounded e =
      .ok false (e.adv (List.replicate e.params.hrAttempts .hardReset) (timeouts e.params.hrAttempts) rest) :=
  hardResetLoop_timeouts hs

/-- The bounded hard reset, however it ends (R103). -/
theorem hardResetBounded_ends {ok : Bool} {e : Eng} {hm rest : List Move} {hops : List LinkOp}
    (h : HardResetEnds e.params ok hm hops) (hs : e.script = hm ++ rest) :
    hardResetBounded e = .ok ok ((e.clearSpd ok).adv hops hm rest) := by
  cases h with
  | ok n a hn ha =>
    rw [Eng.clearSpd_true]
    exact hardResetBounded_ok hn ha (by rw [hs, List.append_assoc])
  | fail n hn =>
    rw [Eng.clearSpd_false]
    exact hardResetBounded_fail hn (by rw [hs, List.append_assoc]; rfl)
  | timeouts =>
    rw [Eng.clearSpd_false]
    exact hardResetBounded_timeouts hs

/-- A guarded body that returns. -/
theorem guarded_ok {b : Bool} {body : Prog Completion} {e e' : Eng} {c : Completion} (h : body e = .ok c e') :
    guarded b body e = .ok c e' := Prog.catch_ok h

/-- A guarded body that raises. -/
theorem guarded_raise {b : Bool} {body : Prog Completion} {e e' : Eng} {c : Cond} (h : body e = .raise c e') :
    guarded b body e = errorCompletion b c e' := Prog.catch_raise h

/-- A command whose body returns, in the terms claims use (R170). -/
theorem accept_ok {i : Instr} {body : Prog Completion} {s t : State} {c : Completion} {e : Eng} {w : Word}
    (hu : usageError i s = none) (h : body (s.eng false) = .ok c e) (hr : e.raised = 0#32)
    (hw : resultWord i.opc c = w) (ht : { s with toRegs := e.regs, inputs := e.script } = t) :
    accept i body s = .next (t.completed w) := by
  rw [accept_run hu, runCommand_ok h hr, hw, ht]

/-- `RomCommand` of search or skip answered at once: eight zero bytes (R110). -/
theorem romCommand_zeros_ack {e : Eng} {x : RomSel} {d : Bool} {ms rest : List Move} (hx : x ≠ .matchRom)
    (h : Acks 3 ms) (hs : e.script = ms ++ rest) :
    romCommand x d e = .ok () ((e.setSpd d).adv
      [.ctl (.rom (romx e.params x d)), .ctl (.speed d), .bulkOut (List.replicate 8 0#8)] ms rest) := by
  obtain ⟨a, b, rfl, ha, hb⟩ := Acks.split (m := 1) (n := 2) h
  obtain ⟨b1, b2, rfl, hb1, hb2⟩ := Acks.split (m := 1) (n := 1) hb
  unfold romCommand
  rw [Prog.ask_bind, Prog.andThen_ok (send_ack ha (by rw [hs, List.append_assoc])),
    Prog.andThen_ok (setSpeed_ack (e := e.adv _ _ _) hb1 (by rw [Eng.adv_script, List.append_assoc])), Prog.ask_bind]
  simp only [hx, if_false]
  rw [send_ack (rest := rest) hb2 rfl]
  simp [Eng.adv, Eng.setSpd, List.append_assoc]

/-- A buffer read whose bytes all hold values. -/
theorem loadBytes_holds {e : Eng} {a n : Nat} {bs : List Byte} (hl : bs.length = n)
    (h : HoldsBytes e.regs.mem a bs) : loadBytes a n e = .ok bs e := by
  unfold loadBytes
  rw [Memory.readBytes_ok.2 ⟨hl, fun i hi => h i (by omega)⟩]

end Sys2Proof.Machine
end

