-- ==== Sys2Proof/Laws/Slices.lean ====
section
/-! SUPPORT. The slices of a payload (spec/43_scratchpad_write.md R141 step 3): consecutive, each full but the last. -/

namespace Sys2Proof.Machine

theorem slicesFuel_nil (n fuel : Nat) : slicesFuel n fuel [] = [] := by
  cases fuel <;> simp [slicesFuel]

/-- More fuel than bytes changes nothing. -/
theorem slicesFuel_eq {n : Nat} (hn : 1 ≤ n) {f g : Nat} {data : List Byte} (hf : data.length ≤ f)
    (hg : data.length ≤ g) : slicesFuel n f data = slicesFuel n g data := by
  induction f generalizing g data with
  | zero =>
    obtain rfl := List.eq_nil_of_length_eq_zero (Nat.le_zero.1 hf)
    rw [slicesFuel_nil, slicesFuel_nil]
  | succ f ih =>
    by_cases hd : data = []
    · subst hd
      rw [slicesFuel_nil, slicesFuel_nil]
    · have hl : 1 ≤ data.length := List.length_pos_iff.2 hd
      obtain ⟨g', rfl⟩ : ∃ g', g = g' + 1 := ⟨g - 1, by omega⟩
      simp only [slicesFuel, hd, if_false]
      rw [ih (g := g') (by simp; omega) (by simp; omega)]

theorem slices_nil (n : Nat) : slices n [] = [] := slicesFuel_nil n _

theorem slices_cons {n : Nat} (hn : 1 ≤ n) {data : List Byte} (hd : data ≠ []) :
    slices n data = data.take n :: slices n (data.drop n) := by
  have hl : 1 ≤ data.length := List.length_pos_iff.2 hd
  obtain ⟨k, hk⟩ : ∃ k, data.length = k + 1 := ⟨data.length - 1, by omega⟩
  unfold slices
  rw [hk]
  simp only [slicesFuel, hd, if_false]
  rw [slicesFuel_eq hn (g := (data.drop n).length) (by simp; omega) le_rfl]

/-- The slices are the payload, cut. -/
theorem slices_flatten {n : Nat} (hn : 1 ≤ n) (data : List Byte) : (slices n data).flatten = data := by
  induction hk : data.length using Nat.strong_induction_on generalizing data with
  | _ k ih =>
    by_cases hd : data = []
    · subst hd
      rw [slices_nil]
      rfl
    · have hl : 1 ≤ data.length := List.length_pos_iff.2 hd
      rw [slices_cons hn hd, List.flatten_cons, ih (data.drop n).length (by simp; omega) _ rfl,
        List.take_append_drop]

/-- No slice is longer than `n`, and none is empty. -/
theorem slices_length {n : Nat} (hn : 1 ≤ n) (data : List Byte) :
    ∀ sl ∈ slices n data, 1 ≤ sl.length ∧ sl.length ≤ n := by
  induction hk : data.length using Nat.strong_induction_on generalizing data with
  | _ k ih =>
    by_cases hd : data = []
    · subst hd
      rw [slices_nil]
      simp
    · have hl : 1 ≤ data.length := List.length_pos_iff.2 hd
      rw [slices_cons hn hd]
      intro sl hsl
      rcases List.mem_cons.1 hsl with rfl | hsl
      · simp
        omega
      · exact ih (data.drop n).length (by simp; omega) _ rfl sl hsl

end Sys2Proof.Machine
end

