-- ==== Sys2Proof/Laws/Scratchpad.lean ====
section
/-! SUPPORT. The scratchpad cycle in an environment that answers at once (spec/43_scratchpad_write.md R141). -/

namespace Sys2Proof.Machine

/-- `ReadExact`'s loop where the bytes still wanted arrive in pieces (R111). -/
theorem readExactLoop_pieces {n fuel : Nat} {acc : List Byte} {ds : List (List Byte)} {e : Eng} {rest : List Move}
    (hd : ∀ d ∈ ds, d ≠ [] ∧ d.length ≤ e.params.rdChunk) (hn : n = acc.length + ds.flatten.length)
    (hf : ds.flatten.length ≤ fuel) (hloc : e.locals.bytesRead = acc) (hs : e.script = readReplies ds ++ rest) :
    readExactLoop n fuel acc e = .ok (acc ++ ds.flatten)
      ((e.setLoc (e.locals.withBytes (acc ++ ds.flatten))).adv (readOps e.params.rdChunk ds) (readReplies ds) rest) := by
  induction ds generalizing acc fuel e with
  | nil =>
    have hn' : n ≤ acc.length := by simp [hn]
    have hs' : e.script = rest := hs
    subst hs'
    have h0 : (e.setLoc (e.locals.withBytes acc)).adv [] [] e.script = e := by
      rw [← hloc, Locals.withBytes_self, Eng.setLoc_self, Eng.adv_nil]
    cases fuel <;> simp [readExactLoop, hn', readOps, readReplies, h0]
  | cons d ds ih =>
    obtain ⟨hne, hlen⟩ := hd d (by simp)
    have hpos : 1 ≤ d.length := List.length_pos_iff.2 hne
    rw [List.flatten_cons, List.length_append] at hn hf
    obtain ⟨fuel, rfl⟩ : ∃ m, fuel = m + 1 := ⟨fuel - 1, by omega⟩
    rw [readExactLoop, if_neg (by omega), Prog.ask_bind,
      show n - acc.length = (d :: ds).flatten.length by rw [List.flatten_cons, List.length_append]; omega]
    refine (Prog.bind_ok (readBulk_bytes (rest := readReplies ds ++ rest) ?_ hs)).trans ?_
    · rw [List.flatten_cons, List.length_append]
      omega
    rw [if_neg hne, Prog.setLocals_andThen]
    refine (ih (fuel := fuel) (acc := acc ++ d) (e := Eng.setLoc (Eng.adv _ _ _ _) _) (fun x hx => hd x (by simp [hx])) ?_
      (by omega) rfl rfl).trans ?_
    · rw [List.length_append]
      omega
    · simp [readOps, readReplies, List.append_assoc]

/-- `ReadExact(n)` where `n` bytes arrive in pieces (R111). -/
theorem readExact_pieces {e : Eng} {n : Nat} {ds : List (List Byte)} {rest : List Move} (h : Arrive e.params n ds)
    (hs : e.script = readReplies ds ++ rest) :
    readExact n e = .ok ds.flatten ((e.setLoc (e.locals.withBytes ds.flatten)).adv (readOps e.params.rdChunk ds)
      (readReplies ds) rest) := by
  obtain ⟨rfl, hd⟩ := h
  unfold readExact
  rw [Prog.setLocals_andThen, readExactLoop_pieces (acc := []) (e := e.setLoc (e.locals.withBytes [])) hd (by simp) le_rfl rfl hs]
  simp

/-- Step 3 answered at once (R141). -/
theorem writeSlices_ack {e : Eng} {sls : List (List Byte)} {ms rest : List Move} (h : Acks (3 * sls.length) ms)
    (hs : e.script = ms ++ rest) : writeSlices sls e = .ok () (e.adv (sls.flatMap writeOps) ms rest) := by
  induction sls generalizing e ms with
  | nil =>
    obtain rfl := h.nil
    rw [List.nil_append] at hs
    subst hs
    simp [writeSlices, Eng.adv]
  | cons sl sls ih =>
    obtain ⟨a, b, rfl, ha, hb⟩ := Acks.split (m := 3) (n := 3 * sls.length) (by simpa [Nat.mul_add, Nat.add_comm] using h)
    unfold writeSlices
    rw [Prog.andThen_ok (writeWire_ack ha (by rw [hs, List.append_assoc])), ih (e := e.adv _ _ _) hb rfl]
    simp

/-- Steps 1 to 3 answered at once (R141). -/
theorem fillScratchpad_ack {e : Eng} {off : Half} {data : List Byte} {d : Bool} {ms rest : List Move}
    (hp : 1 ≤ e.params.pollLimit) (h : Acks (8 + 3 * (slices e.params.wrChunk data).length) ms)
    (hs : e.script = ms ++ rest) :
    fillScratchpad off data d e = .ok () (((e.setSpd d).setLoc (e.locals.withPhase .write)).adv
      (fillOps e.params e.regs.targetId off data d) ms rest) := by
  obtain ⟨a, b, rfl, ha, hb⟩ := Acks.split (m := 5) (n := 3 + 3 * (slices e.params.wrChunk data).length)
    (by rwa [← Nat.add_assoc])
  obtain ⟨b1, b2, rfl, hb1, hb2⟩ := hb.split
  unfold fillScratchpad
  rw [setPhase_andThen, Prog.andThen_ok (selectTarget_ack (e := e.setLoc (e.locals.withPhase .write)) hp ha
      (by rw [Eng.setLoc_script, hs, List.append_assoc])), Prog.ask_bind,
    Prog.andThen_ok (writeWire_ack (rest := b2 ++ rest) hb1 (by simp)),
    writeSlices_ack (rest := rest) (by simpa using hb2) (by simp)]
  simp [fillOps, List.append_assoc]

/-- Step 4 with a preamble and the read-back arriving in pieces (R141). -/
theorem readScratchpad_ack {e : Eng} {n : Nat} {pre back : List (List Byte)} {d : Bool} {ms rest : List Move}
    (hp : 1 ≤ e.params.pollLimit) (hpre : Arrive e.params e.params.spPreamble pre) (hback : Arrive e.params n back)
    (h : Acks 8 ms) (hs : e.script = ms ++ readReplies pre ++ readReplies back ++ rest) :
    readScratchpad n d e = .ok back.flatten
      (((e.setSpd d).setLoc ((e.locals.withBytes back.flatten).withPhase .verify)).adv
        (verifyOps e.params e.regs.targetId pre back d) (ms ++ readReplies pre ++ readReplies back) rest) := by
  obtain ⟨a, b, rfl, ha, hb⟩ := Acks.split (m := 5) (n := 3) h
  unfold readScratchpad
  rw [setPhase_andThen]
  refine (Prog.andThen_ok (selectTarget_ack (by exact hp) ha
    (rest := b ++ (readReplies pre ++ (readReplies back ++ rest))) (by simp [hs, List.append_assoc]))).trans ?_
  rw [Prog.ask_bind]
  refine (Prog.andThen_ok (writeWire_ack hb rfl)).trans ?_
  by_cases h0 : e.params.spPreamble > 0
  · refine (congrFun (if_pos h0) _).trans ?_
    refine (Prog.bind_ok (readExact_pieces (ds := pre) (by exact hpre) rfl)).trans ?_
    refine (readExact_pieces (ds := back) (by exact hback) rfl).trans ?_
    simp [verifyOps, List.append_assoc]
  · refine (congrFun (if_neg h0) _).trans ?_
    obtain rfl : pre = [] := by
      refine List.eq_nil_iff_forall_not_mem.2 fun x hx => (hpre.2 x hx).1 ?_
      have := List.eq_nil_of_length_eq_zero (l := pre.flatten) (by have := hpre.1; omega)
      exact List.flatten_eq_nil_iff.1 this x hx
    refine (readExact_pieces (ds := back) (by exact hback) rfl).trans ?_
    simp [verifyOps, readReplies, readOps, List.append_assoc]

/-- Step 6 answered at once (R141). -/
theorem copyScratchpad_ack {e : Eng} {off : Half} {n : Nat} {d : Bool} {ms rest : List Move}
    (hp : 1 ≤ e.params.pollLimit) (h : Acks 8 ms) (hs : e.script = ms ++ rest) :
    copyScratchpad off n d e = .ok () (((e.setSpd d).setLoc (e.locals.withPhase .write)).adv
      (copyOps e.params e.regs.targetId off n d) ms rest) := by
  obtain ⟨a, b, rfl, ha, hb⟩ := Acks.split (m := 5) (n := 3) h
  unfold copyScratchpad
  rw [setPhase_andThen, Prog.andThen_ok (selectTarget_ack (e := e.setLoc (e.locals.withPhase .write)) hp ha
      (by rw [Eng.setLoc_script, hs, List.append_assoc])), Prog.ask_bind,
    writeWire_ack (rest := rest) hb (by simp)]
  simp [copyOps]

/-- Steps 1 to 4 answered at once, the read-back arriving as `back` (R141). -/
theorem attempt_ack {β : Type} {y : List Byte → Prog β} {e : Eng} {off : Half} {pre back : List (List Byte)}
    {data : List Byte} {d : Bool} {ms rest : List Move} (hp : 1 ≤ e.params.pollLimit)
    (h : AttemptReplies e.params pre data back ms) (hs : e.script = ms ++ rest) :
    ((fillScratchpad off data d).andThen ((readScratchpad data.length d).bind y)) e =
      y back.flatten (((e.setSpd d).setLoc ((e.locals.withBytes back.flatten).withPhase .verify)).adv
        (fillOps e.params e.regs.targetId off data d ++ verifyOps e.params e.regs.targetId pre back d) ms rest) := by
  obtain ⟨hpre, hback, fill, sel, hfill, hsel, rfl⟩ := h
  refine (Prog.andThen_ok (fillScratchpad_ack (rest := sel ++ readReplies pre ++ readReplies back ++ rest) hp hfill
    (by rw [hs]; simp [List.append_assoc]))).trans ?_
  refine (Prog.bind_ok (readScratchpad_ack (pre := pre) (by exact hp) (by exact hpre) (by exact hback) hsel rfl)).trans ?_
  simp [List.append_assoc]

/-- The cycle's loop where the read-back matches (R141). -/
theorem cycleLoop_ack {e : Eng} {off : Half} {pre back : List (List Byte)} {d : Bool} {ms rest : List Move} {fuel : Nat}
    (hp : 1 ≤ e.params.pollLimit) (h : CycleReplies e.params pre back ms) (hs : e.script = ms ++ rest) :
    cycleLoop off back.flatten d (fuel + 1) e = .ok ()
      (((e.setSpd d).setLoc ((e.locals.withBytes back.flatten).withPhase .write)).adv
        (cycleOps e.params e.regs.targetId off pre back d) ms rest) := by
  obtain ⟨att, copy, hatt, hcopy, rfl⟩ := h
  rw [cycleLoop]
  refine (attempt_ack (rest := copy ++ rest) hp hatt (by rw [hs, List.append_assoc])).trans ?_
  simp only [if_true]
  refine (copyScratchpad_ack (by exact hp) hcopy rfl).trans ?_
  simp [cycleOps, List.append_assoc]

/-- `e` with another attempt count. -/
def Eng.setAtt (e : Eng) (a : BitVec 4) : Eng := { e with regs := { e.regs with att := a } }

@[simp] theorem Eng.setAtt_script (e : Eng) (a) : (e.setAtt a).script = e.script := rfl
@[simp] theorem Eng.setAtt_params (e : Eng) (a) : (e.setAtt a).params = e.params := rfl
@[simp] theorem Eng.setAtt_locals (e : Eng) (a) : (e.setAtt a).locals = e.locals := rfl
@[simp] theorem Eng.setAtt_raised (e : Eng) (a) : (e.setAtt a).raised = e.raised := rfl
@[simp] theorem Eng.setAtt_received (e : Eng) (a) : (e.setAtt a).received = e.received := rfl
@[simp] theorem Eng.setAtt_regs (e : Eng) (a) : (e.setAtt a).regs = { e.regs with att := a } := rfl
@[simp] theorem Eng.setAtt_setAtt (e : Eng) (a b) : (e.setAtt a).setAtt b = e.setAtt b := rfl
@[simp] theorem Eng.adv_setAtt (e : Eng) (a ops ms rest) :
    (e.adv ops ms rest).setAtt a = (e.setAtt a).adv ops ms rest := rfl
@[simp] theorem Eng.setLoc_setAtt (e : Eng) (l a) : (e.setLoc l).setAtt a = (e.setAtt a).setLoc l := rfl
@[simp] theorem Eng.setSpd_setAtt (e : Eng) (f a) : (e.setSpd f).setAtt a = (e.setAtt a).setSpd f := rfl

/-- A read-back that differs while attempts are left: the next attempt (R141 step 5). -/
theorem cycleLoop_mismatch {e : Eng} {off : Half} {data : List Byte} {x : Mismatch} {d : Bool} {ms rest : List Move}
    {fuel : Nat} (hp : 1 ≤ e.params.pollLimit) (hne : x.back.flatten ≠ data)
    (hatt : e.regs.att.toNat < e.params.retryAttempts) (h : AttemptReplies e.params x.preamble data x.back ms)
    (hs : e.script = ms ++ rest) :
    cycleLoop off data d (fuel + 1) e = cycleLoop off data d fuel
      ((((e.setAtt (e.regs.att + 1#4)).setSpd d).setLoc ((e.locals.withBytes x.back.flatten).withPhase .verify)).adv
        (fillOps e.params e.regs.targetId off data d ++ verifyOps e.params e.regs.targetId x.preamble x.back d)
        ms rest) := by
  rw [cycleLoop]
  refine (attempt_ack hp h hs).trans ?_
  rw [if_neg hne]
  refine (Prog.ask_bind _ _ _).trans ?_
  rw [if_pos (by exact decide_eq_true hatt)]
  rfl

/-- A read-back that differs at the last attempt raises VerifyFailed (R141 step 5). -/
theorem cycleLoop_exhausted {e : Eng} {off : Half} {data : List Byte} {x : Mismatch} {d : Bool} {ms rest : List Move}
    {fuel : Nat} (hp : 1 ≤ e.params.pollLimit) (hne : x.back.flatten ≠ data)
    (hatt : e.params.retryAttempts ≤ e.regs.att.toNat) (h : AttemptReplies e.params x.preamble data x.back ms)
    (hs : e.script = ms ++ rest) :
    cycleLoop off data d (fuel + 1) e = .raise .verifyFailed
      (((e.setSpd d).setLoc ((e.locals.withBytes x.back.flatten).withPhase .verify)).adv
        (fillOps e.params e.regs.targetId off data d ++ verifyOps e.params e.regs.targetId x.preamble x.back d)
        ms rest) := by
  rw [cycleLoop]
  refine (attempt_ack hp h hs).trans ?_
  rw [if_neg hne]
  refine (Prog.ask_bind _ _ _).trans ?_
  rw [if_neg (by rw [decide_eq_true_eq]; exact Nat.not_lt.2 hatt)]
  rfl

theorem att_succ {a : BitVec 4} {r n : Nat} (hr : r ≤ 15) (h : a.toNat + (n + 1) ≤ r + 1) (hn : a.toNat + 1 ≤ r) :
    (a + 1#4).toNat = a.toNat + 1 ∧ (a + 1#4).toNat + n ≤ r + 1 := by
  rw [BitVec.toNat_add, BitVec.toNat_ofNat]
  omega

/-- The cycle's loop where several read-backs differ, with attempts left after each, and the next one matches
(R141). -/
theorem cycleLoop_commits {e : Eng} {off : Half} {pre back : List (List Byte)} {xs : List Mismatch} {d : Bool}
    {bad good rest : List Move} {fuel : Nat} (hp : 1 ≤ e.params.pollLimit) (hr : e.params.retryAttempts ≤ 15)
    (hatt : e.regs.att.toNat + xs.length ≤ e.params.retryAttempts) (hf : xs.length < fuel)
    (hbad : MismatchReplies e.params back.flatten xs bad) (hgood : CycleReplies e.params pre back good)
    (hs : e.script = bad ++ good ++ rest) :
    ∃ l, cycleLoop off back.flatten d fuel e = .ok ()
      ((((e.setAtt (e.regs.att + BitVec.ofNat 4 xs.length)).setSpd d).setLoc l).adv
        (mismatchOps e.params e.regs.targetId off back.flatten d xs ++ cycleOps e.params e.regs.targetId off pre back d)
        (bad ++ good) rest) := by
  obtain ⟨fuel, rfl⟩ : ∃ m, fuel = m + 1 := ⟨fuel - 1, by omega⟩
  induction xs generalizing e bad fuel with
  | nil =>
    have hms : bad = [] := hbad
    subst hms
    refine ⟨(e.locals.withBytes back.flatten).withPhase .write, (cycleLoop_ack hp hgood hs).trans ?_⟩
    simp [mismatchOps, Eng.adv, Eng.setLoc, Eng.setAtt, Eng.setSpd]
  | cons x xs ih =>
    obtain ⟨a, b, h1, h2, h3, rfl⟩ := hbad
    rw [List.length_cons] at hatt hf
    obtain ⟨fuel, rfl⟩ : ∃ m, fuel = m + 1 := ⟨fuel - 1, by omega⟩
    rw [cycleLoop_mismatch hp h1 (by omega) h2 (rest := b ++ good ++ rest) (by simp [hs])]
    obtain ⟨l, hl⟩ := ih (e := (((e.setAtt (e.regs.att + 1#4)).setSpd d).setLoc
      ((e.locals.withBytes x.back.flatten).withPhase .verify)).adv (fillOps e.params e.regs.targetId off
        back.flatten d ++
        verifyOps e.params e.regs.targetId x.preamble x.back d) a (b ++ good ++ rest)) hp hr (by
        have := att_succ (a := e.regs.att) (n := xs.length) hr (by omega) (by omega)
        change (e.regs.att + 1#4).toNat + xs.length ≤ e.params.retryAttempts
        omega) h3 hgood rfl fuel (by omega)
    refine ⟨l, hl.trans ?_⟩
    have hadd : e.regs.att + 1#4 + BitVec.ofNat 4 xs.length = e.regs.att + BitVec.ofNat 4 (xs.length + 1) := by
      rw [BitVec.add_assoc, BitVec.ofNat_add, BitVec.add_comm (1#4)]
    simp [mismatchOps, Eng.adv, Eng.setLoc, Eng.setAtt, Eng.setSpd, List.append_assoc, hadd]

/-- The cycle's loop where the read-back differs at every attempt that is left (R141 step 5). -/
theorem cycleLoop_fails {e : Eng} {off : Half} {data : List Byte} {x : Mismatch} {xs : List Mismatch} {d : Bool}
    {bad rest : List Move} {fuel : Nat} (hp : 1 ≤ e.params.pollLimit) (hr : e.params.retryAttempts ≤ 15)
    (hatt : e.regs.att.toNat + xs.length = e.params.retryAttempts)
    (hf : xs.length < fuel) (hbad : MismatchReplies e.params data (x :: xs) bad) (hs : e.script = bad ++ rest) :
    ∃ l, cycleLoop off data d fuel e = .raise .verifyFailed
      ((((e.setAtt (BitVec.ofNat 4 e.params.retryAttempts)).setSpd d).setLoc l).adv
        (mismatchOps e.params e.regs.targetId off data d (x :: xs)) bad rest) := by
  obtain ⟨fuel, rfl⟩ : ∃ m, fuel = m + 1 := ⟨fuel - 1, by omega⟩
  induction xs generalizing e x bad fuel with
  | nil =>
    obtain ⟨a, b, h1, h2, h3, rfl⟩ := hbad
    have hb : b = [] := h3
    subst hb
    refine ⟨(e.locals.withBytes x.back.flatten).withPhase .verify,
      (cycleLoop_exhausted hp h1 (by simpa using hatt.ge) h2 (rest := rest) (by simp [hs])).trans ?_⟩
    have ha : BitVec.ofNat 4 e.params.retryAttempts = e.regs.att := by
      rw [← hatt]
      simp
    simp [mismatchOps, Eng.adv, Eng.setLoc, Eng.setAtt, Eng.setSpd, ha]
  | cons y ys ih =>
    obtain ⟨a, b, h1, h2, h3, rfl⟩ := hbad
    rw [List.length_cons] at hatt hf
    obtain ⟨fuel, rfl⟩ : ∃ m, fuel = m + 1 := ⟨fuel - 1, by omega⟩
    rw [cycleLoop_mismatch hp h1 (by omega) h2 (rest := b ++ rest) (by simp [hs])]
    obtain ⟨l, hl⟩ := ih (e := (((e.setAtt (e.regs.att + 1#4)).setSpd d).setLoc
      ((e.locals.withBytes x.back.flatten).withPhase .verify)).adv (fillOps e.params e.regs.targetId off data d ++
        verifyOps e.params e.regs.targetId x.preamble x.back d) a (b ++ rest)) hp hr (by
        have := att_succ (a := e.regs.att) (n := ys.length) hr (by omega) (by omega)
        change (e.regs.att + 1#4).toNat + ys.length = e.params.retryAttempts
        omega) h3 rfl fuel (by omega)
    refine ⟨l, hl.trans ?_⟩
    simp [mismatchOps, Eng.adv, Eng.setLoc, Eng.setAtt, Eng.setSpd, List.append_assoc]

end Sys2Proof.Machine
end

