-- ==== Sys2Proof/Laws/Pages.lean ====
section
/-! SUPPORT. The whole-memory bodies in an environment that answers at once (spec/44_memory_ops.md R150 to R153). -/

namespace Sys2Proof.Machine

theorem restarting_ok {body : Prog Completion} {n : Nat} {e e' : Eng} {c : Completion} (h : body e = .ok c e') :
    restarting body n e = .ok c e' := by
  cases n with
  | zero => exact guarded_ok h
  | succ n => exact Prog.catch_ok h

/-- A body that returns at its first attempt (R150). -/
theorem retried_ok {body : Prog Completion} {e e' : Eng} {c : Completion} (h : body (e.setAtt 1#4) = .ok c e') :
    retried body e = .ok c e' := restarting_ok h

/-- A body whose verification fails is not restarted (R172, R173). -/
theorem restarting_verifyFailed {body : Prog Completion} {n : Nat} {e e' : Eng} (h : body e = .raise .verifyFailed e') :
    restarting body n e = .ok ⟨.verifyFailed, .verify, 0⟩ e' := by
  cases n with
  | zero => exact (guarded_raise h).trans rfl
  | succ n => exact (Prog.catch_raise h).trans rfl

/-- The same at the first attempt (R150). -/
theorem retried_verifyFailed {body : Prog Completion} {e e' : Eng} (h : body (e.setAtt 1#4) = .raise .verifyFailed e') :
    retried body e = .ok ⟨.verifyFailed, .verify, 0⟩ e' := restarting_verifyFailed h

/-- `e` after page cycles that write something or nothing, `n` attempts of them in vain, with `l` for locals. -/
def Eng.wrote (e : Eng) (d : Bool) (js : List PageJob) (l : Locals) : Eng :=
  ((if js = [] then e else e.setSpd d).setAtt (e.regs.att + BitVec.ofNat 4 (missesOf js))).setLoc l

@[simp] theorem Eng.wrote_raised (e : Eng) (d js l) : (e.wrote d js l).raised = e.raised := by
  unfold Eng.wrote
  split <;> rfl
@[simp] theorem Eng.wrote_received (e : Eng) (d js l) : (e.wrote d js l).received = e.received := by
  unfold Eng.wrote
  split <;> rfl
@[simp] theorem Eng.wrote_params (e : Eng) (d js l) : (e.wrote d js l).params = e.params := by
  unfold Eng.wrote
  split <;> rfl
@[simp] theorem Eng.wrote_regs (e : Eng) (d js l) : (e.wrote d js l).regs =
    { e.regs with
      att := e.regs.att + BitVec.ofNat 4 (missesOf js)
      spdValid := if js = [] then e.regs.spdValid else true
      spdOd := if js = [] then e.regs.spdOd else d } := by
  unfold Eng.wrote
  split <;> rfl

@[simp] theorem missesOf_nil : missesOf [] = 0 := rfl

@[simp] theorem missesOf_cons (j : PageJob) (js : List PageJob) : missesOf (j :: js) = j.misses.length + missesOf js := by
  simp [missesOf]

theorem Eng.wrote_nil (e : Eng) (d : Bool) : (e.wrote d [] e.locals) = e := by
  simp [Eng.wrote, Eng.setAtt, Eng.setLoc]

/-- Attempts add up while they stay within their four bits. -/
theorem att_add {a : BitVec 4} {n r : Nat} (hr : r ≤ 15) (h : a.toNat + n ≤ r) :
    (a + BitVec.ofNat 4 n).toNat = a.toNat + n := by
  rw [BitVec.toNat_add, BitVec.toNat_ofNat]
  omega

/-- A page cycle and those after it. -/
theorem Eng.wrote_cons (e : Eng) (d : Bool) (j : PageJob) (js : List PageJob) (l l' : Locals) (ops ops' : List LinkOp)
    (ms ms' rest : List Move) :
    ((((((e.setAtt (e.regs.att + BitVec.ofNat 4 j.misses.length)).setSpd d).setLoc l).adv ops ms (ms' ++ rest)).wrote d js
      l').adv ops' ms' rest) = ((e.wrote d (j :: js) l').adv (ops ++ ops') (ms ++ ms') rest) := by
  unfold Eng.wrote
  by_cases hx : js = [] <;>
    simp [hx, Eng.adv, Eng.setLoc, Eng.setSpd, Eng.setAtt, List.append_assoc, BitVec.add_assoc, BitVec.ofNat_add]

/-- A scratchpad cycle whose read-back matches after some mismatches (R141). -/
theorem scratchpadCycle_commits {e : Eng} {off : Half} {pre back : List (List Byte)} {xs : List Mismatch} {d : Bool}
    {bad good rest : List Move} (hwf : e.params.wf) (hatt : e.regs.att.toNat + xs.length ≤ e.params.retryAttempts)
    (ha : 1 ≤ e.regs.att.toNat) (hbad : MismatchReplies e.params back.flatten xs bad)
    (hgood : CycleReplies e.params pre back good) (hs : e.script = bad ++ good ++ rest) :
    ∃ l, scratchpadCycle off back.flatten d e = .ok ()
      ((((e.setAtt (e.regs.att + BitVec.ofNat 4 xs.length)).setSpd d).setLoc l).adv
        (mismatchOps e.params e.regs.targetId off back.flatten d xs ++ cycleOps e.params e.regs.targetId off pre back d)
        (bad ++ good) rest) :=
  cycleLoop_commits hwf.2.2.1 hwf.1.2 hatt (by change xs.length < e.params.retryAttempts; omega) hbad hgood hs

/-- A scratchpad cycle whose read-back differs at every attempt that is left (R141 step 5). -/
theorem scratchpadCycle_fails {e : Eng} {off : Half} {data : List Byte} {xs : List Mismatch} {d : Bool}
    {bad rest : List Move} (hwf : e.params.wf) (hx : xs ≠ [])
    (hatt : e.regs.att.toNat + xs.length = e.params.retryAttempts + 1) (ha : 1 ≤ e.regs.att.toNat)
    (hbad : MismatchReplies e.params data xs bad) (hs : e.script = bad ++ rest) :
    ∃ l, scratchpadCycle off data d e = .raise .verifyFailed
      ((((e.setAtt (BitVec.ofNat 4 e.params.retryAttempts)).setSpd d).setLoc l).adv
        (mismatchOps e.params e.regs.targetId off data d xs) bad rest) := by
  cases xs with
  | nil => exact absurd rfl hx
  | cons x xs =>
    rw [List.length_cons] at hatt
    exact cycleLoop_fails hwf.2.2.1 hwf.1.2 (by omega)
      (by change xs.length < e.params.retryAttempts; omega) hbad hs

@[simp] theorem Eng.setLoc_wrote (e : Eng) (d js l l') : (e.setLoc l).wrote d js l' = e.wrote d js l' := by
  unfold Eng.wrote
  split <;> rfl

/-- The same for a cycle that comes after other pages' (R152, R153). -/
theorem scratchpadCycle_fails_after {e : Eng} {js : List PageJob} {off : Half} {data : List Byte} {xs : List Mismatch}
    {d : Bool} {ops : List LinkOp} {ms bad rest : List Move} (hwf : e.params.wf) (ha : 1 ≤ e.regs.att.toNat) (hx : xs ≠ [])
    (hatt : e.regs.att.toNat + missesOf js + xs.length = e.params.retryAttempts + 1)
    (hbad : MismatchReplies e.params data xs bad) (l l' : Locals) :
    ∃ l1, scratchpadCycle off data d (((e.wrote d js l).adv ops ms (bad ++ rest)).setLoc l') = .raise .verifyFailed
      ((((e.setAtt (BitVec.ofNat 4 e.params.retryAttempts)).setSpd d).setLoc l1).adv
        (ops ++ mismatchOps e.params e.regs.targetId off data d xs) (ms ++ bad) rest) := by
  have hpos : 1 ≤ xs.length := List.length_pos_iff.2 hx
  have hsum := att_add (a := e.regs.att) (n := missesOf js) hwf.1.2 (by omega)
  obtain ⟨l1, hl1⟩ := scratchpadCycle_fails (e := ((e.wrote d js l).adv ops ms (bad ++ rest)).setLoc l') (off := off) (d := d)
    (rest := rest) (by simpa using hwf) hx (by simp [hsum, hatt]) (by simp [hsum]; omega) (by simpa using hbad) rfl
  refine ⟨l1, hl1.trans ?_⟩
  unfold Eng.wrote
  by_cases hj : js = [] <;> simp [hj, Eng.adv, Eng.setLoc, Eng.setSpd, Eng.setAtt, List.append_assoc]

/-- The pages of MEM_WRITEALL, the read-back of each matching after its mismatches (R152). -/
theorem writePages_ack {e : Eng} {js : List PageJob} {d : Bool} {ms rest : List Move} (hwf : e.params.wf)
    (ha : 1 ≤ e.regs.att.toNat) (hatt : e.regs.att.toNat + missesOf js ≤ e.params.retryAttempts)
    (hj : ∀ j ∈ js, j.data.length = 32 ∧ HoldsBytes e.regs.mem (0x2000 + 32 * j.page) j.data)
    (h : PageReplies e.params js ms) (hs : e.script = ms ++ rest) :
    ∃ l, writePages d (js.map PageJob.page) e = .ok () ((e.wrote d js l).adv
      (pagesOps e.params e.regs.targetId d js) ms rest) := by
  induction js generalizing e ms with
  | nil =>
    have hms : ms = [] := h
    subst hms
    have hs' : e.script = rest := hs
    subst hs'
    exact ⟨e.locals, by rw [Eng.wrote_nil]; exact congrArg _ e.adv_nil.symm⟩
  | cons j js ih =>
    obtain ⟨a, b, c, h2, h3, h4, rfl⟩ := h
    rw [missesOf_cons] at hatt
    obtain ⟨l1, hl1⟩ := scratchpadCycle_commits (e := e.setLoc (e.locals.withPage j.page)) (off := pageOff j.page) (d := d)
      (rest := c ++ rest) hwf (by rw [Eng.setLoc_regs, Eng.setLoc_params]; omega) ha h2 h3
      (by rw [Eng.setLoc_script, hs]; simp [List.append_assoc])
    have hsum := att_add (a := e.regs.att) (n := j.misses.length) hwf.1.2 (by omega)
    obtain ⟨l, hl⟩ := ih (e := ((((e.setAtt (e.regs.att + BitVec.ofNat 4 j.misses.length)).setSpd d).setLoc l1).adv
      (mismatchOps e.params e.regs.targetId (pageOff j.page) j.data d j.misses ++
        cycleOps e.params e.regs.targetId (pageOff j.page) j.preamble j.back d) (a ++ b) (c ++ rest))) hwf
      (by change 1 ≤ (e.regs.att + BitVec.ofNat 4 j.misses.length).toNat; omega)
      (by change (e.regs.att + BitVec.ofNat 4 j.misses.length).toNat + missesOf js ≤ e.params.retryAttempts; omega)
      (fun x hx => hj x (by simp [hx])) h4 rfl
    refine ⟨l, ?_⟩
    rw [List.map_cons, writePages, Prog.setLocals_andThen]
    refine (Prog.andThen_ok ((Prog.bind_ok (loadBytes_holds (e := e.setLoc (e.locals.withPage j.page)) (hj j (by simp)).1
      (hj j (by simp)).2)).trans hl1)).trans (hl.trans ?_)
    exact congrArg _ (Eng.wrote_cons e d j js _ l _ _ _ _ _)

theorem writePages_append (d : Bool) (ps qs : List Nat) (e : Eng) :
    writePages d (ps ++ qs) e = (writePages d ps).andThen (writePages d qs) e := by
  induction ps generalizing e with
  | nil => rfl
  | cons p ps ih =>
    rw [List.cons_append, writePages, writePages]
    unfold Prog.andThen
    rw [Prog.bind_assoc, Prog.bind_assoc]
    unfold Prog.bind
    cases Prog.setLocals (fun l => l.withPage p) e with
    | ok u e1 =>
      simp only []
      cases writePage p d e1 with
      | ok u e2 => exact ih e2
      | _ => rfl
    | _ => rfl

/-- One page of MEM_WRITEDIFF, both its images holding values (R153). -/
theorem writeIfChanged_loads {e : Eng} {new old : Nat → List Byte} {k : Nat} (d : Bool)
    (hi : (new k).length = 32 ∧ (old k).length = 32 ∧ HoldsBytes e.regs.mem (0x2000 + 32 * k) (new k) ∧
      HoldsBytes e.regs.mem (0x4000 + 32 * k) (old k)) :
    writeIfChanged d k e = if new k = old k then .ok () e else scratchpadCycle (pageOff k) (new k) d e := by
  obtain ⟨hn, ho, hmn, hmo⟩ := hi
  unfold writeIfChanged
  refine (Prog.bind_ok (loadBytes_holds hn hmn)).trans ((Prog.bind_ok (loadBytes_holds ho hmo)).trans ?_)
  split <;> rfl

/-- The pages of MEM_WRITEDIFF: only those that differ have a cycle, the read-back of each matching after its mismatches
(R153). -/
theorem diffPages_ack {e : Eng} {ps : List Nat} {new old : Nat → List Byte} {js : List PageJob} {d : Bool}
    {ms rest : List Move} (hwf : e.params.wf) (ha : 1 ≤ e.regs.att.toNat)
    (hatt : e.regs.att.toNat + missesOf js ≤ e.params.retryAttempts)
    (hi : ∀ k ∈ ps, (new k).length = 32 ∧ (old k).length = 32 ∧ HoldsBytes e.regs.mem (0x2000 + 32 * k) (new k) ∧
      HoldsBytes e.regs.mem (0x4000 + 32 * k) (old k))
    (hjs : js.map PageJob.page = ps.filter fun k => new k ≠ old k) (hj : ∀ j ∈ js, j.data = new j.page)
    (h : PageReplies e.params js ms) (hs : e.script = ms ++ rest) :
    ∃ l, diffPages d ps e = .ok () ((e.wrote d js l).adv (pagesOps e.params e.regs.targetId d js) ms rest) := by
  induction ps generalizing e js ms with
  | nil =>
    obtain rfl : js = [] := by simpa using hjs
    have hms : ms = [] := h
    subst hms
    have hs' : e.script = rest := hs
    subst hs'
    exact ⟨e.locals, by rw [Eng.wrote_nil]; exact congrArg _ e.adv_nil.symm⟩
  | cons k ps ih =>
    have hload := writeIfChanged_loads (e := e.setLoc (e.locals.withPage k)) d (hi k (by simp))
    rw [diffPages, Prog.setLocals_andThen]
    by_cases hk : new k = old k
    · rw [if_pos hk] at hload
      obtain ⟨l, hl⟩ := ih (e := e.setLoc (e.locals.withPage k)) hwf ha hatt (fun x hx => hi x (by simp [hx]))
        (by simpa [hk] using hjs) hj h hs
      refine ⟨l, (Prog.andThen_ok hload).trans (hl.trans ?_)⟩
      unfold Eng.wrote
      by_cases hx : js = [] <;> simp [hx, Eng.adv, Eng.setLoc, Eng.setSpd, Eng.setAtt]
    · rw [if_neg hk] at hload
      rw [List.filter_cons, if_pos (by simpa using hk)] at hjs
      cases js with
      | nil => simp at hjs
      | cons j js =>
        rw [List.map_cons, List.cons.injEq] at hjs
        obtain ⟨a, b, c, h2, h3, h4, rfl⟩ := h
        obtain ⟨rfl, hjs⟩ := hjs
        rw [← hj j (by simp)] at hload
        rw [missesOf_cons] at hatt
        obtain ⟨l1, hl1⟩ := scratchpadCycle_commits (e := e.setLoc (e.locals.withPage j.page)) (off := pageOff j.page)
          (d := d) (rest := c ++ rest) hwf (by rw [Eng.setLoc_regs, Eng.setLoc_params]; omega) ha h2 h3
          (by rw [Eng.setLoc_script, hs]; simp [List.append_assoc])
        have hsum := att_add (a := e.regs.att) (n := j.misses.length) hwf.1.2 (by omega)
        obtain ⟨l, hl⟩ := ih (e := ((((e.setAtt (e.regs.att + BitVec.ofNat 4 j.misses.length)).setSpd d).setLoc l1).adv
          (mismatchOps e.params e.regs.targetId (pageOff j.page) j.data d j.misses ++
            cycleOps e.params e.regs.targetId (pageOff j.page) j.preamble j.back d) (a ++ b) (c ++ rest))) hwf
          (by change 1 ≤ (e.regs.att + BitVec.ofNat 4 j.misses.length).toNat; omega)
          (by change (e.regs.att + BitVec.ofNat 4 j.misses.length).toNat + missesOf js ≤ e.params.retryAttempts; omega)
          (fun x hx => hi x (by simp [hx])) hjs (fun x hx => hj x (by simp [hx])) h4 rfl
        refine ⟨l, (Prog.andThen_ok (hload.trans hl1)).trans (hl.trans ?_)⟩
        exact congrArg _ (Eng.wrote_cons e d j js _ l _ _ _ _ _)

theorem diffPages_append (d : Bool) (ps qs : List Nat) (e : Eng) :
    diffPages d (ps ++ qs) e = (diffPages d ps).andThen (diffPages d qs) e := by
  induction ps generalizing e with
  | nil => rfl
  | cons p ps ih =>
    rw [List.cons_append, diffPages, diffPages]
    unfold Prog.andThen
    rw [Prog.bind_assoc, Prog.bind_assoc]
    unfold Prog.bind
    cases Prog.setLocals (fun l => l.withPage p) e with
    | ok u e1 =>
      simp only []
      cases writeIfChanged d p e1 with
      | ok u e2 => exact ih e2
      | _ => rfl
    | _ => rfl

/-- The pages below `n` go through page `k`. -/
theorem range_through {k n : Nat} (h : k < n) : ∃ qs, List.range n = List.range k ++ k :: qs := by
  refine ⟨List.range' (k + 1) (n - k - 1), ?_⟩
  rw [List.range_eq_range', List.range_eq_range', show n = k + (1 + (n - k - 1)) by omega, ← List.range'_append_1,
    ← List.range'_append_1]
  simp

/-- `e` with other buffers and other bytes noted as received. -/
def Eng.setBuffers (e : Eng) (m received : Memory) : Eng :=
  { e with regs := { e.regs with mem := m }, received := received }

/-- `e` with 256 pages in `IMG_A` (R151). -/
def Eng.fullImage (e : Eng) : Eng := { e with regs := { e.regs with npagesA := 256#9 } }

/-- One page of MEM_READALL, arriving in pieces (R151). -/
theorem readPage_pieces {e : Eng} {p : Nat} {pg : List (List Byte)} {rest : List Move} (h32 : Arrive e.params 32 pg)
    (hs : e.script = readReplies pg ++ rest) :
    readPage p e = .ok () (((e.setBuffers (e.regs.mem.writeBytes (imgAAddr p 0) pg.flatten)
      (e.received ++ cellsFrom (imgAAddr p 0) pg.flatten)).setLoc ((e.locals.withPage p).withBytes pg.flatten)).adv
        (readOps e.params.rdChunk pg) (readReplies pg) rest) := by
  have h : readExact Config.pageBytes (e.setLoc (e.locals.withPage p)) = .ok pg.flatten _ :=
    readExact_pieces (e := e.setLoc (e.locals.withPage p)) h32 hs
  unfold readPage
  rw [Prog.setLocals_andThen, Prog.bind_ok (Prog.catch_ok h)]
  rfl

/-- The pages of MEM_READALL, arriving in pieces: page `k + i` of `IMG_A` holds the `i`-th page read, and no byte outside
those pages changes (R151). -/
theorem readPages_pieces {e : Eng} {k : Nat} {img : List (List (List Byte))} {rest : List Move}
    (h32 : ∀ pg ∈ img, Arrive e.params 32 pg) (hs : e.script = img.flatMap readReplies ++ rest) :
    ∃ m r l, readPages (List.range' k img.length) e = .ok () (((e.setBuffers m r).setLoc l).adv
        (img.flatMap (readOps e.params.rdChunk)) (img.flatMap readReplies) rest) ∧
      (∀ (i : Nat) (pg : List (List Byte)), img[i]? = some pg → HoldsBytes m (0x2000 + 32 * (k + i)) pg.flatten) ∧
      ∀ x, x < 0x2000 + 32 * k ∨ 0x2000 + 32 * (k + img.length) ≤ x → m.read? x = e.regs.mem.read? x := by
  induction img generalizing e k with
  | nil =>
    have hs' : e.script = rest := hs
    subst hs'
    refine ⟨e.regs.mem, e.received, e.locals, ?_, fun i pg h => by simp at h, fun _ _ => rfl⟩
    simp [readPages, Eng.adv, Eng.setLoc, Eng.setBuffers]
  | cons pg img ih =>
    rw [List.flatMap_cons, List.append_assoc] at hs
    have h1 := readPage_pieces (p := k) (h32 pg (by simp)) hs
    obtain ⟨m, r, l, h2, h3, h4⟩ := ih (e := ((e.setBuffers (e.regs.mem.writeBytes (imgAAddr k 0) pg.flatten)
      (e.received ++ cellsFrom (imgAAddr k 0) pg.flatten)).setLoc ((e.locals.withPage k).withBytes pg.flatten)).adv
        (readOps e.params.rdChunk pg) (readReplies pg) (img.flatMap readReplies ++ rest)) (k := k + 1)
        (fun x hx => h32 x (by simp [hx])) rfl
    have hpl := (h32 pg (by simp)).1
    refine ⟨m, r, l, ?_, ?_, ?_⟩
    · rw [List.length_cons, List.range'_succ, readPages]
      refine (Prog.andThen_ok h1).trans (h2.trans ?_)
      simp [Eng.adv, Eng.setLoc, Eng.setBuffers, List.append_assoc]
    · intro i x hx
      cases i with
      | zero =>
        simp only [List.getElem?_cons_zero, Option.some.injEq] at hx
        subst hx
        intro i hi
        rw [h4 _ (by omega)]
        change (e.regs.mem.writeBytes (imgAAddr k 0) pg.flatten).read? _ = _
        unfold imgAAddr
        rw [Memory.read?_writeBytes, if_pos (by omega)]
        congr 1
        omega
      | succ i =>
        rw [List.getElem?_cons_succ] at hx
        rw [show k + (i + 1) = k + 1 + i by omega]
        exact h3 i x hx
    · intro x hx
      rw [List.length_cons] at hx
      rw [h4 _ (by omega)]
      change (e.regs.mem.writeBytes (imgAAddr k 0) pg.flatten).read? _ = _
      unfold imgAAddr
      exact Memory.read?_writeBytes_outside (by omega)

/-! ## The bodies -/

/-- The body of MEM_WRITEALL, the read-back of each page matching after its mismatches (R152). -/
theorem writeallBody_ack {e : Eng} {js : List PageJob} {f : Bool} {ms rest : List Move} (hwf : e.params.wf)
    (ha : 1 ≤ e.regs.att.toNat) (hatt : e.regs.att.toNat + missesOf js ≤ e.params.retryAttempts)
    (hjs : js.map PageJob.page = List.range e.regs.npagesA.toNat)
    (hj : ∀ j ∈ js, j.data.length = 32 ∧ HoldsBytes e.regs.mem (0x2000 + 32 * j.page) j.data)
    (h : PageReplies e.params js ms) (hs : e.script = ms ++ rest) :
    ∃ l, writeallBody f e = .ok ⟨.ok, .noPhase, 0⟩ ((e.wrote f js l).adv
      (pagesOps e.params e.regs.targetId f js) ms rest) := by
  obtain ⟨l, hl⟩ := writePages_ack (e := e.setLoc (e.locals.withPhase .write)) (d := f) hwf ha hatt hj h hs
  rw [hjs] at hl
  refine ⟨l, (Prog.andThen_ok (y := done) hl).trans ?_⟩
  unfold Eng.wrote
  by_cases hx : js = [] <;> simp [hx, done]

/-- The body of MEM_WRITEALL whose page `k` reads back something else at every attempt that is left (R141, R152). -/
theorem writeallBody_fails {e : Eng} {js : List PageJob} {f : Bool} {k : Nat} {data : List Byte} {xs : List Mismatch}
    {ms bad rest : List Move} (hwf : e.params.wf) (ha : 1 ≤ e.regs.att.toNat) (hx : xs ≠ [])
    (hatt : e.regs.att.toNat + missesOf js + xs.length = e.params.retryAttempts + 1)
    (hjs : js.map PageJob.page = List.range k) (hk : k < e.regs.npagesA.toNat)
    (hj : ∀ j ∈ js, j.data.length = 32 ∧ HoldsBytes e.regs.mem (0x2000 + 32 * j.page) j.data)
    (hlen : data.length = 32) (hm : HoldsBytes e.regs.mem (0x2000 + 32 * k) data) (h : PageReplies e.params js ms)
    (hbad : MismatchReplies e.params data xs bad) (hs : e.script = ms ++ bad ++ rest) :
    ∃ l, writeallBody f e = .raise .verifyFailed
      ((((e.setAtt (BitVec.ofNat 4 e.params.retryAttempts)).setSpd f).setLoc l).adv
        (pagesOps e.params e.regs.targetId f js ++ mismatchOps e.params e.regs.targetId (pageOff k) data f xs)
        (ms ++ bad) rest) := by
  have hpos : 1 ≤ xs.length := List.length_pos_iff.2 hx
  obtain ⟨l, hl⟩ := writePages_ack (e := e.setLoc (e.locals.withPhase .write)) (d := f) (rest := bad ++ rest) hwf ha
    (by rw [Eng.setLoc_regs, Eng.setLoc_params]; omega) hj h (by rw [Eng.setLoc_script, hs, List.append_assoc])
  obtain ⟨l1, hl1⟩ := scratchpadCycle_fails_after (e := e) (js := js) (off := pageOff k) (d := f)
    (ops := pagesOps e.params e.regs.targetId f js) (ms := ms) (rest := rest) hwf ha hx hatt hbad l (l.withPage k)
  obtain ⟨qs, hq⟩ := range_through hk
  refine ⟨l1, (Prog.andThen_raise (y := done) (x := writePages f (List.range e.regs.npagesA.toNat)) (e' := _) ?_).trans rfl⟩
  change writePages f _ (e.setLoc (e.locals.withPhase .write)) = _
  rw [hq, writePages_append, ← hjs]
  refine (Prog.andThen_ok hl).trans ?_
  rw [writePages, Prog.setLocals_andThen, Eng.setLoc_wrote]
  refine Prog.andThen_raise ((Prog.bind_ok (loadBytes_holds (bs := data) hlen ?_)).trans hl1)
  rw [Eng.setLoc_regs, Eng.adv_regs, Eng.wrote_regs]
  exact hm

/-- The body of MEM_WRITEDIFF, the read-back of each page matching after its mismatches (R153). -/
theorem writediffBody_ack {e : Eng} {new old : Nat → List Byte} {js : List PageJob} {f : Bool} {ms rest : List Move}
    (hwf : e.params.wf) (ha : 1 ≤ e.regs.att.toNat) (hatt : e.regs.att.toNat + missesOf js ≤ e.params.retryAttempts)
    (hi : ∀ k < e.regs.npagesA.toNat, (new k).length = 32 ∧ (old k).length = 32 ∧
      HoldsBytes e.regs.mem (0x2000 + 32 * k) (new k) ∧ HoldsBytes e.regs.mem (0x4000 + 32 * k) (old k))
    (hjs : js.map PageJob.page = (List.range e.regs.npagesA.toNat).filter fun k => new k ≠ old k)
    (hj : ∀ j ∈ js, j.data = new j.page) (h : PageReplies e.params js ms) (hs : e.script = ms ++ rest) :
    ∃ l, writediffBody f e = .ok ⟨.ok, .noPhase, 0⟩ ((e.wrote f js l).adv
      (pagesOps e.params e.regs.targetId f js) ms rest) := by
  obtain ⟨l, hl⟩ := diffPages_ack (e := e.setLoc (e.locals.withPhase .write)) (d := f)
    (ps := List.range e.regs.npagesA.toNat) hwf ha hatt (fun k hk => hi k (List.mem_range.1 hk)) hjs hj h hs
  refine ⟨l, (Prog.andThen_ok (y := done) hl).trans ?_⟩
  unfold Eng.wrote
  by_cases hx : js = [] <;> simp [hx, done]

/-- The body of MEM_WRITEDIFF whose page `k` reads back something else at every attempt that is left (R141, R153). -/
theorem writediffBody_fails {e : Eng} {new old : Nat → List Byte} {js : List PageJob} {f : Bool} {k : Nat}
    {xs : List Mismatch} {ms bad rest : List Move} (hwf : e.params.wf) (ha : 1 ≤ e.regs.att.toNat) (hx : xs ≠ [])
    (hatt : e.regs.att.toNat + missesOf js + xs.length = e.params.retryAttempts + 1)
    (hi : ∀ k < e.regs.npagesA.toNat, (new k).length = 32 ∧ (old k).length = 32 ∧
      HoldsBytes e.regs.mem (0x2000 + 32 * k) (new k) ∧ HoldsBytes e.regs.mem (0x4000 + 32 * k) (old k))
    (hjs : js.map PageJob.page = (List.range k).filter fun k => new k ≠ old k) (hk : k < e.regs.npagesA.toNat)
    (hne : new k ≠ old k) (hj : ∀ j ∈ js, j.data = new j.page) (h : PageReplies e.params js ms)
    (hbad : MismatchReplies e.params (new k) xs bad) (hs : e.script = ms ++ bad ++ rest) :
    ∃ l, writediffBody f e = .raise .verifyFailed
      ((((e.setAtt (BitVec.ofNat 4 e.params.retryAttempts)).setSpd f).setLoc l).adv
        (pagesOps e.params e.regs.targetId f js ++ mismatchOps e.params e.regs.targetId (pageOff k) (new k) f xs)
        (ms ++ bad) rest) := by
  have hpos : 1 ≤ xs.length := List.length_pos_iff.2 hx
  obtain ⟨l, hl⟩ := diffPages_ack (e := e.setLoc (e.locals.withPhase .write)) (d := f) (ps := List.range k)
    (rest := bad ++ rest) hwf ha (by rw [Eng.setLoc_regs, Eng.setLoc_params]; omega)
    (fun x hx => hi x (by rw [List.mem_range] at hx; omega)) hjs hj h (by rw [Eng.setLoc_script, hs, List.append_assoc])
  obtain ⟨l1, hl1⟩ := scratchpadCycle_fails_after (e := e) (js := js) (off := pageOff k) (d := f)
    (ops := pagesOps e.params e.regs.targetId f js) (ms := ms) (rest := rest) hwf ha hx hatt hbad l (l.withPage k)
  obtain ⟨qs, hq⟩ := range_through hk
  refine ⟨l1, (Prog.andThen_raise (y := done) (x := diffPages f (List.range e.regs.npagesA.toNat)) (e' := _) ?_).trans rfl⟩
  change diffPages f _ (e.setLoc (e.locals.withPhase .write)) = _
  rw [hq, diffPages_append]
  refine (Prog.andThen_ok hl).trans ?_
  rw [diffPages, Prog.setLocals_andThen, Eng.setLoc_wrote]
  refine Prog.andThen_raise ((writeIfChanged_loads (new := new) (old := old) f ?_).trans ?_)
  · rw [Eng.setLoc_regs, Eng.adv_regs, Eng.wrote_regs]
    exact hi k hk
  · rw [if_neg hne]
    exact hl1

/-- The body of MEM_READALL, every page arriving in pieces (R151). -/
theorem readallBody_ack {e : Eng} {img : List (List (List Byte))} {f : Bool} {pre rest : List Move}
    (hp : 1 ≤ e.params.pollLimit) (hlen : img.length = 256) (h32 : ∀ pg ∈ img, Arrive e.params 32 pg) (hpre : Acks 8 pre) (hs : e.script = pre ++ (img.flatMap readReplies ++ rest)) :
    ∃ m r l, readallBody f e = .ok ⟨.ok, .noPhase, 0⟩ ((((e.setSpd f).setBuffers m r).setLoc l).adv
        (selectOps e.params e.regs.targetId f ++ writeOps [e.params.cmdRm, 0#8, 0#8] ++
          img.flatMap (readOps e.params.rdChunk)) (pre ++ img.flatMap readReplies) rest).fullImage ∧
      (∀ (k : Nat) (pg : List (List Byte)), img[k]? = some pg → HoldsBytes m (0x2000 + 32 * k) pg.flatten) ∧
      ∀ x, x < 0x2000 ∨ 0x4000 ≤ x → m.read? x = e.regs.mem.read? x := by
  obtain ⟨a, b, rfl, ha, hb⟩ := Acks.split (m := 5) (n := 3) hpre
  have h1 := selectTarget_ack (d := f) (e := e.setLoc (e.locals.withPhase .read)) hp ha
    (rest := b ++ (img.flatMap readReplies ++ rest)) (by rw [Eng.setLoc_script, hs, List.append_assoc])
  have h2 := writeWire_ack (bytes := [e.params.cmdRm, 0#8, 0#8])
    (e := ((e.setLoc (e.locals.withPhase .read)).setSpd f).adv (selectOps e.params e.regs.targetId f) a
      (b ++ (img.flatMap readReplies ++ rest))) hb rfl
  obtain ⟨m, r, l, h3, h4, h5⟩ := readPages_pieces (k := 0)
    (e := (((e.setLoc (e.locals.withPhase .read)).setSpd f).adv (selectOps e.params e.regs.targetId f) a
      (b ++ (img.flatMap readReplies ++ rest))).adv (writeOps [e.params.cmdRm, 0#8, 0#8]) b
        (img.flatMap readReplies ++ rest)) h32 rfl
  rw [hlen, ← List.range_eq_range'] at h3
  refine ⟨m, r, l, ?_, fun k pg hk => by simpa using h4 k pg hk, fun x hx => h5 x (by rw [hlen]; omega)⟩
  refine (Prog.andThen_ok h1).trans ((Prog.andThen_ok h2).trans ((Prog.andThen_ok h3).trans ?_))
  simp [Eng.adv, Eng.setLoc, Eng.setBuffers, Eng.setSpd, Eng.fullImage, done, List.append_assoc]

end Sys2Proof.Machine
end

