-- ==== Sys2Proof/Laws/PerInstr.lean ====
section
/-! SUPPORT. Statements made per command, as syntax: one lemma per constructor. -/

namespace Sys2Proof.Laws.OpcodeField

/-- The word of a command carries the command's opcode in bits 31:24 (R70, R73). -/
def Statement (i : Instr) : Prop := opcField (encode i) = i.opc

theorem claim : Statement .claim := opcField_ofFields _ _ _ _

theorem close : Statement .close := opcField_ofFields _ _ _ _

theorem srchStart : Statement .srchStart := opcField_ofFields _ _ _ _

theorem owReset : Statement .owReset := opcField_ofFields _ _ _ _

theorem owSpeed (f : Bool) : Statement (.owSpeed f) := opcField_ofFields _ _ _ _

theorem owWbit (f : Bool) : Statement (.owWbit f) := opcField_ofFields _ _ _ _

theorem owRbit : Statement .owRbit := opcField_ofFields _ _ _ _

theorem owWrite (n : Byte) (c : Bool) : Statement (.owWrite n c) := opcField_ofFields _ _ _ _

theorem owRead (n : Byte) : Statement (.owRead n) := opcField_ofFields _ _ _ _

theorem owRom (s : BitVec 2) (d : Bool) : Statement (.owRom s d) := opcField_ofFields _ _ _ _

theorem srchFirst : Statement .srchFirst := opcField_ofFields _ _ _ _

theorem srchNext : Statement .srchNext := opcField_ofFields _ _ _ _

theorem srchEnum : Statement .srchEnum := opcField_ofFields _ _ _ _

theorem pgWrite (p : Byte) (d : Bool) : Statement (.pgWrite p d) := opcField_ofFields _ _ _ _

theorem rgWrite (h l n : Byte) : Statement (.rgWrite h l n) := opcField_ofFields _ _ _ _

theorem memReadall (f : Bool) : Statement (.memReadall f) := opcField_ofFields _ _ _ _

theorem memWriteall (f : Bool) : Statement (.memWriteall f) := opcField_ofFields _ _ _ _

theorem memWritediff (f : Bool) : Statement (.memWritediff f) := opcField_ofFields _ _ _ _

theorem crc16Clr : Statement .crc16Clr := opcField_ofFields _ _ _ _

theorem crc16Byte (v : Byte) : Statement (.crc16Byte v) := opcField_ofFields _ _ _ _

theorem crc16Chk (p : Byte) : Statement (.crc16Chk p) := opcField_ofFields _ _ _ _

theorem crc16Gen (p : Byte) : Statement (.crc16Gen p) := opcField_ofFields _ _ _ _

end Sys2Proof.Laws.OpcodeField
end

