-- ==== Sys2Proof/Laws/Search.lean ====
section
/-! SUPPORT. One search pass in an environment that answers at once (spec/42_rom_search.md R122, R123): the walk as a
function of the bits read, the id it assembles and the bookmark it leaves. -/

namespace Sys2Proof.Machine

/-! ## The bits of a ROM id -/

/-- Setting a bit of a ROM id sets that bit and no other (R120). -/
theorem romBit_setRomBit {id : RomId} {k j : Nat} {d : Bool} (hk : 1 ≤ k) (hk' : k ≤ 64) (hj : 1 ≤ j) (hj' : j ≤ 64) :
    romBit (setRomBit id k d) j = if j = k then d else romBit id j := by
  unfold romBit setRomBit bit
  simp only [BitVec.getLsbD_or, BitVec.getLsbD_and, BitVec.getLsbD_not, BitVec.getLsbD_shiftLeft,
    BitVec.getLsbD_setWidth]
  by_cases h : j = k
  · subst h
    cases d <;> simp [show j - 1 < 64 by omega]
  · by_cases hlt : j - 1 < k - 1
    · simp [h, hlt, show j - 1 < 64 by omega]
    · have h1 : j - 1 - (k - 1) ≠ 0 := by omega
      rw [if_neg h]
      cases d <;> simp [hlt, h1, show j - 1 < 64 by omega]

/-- Two ROM ids with the same 64 bits are equal. -/
theorem romId_ext {a b : RomId} (h : ∀ k, 1 ≤ k → k ≤ 64 → romBit a k = romBit b k) : a = b := by
  refine BitVec.eq_of_getLsbD_eq fun i hi => ?_
  simpa [romBit] using h (i + 1) (by omega) (by omega)

/-! ## The walk -/

/-- `e` with another `ROM_ID`. -/
def Eng.setId (e : Eng) (id : RomId) : Eng := { e with regs := { e.regs with romId := id } }

@[simp] theorem Eng.setId_script (e : Eng) (id) : (e.setId id).script = e.script := rfl
@[simp] theorem Eng.setId_params (e : Eng) (id) : (e.setId id).params = e.params := rfl
@[simp] theorem Eng.setId_locals (e : Eng) (id) : (e.setId id).locals = e.locals := rfl
@[simp] theorem Eng.setId_timed (e : Eng) (id) : (e.setId id).timed = e.timed := rfl
@[simp] theorem Eng.setId_raised (e : Eng) (id) : (e.setId id).raised = e.raised := rfl
@[simp] theorem Eng.setId_received (e : Eng) (id) : (e.setId id).received = e.received := rfl
@[simp] theorem Eng.setId_got (e : Eng) (id) : (e.setId id).got = e.got := rfl
@[simp] theorem Eng.setId_regs (e : Eng) (id) : (e.setId id).regs = { e.regs with romId := id } := rfl
@[simp] theorem Eng.setId_setId (e : Eng) (a b : RomId) : (e.setId a).setId b = e.setId b := rfl
@[simp] theorem Eng.adv_setId (e : Eng) (id ops ms rest) :
    (e.adv ops ms rest).setId id = (e.setId id).adv ops ms rest := rfl
@[simp] theorem Eng.setLoc_setId (e : Eng) (l id) : (e.setLoc l).setId id = (e.setId id).setLoc l := rfl

/-- The id after the walk of positions `k, k+1, …` that read `bits`, from id `id` and `LAST_DISC = ld`. -/
def walkId (ld : Nat) : Nat → List (Bool × Bool) → RomId → RomId
  | _, [], id => id
  | k, bc :: bits, id => walkId ld (k + 1) bits (setRomBit id k (direction bc.1 bc.2 k ld (romBit id k)))

/-- The bookmark `last_zero` after that walk. -/
def walkZero (ld : Nat) : Nat → List (Bool × Bool) → RomId → Nat → Nat
  | _, [], _, lz => lz
  | k, bc :: bits, id, lz =>
    let d := direction bc.1 bc.2 k ld (romBit id k)
    walkZero ld (k + 1) bits (setRomBit id k d) (bookmark bc.1 bc.2 d k lz)

/-- The directions that walk writes. -/
def walkDirs (ld : Nat) : Nat → List (Bool × Bool) → RomId → List Bool
  | _, [], _ => []
  | k, bc :: bits, id =>
    let d := direction bc.1 bc.2 k ld (romBit id k)
    d :: walkDirs ld (k + 1) bits (setRomBit id k d)

/-- The walk goes no further back: earlier bits keep their value. -/
theorem walkId_before {ld k : Nat} {bits : List (Bool × Bool)} {id : RomId} {j : Nat} (hk : 1 ≤ k) (hj : 1 ≤ j)
    (hjk : j < k) (hn : k + bits.length ≤ 65) : romBit (walkId ld k bits id) j = romBit id j := by
  induction bits generalizing k id with
  | nil => rfl
  | cons bc bits ih =>
    rw [List.length_cons] at hn
    rw [walkId, ih (by omega) (by omega) (by omega), romBit_setRomBit hk (by omega) hj (by omega), if_neg (by omega)]

/-- Nor ahead: bits beyond the positions read keep their value. -/
theorem walkId_after {ld k : Nat} {bits : List (Bool × Bool)} {id : RomId} {j : Nat} (hj : 1 ≤ j) (hj' : j ≤ 64)
    (hk : 1 ≤ k) (hn : k + bits.length ≤ 65) (hjk : k + bits.length ≤ j) :
    romBit (walkId ld k bits id) j = romBit id j := by
  induction bits generalizing k id with
  | nil => rfl
  | cons bc bits ih =>
    rw [List.length_cons] at hn hjk
    rw [walkId, ih (by omega) (by omega) (by omega), romBit_setRomBit hk (by omega) hj hj', if_neg (by omega)]

/-- Bit `k + i` of the id assembled is the direction taken at position `k + i`. -/
theorem walkId_bit {ld k i : Nat} {bits : List (Bool × Bool)} {id : RomId} {bc : Bool × Bool} (hk : 1 ≤ k)
    (hn : k + bits.length ≤ 65) (h : bits[i]? = some bc) :
    romBit (walkId ld k bits id) (k + i) = direction bc.1 bc.2 (k + i) ld (romBit id (k + i)) := by
  induction bits generalizing k i id with
  | nil => simp at h
  | cons b bits ih =>
    rw [List.length_cons] at hn
    cases i with
    | zero =>
      simp only [List.getElem?_cons_zero, Option.some.injEq] at h
      subst h
      simp only [walkId, Nat.add_zero]
      rw [walkId_before (by omega) hk (by omega) (by omega),
        romBit_setRomBit hk (by omega) hk (by omega), if_pos rfl]
    | succ i =>
      rw [List.getElem?_cons_succ] at h
      have hi : i < bits.length := (List.getElem?_eq_some_iff.1 h).1
      rw [walkId, show k + (i + 1) = k + 1 + i by omega, ih (by omega) (by omega) h,
        romBit_setRomBit hk (by omega) (by omega) (by omega), if_neg (by omega)]

/-- The directions written are the bits of the id assembled. -/
theorem walkDirs_eq {ld k : Nat} {bits : List (Bool × Bool)} {id : RomId} (hk : 1 ≤ k) (hn : k + bits.length ≤ 65) :
    walkDirs ld k bits id = (List.range' k bits.length).map (romBit (walkId ld k bits id)) := by
  induction bits generalizing k id with
  | nil => rfl
  | cons bc bits ih =>
    have hn' : k + 1 + bits.length ≤ 65 := by rw [List.length_cons] at hn; omega
    rw [List.length_cons, List.range'_succ, List.map_cons, walkDirs, ih (by omega) hn', walkId]
    congr 1
    rw [walkId_before (by omega) hk (by omega) hn', romBit_setRomBit hk (by omega) hk (by omega), if_pos rfl]

/-- The bookmark is the last discrepancy of the walk at which 0 was taken, or the one before it (R123, C3). -/
theorem walkZero_spec {ld k : Nat} {bits : List (Bool × Bool)} {id : RomId} {lz : Nat} (hk : 1 ≤ k)
    (hn : k + bits.length ≤ 65) (hb : ∀ bc ∈ bits, bc ≠ (true, true)) :
    let z := walkZero ld k bits id lz
    let taken := fun i => bits[i]? = some (false, false) ∧ romBit (walkId ld k bits id) (k + i) = false
    (z = lz ∧ ∀ i, ¬taken i) ∨ ∃ i, taken i ∧ z = k + i ∧ ∀ j, i < j → ¬taken j := by
  induction bits generalizing k id lz with
  | nil => exact .inl ⟨rfl, fun i h => by simp at h⟩
  | cons bc bits ih =>
    have hn' : k + 1 + bits.length ≤ 65 := by rw [List.length_cons] at hn; omega
    have h0 : romBit (walkId ld k (bc :: bits) id) k = direction bc.1 bc.2 k ld (romBit id k) :=
      walkId_bit (i := 0) hk hn rfl
    have step := @ih (k + 1) (setRomBit id k (direction bc.1 bc.2 k ld (romBit id k)))
      (bookmark bc.1 bc.2 (direction bc.1 bc.2 k ld (romBit id k)) k lz) (by omega) hn'
      (fun x hx => hb x (by simp [hx]))
    have later : ∀ i, ((bc :: bits)[i + 1]? = some (false, false) ∧
        romBit (walkId ld k (bc :: bits) id) (k + (i + 1)) = false) ↔
        (bits[i]? = some (false, false) ∧ romBit (walkId ld (k + 1) bits
          (setRomBit id k (direction bc.1 bc.2 k ld (romBit id k)))) (k + 1 + i) = false) := by
      intro i
      rw [List.getElem?_cons_succ, walkId, show k + (i + 1) = k + 1 + i by omega]
    simp only [] at step ⊢
    rw [walkZero]
    rcases step with ⟨hz, hnone⟩ | ⟨i, hi, hz, hmax⟩
    · rw [hz]
      by_cases ht : bc = (false, false) ∧ direction bc.1 bc.2 k ld (romBit id k) = false
      · right
        refine ⟨0, ⟨by simp [ht.1], by rw [Nat.add_zero, h0]; exact ht.2⟩, ?_, ?_⟩
        · rw [bookmark, if_pos ⟨by simp [ht.1], ht.2⟩]
          rfl
        · intro j hj
          obtain ⟨j, rfl⟩ : ∃ i, j = i + 1 := ⟨j - 1, by omega⟩
          rw [later]
          exact hnone j
      · left
        refine ⟨?_, ?_⟩
        · rw [bookmark, if_neg]
          rintro ⟨h1, h2⟩
          refine ht ⟨?_, h2⟩
          have := hb bc (by simp)
          rcases bc with ⟨b, c⟩
          cases b <;> cases c <;> simp_all
        · intro j
          cases j with
          | zero =>
            rintro ⟨h1, h2⟩
            rw [Nat.add_zero, h0] at h2
            exact ht ⟨by simpa using h1, h2⟩
          | succ j =>
            rw [later]
            exact hnone j
    · right
      refine ⟨i + 1, (later i).2 hi, by rw [hz]; omega, ?_⟩
      intro j hj
      obtain ⟨j, rfl⟩ : ∃ x, j = x + 1 := ⟨j - 1, by omega⟩
      rw [later]
      exact hmax j (by omega)

/-- One position of the walk, answered at once: both bits and the direction written (R123). -/
theorem walk_step {e : Eng} {k lz : Nat} {ks : List Nat} {bc : Bool × Bool} {rest : List Move}
    (hb : bc ≠ (true, true)) (hs : e.script = positionReplies bc ++ rest) :
    let d := direction bc.1 bc.2 k e.regs.lastDisc.toNat (romBit e.regs.romId k)
    walk (k :: ks) lz e = walk ks (bookmark bc.1 bc.2 d k lz)
      ((((e.setLoc (e.locals.withWalk k (bookmark bc.1 bc.2 d k lz))).setId (setRomBit e.regs.romId k d))).adv
        (positionOps d) (positionReplies bc) rest) := by
  obtain ⟨b, c⟩ := bc
  have hbit : ∀ x : Bool, (BitVec.setWidth 8 (bit x)).getLsbD 0 = x := by decide
  intro d
  rw [walk, Prog.setLocals_andThen]
  refine (Prog.bind_ok (readBit_bytes (e := e.setLoc (e.locals.withWalk k lz)) hs)).trans ?_
  refine (Prog.bind_ok (readBit_bytes (e := Eng.adv _ _ _ _) rfl)).trans ?_
  rw [hbit, hbit, if_neg (by cases b <;> cases c <;> simp_all), Prog.ask_bind, Prog.setLocals_andThen]
  refine (Prog.andThen_ok (send_ok (e := Eng.setLoc _ _) rfl)).trans ?_
  rw [Prog.setRegs_andThen]
  simp [d, Locals.withWalk, Eng.adv, Eng.setId, Eng.setLoc, positionOps, positionReplies, bytesReply, List.append_assoc]

/-- A walk that nothing stops, from position `k` (R123). -/
theorem walk_ack {e : Eng} {k lz : Nat} {bits : List (Bool × Bool)} {rest : List Move}
    (hb : ∀ bc ∈ bits, bc ≠ (true, true)) (hs : e.script = bits.flatMap positionReplies ++ rest) (ks : List Nat) :
    ∃ l, l.phase = e.locals.phase ∧
      walk (List.range' k bits.length ++ ks) lz e =
        walk ks (walkZero e.regs.lastDisc.toNat k bits e.regs.romId lz)
          (((e.setLoc l).setId (walkId e.regs.lastDisc.toNat k bits e.regs.romId)).adv
            ((walkDirs e.regs.lastDisc.toNat k bits e.regs.romId).flatMap positionOps)
            (bits.flatMap positionReplies) rest) := by
  induction bits generalizing k lz e with
  | nil =>
    refine ⟨e.locals, rfl, ?_⟩
    have hs' : e.script = rest := hs
    subst hs'
    simp [walkZero, walkId, walkDirs, Eng.adv, Eng.setLoc, Eng.setId]
  | cons bc bits ih =>
    rw [List.length_cons, List.range'_succ, List.cons_append]
    rw [List.flatMap_cons, List.append_assoc] at hs
    have hstep := walk_step (k := k) (lz := lz) (ks := List.range' (k + 1) bits.length ++ ks) (hb bc (by simp)) hs
    simp only [] at hstep
    rw [hstep]
    obtain ⟨l, hl, h⟩ := @ih (((e.setLoc (e.locals.withWalk k (bookmark bc.1 bc.2 (direction bc.1 bc.2 k
      e.regs.lastDisc.toNat (romBit e.regs.romId k)) k lz))).setId (setRomBit e.regs.romId k
      (direction bc.1 bc.2 k e.regs.lastDisc.toNat (romBit e.regs.romId k)))).adv
      (positionOps (direction bc.1 bc.2 k e.regs.lastDisc.toNat (romBit e.regs.romId k))) (positionReplies bc)
      (bits.flatMap positionReplies ++ rest)) (k + 1)
      (bookmark bc.1 bc.2 (direction bc.1 bc.2 k e.regs.lastDisc.toNat (romBit e.regs.romId k)) k lz)
      (fun x hx => hb x (by simp [hx])) rfl
    refine ⟨l, hl, h.trans ?_⟩
    simp [walkZero, walkId, walkDirs, Eng.adv, Eng.setLoc, Eng.setId, List.append_assoc]

/-- Two ones at a position end the walk there, no direction written (R122). -/
theorem walk_stop {e : Eng} {k lz : Nat} {ks : List Nat} {rest : List Move}
    (hs : e.script = (positionReplies (true, true)).take 4 ++ rest) :
    walk (k :: ks) lz e = .ok none ((e.setLoc (e.locals.withWalk k lz)).adv
      [.ctl .rbit, .bulkIn 1, .ctl .rbit, .bulkIn 1] ((positionReplies (true, true)).take 4) rest) := by
  rw [walk, Prog.setLocals_andThen]
  refine (Prog.bind_ok (readBit_bytes (e := e.setLoc (e.locals.withWalk k lz)) hs)).trans ?_
  refine (Prog.bind_ok (readBit_bytes (e := Eng.adv _ _ _ _) rfl)).trans ?_
  simp [Eng.adv, Eng.setLoc, positionReplies, bit, List.append_assoc]

/-- The link operations before the walk, answered at once (R123 step 1). -/
theorem searchStart_ack {β : Type} {y : Prog β} {e : Eng} {ms rest : List Move} (hp : 1 ≤ e.params.pollLimit)
    (h : Acks 6 ms) (hs : e.script = ms ++ rest) :
    (busReset.andThen <| (setSpeed false).andThen <| (writeWire [Config.cmdSearch] true).andThen y) e =
      y ((e.setSpd false).adv searchOps ms rest) := by
  obtain ⟨a, b, rfl, ha, hb⟩ := Acks.split (m := 2) (n := 4) h
  obtain ⟨b1, b2, rfl, hb1, hb2⟩ := Acks.split (m := 1) (n := 3) hb
  refine (Prog.andThen_ok (busReset_ack hp ha (rest := b1 ++ (b2 ++ rest)) (by simp [hs]))).trans ?_
  refine (Prog.andThen_ok (setSpeed_ack hb1 rfl)).trans ?_
  refine (Prog.andThen_ok (writeWire_ack hb2 rfl)).trans ?_
  simp [searchOps]

/-! ## A whole pass -/

/-- `e` after the bookkeeping of a successful pass (R123). -/
def Eng.found (e : Eng) (lz : Nat) : Eng :=
  { e with regs := { e.regs with lastDisc := BitVec.ofNat 7 lz, lastDevice := decide (lz = 0) } }

/-- `e` after `PassFail` (R124). -/
def Eng.notFound (e : Eng) : Eng := { e with regs := { e.regs with lastDevice := true } }

/-- The walk operations of the id assembled. -/
theorem walkOps_eq {ld : Nat} {bits : List (Bool × Bool)} {id : RomId} (hlen : bits.length = 64) :
    walkOps (walkId ld 1 bits id) = (walkDirs ld 1 bits id).flatMap positionOps := by
  rw [walkDirs_eq le_rfl (by omega), hlen, List.flatMap_map]
  rfl

/-- A whole pass that nothing stops: found or not, by the id assembled (R123). -/
theorem searchPass_ack {e : Eng} {bits : List (Bool × Bool)} {id : RomId} {pre rest : List Move}
    (hp : 1 ≤ e.params.pollLimit) (hlen : bits.length = 64) (hb : ∀ bc ∈ bits, bc ≠ (true, true)) (hpre : Acks 6 pre)
    (hid : walkId e.regs.lastDisc.toNat 1 bits e.regs.romId = id)
    (hs : e.script = pre ++ bits.flatMap positionReplies ++ rest) :
    ∃ l, l.phase = e.locals.phase ∧
      (validId e.params.crc8Poly id = true → searchPass e = .ok true
        (((((e.setSpd false).setLoc l).setId id).adv (searchOps ++ walkOps id) (pre ++ bits.flatMap positionReplies)
          rest).found (walkZero e.regs.lastDisc.toNat 1 bits e.regs.romId 0))) ∧
      (validId e.params.crc8Poly id = false → searchPass e = .ok false
        ((((e.setSpd false).setLoc l).setId id).adv (searchOps ++ walkOps id) (pre ++ bits.flatMap positionReplies)
          rest).notFound) := by
  subst hid
  obtain ⟨l, hl, h⟩ := walk_ack (e := (e.setSpd false).adv searchOps pre (bits.flatMap positionReplies ++ rest))
    (k := 1) (lz := 0) hb rfl []
  rw [List.append_nil, hlen] at h
  refine ⟨l, hl, ?_, ?_⟩ <;>
  · intro hv
    unfold searchPass
    refine (searchStart_ack hp hpre (rest := bits.flatMap positionReplies ++ rest) (by simp [hs])).trans ?_
    refine (Prog.bind_ok h).trans ?_
    change (if validId e.params.crc8Poly (walkId e.regs.lastDisc.toNat 1 bits e.regs.romId) then
      passFound (walkZero e.regs.lastDisc.toNat 1 bits e.regs.romId 0) else passFail) _ = _
    rw [hv, walkOps_eq hlen]
    simp [passFound, passFail, Prog.andThen, Prog.setRegs, Prog.bind, Prog.ret, Eng.adv, Eng.setId, Eng.setLoc,
      Eng.setSpd, Eng.found, Eng.notFound]

/-- A pass that two ones stop at the position after `bits` (R122, R124). -/
theorem searchPass_stop {e : Eng} {bits : List (Bool × Bool)} {pre rest : List Move} (hp : 1 ≤ e.params.pollLimit)
    (hlen : bits.length < 64) (hb : ∀ bc ∈ bits, bc ≠ (true, true)) (hpre : Acks 6 pre)
    (hs : e.script = pre ++ bits.flatMap positionReplies ++ (positionReplies (true, true)).take 4 ++ rest) :
    ∃ l, searchPass e = .ok false
      ((((e.setSpd false).setLoc l).setId (walkId e.regs.lastDisc.toNat 1 bits e.regs.romId)).adv
        (searchOps ++ (walkDirs e.regs.lastDisc.toNat 1 bits e.regs.romId).flatMap positionOps ++
          [.ctl .rbit, .bulkIn 1, .ctl .rbit, .bulkIn 1])
        (pre ++ bits.flatMap positionReplies ++ (positionReplies (true, true)).take 4) rest).notFound := by
  obtain ⟨ks, hks⟩ : ∃ ks, positions = List.range' 1 bits.length ++ (bits.length + 1) :: ks := by
    refine ⟨List.range' (bits.length + 2) (63 - bits.length), ?_⟩
    have h64 : 64 = bits.length + (1 + (63 - bits.length)) := by omega
    unfold positions
    rw [h64, ← List.range'_append_1, ← List.range'_append_1]
    congr 1
    rw [Nat.add_comm 1 bits.length]
    simp
  obtain ⟨l, -, h⟩ := walk_ack (e := (e.setSpd false).adv searchOps pre
    (bits.flatMap positionReplies ++ ((positionReplies (true, true)).take 4 ++ rest))) (k := 1) (lz := 0) hb rfl
    ((bits.length + 1) :: ks)
  refine ⟨l.withWalk (bits.length + 1) (walkZero e.regs.lastDisc.toNat 1 bits e.regs.romId 0), ?_⟩
  unfold searchPass
  refine (searchStart_ack hp hpre
    (rest := bits.flatMap positionReplies ++ ((positionReplies (true, true)).take 4 ++ rest)) (by simp [hs])).trans ?_
  rw [hks]
  refine (Prog.bind_ok (h.trans (walk_stop rfl))).trans ?_
  simp [passFail, Prog.andThen, Prog.setRegs, Prog.bind, Prog.ret, Eng.adv, Eng.setId, Eng.setLoc, Eng.setSpd,
    Eng.notFound, List.append_assoc]

/-- The bookmark of a whole walk is its last position at which 0 was taken (R123, C3). -/
theorem walk_lastZero {ld : Nat} {bits : List (Bool × Bool)} {id0 id : RomId} (hlen : bits.length = 64)
    (hb : ∀ bc ∈ bits, bc ≠ (true, true)) (hid : walkId ld 1 bits id0 = id) :
    LastZero bits id (walkZero ld 1 bits id0 0) ∧ walkZero ld 1 bits id0 0 ≤ 64 := by
  subst hid
  rcases walkZero_spec (ld := ld) (k := 1) (bits := bits) (id := id0) (lz := 0) le_rfl (by omega) hb with
    ⟨hz, hn⟩ | ⟨i, ⟨h1, h2⟩, hz, hm⟩
  · rw [hz]
    exact ⟨⟨.inl rfl, fun k hk h => hn (k - 1) ⟨h.2.1, by rw [show 1 + (k - 1) = k by omega]; exact h.2.2⟩⟩, by omega⟩
  · rw [hz]
    have hi := (List.getElem?_eq_some_iff.1 h1).1
    exact ⟨⟨.inr ⟨by omega, by rw [show 1 + i - 1 = i by omega]; exact h1, h2⟩, fun k hk h =>
      hm (k - 1) (by omega) ⟨h.2.1, by rw [show 1 + (k - 1) = k by omega]; exact h.2.2⟩⟩, by omega⟩

/-- Bit `k` of the id a whole walk assembles (R122, R123). -/
theorem walkId_direction {ld : Nat} {bits : List (Bool × Bool)} {id0 : RomId} (hlen : bits.length = 64) {k : Nat}
    {bc : Bool × Bool} (hk : 1 ≤ k) (h : bits[k - 1]? = some bc) :
    romBit (walkId ld 1 bits id0) k = direction bc.1 bc.2 k ld (romBit id0 k) := by
  have := walkId_bit (ld := ld) (id := id0) (k := 1) (i := k - 1) (bits := bits) le_rfl (by omega) h
  rwa [show 1 + (k - 1) = k by omega] at this

/-- The walk over the positions read assembles this id (R122, R123). -/
theorem Assembles.walk {old id : RomId} {ld : Nat} {bits : List (Bool × Bool)} (h : Assembles old ld bits id)
    (hlen : bits.length ≤ 64) : walkId ld 1 bits old = id := by
  refine romId_ext fun k h1 h2 => ?_
  have h3 := h k h1 h2
  cases hb : bits[k - 1]? with
  | some bc =>
    rw [hb] at h3
    have := walkId_bit (ld := ld) (id := old) (k := 1) (i := k - 1) (bits := bits) le_rfl (by omega) hb
    rw [show 1 + (k - 1) = k by omega] at this
    rw [this, h3]
    rfl
  | none =>
    rw [hb] at h3
    rw [List.getElem?_eq_none_iff] at hb
    rw [h3, walkId_after h1 h2 (by omega) (by omega) (by omega)]

/-- A pass that fails, in the terms claims use (R122 to R124). -/
theorem searchPass_failed {e : Eng} {ms rest : List Move} {ops : List LinkOp} {id : RomId} (hp : 1 ≤ e.params.pollLimit)
    (h : FailedPass e.params e.regs.romId e.regs.lastDisc.toNat ms ops id) (hs : e.script = ms ++ rest) :
    ∃ l, searchPass e = .ok false ((((e.setSpd false).setLoc l).setId id).adv ops ms rest).notFound := by
  cases h with
  | noResponder start bits id hst hlen hb hid =>
    obtain ⟨l, hl⟩ := searchPass_stop hp hlen hb hst hs
    refine ⟨l, hl.trans ?_⟩
    rw [walkDirs_eq le_rfl (by omega), hid.walk (by omega), List.flatMap_map]
    have htake : positions.take bits.length = List.range' 1 bits.length := by
      unfold positions
      rw [show 64 = bits.length + (64 - bits.length) by omega, ← List.range'_append_1, List.take_left' (by simp)]
    rw [htake]
  | invalid start bits id hst hlen hb hid hv =>
    obtain ⟨l, -, -, hno⟩ := searchPass_ack hp hlen hb hst (hid.walk (by omega)) hs
    exact ⟨l, hno hv⟩

/-! ## Passes one after another -/

/-- A pass has one bookmark (R123, C3). -/
theorem LastZero.unique {bits : List (Bool × Bool)} {id : RomId} {a b : Nat} (ha : LastZero bits id a)
    (hb : LastZero bits id b) : a = b := by
  rcases Nat.lt_trichotomy a b with h | h | h
  · exact absurd (hb.1.resolve_left (by omega)) (ha.2 b h)
  · exact h
  · exact absurd (ha.1.resolve_left (by omega)) (hb.2 a h)

/-- The bookmark is a position (R17). -/
theorem LastZero.le {bits : List (Bool × Bool)} {id : RomId} {a : Nat} (h : LastZero bits id a) :
    a ≤ bits.length := by
  rcases h.1 with rfl | h
  · omega
  · have := (List.getElem?_eq_some_iff.1 h.2.1).1
    have := h.1
    omega

/-- A pass that is found assembles its id and leaves its bookmark (R122, R123). -/
theorem Pass.FoundFrom.walk {p : Params} {old : RomId} {ld : Nat} {x : Pass} (h : x.FoundFrom p old ld) :
    walkId ld 1 x.bits old = x.id ∧ walkZero ld 1 x.bits old 0 = x.zero := by
  have hid : walkId ld 1 x.bits old = x.id := by
    refine romId_ext fun k h1 h2 => ?_
    obtain ⟨bc, hbc⟩ : ∃ bc, x.bits[k - 1]? = some bc := ⟨_, List.getElem?_eq_getElem (by rw [h.length]; omega)⟩
    rw [walkId_direction h.length h1 hbc, h.bit k bc h1 hbc]
    rfl
  exact ⟨hid, (walk_lastZero h.length h.answered hid).1.unique h.zero⟩

/-- The registers after a pass that is found (R123). -/
def Regs.afterPass (r : Regs) (x : Pass) : Regs :=
  { r with
    issued := r.issued ++ x.ops
    spdValid := true
    spdOd := false
    romId := x.id
    lastDisc := BitVec.ofNat 7 x.zero
    lastDevice := decide (x.zero = 0) }

/-- The registers after such passes. -/
def Regs.afterPasses (r : Regs) (xs : List Pass) : Regs := xs.foldl Regs.afterPass r

/-- The sequencer after such passes, `rest` still to come. -/
def Eng.afterPasses (e : Eng) (xs : List Pass) (rest : List Move) : Eng :=
  { e with regs := e.regs.afterPasses xs, script := rest, got := e.got ++ xs.flatMap Pass.replies }

theorem Regs.afterPasses_concat (r : Regs) (xs : List Pass) (x : Pass) :
    r.afterPasses (xs ++ [x]) = (r.afterPasses xs).afterPass x := by
  simp [Regs.afterPasses, List.foldl_append]

/-- What the passes leave: the last one's id and bookmark, and the operations of all. -/
theorem Regs.afterPasses_eq (r : Regs) (xs : List Pass) {x : Pass} (h : xs.getLast? = some x) :
    r.afterPasses xs = { r with
      issued := r.issued ++ xs.flatMap Pass.ops
      spdValid := true
      spdOd := false
      romId := x.id
      lastDisc := BitVec.ofNat 7 x.zero
      lastDevice := decide (x.zero = 0) } := by
  induction xs using List.reverseRecOn generalizing x with
  | nil => cases h
  | append_singleton xs y ih =>
    rw [List.getLast?_concat] at h
    cases h
    rw [Regs.afterPasses_concat]
    cases hl : xs.getLast? with
    | none =>
      rw [List.getLast?_eq_none_iff] at hl
      subst hl
      simp [Regs.afterPasses, Regs.afterPass]
    | some z =>
      rw [ih hl]
      simp [Regs.afterPass, List.append_assoc]

/-- The last of passes that follow one another starts from what those before it leave (R126). -/
theorem FoundPasses.concat {p : Params} {r : Regs} {xs : List Pass} {x : Pass}
    (h : FoundPasses p r.romId r.lastDisc.toNat (xs ++ [x])) :
    FoundPasses p r.romId r.lastDisc.toNat xs ∧
      x.FoundFrom p (r.afterPasses xs).romId (r.afterPasses xs).lastDisc.toNat := by
  induction xs generalizing r with
  | nil => exact ⟨trivial, h.1⟩
  | cons y ys ih =>
    obtain ⟨h1, h2⟩ := h
    have hz : (r.afterPass y).lastDisc.toNat = y.zero := by
      have := h1.zero.le
      rw [h1.length] at this
      change (BitVec.ofNat 7 y.zero).toNat = _
      rw [BitVec.toNat_ofNat]
      omega
    have := ih (r := r.afterPass y) (by rw [hz]; exact h2)
    rw [hz] at this
    exact ⟨⟨h1, this.1⟩, this.2⟩

/-- The id and the bookmark that passes found from an empty id leave (R126, R127). -/
theorem Regs.afterPasses_left {p : Params} {r : Regs} {xs : List Pass} (hr : r.romId = 0#64) (hd : r.lastDisc = 0#7)
    (h : FoundPasses p r.romId r.lastDisc.toNat xs) :
    (r.afterPasses xs).romId = (xs.getLast?.map Pass.id).getD 0#64 ∧
      (r.afterPasses xs).lastDisc = BitVec.ofNat 7 ((xs.getLast?.map Pass.zero).getD 0) ∧
      (r.afterPasses xs).lastDisc.toNat = (xs.getLast?.map Pass.zero).getD 0 := by
  cases hl : xs.getLast? with
  | none =>
    rw [List.getLast?_eq_none_iff] at hl
    subst hl
    simp [Regs.afterPasses, hr, hd]
  | some x =>
    rw [Regs.afterPasses_eq r xs hl]
    refine ⟨rfl, rfl, ?_⟩
    obtain ⟨ys, rfl⟩ := List.getLast?_eq_some_iff.1 hl
    have h2 := h.concat.2
    have h3 := h2.zero.le
    rw [h2.length] at h3
    change (BitVec.ofNat 7 x.zero).toNat = x.zero
    rw [BitVec.toNat_ofNat]
    omega

/-- A pass that is found (R123). -/
theorem searchPass_found {e : Eng} {x : Pass} {rest : List Move} (hp : 1 ≤ e.params.pollLimit)
    (hx : x.FoundFrom e.params e.regs.romId e.regs.lastDisc.toNat) (hs : e.script = x.replies ++ rest) :
    ∃ l, searchPass e = .ok true ((e.afterPasses [x] rest).setLoc l) := by
  obtain ⟨hid, hz⟩ := hx.walk
  obtain ⟨l, -, hok, -⟩ := searchPass_ack hp hx.length hx.answered hx.start hid hs
  refine ⟨l, (hok hx.valid).trans ?_⟩
  rw [hz]
  simp [Eng.afterPasses, Regs.afterPasses, Regs.afterPass, Eng.found, Eng.adv, Eng.setId, Eng.setLoc, Eng.setSpd,
    Pass.ops, Pass.replies]

/-- `Enumerate`'s loop over passes that are found and leave a bookmark (R127). -/
theorem enumLoop_passes {e : Eng} {n : Nat} {ids : List RomId} {xs : List Pass} {rest : List Move}
    (hp : 1 ≤ e.params.pollLimit) (hx : FoundPasses e.params e.regs.romId e.regs.lastDisc.toNat xs)
    (hz : ∀ x ∈ xs, x.zero ≠ 0) (hn : xs.length ≤ n) (hs : e.script = xs.flatMap Pass.replies ++ rest) :
    ∃ l, enumLoop n ids e =
      enumLoop (n - xs.length) (ids ++ xs.map Pass.id) ((e.afterPasses xs rest).setLoc l) := by
  induction xs using List.reverseRecOn generalizing rest with
  | nil =>
    refine ⟨e.locals, ?_⟩
    have hs' : e.script = rest := hs
    subst hs'
    simp [Eng.afterPasses, Regs.afterPasses, Eng.setLoc]
  | append_singleton xs x ih =>
    obtain ⟨h1, h2⟩ := hx.concat
    rw [List.length_append, List.length_singleton] at hn
    obtain ⟨l, hl⟩ := ih (rest := x.replies ++ rest) h1 (fun y hy => hz y (by simp [hy])) (by omega) (by simp [hs])
    obtain ⟨l', hl'⟩ := searchPass_found (e := (e.afterPasses xs (x.replies ++ rest)).setLoc l) hp h2 rfl
    refine ⟨l', hl.trans ?_⟩
    obtain ⟨k, hk⟩ : ∃ k, n - xs.length = k + 1 := ⟨n - xs.length - 1, by omega⟩
    rw [hk, enumLoop, Prog.bind_ok hl', if_pos rfl, Prog.ask_bind, if_neg (by
      change ¬decide (x.zero = 0) = true
      simpa using hz x (by simp))]
    rw [show n - (xs ++ [x]).length = k by rw [List.length_append, List.length_singleton]; omega]
    simp [Eng.afterPasses, Regs.afterPasses, Eng.setLoc, Regs.afterPass]

/-- `Enumerate`'s loop ends after the pass that leaves no bookmark (R127). -/
theorem enumLoop_last {e : Eng} {n : Nat} {ids : List RomId} {x : Pass} {rest : List Move}
    (hp : 1 ≤ e.params.pollLimit) (hx : x.FoundFrom e.params e.regs.romId e.regs.lastDisc.toNat) (hz : x.zero = 0)
    (hs : e.script = x.replies ++ rest) :
    ∃ l, enumLoop (n + 1) ids e = .ok (ids ++ [x.id], false) ((e.afterPasses [x] rest).setLoc l) := by
  obtain ⟨l, hl⟩ := searchPass_found hp hx hs
  refine ⟨l, ?_⟩
  rw [enumLoop, Prog.bind_ok hl, if_pos rfl, Prog.ask_bind, if_pos (by exact decide_eq_true hz)]
  rfl

/-- `Enumerate`'s loop ends at a pass that fails, with the ids found before it (R127). -/
theorem enumLoop_failed {e : Eng} {n : Nat} {ids : List RomId} {ms rest : List Move} {ops : List LinkOp} {id : RomId}
    (hp : 1 ≤ e.params.pollLimit) (h : FailedPass e.params e.regs.romId e.regs.lastDisc.toNat ms ops id)
    (hs : e.script = ms ++ rest) :
    ∃ l, enumLoop (n + 1) ids e =
      .ok (ids, false) ((((e.setSpd false).setLoc l).setId id).adv ops ms rest).notFound := by
  obtain ⟨l, hl⟩ := searchPass_failed hp h hs
  refine ⟨l, ?_⟩
  rw [enumLoop, Prog.bind_ok hl]
  rfl

end Sys2Proof.Machine
end

