-- ==== Sys2Proof/Laws/Steady.lean ====
section
/-! SUPPORT. What more answers do to a piece of pseudocode. `Steady`: one that has ended ends the same way whatever
answers follow, and one that waits where PassTimeout is not allowed goes on waiting there. `Timed`: one that waits inside a background pass is ended by PassTimeout there (R97). `Open`: one that
waits raises the condition its position allows (`Breaks`) as soon as the answers that bring it about arrive, with
nothing else done. -/

-- One proof at a time: many at once need a thread each, and the package as one text has 22 GiB for them all.
set_option Elab.async false

namespace Sys2Proof.Machine

/-- `e` with more moves to come after those it has. -/
def Eng.more (e : Eng) (extra : List Move) : Eng := { e with script := e.script ++ extra }

@[simp] theorem Eng.more_script (e : Eng) (extra) : (e.more extra).script = e.script ++ extra := rfl
@[simp] theorem Eng.more_params (e : Eng) (extra) : (e.more extra).params = e.params := rfl
@[simp] theorem Eng.more_regs (e : Eng) (extra) : (e.more extra).regs = e.regs := rfl
@[simp] theorem Eng.more_locals (e : Eng) (extra) : (e.more extra).locals = e.locals := rfl
theorem Eng.more_more (e : Eng) (a b : List Move) : (e.more a).more b = e.more (a ++ b) := by
  simp [Eng.more, List.append_assoc]

/-- What a run leaves alone: the parameters, the event flags noted, whether PassTimeout is allowed, a phase of the set
`P`; `ATT` does not fall, nor exceed its bound (R20, R150), and no link operation is taken back. -/
structure Eng.Kept (P : Phase → Prop) (e e' : Eng) : Prop where
  params : e'.params = e.params
  raised : e'.raised = e.raised
  timed : e'.timed = e.timed
  phase : P e.locals.phase → P e'.locals.phase
  grows : e.regs.issued.length ≤ e'.regs.issued.length
  att : e.params.retryAttempts ≤ 15 → e.regs.att.toNat ≤ e.params.retryAttempts →
    e.regs.att.toNat ≤ e'.regs.att.toNat ∧ e'.regs.att.toNat ≤ e.params.retryAttempts

/-- A change that leaves all of it alone. -/
theorem Eng.Kept.of {P : Phase → Prop} {e e' : Eng} (h1 : e'.params = e.params) (h2 : e'.raised = e.raised)
    (h3 : P e.locals.phase → P e'.locals.phase) (h4 : e'.regs.att = e.regs.att)
    (h5 : e'.timed = e.timed := by rfl) (h6 : e.regs.issued.length ≤ e'.regs.issued.length := by exact Nat.le_refl _) :
    e.Kept P e' :=
  ⟨h1, h2, h5, h3, h6, fun _ h => by rw [h4]; exact ⟨Nat.le_refl _, h⟩⟩

theorem Eng.Kept.refl {P : Phase → Prop} (e : Eng) : e.Kept P e := .of rfl rfl id rfl

theorem Eng.Kept.trans {P : Phase → Prop} {a b c : Eng} (h1 : a.Kept P b) (h2 : b.Kept P c) : a.Kept P c :=
  ⟨h2.params.trans h1.params, h2.raised.trans h1.raised, h2.timed.trans h1.timed, fun h => h2.phase (h1.phase h),
    h1.grows.trans h2.grows, fun h3 h4 => by
    obtain ⟨h5, h6⟩ := h1.att h3 h4
    have h7 := h2.att (by rw [h1.params]; exact h3) (by rw [h1.params]; exact h6)
    rw [h1.params] at h7
    exact ⟨h5.trans h7.1, h7.2⟩⟩

/-- The run has ended, or waits, with this engine and this outcome. -/
def Res.engine? {α : Type} : Res α → Option Eng
  | .ok _ e => some e
  | .raise _ e => some e
  | .wait _ e => some e
  | .fault _ => none

/-- A run that has ended ends the same way whatever moves follow; where it waits and PassTimeout is not allowed, PassTimeout
leaves it as it was (R97). -/
structure Steady {α : Type} (x : Prog α) : Prop where
  ok : ∀ {e e' a} (extra : List Move), x e = .ok a e' → x (e.more extra) = .ok a (e'.more extra)
  raise : ∀ {e e' c} (extra : List Move), x e = .raise c e' → x (e.more extra) = .raise c (e'.more extra)
  fault : ∀ {e f} (extra : List Move), x e = .fault f → x (e.more extra) = .fault f
  untimed : ∀ {e e'}, e.timed = false → (x e).engine? = some e' → e'.timed = false
  deaf : ∀ {e op e'}, e.timed = false → x e = .wait op e' → e'.script = [] →
    x (e.more [.passTimeout]) = .wait op e'

/-- Also: where it waits inside a pass, PassTimeout ends it (R97). -/
structure Timed {α : Type} (x : Prog α) : Prop extends Steady x where
  timeout : ∀ {e op e'} (extra : List Move), x e = .wait op e' → e'.script = [] → e'.timed = true → e'.got ≠ [] →
    ∃ rc, x (e.more (.passTimeout :: extra)) = .raise .passTimeout { e'.adv [] [.passTimeout] extra with received := rc }

/-- The engine in which the condition that `fm` brings about is raised. -/
def Eng.broken (e : Eng) (cleared : Bool) (fops : List LinkOp) (fm extra : List Move) (rc : Memory) : Eng :=
  { (e.clearSpd cleared).adv fops fm extra with received := rc }

/-- A run of `x` from `e` that waits comes to the conditions its position allows; the link operation before is looked
for among those after the first `n`. -/
def BreaksFrom {α : Type} (n : Nat) (x : Prog α) (e : Eng) : Prop :=
  ∀ ⦃op e' c cl fm fops⦄ (extra : List Move), x e = .wait op e' → e'.script = [] →
    Breaks e'.params (e'.regs.issued.drop n).getLast? op c cl fm fops →
    ∃ rc, x (e.more (fm ++ extra)) = .raise c (e'.broken cl fops fm extra rc)

/-- A run that waits comes to the conditions its position allows. -/
def Breakable {α : Type} (x : Prog α) : Prop := ∀ n e, n ≤ e.regs.issued.length → BreaksFrom n x e

/-- A run leaves alone what `Eng.Kept` says, however it ends. -/
def Keeps {α : Type} (P : Phase → Prop) (x : Prog α) : Prop := ∀ e e', (x e).engine? = some e' → e.Kept P e'

/-- A piece of pseudocode with no error handling of its own. -/
structure Open {α : Type} (P : Phase → Prop) (x : Prog α) : Prop extends Timed x where
  breaks : Breakable x
  keeps : Keeps P x

variable {α β : Type} {P : Phase → Prop}

/-! ## Combinators -/

theorem Steady.bind {x : Prog α} {f : α → Prog β} (hx : Steady x) (hf : ∀ a, Steady (f a)) : Steady (x.bind f) where
  ok {e e' b} extra h := by
    cases hr : x e with
    | ok a e1 =>
      rw [Prog.bind_ok hr] at h
      rw [Prog.bind_ok (hx.ok extra hr)]
      exact (hf a).ok extra h
    | raise c e1 => rw [Prog.bind_raise hr] at h; cases h
    | wait op e1 => rw [Prog.bind_wait hr] at h; cases h
    | fault r => rw [Prog.bind_fault hr] at h; cases h
  raise {e e' c} extra h := by
    cases hr : x e with
    | ok a e1 =>
      rw [Prog.bind_ok hr] at h
      rw [Prog.bind_ok (hx.ok extra hr)]
      exact (hf a).raise extra h
    | raise c e1 =>
      rw [Prog.bind_raise hr] at h
      cases h
      exact Prog.bind_raise (hx.raise extra hr)
    | wait op e1 => rw [Prog.bind_wait hr] at h; cases h
    | fault r => rw [Prog.bind_fault hr] at h; cases h
  fault {e r} extra h := by
    cases hr : x e with
    | ok a e1 =>
      rw [Prog.bind_ok hr] at h
      rw [Prog.bind_ok (hx.ok extra hr)]
      exact (hf a).fault extra h
    | raise c e1 => rw [Prog.bind_raise hr] at h; cases h
    | wait op e1 => rw [Prog.bind_wait hr] at h; cases h
    | fault r' =>
      rw [Prog.bind_fault hr] at h
      cases h
      exact Prog.bind_fault (hx.fault extra hr)
  untimed {e e'} ht h := by
    cases hr : x e with
    | ok a e1 =>
      rw [Prog.bind_ok hr] at h
      exact (hf a).untimed (hx.untimed ht (by rw [hr]; rfl)) h
    | raise c e1 =>
      rw [Prog.bind_raise hr] at h
      exact hx.untimed ht (by rw [hr]; exact h)
    | wait op e1 =>
      rw [Prog.bind_wait hr] at h
      exact hx.untimed ht (by rw [hr]; exact h)
    | fault r => rw [Prog.bind_fault hr] at h; cases h
  deaf {e op e'} ht h hs := by
    cases hr : x e with
    | ok a e1 =>
      rw [Prog.bind_ok hr] at h
      rw [Prog.bind_ok (hx.ok _ hr)]
      exact (hf a).deaf (hx.untimed ht (by rw [hr]; rfl)) h hs
    | raise c e1 => rw [Prog.bind_raise hr] at h; cases h
    | wait op1 e1 =>
      rw [Prog.bind_wait hr] at h
      cases h
      exact Prog.bind_wait (hx.deaf ht hr hs)
    | fault r => rw [Prog.bind_fault hr] at h; cases h

theorem Timed.bind {x : Prog α} {f : α → Prog β} (hx : Timed x) (hf : ∀ a, Timed (f a)) : Timed (x.bind f) where
  toSteady := hx.toSteady.bind fun a => (hf a).toSteady
  timeout {e op e'} extra h hs ht hg := by
    cases hr : x e with
    | ok a e1 =>
      rw [Prog.bind_ok hr] at h
      rw [Prog.bind_ok (hx.ok _ hr)]
      exact (hf a).timeout extra h hs ht hg
    | raise c e1 => rw [Prog.bind_raise hr] at h; cases h
    | wait op e1 =>
      rw [Prog.bind_wait hr] at h
      cases h
      obtain ⟨rc, hrc⟩ := hx.timeout extra hr hs ht hg
      exact ⟨rc, Prog.bind_raise hrc⟩
    | fault r => rw [Prog.bind_fault hr] at h; cases h

theorem Keeps.bind {x : Prog α} {f : α → Prog β} (hx : Keeps P x) (hf : ∀ a, Keeps P (f a)) : Keeps P (x.bind f) := by
  intro e e' h
  cases hr : x e with
  | ok a e1 =>
    rw [Prog.bind_ok hr] at h
    exact (hx e e1 (by rw [hr]; rfl)).trans (hf a e1 e' h)
  | raise c e1 =>
    rw [Prog.bind_raise hr] at h
    exact hx e e' (by rw [hr]; exact h)
  | wait op e1 =>
    rw [Prog.bind_wait hr] at h
    exact hx e e' (by rw [hr]; exact h)
  | fault r =>
    rw [Prog.bind_fault hr] at h
    cases h

theorem BreaksFrom.bind {n : Nat} {e : Eng} {x : Prog α} {f : α → Prog β} (hs : Steady x) (hx : BreaksFrom n x e)
    (hf : ∀ a e1, x e = .ok a e1 → BreaksFrom n (f a) e1) : BreaksFrom n (x.bind f) e := by
  intro op e' c cl fm fops extra h hw hb
  cases hr : x e with
  | ok a e1 =>
    rw [Prog.bind_ok hr] at h
    rw [Prog.bind_ok (hs.ok _ hr)]
    exact hf a e1 hr extra h hw hb
  | raise c e1 => rw [Prog.bind_raise hr] at h; cases h
  | wait op e1 =>
    rw [Prog.bind_wait hr] at h
    cases h
    obtain ⟨rc, hrc⟩ := hx extra hr hw hb
    exact ⟨rc, Prog.bind_raise hrc⟩
  | fault r => rw [Prog.bind_fault hr] at h; cases h

theorem Breakable.bind {x : Prog α} {f : α → Prog β} (hs : Steady x) (hk : Keeps (fun _ => True) x) (hx : Breakable x)
    (hf : ∀ a, Breakable (f a)) : Breakable (x.bind f) := fun n e hn =>
  BreaksFrom.bind hs (hx n e hn) fun a e1 h => hf a n e1 (hn.trans (hk e e1 (by rw [h]; rfl)).grows)

theorem Keeps.any {x : Prog α} (h : Keeps P x) : Keeps (fun _ => True) x := fun e e' he =>
  { h e e' he with phase := fun _ => trivial }

theorem Open.bind {x : Prog α} {f : α → Prog β} (hx : Open P x) (hf : ∀ a, Open P (f a)) : Open P (x.bind f) where
  toTimed := hx.toTimed.bind fun a => (hf a).toTimed
  breaks := Breakable.bind hx.toSteady hx.keeps.any hx.breaks fun a => (hf a).breaks
  keeps := hx.keeps.bind fun a => (hf a).keeps

theorem Open.andThen {x : Prog Unit} {y : Prog β} (hx : Open P x) (hy : Open P y) : Open P (x.andThen y) :=
  hx.bind fun _ => hy

/-- A handler that ends the same way whatever follows. -/
theorem Steady.catch {x : Prog α} {h : Cond → Prog α} (hx : Steady x) (hh : ∀ c, Steady (h c)) :
    Steady (x.catch h) where
  ok {e e' b} extra hr := by
    unfold Prog.catch at hr ⊢
    cases hxe : x e with
    | ok a e1 =>
      rw [hxe] at hr
      cases hr
      rw [hx.ok extra hxe]
    | raise c e1 =>
      rw [hxe] at hr
      rw [hx.raise extra hxe]
      exact (hh c).ok extra hr
    | wait op e1 => rw [hxe] at hr; cases hr
    | fault r => rw [hxe] at hr; cases hr
  raise {e e' c} extra hr := by
    unfold Prog.catch at hr ⊢
    cases hxe : x e with
    | ok a e1 => rw [hxe] at hr; cases hr
    | raise c' e1 =>
      rw [hxe] at hr
      rw [hx.raise extra hxe]
      exact (hh c').raise extra hr
    | wait op e1 => rw [hxe] at hr; cases hr
    | fault r => rw [hxe] at hr; cases hr
  fault {e f} extra hr := by
    unfold Prog.catch at hr ⊢
    cases hxe : x e with
    | ok a e1 => rw [hxe] at hr; cases hr
    | raise c' e1 =>
      rw [hxe] at hr
      rw [hx.raise extra hxe]
      exact (hh c').fault extra hr
    | wait op e1 => rw [hxe] at hr; cases hr
    | fault r =>
      rw [hxe] at hr
      cases hr
      rw [hx.fault extra hxe]
  untimed {e e'} ht hr := by
    unfold Prog.catch at hr
    cases hxe : x e with
    | ok a e1 =>
      rw [hxe] at hr
      exact hx.untimed ht (by rw [hxe]; exact hr)
    | raise c' e1 =>
      rw [hxe] at hr
      exact (hh c').untimed (hx.untimed ht (by rw [hxe]; rfl)) hr
    | wait op1 e1 =>
      rw [hxe] at hr
      exact hx.untimed ht (by rw [hxe]; exact hr)
    | fault r => rw [hxe] at hr; cases hr
  deaf {e op e'} ht hr hs := by
    unfold Prog.catch at hr ⊢
    cases hxe : x e with
    | ok a e1 => rw [hxe] at hr; cases hr
    | raise c' e1 =>
      rw [hxe] at hr
      rw [hx.raise _ hxe]
      exact (hh c').deaf (hx.untimed ht (by rw [hxe]; rfl)) hr hs
    | wait op1 e1 =>
      rw [hxe] at hr
      cases hr
      rw [hx.deaf ht hxe hs]
    | fault r => rw [hxe] at hr; cases hr

/-- A piece that never waits, and whose end does not look at the moves. -/
theorem Open.instant {x : Prog α}
    (h : ∀ e : Eng, (∃ (a : α) (e' : Eng), (∀ extra, x (e.more extra) = .ok a (e'.more extra)) ∧ e.Kept P e') ∨
      (∃ (c : Cond) (e' : Eng), (∀ extra, x (e.more extra) = .raise c (e'.more extra)) ∧ e.Kept P e') ∨
      ∃ f : Fault, ∀ extra, x (e.more extra) = .fault f) : Open P x := by
  have h0 : ∀ e : Eng, e.more [] = e := fun e => by simp [Eng.more]
  have key : ∀ e : Eng, (∃ (a : α) (e' : Eng), x e = .ok a e' ∧ (∀ extra, x (e.more extra) = .ok a (e'.more extra)) ∧ e.Kept P e') ∨
      (∃ (c : Cond) (e' : Eng), x e = .raise c e' ∧ (∀ extra, x (e.more extra) = .raise c (e'.more extra)) ∧ e.Kept P e') ∨
      ∃ f : Fault, x e = .fault f ∧ ∀ extra, x (e.more extra) = .fault f := by
    intro e
    rcases h e with ⟨a, e', h1, h2⟩ | ⟨a, e', h1, h2⟩ | ⟨f, h1⟩
    · exact .inl ⟨a, e', by simpa only [h0] using h1 [], h1, h2⟩
    · exact .inr (.inl ⟨a, e', by simpa only [h0] using h1 [], h1, h2⟩)
    · exact .inr (.inr ⟨f, by simpa only [h0] using h1 [], h1⟩)
  refine { ok := ?_, raise := ?_, fault := ?_, untimed := ?_, deaf := ?_, timeout := ?_, breaks := ?_, keeps := ?_ }
  · intro e e' a extra hx
    rcases key e with ⟨a, e1, h1, h2, -⟩ | ⟨c, e1, h1, h2, -⟩ | ⟨f, h1, h2⟩ <;> rw [h1] at hx <;> cases hx
    exact h2 extra
  · intro e e' a extra hx
    rcases key e with ⟨a, e1, h1, h2, -⟩ | ⟨c, e1, h1, h2, -⟩ | ⟨f, h1, h2⟩ <;> rw [h1] at hx <;> cases hx
    exact h2 extra
  · intro e f extra hx
    rcases key e with ⟨a, e1, h1, h2, -⟩ | ⟨c, e1, h1, h2, -⟩ | ⟨f, h1, h2⟩ <;> rw [h1] at hx <;> cases hx
    exact h2 extra
  · intro e e' ht hx
    rcases key e with ⟨a, e1, h1, h2, hk⟩ | ⟨c, e1, h1, h2, hk⟩ | ⟨f, h1, h2⟩ <;> rw [h1] at hx <;> cases hx <;>
      exact hk.timed.trans ht
  · intro e op e' ht hx
    rcases key e with ⟨a, e1, h1, h2, -⟩ | ⟨c, e1, h1, h2, -⟩ | ⟨f, h1, h2⟩ <;> rw [h1] at hx <;> cases hx
  · intro e op e' extra hx
    rcases key e with ⟨a, e1, h1, h2, -⟩ | ⟨c, e1, h1, h2, -⟩ | ⟨f, h1, h2⟩ <;> rw [h1] at hx <;> cases hx
  · intro n e hn op e' c cl fm fops extra hx
    rcases key e with ⟨a, e1, h1, h2, -⟩ | ⟨c, e1, h1, h2, -⟩ | ⟨f, h1, h2⟩ <;> rw [h1] at hx <;> cases hx
  · intro e e' hx
    rcases key e with ⟨a, e1, h1, h2, hk⟩ | ⟨c, e1, h1, h2, hk⟩ | ⟨f, h1, h2⟩ <;> rw [h1] at hx <;> cases hx <;>
      exact hk

theorem Open.ret (a : α) : Open P (Prog.ret a) := .instant fun e => .inl ⟨a, e, fun _ => rfl, .refl e⟩

theorem Open.throw (c : Cond) : Open P (Prog.raise c : Prog α) :=
  .instant fun e => .inr (.inl ⟨c, e, fun _ => rfl, .refl e⟩)

/-- A look at the state that does not look at the moves. -/
theorem Open.ask {f : Eng → α} (h : ∀ e extra, f (e.more extra) = f e := by intros; rfl) : Open P (Prog.ask f) :=
  .instant fun e => .inl ⟨f e, e, fun extra => by rw [Prog.ask_run, h], .refl e⟩

theorem Open.setRegs (f : Regs → Regs) (h : ∀ r, (f r).att = r.att := by intro r; rfl)
    (h' : ∀ r, (f r).issued = r.issued := by intro r; rfl) : Open P (Prog.setRegs f) :=
  .instant fun e => .inl ⟨(), { e with regs := f e.regs }, fun _ => rfl, .of rfl rfl id (h e.regs) rfl
    (Nat.le_of_eq (congrArg List.length (h' e.regs).symm))⟩

theorem Open.setLocals (f : Locals → Locals) (h : ∀ l, (f l).phase = l.phase := by intro l; rfl) : Open P (Prog.setLocals f) :=
  .instant fun e => .inl ⟨(), e.setLoc (f e.locals), fun _ => rfl, .of rfl rfl
    (fun hp => by rw [Eng.setLoc_locals, h]; exact hp) rfl⟩

theorem Open.setPhase {ph : Phase} (h : P ph) : Open P (setPhase ph) :=
  .instant fun e => .inl ⟨(), e.setLoc (e.locals.withPhase ph), fun _ => rfl, .of rfl rfl (fun _ => h) rfl⟩

theorem Open.loadBytes (a n : Nat) : Open P (loadBytes a n) := by
  refine .instant fun e => ?_
  unfold Machine.loadBytes
  simp only [Eng.more_regs]
  cases e.regs.mem.readBytes a n with
  | ok bs => exact .inl ⟨bs, e, fun _ => rfl, .refl e⟩
  | error x => exact .inr (.inr ⟨_, fun _ => rfl⟩)

theorem Open.storeBytes (a : Nat) (bs : List Byte) : Open P (storeBytes a bs) := .setRegs _

theorem Open.ite {p : Prop} [Decidable p] {x y : Prog α} (hx : Open P x) (hy : Open P y) :
    Open P (if p then x else y) := by
  split
  · exact hx
  · exact hy

/-! ## The link -/

/-- `Link` looks at no moves but the script it is given. -/
theorem linkFrom_script (op : LinkOp) (ms : List Move) (e : Eng) (sc : List Move) :
    linkFrom op ms { e with script := sc } = linkFrom op ms e := by
  induction ms with
  | nil => rfl
  | cons m rest ih =>
    cases m with
    | passTimeout =>
      change (if (e.timed && !e.got.isEmpty) = true then _ else _) =
        (if (e.timed && !e.got.isEmpty) = true then _ else _)
      rw [ih]
    | _ => rfl

/-- Moves after those `Link` was given: an answer and a PassTimeout leave them alone, an operation that waits with
none left goes on with them. -/
theorem linkFrom_append (op : LinkOp) (ms extra : List Move) (e : Eng) :
    match linkFrom op ms e with
    | .ok r e' => linkFrom op (ms ++ extra) e = .ok r (e'.more extra)
    | .raise c e' => linkFrom op (ms ++ extra) e = .raise c (e'.more extra)
    | .wait op' e' => op' = op ∧ e' = { e with script := e'.script } ∧
        (e'.script = [] → linkFrom op (ms ++ extra) e = linkFrom op extra e)
    | .fault _ => False := by
  induction ms with
  | nil => exact ⟨rfl, rfl, fun _ => rfl⟩
  | cons m rest ih =>
    cases m with
    | passTimeout =>
      by_cases h : (e.timed && !e.got.isEmpty) = true
      · have h1 : ∀ l, linkFrom op (.passTimeout :: l) e =
            .raise .passTimeout { e with script := l, got := e.got ++ [.passTimeout] } := fun l => by
          change (if (e.timed && !e.got.isEmpty) = true then _ else _) = _
          rw [if_pos h]
        rw [h1, List.cons_append, h1]
        rfl
      · have h1 : ∀ l, linkFrom op (.passTimeout :: l) e = linkFrom op l e := fun l => by
          change (if (e.timed && !e.got.isEmpty) = true then _ else _) = _
          rw [if_neg h]
        rw [h1, List.cons_append, h1]
        exact ih
    | reply r => rfl
    | read a n => exact ⟨rfl, rfl, fun h => by cases h⟩
    | write a n v => exact ⟨rfl, rfl, fun h => by cases h⟩
    | accept => exact ⟨rfl, rfl, fun h => by cases h⟩
    | tick => exact ⟨rfl, rfl, fun h => by cases h⟩
    | hardwareReset => exact ⟨rfl, rfl, fun h => by cases h⟩

/-- An operation that waits with no move left is answered by what comes next. -/
theorem link_more {op op' : LinkOp} {e e' : Eng} (h : link op e = .wait op' e') (hs : e'.script = []) :
    op' = op ∧ e' = { e with script := [] } ∧
      ∀ extra, link op (e.more extra) = link op { e' with script := extra } := by
  have h1 : ∀ extra, _ := fun extra => linkFrom_append op e.script extra e
  unfold link at h ⊢
  rw [h] at h1
  obtain ⟨rfl, h2, -⟩ := h1 []
  rw [hs] at h2
  refine ⟨rfl, h2, fun extra => ?_⟩
  rw [h2]
  change linkFrom op' (e.script ++ extra) { e with script := e.script ++ extra } =
    linkFrom op' extra { e with script := extra }
  rw [linkFrom_script, linkFrom_script op' extra, (h1 extra).2.2 hs]

theorem Timed.link (op : LinkOp) : Timed (link op) where
  ok {e e' a} extra h := by
    have h1 := linkFrom_append op e.script extra e
    unfold Machine.link at h ⊢
    rw [h] at h1
    change linkFrom op (e.script ++ extra) { e with script := e.script ++ extra } = _
    rw [linkFrom_script, h1]
  raise {e e' c} extra h := by
    have h1 := linkFrom_append op e.script extra e
    unfold Machine.link at h ⊢
    rw [h] at h1
    change linkFrom op (e.script ++ extra) { e with script := e.script ++ extra } = _
    rw [linkFrom_script, h1]
  fault {e f} extra h := by
    have h1 := linkFrom_append op e.script extra e
    unfold Machine.link at h
    rw [h] at h1
    exact h1.elim
  untimed {e e'} ht h := by
    rcases link_cases op e with ⟨r, sc, g, h1⟩ | ⟨sc, g, -, h1⟩ | ⟨sc, h1, -⟩ <;> rw [h1] at h <;> cases h <;> exact ht
  deaf {e op' e'} ht h hs := by
    obtain ⟨rfl, h1, h2⟩ := link_more h hs
    have ht' : e'.timed = false := by rw [h1]; exact ht
    rw [h2]
    unfold Machine.link
    change (if (e'.timed && !e'.got.isEmpty) = true then _ else _) = _
    rw [if_neg (by simp [ht'])]
    change Res.wait op' { e' with script := [] } = _
    rw [← hs]
  timeout {e op' e'} extra h hs ht hg := by
    obtain ⟨rfl, h1, h2⟩ := link_more h hs
    refine ⟨e'.received, ?_⟩
    rw [h2]
    unfold Machine.link
    change (if (e'.timed && !e'.got.isEmpty) = true then _ else _) = _
    rw [if_pos (by rw [ht]; cases hg' : e'.got with | nil => exact absurd hg' hg | cons a l => rfl)]
    simp [Eng.adv]

theorem Keeps.link (op : LinkOp) : Keeps P (link op) := by
  intro e e' h
  rcases link_cases op e with ⟨r, sc, g, h1⟩ | ⟨sc, g, -, h1⟩ | ⟨sc, h1, -⟩ <;> rw [h1] at h <;> cases h <;>
    exact .of rfl rfl id rfl rfl (by simp)

/-- `xfer` waits where its link operation does. -/
theorem xfer_waits {op op' : LinkOp} {e e' : Eng} (h : xfer op e = .wait op' e') : link op e = .wait op' e' := by
  unfold xfer at h
  cases hl : link op e with
  | ok r e1 =>
    rw [Prog.bind_ok hl] at h
    cases r <;> cases h
  | raise c e1 => rw [Prog.bind_raise hl] at h; cases h
  | wait op1 e1 => rw [Prog.bind_wait hl] at h; cases h; rfl
  | fault f => rw [Prog.bind_fault hl] at h; cases h

/-- An operation that waited with no move left is answered by what comes next. -/
theorem xfer_more {op op' : LinkOp} {e e' : Eng} (h : xfer op e = .wait op' e') (hs : e'.script = []) :
    op' = op ∧ e'.regs = e.regs ∧ ∀ extra, xfer op (e.more extra) = xfer op { e' with script := extra } := by
  obtain ⟨rfl, h1, h2⟩ := link_more (xfer_waits h) hs
  refine ⟨rfl, by rw [h1], fun extra => ?_⟩
  unfold xfer Prog.bind
  rw [h2]

theorem Timed.xfer (op : LinkOp) : Timed (xfer op) := (Timed.link op).bind fun a => by
  cases a with
  | ok d b => exact (Open.ret (P := fun _ => True) _).toTimed
  | fail => exact (Open.throw (P := fun _ => True) _).toTimed
  | timeout => exact (Open.throw (P := fun _ => True) _).toTimed

theorem Keeps.xfer (op : LinkOp) : Keeps P (xfer op) := (Keeps.link op).bind fun a => by
  cases a with
  | ok d b => exact (Open.ret (P := P) _).keeps
  | fail => exact (Open.throw (P := P) _).keeps
  | timeout => exact (Open.throw (P := P) _).keeps

theorem Eng.broken_false (e : Eng) (fops : List LinkOp) (fm extra : List Move) :
    e.broken false fops fm extra e.received = e.adv fops fm extra := by
  simp [Eng.broken, Eng.adv, Eng.clearSpd]

/-- `xfer` raises on a failed answer where it waited; where no byte may be missing there, nothing else breaks it. -/
theorem xfer_breaks {n : Nat} {op : LinkOp} {e : Eng} (hop : op ≠ .ctl .reset)
    (hin : ∀ m, op = .bulkIn m → (e.regs.issued.drop n).getLast? ≠ some (.ctl .rbit) ∧
      ∀ k, (e.regs.issued.drop n).getLast? ≠ some (.bulkIn k)) : BreaksFrom n (xfer op) e := by
  intro op' e' c cl fm fops extra h hs hb
  obtain ⟨rfl, h1, h2⟩ := xfer_more h hs
  refine ⟨e'.received, ?_⟩
  cases hb with
  | transfer r _ _ _ _ hr =>
    rw [h2, Eng.broken_false]
    exact xfer_failed (e := { e' with script := .reply r :: extra }) hr rfl
  | empty m b hm hp =>
    rw [h1] at hp
    rcases hp with hp | ⟨k, hp⟩
    · exact absurd hp (hin m hm).1
    · exact absurd hp ((hin m hm).2 k)
  | noReset r hm hops h => exact absurd h hop
  | busy a h => exact absurd h hop
  | busyAfterHardReset r hm hops h => exact absurd h hop

theorem Open.xfer {op : LinkOp} (hop : op ≠ .ctl .reset) (hin : ∀ m, op ≠ .bulkIn m) : Open P (xfer op) where
  toTimed := .xfer op
  keeps := .xfer op
  breaks _ _ _ := xfer_breaks hop fun m h => absurd h (hin m)

theorem Open.send {op : LinkOp} (hop : op ≠ .ctl .reset := by simp) (hin : ∀ m, op ≠ .bulkIn m := by simp) :
    Open P (send op) := (Open.xfer hop hin).bind fun _ => .ret _

/-- A `send` that returns has issued its operation. -/
theorem send_issues {op : LinkOp} {u : Unit} {e e' : Eng} (h : send op e = .ok u e') :
    e'.regs.issued = e.regs.issued ++ [op] := by
  unfold Machine.send Machine.xfer at h
  rcases link_cases op e with ⟨r, sc, g, h1⟩ | ⟨sc, g, -, h1⟩ | ⟨sc, h1, -⟩
  · rw [Prog.bind_assoc, Prog.bind_ok h1] at h
    cases r with
    | ok d b => cases h; rfl
    | fail => cases h
    | timeout => cases h
  · rw [Prog.bind_assoc, Prog.bind_raise h1] at h
    cases h
  · rw [Prog.bind_assoc, Prog.bind_wait h1] at h
    cases h

/-! ## Line primitives -/

theorem Open.pollLoop (n : Nat) : Open P (pollLoop n) := by
  induction n with
  | zero => exact .throw _
  | succ n ih => exact (Open.xfer (by simp) (by simp)).bind fun r => .ite ih (.ret _)

theorem Open.bufferClear : Open P bufferClear := Open.bind .ask fun n => .pollLoop n

theorem Timed.hardResetLoop (n : Nat) : Timed (hardResetLoop n) := by
  induction n with
  | zero => exact (Open.ret (P := fun _ => True) _).toTimed
  | succ n ih =>
    refine (Timed.link _).bind fun a => ?_
    cases a with
    | ok d b => exact ((Open.setRegs (P := fun _ => True) _).andThen (.ret _)).toTimed
    | fail => exact (Open.ret (P := fun _ => True) _).toTimed
    | timeout => exact ih

theorem Keeps.hardResetLoop (n : Nat) : Keeps P (hardResetLoop n) := by
  induction n with
  | zero => exact (Open.ret _).keeps
  | succ n ih =>
    refine (Keeps.link _).bind fun a => ?_
    cases a with
    | ok d b => exact ((Open.setRegs _).andThen (.ret _)).keeps
    | fail => exact (Open.ret _).keeps
    | timeout => exact ih

/-- The bounded hard reset waits at a hard reset only. -/
theorem hardResetLoop_waits {n : Nat} {e e' : Eng} {op : LinkOp} (h : hardResetLoop n e = .wait op e') :
    op = .hardReset := by
  induction n generalizing e with
  | zero => cases h
  | succ n ih =>
    rw [hardResetLoop] at h
    rcases link_cases .hardReset e with ⟨r, sc, g, h1⟩ | ⟨sc, g, -, h1⟩ | ⟨sc, h1, -⟩
    · rw [Prog.bind_ok h1] at h
      cases r with
      | ok d b => cases h
      | fail => cases h
      | timeout => exact ih h
    · rw [Prog.bind_raise h1] at h
      cases h
    · rw [Prog.bind_wait h1] at h
      cases h
      rfl

/-- No condition can be brought about at a hard reset: the bounded hard reset has an answer to every answer (R103). -/
theorem Breaks.not_hardReset {p : Params} {prev : Option LinkOp} {c : Cond} {cl : Bool} {fm : List Move}
    {fops : List LinkOp} (h : Breaks p prev .hardReset c cl fm fops) : False := by
  cases h with
  | transfer r _ h => exact h rfl
  | empty n b h => cases h
  | noReset r hm hops h => cases h
  | busy a h => cases h
  | busyAfterHardReset r hm hops h => cases h

theorem Breaks.cond {p : Params} {prev : Option LinkOp} {op : LinkOp} {c : Cond} {cl : Bool} {fm : List Move}
    {fops : List LinkOp} (h : Breaks p prev op c cl fm fops) : c = .transportError ∨ c = .busBusy := by
  cases h <;> simp

theorem Open.hardResetBounded : Open P hardResetBounded := by
  refine Open.bind .ask fun n => { Timed.hardResetLoop n with keeps := .hardResetLoop n, breaks := ?_ }
  intro n e hn op e' c cl fm fops extra h hs hb
  obtain rfl := hardResetLoop_waits h
  exact hb.not_hardReset.elim

/-- What `Reset()` does with the answer to its reset command (R104). -/
def afterReset (a : Reply) : Prog Unit :=
  match a with
  | .ok _ _ => bufferClear
  | _ => hardResetBounded.bind fun done => if done then bufferClear else Prog.raise .transportError

theorem busReset_eq : busReset = (link (.ctl .reset)).bind afterReset := rfl

theorem Open.afterReset (a : Reply) : Open P (afterReset a) := by
  have hf : Open P (Machine.hardResetBounded.bind fun done =>
      if done then Machine.bufferClear else Prog.raise .transportError) :=
    Open.hardResetBounded.bind fun _ => .ite .bufferClear (.throw _)
  cases a with
  | ok d b => exact .bufferClear
  | fail => exact hf
  | timeout => exact hf

/-- `Reset()` in an environment that makes it fail at its reset command. -/
theorem busReset_breaks {e : Eng} {prev : Option LinkOp} {c : Cond} {cl : Bool} {fm extra : List Move}
    {fops : List LinkOp} (hb : Breaks e.params prev (.ctl .reset) c cl fm fops) (hs : e.script = fm ++ extra) :
    busReset e = .raise c ((e.clearSpd cl).adv fops fm extra) := by
  have hfail : ∀ {r : Reply} {e' : Eng} {c' : Cond} {ms : List Move}, r.failed = true → e.script = .reply r :: ms →
      (hardResetBounded.bind fun done => if done then bufferClear else Prog.raise .transportError)
        (e.adv [.ctl .reset] [.reply r] ms) = .raise c' e' → busReset e = .raise c' e' := by
    intro r e' c' ms hr h1 h2
    rw [busReset_eq, Prog.bind_ok (link_reply h1)]
    cases r with
    | ok d b => cases hr
    | fail => exact h2
    | timeout => exact h2
  cases hb with
  | transfer r h => exact absurd rfl h
  | empty n b h => cases h
  | noReset r hm hops _ hr hh =>
    refine hfail (ms := hm ++ extra) hr (by rw [hs]; simp) ?_
    refine (Prog.bind_ok (hardResetBounded_ends (e := e.adv [.ctl .reset] [.reply r] (hm ++ extra)) hh rfl)).trans ?_
    rw [if_neg (by simp), Eng.clearSpd_false, Eng.clearSpd_false, Eng.adv_adv]
    rfl
  | busy a _ ha =>
    obtain ⟨d, ms', rfl, h'⟩ := ha.cons
    obtain rfl := h'.nil
    rw [busReset_eq, Prog.bind_ok (link_reply hs)]
    refine (bufferClear_busy (e := e.adv _ _ _) (rest := extra) rfl).trans ?_
    rw [Eng.adv_adv, Eng.clearSpd_false]
    rfl
  | busyAfterHardReset r hm hops _ hr hh =>
    refine hfail (ms := hm ++ (busyPolls e.params.pollLimit ++ extra)) hr (by rw [hs]; simp) ?_
    refine (Prog.bind_ok (hardResetBounded_ends (e := e.adv [.ctl .reset] [.reply r] _) hh rfl)).trans ?_
    rw [if_pos rfl]
    refine (bufferClear_busy (e := Eng.adv _ _ _ _) (rest := extra) rfl).trans ?_
    simp [Eng.adv, Eng.clearSpd, List.append_assoc]

theorem Open.busReset : Open P busReset := by
  refine { Timed.bind (.link _) fun a => (Open.afterReset (P := P) a).toTimed with
    breaks := ?_
    keeps := Keeps.bind (.link _) fun a => (Open.afterReset a).keeps }
  intro n e hn op e' c cl fm fops extra h hs hb
  rw [busReset_eq] at h
  cases hl : Machine.link (.ctl .reset) e with
  | ok r e1 =>
    rw [Prog.bind_ok hl] at h
    rw [busReset_eq, Prog.bind_ok ((Timed.link _).ok _ hl)]
    exact (Open.afterReset (P := P) r).breaks n e1
      (hn.trans (Keeps.link (P := P) _ e e1 (by rw [hl]; rfl)).grows) extra h hs hb
  | raise c e1 => rw [Prog.bind_raise hl] at h; cases h
  | wait op1 e1 =>
    rw [Prog.bind_wait hl] at h
    cases h
    obtain ⟨rfl, h1, h2⟩ := link_more hl hs
    refine ⟨e'.received, ?_⟩
    have h3 : Machine.busReset (e.more (fm ++ extra)) = Machine.busReset { e' with script := fm ++ extra } := by
      rw [busReset_eq]
      unfold Prog.bind
      rw [h2]
    rw [h3]
    exact busReset_breaks (e := { e' with script := fm ++ extra }) hb rfl
  | fault f => rw [Prog.bind_fault hl] at h; cases h

theorem Open.setSpeed (od : Bool) : Open P (setSpeed od) := (Open.send).andThen (.setRegs _)

theorem Open.writeBit (b : Bool) : Open P (writeBit b) := .send

theorem Timed.readBulk (m : Nat) : Timed (readBulk m) :=
  (Timed.xfer _).bind fun _ => (Open.ret (P := fun _ => True) _).toTimed

theorem Keeps.readBulk (m : Nat) : Keeps P (readBulk m) := (Keeps.xfer _).bind fun _ => (Open.ret _).keeps

/-- `Read` waits where its transfer does. -/
theorem readBulk_waits {m : Nat} {op : LinkOp} {e e' : Eng} (h : readBulk m e = .wait op e') :
    xfer (.bulkIn m) e = .wait op e' := by
  unfold readBulk at h
  cases hl : xfer (.bulkIn m) e with
  | ok r e1 => rw [Prog.bind_ok hl] at h; cases h
  | raise c e1 => rw [Prog.bind_raise hl] at h; cases h
  | wait op1 e1 => rw [Prog.bind_wait hl] at h; cases h; rfl
  | fault f => rw [Prog.bind_fault hl] at h; cases h

/-- A read that raises TransportError where no byte arrives (R107, R111). -/
theorem Open.readBulk_bind {m : Nat} {f : List Byte → Prog β} (h0 : f [] = Prog.raise .transportError)
    (hf : ∀ d, Open P (f d)) : Open P ((readBulk m).bind f) where
  toTimed := (Timed.readBulk m).bind fun d => (hf d).toTimed
  keeps := (Keeps.readBulk m).bind fun d => (hf d).keeps
  breaks n e hn op e' c cl fm fops extra h hs hb := by
    cases hr : Machine.readBulk m e with
    | ok d e1 =>
      rw [Prog.bind_ok hr] at h
      rw [Prog.bind_ok ((Timed.readBulk m).ok _ hr)]
      exact (hf d).breaks n e1 (hn.trans (Keeps.readBulk (P := P) m e e1 (by rw [hr]; rfl)).grows) extra h hs hb
    | raise c e1 => rw [Prog.bind_raise hr] at h; cases h
    | fault r => rw [Prog.bind_fault hr] at h; cases h
    | wait op1 e1 =>
      rw [Prog.bind_wait hr] at h
      cases h
      obtain ⟨rfl, -, h2⟩ := xfer_more (readBulk_waits hr) hs
      have h3 : ∀ extra, Machine.readBulk m (e.more extra) = Machine.readBulk m { e' with script := extra } := by
        intro extra
        unfold Machine.readBulk Prog.bind
        rw [h2]
      refine ⟨e'.received, ?_⟩
      cases hb with
      | transfer r _ _ _ _ hr =>
        rw [Eng.broken_false]
        refine Prog.bind_raise ((h3 _).trans ?_)
        exact Prog.bind_raise (xfer_failed (e := { e' with script := .reply r :: extra }) hr rfl)
      | empty k b hk _ =>
        rw [Eng.broken_false]
        cases hk
        refine (Prog.bind_ok ((h3 _).trans (Prog.bind_ok (xfer_ok
          (e := { e' with script := .reply (.ok [] b) :: extra }) rfl)))).trans ?_
        rw [List.take_nil, h0]
        rfl
      | noReset r hm hops h => cases h
      | busy a h => cases h
      | busyAfterHardReset r hm hops h => cases h

theorem Open.readBit : Open P readBit := by
  refine (Open.send).andThen (Open.readBulk_bind rfl fun d => ?_)
  match d with
  | [] => exact .throw _
  | [_] => exact .ret _
  | _ :: _ :: _ => exact .throw _

/-- A drain follows its count: an answer without a byte is a drain like another (R108). -/
theorem Open.drain (k : Nat) :
    Open P ((Machine.send (.ctl (.count k))).andThen (Machine.send (.bulkIn k))) := by
  have hc : Open P (Machine.send (.ctl (.count k))) := .send
  have hr : ∀ r : List Byte × Bool, Open P (Prog.ret ()) := fun _ => .ret _
  refine { hc.toTimed.bind fun _ => (Timed.xfer _).bind fun r => (hr r).toTimed with
    breaks := fun n e hn => ?_
    keeps := hc.keeps.bind fun _ => (Keeps.xfer _).bind fun r => (hr r).keeps }
  refine BreaksFrom.bind hc.toSteady (hc.breaks n e hn) fun u e1 h1 => ?_
  have hi := send_issues h1
  have hn1 : n ≤ e1.regs.issued.length := by
    rw [hi, List.length_append]
    omega
  have hx : BreaksFrom n (Machine.xfer (.bulkIn k)) e1 := xfer_breaks (by simp) fun m _ => by
    rw [hi, List.drop_append_of_le_length hn, List.getLast?_concat]
    simp
  exact BreaksFrom.bind (Timed.xfer _).toSteady hx fun r e2 h2 =>
    (hr r).breaks n e2 (hn1.trans (Keeps.xfer (P := P) _ e1 e2 (by rw [h2]; rfl)).grows)

theorem Open.writeWire (bytes : List Byte) (clr : Bool) : Open P (writeWire bytes clr) := by
  refine (Open.send).andThen ?_
  cases clr with
  | true => exact .drain _
  | false => exact (Open.send).andThen (.ret _)

theorem Open.romCommand (s : RomSel) (d : Bool) : Open P (romCommand s d) :=
  Open.bind .ask fun _ => (Open.send).andThen <| (Open.setSpeed d).andThen <| Open.bind .ask fun _ => .send

theorem Open.readExactLoop (n fuel : Nat) (acc : List Byte) : Open P (readExactLoop n fuel acc) := by
  induction fuel generalizing acc with
  | zero => exact .ret _
  | succ fuel ih =>
    exact .ite (.ret _) <| Open.bind .ask fun c => Open.readBulk_bind (by rw [if_pos rfl]) fun d =>
      .ite (.throw _) ((Open.setLocals _).andThen (ih _))

theorem Open.readExact (n : Nat) : Open P (readExact n) :=
  (Open.setLocals _).andThen (.readExactLoop _ _ _)

theorem Open.done : Open P done := .ret _

theorem Open.romBody (sel : BitVec 2) (d : Bool) : Open P (romBody sel d) := by
  unfold Machine.romBody
  cases romSel? sel with
  | none => exact .ret _
  | some x => exact (Open.romCommand x d).andThen .done

theorem Open.storeRx (d : List Byte) : Open P (storeRx d) :=
  (Open.storeBytes _ _).andThen ((Open.setRegs _).andThen (.ret _))

/-! ## ROM search -/

theorem Open.walk (ks : List Nat) (lz : Nat) : Open P (walk ks lz) := by
  induction ks generalizing lz with
  | nil => exact .ret _
  | cons k ks ih =>
    exact (Open.setLocals _).andThen <| Open.readBit.bind fun b => Open.readBit.bind fun c =>
      .ite (.ret _) <| Open.bind .ask fun d => (Open.setLocals _).andThen <| (Open.writeBit d).andThen <|
        (Open.setRegs _).andThen (ih _)

theorem Open.passFail : Open P passFail := (Open.setRegs _).andThen (.ret _)

theorem Open.passFound (lz : Nat) : Open P (passFound lz) := (Open.setRegs _).andThen (.ret _)

theorem Open.searchPass : Open P searchPass :=
  Open.busReset.andThen <| (Open.setSpeed _).andThen <| (Open.writeWire _ _).andThen <|
    (Open.walk positions 0).bind fun w => by
      cases w with
      | none => exact .passFail
      | some lz => exact Open.bind .ask fun v => .ite (.passFound lz) .passFail

theorem Open.searchInit : Open P searchInit := .setRegs _

theorem Open.passBody : Open P passBody := Open.searchPass.bind fun _ => .ite .done (.ret _)

theorem Open.enumLoop (n : Nat) (ids : List RomId) : Open P (enumLoop n ids) := by
  induction n generalizing ids with
  | zero => exact .ret _
  | succ n ih =>
    exact Open.searchPass.bind fun _ => .ite (Open.bind (α := RomId × Bool) .ask fun _ => .ite (.ret _) (ih _)) (.ret _)

theorem Open.enumerate : Open P enumerate := Open.searchInit.andThen (Open.bind .ask fun n => .enumLoop n [])

/-! ## Scratchpad writes -/

theorem Open.selectTarget (d : Bool) : Open P (selectTarget d) := Open.busReset.andThen (.romCommand _ d)

theorem Open.writeSlices (sls : List (List Byte)) : Open P (writeSlices sls) := by
  induction sls with
  | nil => exact .ret _
  | cons sl sls ih => exact (Open.writeWire _ _).andThen ih

theorem Open.fillScratchpad (hw : P .write) (off : Half) (data : List Byte) (d : Bool) :
    Open P (fillScratchpad off data d) :=
  (Open.setPhase hw).andThen <| (Open.selectTarget d).andThen <| Open.bind .ask fun _ =>
    (Open.writeWire _ _).andThen (.writeSlices _)

theorem Open.readScratchpad (hv : P .verify) (n : Nat) (d : Bool) : Open P (readScratchpad n d) :=
  (Open.setPhase hv).andThen <| (Open.selectTarget d).andThen <| Open.bind .ask fun _ =>
    (Open.writeWire _ _).andThen <| .ite ((Open.readExact _).bind fun _ => .readExact _) (.readExact _)

theorem Open.copyScratchpad (hw : P .write) (off : Half) (n : Nat) (d : Bool) : Open P (copyScratchpad off n d) :=
  (Open.setPhase hw).andThen <| (Open.selectTarget d).andThen <| Open.bind .ask fun _ => .writeWire _ _

/-- `ATT <- ATT + 1` while attempts are left (R141, R173). -/
theorem Open.ifAttemptsLeft {x y : Prog α} (hx : Open P x) (hy : Open P y) :
    Open P (attemptsLeft.bind fun more => if more then nextAttempt.andThen x else y) := by
  have hn : ∀ e : Eng, e.regs.att.toNat < e.params.retryAttempts → e.Kept P (e.setAtt (e.regs.att + 1#4)) := by
    refine fun e h => ⟨rfl, rfl, rfl, id, Nat.le_refl _, fun h1 _ => ?_⟩
    rw [Eng.setAtt_regs, BitVec.toNat_add, BitVec.toNat_ofNat]
    omega
  have hrun : ∀ e : Eng, (attemptsLeft.bind fun more => if more then nextAttempt.andThen x else y) e =
      if e.regs.att.toNat < e.params.retryAttempts then x (e.setAtt (e.regs.att + 1#4)) else y e := by
    intro e
    refine (Prog.ask_bind _ _ _).trans ?_
    by_cases h : e.regs.att.toNat < e.params.retryAttempts
    · rw [if_pos h, if_pos (by exact decide_eq_true h)]
      rfl
    · rw [if_neg h, if_neg (by rw [decide_eq_true_eq]; exact h)]
  refine { ok := ?_, raise := ?_, fault := ?_, untimed := ?_, deaf := ?_, timeout := ?_, breaks := ?_, keeps := ?_ }
  on_goal 7 => intro n
  all_goals intro e
  · intro e' a extra h
    rw [hrun] at h ⊢
    split at h
    · rw [if_pos (by assumption)]; exact hx.ok extra h
    · rw [if_neg (by assumption)]; exact hy.ok extra h
  · intro e' a extra h
    rw [hrun] at h ⊢
    split at h
    · rw [if_pos (by assumption)]; exact hx.raise extra h
    · rw [if_neg (by assumption)]; exact hy.raise extra h
  · intro f extra h
    rw [hrun] at h ⊢
    split at h
    · rw [if_pos (by assumption)]; exact hx.fault extra h
    · rw [if_neg (by assumption)]; exact hy.fault extra h
  · intro e' ht h
    rw [hrun] at h
    split at h
    · exact hx.untimed (e := e.setAtt (e.regs.att + 1#4)) ht h
    · exact hy.untimed ht h
  · intro op e' ht h
    rw [hrun] at h ⊢
    split at h
    · rw [if_pos (by assumption)]; exact hx.deaf (e := e.setAtt (e.regs.att + 1#4)) ht h
    · rw [if_neg (by assumption)]; exact hy.deaf ht h
  · intro op e' extra h
    rw [hrun] at h ⊢
    split at h
    · rw [if_pos (by assumption)]; exact hx.timeout extra h
    · rw [if_neg (by assumption)]; exact hy.timeout extra h
  · intro hn op e' c cl fm fops extra h
    rw [hrun] at h ⊢
    split at h
    · rw [if_pos (by assumption)]; exact hx.breaks n (e.setAtt (e.regs.att + 1#4)) hn extra h
    · rw [if_neg (by assumption)]; exact hy.breaks n _ hn extra h
  · intro e' h
    rw [hrun] at h
    split at h
    · exact (hn e (by assumption)).trans (hx.keeps _ _ h)
    · exact hy.keeps _ _ h

theorem Open.cycleLoop (hw : P .write) (hv : P .verify) (off : Half) (data : List Byte) (d : Bool) (fuel : Nat) :
    Open P (cycleLoop off data d fuel) := by
  induction fuel with
  | zero => exact .throw _
  | succ fuel ih =>
    exact (Open.fillScratchpad hw _ _ _).andThen <| (Open.readScratchpad hv _ _).bind fun rb =>
      .ite (.copyScratchpad hw _ _ _) (.ifAttemptsLeft ih (.throw _))

theorem Open.scratchpadCycle (hw : P .write) (hv : P .verify) (off : Half) (data : List Byte) (d : Bool) :
    Open P (scratchpadCycle off data d) := Open.bind .ask fun _ => .cycleLoop hw hv _ _ _ _

theorem Open.writePage (hw : P .write) (hv : P .verify) (p : Nat) (d : Bool) : Open P (writePage p d) :=
  (Open.loadBytes _ _).bind fun _ => .scratchpadCycle hw hv _ _ _

/-! ## Whole-memory bodies -/

/-- `e` with other bytes noted as received. -/
def Eng.setReceived (e : Eng) (r : Memory) : Eng := { e with received := r }

theorem Open.noteReceived (a : Nat) (bs : List Byte) : Open P (noteReceived a bs) :=
  .instant fun e => .inl ⟨(), e.setReceived (e.received ++ cellsFrom a bs), fun _ => rfl,
    .of rfl rfl id rfl⟩

/-- A handler that notes bytes as received and raises the condition again (R151). -/
theorem Open.catchNote {x : Prog α} (hx : Open P x) {f : Eng → Memory}
    (hf : ∀ e extra, f (e.more extra) = f e) :
    Open P (x.catch fun c e => .raise c (e.setReceived (f e))) := by
  have hc : ∀ {e e' c}, x e = .raise c e' →
      (x.catch fun c e => .raise c (e.setReceived (f e))) e = .raise c (e'.setReceived (f e')) :=
    fun h => Prog.catch_raise h
  have hst : Steady (x.catch fun c e => .raise c (e.setReceived (f e))) := hx.toSteady.catch fun c =>
    { ok := fun _ h => by cases h
      fault := fun _ h => by cases h
      untimed := fun ht h => by
        cases h
        exact ht
      deaf := fun _ h => by cases h
      raise := fun extra h => by
        cases h
        rw [hf]
        rfl }
  have hw : ∀ {e op e'}, (x.catch fun c e => .raise c (e.setReceived (f e))) e = .wait op e' →
      x e = .wait op e' := by
    intro e op e' h
    unfold Prog.catch at h
    cases hxe : x e with
    | wait op1 e1 =>
      rw [hxe] at h
      exact h
    | _ =>
      rw [hxe] at h
      cases h
  refine { hst with timeout := ?_, breaks := ?_, keeps := ?_ }
  · intro e op e' extra h hs ht hg
    obtain ⟨rc, hrc⟩ := hx.timeout extra (hw h) hs ht hg
    exact ⟨_, (hc hrc).trans rfl⟩
  · intro n e hn op e' c cl fm fops extra h hs hb
    obtain ⟨rc, hrc⟩ := hx.breaks n e hn extra (hw h) hs hb
    exact ⟨_, (hc hrc).trans rfl⟩
  · intro e e' h
    have hk := hx.keeps e
    unfold Prog.catch at h
    cases hxe : x e with
    | raise c e1 =>
      rw [hxe] at h
      cases h
      have h1 := hk e1 (by rw [hxe]; rfl)
      exact ⟨h1.params, h1.raised, h1.timed, h1.phase, h1.grows, h1.att⟩
    | _ =>
      rw [hxe] at h
      exact hk e' (by rw [hxe]; exact h)

theorem Open.readPage (p : Nat) : Open P (readPage p) :=
  (Open.setLocals _).andThen <|
    ((Open.readExact Config.pageBytes).catchNote
      (f := fun e => e.received ++ cellsFrom (imgAAddr p 0) e.locals.bytesRead) fun _ _ => rfl).bind fun d =>
        (Open.noteReceived _ d).andThen (.storeBytes _ _)

theorem Open.readPages (ps : List Nat) : Open P (readPages ps) := by
  induction ps with
  | nil => exact .ret _
  | cons p ps ih => exact (Open.readPage p).andThen ih

theorem Open.readallBody (hr : P .read) (f : Bool) : Open P (readallBody f) :=
  (Open.setPhase hr).andThen <| (Open.selectTarget f).andThen <| Open.bind .ask fun _ =>
    (Open.writeWire _ _).andThen <| (Open.readPages _).andThen <| (Open.setRegs _).andThen .done

theorem Open.writePages (hw : P .write) (hv : P .verify) (d : Bool) (ps : List Nat) : Open P (writePages d ps) := by
  induction ps with
  | nil => exact .ret _
  | cons p ps ih => exact (Open.setLocals _).andThen ((Open.writePage hw hv p d).andThen ih)

theorem Open.writeallBody (hw : P .write) (hv : P .verify) (f : Bool) : Open P (writeallBody f) :=
  (Open.setPhase hw).andThen <| Open.bind .ask fun _ => (Open.writePages hw hv f _).andThen .done

theorem Open.writeIfChanged (hw : P .write) (hv : P .verify) (d : Bool) (p : Nat) : Open P (writeIfChanged d p) :=
  (Open.loadBytes _ _).bind fun _ => (Open.loadBytes _ _).bind fun _ => .ite (.ret _) (.scratchpadCycle hw hv _ _ _)

theorem Open.diffPages (hw : P .write) (hv : P .verify) (d : Bool) (ps : List Nat) : Open P (diffPages d ps) := by
  induction ps with
  | nil => exact .ret _
  | cons p ps ih => exact (Open.setLocals _).andThen ((Open.writeIfChanged hw hv d p).andThen ih)

theorem Open.writediffBody (hw : P .write) (hv : P .verify) (f : Bool) : Open P (writediffBody f) :=
  (Open.setPhase hw).andThen <| Open.bind .ask fun _ => (Open.diffPages hw hv f _).andThen .done

end Sys2Proof.Machine
end

