-- ==== Sys2Proof/Laws/Resume.lean ====
section
/-! SUPPORT. What more answers do to a command or pass: one that has completed leaves them alone, and one that waits
comes to its error completion or to its restart when they bring a condition about (R150, R172, R173). -/

-- One proof at a time: many at once need a thread each, and the package as one text has 22 GiB for them all.
set_option Elab.async false

namespace Sys2Proof.Machine

/-! ## Bodies with their error handling -/

theorem Steady.instant {α : Type} {x : Prog α}
    (h : ∀ e : Eng, ∃ (a : α) (e' : Eng), e'.timed = e.timed ∧ ∀ extra, x (e.more extra) = .ok a (e'.more extra)) :
    Steady x := by
  have key : ∀ e : Eng, ∃ (a : α) (e' : Eng), e'.timed = e.timed ∧ x e = .ok a e' ∧
      ∀ extra, x (e.more extra) = .ok a (e'.more extra) := by
    intro e
    obtain ⟨a, e', ht, h1⟩ := h e
    have h0 : ∀ e : Eng, e.more [] = e := fun e => by simp [Eng.more]
    exact ⟨a, e', ht, by simpa only [h0] using h1 [], h1⟩
  refine { ok := ?_, raise := ?_, fault := ?_, untimed := ?_, deaf := ?_ } <;> intro e <;>
    obtain ⟨a, e', ht, h1, h2⟩ := key e
  · intro e' a extra h
    rw [h1] at h
    cases h
    exact h2 extra
  · intro e' a extra h
    rw [h1] at h
    cases h
  · intro f extra h
    rw [h1] at h
    cases h
  · intro e' h0 h
    rw [h1] at h
    cases h
    exact ht.trans h0
  · intro op e' _ h
    rw [h1] at h
    cases h

theorem Steady.setRegs (f : Regs → Regs) : Steady (Prog.setRegs f) :=
  .instant fun e => ⟨(), { e with regs := f e.regs }, rfl, fun _ => rfl⟩

theorem Steady.ite {α : Type} {p : Prop} [Decidable p] {x y : Prog α} (hx : Steady x) (hy : Steady y) :
    Steady (if p then x else y) := by
  split
  · exact hx
  · exact hy

theorem Open.epilogue {P : Phase → Prop} (b : Bool) : Open P (epilogue b) :=
  Open.hardResetBounded.bind fun _ => .ite (.setRegs _) (.ret _)

theorem Open.errorCompletion {P : Phase → Prop} (b : Bool) (c : Cond) : Open P (errorCompletion b c) := by
  have h : Open P ((Prog.ask fun e => e.locals.phase).bind fun ph =>
      (Machine.epilogue b).andThen (Prog.ret (⟨c.err, ph, 0⟩ : Completion))) :=
    Open.bind .ask fun _ => (Open.epilogue b).andThen (.ret _)
  cases c with
  | verifyFailed => exact .ret _
  | _ => exact h

theorem Steady.guarded {body : Prog Completion} (h : Steady body) (b : Bool) : Steady (guarded b body) :=
  h.catch fun c => (Open.errorCompletion (P := fun _ => True) b c).toSteady

/-- What the retry wrapper does on a TransportError or BusBusy: the epilogue, and the body again while attempts are left
(R150, R173). -/
def onFailure (body : Prog Completion) (fuel : Nat) (c : Cond) : Prog Completion :=
  (Prog.ask fun e => e.locals.phase).bind fun ph =>
    (epilogue false).andThen <|
      attemptsLeft.bind fun more =>
        if more then nextAttempt.andThen (restarting body fuel) else Prog.ret ⟨c.err, ph, 0⟩

theorem restarting_succ (body : Prog Completion) (fuel : Nat) :
    restarting body (fuel + 1) = body.catch fun c =>
      if c = .verifyFailed then errorCompletion false .verifyFailed else onFailure body fuel c := by
  rw [restarting]
  congr 1
  funext c
  cases c <;> rfl

theorem Steady.restarting {body : Prog Completion} (h : Steady body) (fuel : Nat) : Steady (restarting body fuel) := by
  induction fuel with
  | zero => exact h.guarded false
  | succ fuel ih =>
    rw [restarting_succ]
    refine h.catch fun c => .ite (Open.errorCompletion (P := fun _ => True) _ _).toSteady ?_
    exact .bind (Open.ask (P := fun _ => True)).toSteady fun _ =>
      .bind (Open.epilogue (P := fun _ => True) _).toSteady fun _ =>
        .bind (Open.ask (P := fun _ => True)).toSteady fun _ =>
          .ite (.bind (.setRegs _) fun _ => ih) (Open.ret (P := fun _ => True) _).toSteady

theorem Steady.retried {body : Prog Completion} (h : Steady body) : Steady (retried body) := by
  unfold Machine.retried
  exact .bind (.setRegs _) fun _ => .bind (Open.ask (P := fun _ => True)).toSteady fun _ => h.restarting _

theorem Steady.readallCommand (f : Bool) : Steady (readallCommand f) :=
  .bind (Open.ask (P := fun _ => True)).toSteady fun old =>
    .bind (Open.readallBody (P := fun _ => True) trivial f).toSteady.retried fun c =>
      .ite (Open.ret (P := fun _ => True) _).toSteady <|
        .bind (.instant fun e => ⟨(), e.mixed old, rfl, fun _ => rfl⟩) fun _ => (Open.ret (P := fun _ => True) _).toSteady

theorem Steady.claimBody : Steady claimBody := by
  have hf : Steady claimFailed := (Open.ret (P := fun _ => True) _).toSteady
  refine .bind (Timed.link _).toSteady fun a => ?_
  cases a with
  | ok d b =>
    exact .bind (Open.hardResetBounded (P := fun _ => True)).toSteady fun _ => .ite
      (.catch ((Open.bufferClear (P := fun _ => True)).andThen ((Open.setRegs _).andThen (.ret _))).toSteady fun _ => hf) hf
  | fail => exact hf
  | timeout => exact hf

theorem Steady.closeBody : Steady closeBody :=
  .bind (Timed.link _).toSteady fun _ => ((Open.setRegs (P := fun _ => True) _).andThen (.ret _)).toSteady

theorem Steady.deliver (ids : List RomId) (trunc : Bool) : Steady (deliver ids trunc) :=
  .instant fun e => ⟨(), e.delivered ids trunc, rfl, fun _ => rfl⟩

theorem Steady.enumBody : Steady enumBody :=
  .bind (Open.enumerate (P := fun _ => True)).toSteady fun _ =>
    .bind (.deliver _ _) fun _ => (Open.ret (P := fun _ => True) _).toSteady

/-- The end of a background pass that a condition ends (R96). -/
def srchErrEnd : Prog Unit := fun e => ((epilogue true).andThen (raiseEvent evSrchErr)) { e with timed := false }

theorem Steady.srchErrEnd : Steady srchErrEnd := by
  have h : Steady ((epilogue true).andThen (raiseEvent evSrchErr)) :=
    .bind (Open.epilogue (P := fun _ => True) true).toSteady fun _ =>
      .instant fun e => ⟨(), { e with raised := raiseFlags e.raised evSrchErr }, rfl, fun _ => rfl⟩
  exact { ok := fun extra hr => h.ok extra hr, raise := fun extra hr => h.raise extra hr,
          fault := fun extra hr => h.fault extra hr, untimed := fun _ hr => h.untimed rfl hr,
          deaf := fun _ hr => h.deaf rfl hr }

theorem backgroundBody_eq :
    backgroundBody = (enumerate.bind fun r => deliver r.1 r.2).catch fun _ => srchErrEnd := by
  funext e
  unfold backgroundBody Prog.catch Prog.bind
  cases enumerate e <;> rfl

theorem Steady.backgroundBody : Steady backgroundBody := by
  rw [backgroundBody_eq]
  exact .catch (.bind (Open.enumerate (P := fun _ => True)).toSteady fun _ => .deliver _ _) fun _ => .srchErrEnd

/-! ## Commands -/

/-- A command that uses the bus runs one body, and that body is steady. -/
theorem exec_steady (i : Instr) (hi : Instr.usesBus i = true) : ∃ body : Prog Completion,
    (∀ s, (i = .close → s.lc ≠ .closed) → exec i s = accept i body s) ∧ Steady body := by
  have hs : ∀ {x : Prog Completion}, Open (fun _ => True) x → Steady x := fun h => h.toSteady
  cases i with
  | claim => exact ⟨_, fun _ _ => rfl, .claimBody⟩
  | close => exact ⟨_, fun s h => if_neg (h rfl), .closeBody⟩
  | owReset => exact ⟨_, fun _ _ => rfl, (hs (Open.busReset.andThen .done)).guarded _⟩
  | owSpeed f => exact ⟨_, fun _ _ => rfl, (hs ((Open.setSpeed f).andThen .done)).guarded _⟩
  | owWbit f => exact ⟨_, fun _ _ => rfl, (hs ((Open.writeBit f).andThen .done)).guarded _⟩
  | owRbit => exact ⟨_, fun _ _ => rfl, (hs (Open.readBit.bind fun _ => .ret _)).guarded _⟩
  | owWrite n c =>
    exact ⟨_, fun _ _ => rfl, (hs ((Open.loadBytes _ _).bind fun _ => (Open.writeWire _ _).andThen .done)).guarded _⟩
  | owRead n => exact ⟨_, fun _ _ => rfl, Steady.guarded (.bind (Timed.readBulk _).toSteady fun d => hs (.storeRx d)) _⟩
  | owRom sel d => exact ⟨_, fun _ _ => rfl, (hs (.romBody sel d)).guarded _⟩
  | srchFirst =>
    exact ⟨_, fun _ _ => rfl, (hs ((Open.setPhase trivial).andThen (Open.searchInit.andThen .passBody))).guarded _⟩
  | srchNext => exact ⟨_, fun _ _ => rfl, (hs ((Open.setPhase trivial).andThen .passBody)).guarded _⟩
  | srchEnum =>
    exact ⟨_, fun _ _ => rfl,
      Steady.guarded (.bind (Open.setPhase (P := fun _ => True) trivial).toSteady fun _ => .enumBody) _⟩
  | pgWrite p d =>
    exact ⟨_, fun _ _ => rfl, Steady.guarded (.bind (.setRegs _) fun _ =>
      hs ((Open.setPhase trivial).andThen ((Open.writePage trivial trivial _ d).andThen .done))) _⟩
  | rgWrite h l n =>
    exact ⟨_, fun _ _ => rfl, Steady.guarded (.bind (.setRegs _) fun _ =>
      hs ((Open.setPhase trivial).andThen ((Open.loadBytes _ _).bind fun _ =>
        (Open.scratchpadCycle trivial trivial _ _ _).andThen .done))) _⟩
  | memReadall f => exact ⟨_, fun _ _ => rfl, .readallCommand f⟩
  | memWriteall f => exact ⟨_, fun _ _ => rfl, (hs (.writeallBody trivial trivial f)).retried⟩
  | memWritediff f => exact ⟨_, fun _ _ => rfl, (hs (.writediffBody trivial trivial f)).retried⟩
  | _ => cases hi

/-- An outcome with moves `extra` still to come after those it leaves. -/
def stillToCome (extra : List Move) (o : Host.Outcome State Fault Refusal) : Host.Outcome State Fault Refusal :=
  match o with
  | .next t => .next { t with inputs := t.inputs ++ extra }
  | .fault f => .fault f
  | .refused r => .refused r

/-- A command that does not use the bus leaves the moves alone. -/
theorem exec_noBus_more {i : Instr} (hi : Instr.usesBus i = false) (s : State) (extra : List Move) :
    exec i { s with inputs := s.inputs ++ extra } = stillToCome extra (exec i s) := by
  cases i with
  | srchStart =>
    change execSrchStart _ = stillToCome extra (execSrchStart s)
    unfold execSrchStart
    rw [show usageError .srchStart { s with inputs := s.inputs ++ extra } = usageError .srchStart s from rfl]
    cases usageError .srchStart s <;> rfl
  | crc16Clr => rfl
  | crc16Byte v => rfl
  | crc16Chk p =>
    change execCrc16Chk p _ = stillToCome extra (execCrc16Chk p s)
    unfold execCrc16Chk onPage
    simp only []
    cases s.mem.readBytes (imgAAddr p.toNat 0) Config.pageBytes with
    | error a => rfl
    | ok pg =>
      simp only []
      split <;> rfl
  | crc16Gen p =>
    change execCrc16Gen p _ = stillToCome extra (execCrc16Gen p s)
    unfold execCrc16Gen onPage
    simp only []
    cases s.mem.readBytes (imgAAddr p.toNat 0) Config.pageBytes with
    | error a => rfl
    | ok pg =>
      simp only []
      split <;> rfl
  | _ => cases hi

/-- A command that has completed, or stopped with a fault, does the same whatever moves follow. -/
theorem exec_more {i : Instr} {s : State} (extra : List Move) (h : ∀ t, exec i s = .next t → t.lock = false) :
    exec i { s with inputs := s.inputs ++ extra } = stillToCome extra (exec i s) := by
  by_cases hb : Instr.usesBus i = true
  · obtain ⟨body, he, hst⟩ := exec_steady i hb
    by_cases hc : i = .close → s.lc ≠ .closed
    · rw [he s hc] at h ⊢
      rw [he { s with inputs := s.inputs ++ extra } hc]
      unfold accept at h ⊢
      rw [show usageError i { s with inputs := s.inputs ++ extra } = usageError i s from rfl]
      cases hu : usageError i s with
      | some c => rfl
      | none =>
        rw [hu] at h
        simp only [] at h ⊢
        unfold runCommand at h ⊢
        change (match body ((s.eng false).more extra) with
          | .ok c e => _ | .raise c e => _ | .wait op e => _ | .fault f => _) = _
        cases hr : body (s.eng false) with
        | ok c e =>
          rw [hst.ok extra hr]
          rfl
        | raise c e =>
          rw [hst.raise extra hr]
          rfl
        | wait op e =>
          rw [hr] at h
          have := h _ rfl
          cases this
        | fault f =>
          rw [hst.fault extra hr]
          rfl
    · push Not at hc
      obtain ⟨rfl, hc⟩ := hc
      change execClose _ = stillToCome extra (execClose s)
      unfold execClose
      rw [if_pos hc, if_pos (show ({ s with inputs := s.inputs ++ extra } : State).lc = .closed from hc)]
      rfl
  · exact exec_noBus_more (by simpa using hb) s extra

/-- PassTimeout while a command waits leaves it waiting as it was (R97). -/
theorem exec_deaf {i : Instr} {s t : State} (h : exec i s = .next t) (hl : t.lock = true) (hin : t.inputs = []) :
    exec i { s with inputs := s.inputs ++ [.passTimeout] } = .next t := by
  by_cases hb : Instr.usesBus i = true
  · obtain ⟨body, he, hst⟩ := exec_steady i hb
    by_cases hc : i = .close → s.lc ≠ .closed
    · rw [he s hc] at h
      rw [he { s with inputs := s.inputs ++ [.passTimeout] } hc]
      unfold accept at h ⊢
      rw [show usageError i { s with inputs := s.inputs ++ [.passTimeout] } = usageError i s from rfl]
      cases hu : usageError i s with
      | some c =>
        rw [hu] at h
        cases h
        cases hl
      | none =>
        rw [hu] at h
        simp only [] at h ⊢
        unfold runCommand at h ⊢
        change (match body ((s.eng false).more [.passTimeout]) with
          | .ok c e => _ | .raise c e => _ | .wait op e => _ | .fault f => _) = _
        cases hr : body (s.eng false) with
        | wait op e =>
          rw [hr] at h
          cases h
          rw [hst.deaf rfl hr hin]
          rfl
        | fault f =>
          rw [hr] at h
          cases h
        | _ =>
          rw [hr] at h
          cases h
          cases hl
    · push Not at hc
      obtain ⟨rfl, hc⟩ := hc
      rw [show exec .close s = completeNow Instr.close.opc ⟨.ok, .noPhase, 0⟩ s from if_pos hc] at h
      cases h
      cases hl
  · rcases exec_noBus i (by simpa using hb) s with ⟨c, s1, -, h1⟩ | ⟨x, -, -, -, h1⟩
    · rw [h1] at h
      cases h
      cases hl
    · rw [h1] at h
      cases h

/-- A background pass that has ended does the same whatever moves follow. -/
theorem runBackground_more {s : State} (extra : List Move) (h : ∀ t, runBackground s = .next t → t.lock = false) :
    runBackground { s with inputs := s.inputs ++ extra } = stillToCome extra (runBackground s) := by
  unfold runBackground at h ⊢
  change (match backgroundBody ((s.eng true).more extra) with
    | .ok _ e => _ | .raise _ e => _ | .wait op e => _ | .fault f => _) = _
  have hst := Steady.backgroundBody
  cases hr : backgroundBody (s.eng true) with
  | ok c e =>
    rw [hst.ok extra hr]
    rfl
  | raise c e =>
    rw [hst.raise extra hr]
    rfl
  | wait op e =>
    rw [hr] at h
    have := h _ rfl
    cases this
  | fault f =>
    rw [hst.fault extra hr]
    rfl

/-! ## Conditions -/

/-- `e` after the error epilogue of a command, its hard reset answered `ok` or not by `hm` (R172). -/
def Eng.recovered (e : Eng) (search ok : Bool) (hops : List LinkOp) (hm rest : List Move) : Eng :=
  let e' := (e.clearSpd ok).adv hops hm rest
  if search then e'.notFound else e'

/-- The error epilogue, however its hard reset ends: the result is ignored (R172). -/
theorem epilogue_ends {b ok : Bool} {e : Eng} {hm rest : List Move} {hops : List LinkOp}
    (h : HardResetEnds e.params ok hm hops) (hs : e.script = hm ++ rest) :
    epilogue b e = .ok () (e.recovered b ok hops hm rest) := by
  unfold epilogue
  rw [Prog.bind_ok (hardResetBounded_ends h hs)]
  cases b <;> rfl

theorem epilogue_waits {b : Bool} {e e' : Eng} {op : LinkOp} (h : epilogue b e = .wait op e') : op = .hardReset := by
  unfold epilogue hardResetBounded at h
  cases hr : hardResetLoop e.params.hrAttempts e with
  | ok r e1 =>
    rw [Prog.bind_assoc, Prog.ask_bind, Prog.bind_ok hr] at h
    cases b <;> cases h
  | raise c e1 =>
    rw [Prog.bind_assoc, Prog.ask_bind, Prog.bind_raise hr] at h
    cases h
  | wait op1 e1 =>
    rw [Prog.bind_assoc, Prog.ask_bind, Prog.bind_wait hr] at h
    cases h
    exact hardResetLoop_waits hr
  | fault f =>
    rw [Prog.bind_assoc, Prog.ask_bind, Prog.bind_fault hr] at h
    cases h

theorem errorCompletion_ends {b ok : Bool} {c : Cond} {e : Eng} {hm rest : List Move} {hops : List LinkOp}
    (hc : c = .transportError ∨ c = .busBusy) (h : HardResetEnds e.params ok hm hops) (hs : e.script = hm ++ rest) :
    errorCompletion b c e = .ok ⟨c.err, e.locals.phase, 0⟩ (e.recovered b ok hops hm rest) := by
  rcases hc with rfl | rfl
  · exact (Prog.andThen_ok (epilogue_ends h hs)).trans rfl
  · exact (Prog.andThen_ok (epilogue_ends h hs)).trans rfl

theorem errorCompletion_waits {b : Bool} {c : Cond} {e e' : Eng} {op : LinkOp}
    (h : errorCompletion b c e = .wait op e') : op = .hardReset := by
  have key : ∀ c : Cond, ((Prog.ask fun e => e.locals.phase).bind fun ph =>
      (epilogue b).andThen (Prog.ret (⟨c.err, ph, 0⟩ : Completion))) e = .wait op e' → op = .hardReset := by
    intro c h
    rw [Prog.ask_bind] at h
    cases hr : epilogue b e with
    | ok r e1 =>
      rw [Prog.andThen_ok (x := epilogue b) hr] at h
      cases h
    | raise c e1 =>
      rw [Prog.andThen_raise (x := epilogue b) hr] at h
      cases h
    | wait op1 e1 =>
      unfold Prog.andThen at h
      rw [Prog.bind_wait hr] at h
      cases h
      exact epilogue_waits hr
    | fault f =>
      unfold Prog.andThen at h
      rw [Prog.bind_fault hr] at h
      cases h
  cases c with
  | verifyFailed => cases h
  | transportError => exact key _ h
  | busBusy => exact key _ h
  | passTimeout => exact key _ h

/-- A guarded body that waits, outside its epilogue, waits in the body. -/
theorem guarded_waits {b : Bool} {body : Prog Completion} {e e' : Eng} {op : LinkOp}
    (h : guarded b body e = .wait op e') (hop : op ≠ .hardReset) : body e = .wait op e' := by
  unfold guarded Prog.catch at h
  cases hr : body e with
  | ok c e1 =>
    rw [hr] at h
    cases h
  | raise c e1 =>
    rw [hr] at h
    exact absurd (errorCompletion_waits h) hop
  | wait op1 e1 =>
    rw [hr] at h
    exact h
  | fault f =>
    rw [hr] at h
    cases h

/-- A command that waits, is not restarted, and whose answers bring a condition about ends with the error completion of
that condition (R172, R173). -/
theorem guarded_breaks {b : Bool} {body : Prog Completion} {e e' : Eng} {m : Nat} (hb : BreaksFrom m body e) {op : LinkOp}
    {c : Cond} {cl ok : Bool} {fm hm rest : List Move} {fops hops : List LinkOp} (h : guarded b body e = .wait op e')
    (hs : e'.script = []) (hB : Breaks e'.params (e'.regs.issued.drop m).getLast? op c cl fm fops)
    (hh : HardResetEnds e'.params ok hm hops) :
    ∃ rc, guarded b body (e.more (fm ++ (hm ++ rest))) = .ok ⟨c.err, e'.locals.phase, 0⟩
      ((e'.broken cl fops fm (hm ++ rest) rc).recovered b ok hops hm rest) := by
  have hw := guarded_waits h (by rintro rfl; exact hB.not_hardReset)
  obtain ⟨rc, hrc⟩ := hb (hm ++ rest) hw hs hB
  exact ⟨rc, (guarded_raise hrc).trans (errorCompletion_ends (e := e'.broken cl fops fm _ rc) hB.cond hh rfl)⟩

/-- A command under the retry wrapper that waits, and whose answers bring a condition about, comes to the wrapper's
choice: the epilogue, then the body again from its first line or the error completion (R150, R173). -/
theorem restarting_breaks {P : Phase → Prop} {body : Prog Completion} (hO : Open P body) {ph : Phase} (hph : P ph)
    (hfirst : ∀ e : Eng, body e = body (e.setLoc (e.locals.withPhase ph))) {fuel : Nat} {e e' : Eng} {op : LinkOp}
    {c : Cond} {cl : Bool} {fm : List Move} {fops : List LinkOp} {m : Nat} (hm : m ≤ e.regs.issued.length)
    (h15 : e.params.retryAttempts ≤ 15) (ha : e.regs.att.toNat ≤ e.params.retryAttempts) (hf : e.params.retryAttempts < e.regs.att.toNat + fuel)
    (h : restarting body fuel e = .wait op e') (hs : e'.script = [])
    (hB : Breaks e.params (e'.regs.issued.drop m).getLast? op c cl fm fops) :
    e'.params = e.params ∧ e'.raised = e.raised ∧ P e'.locals.phase ∧
      e'.regs.att.toNat ≤ e.params.retryAttempts ∧
      ∃ k, ∀ extra, ∃ rc, restarting body fuel (e.more (fm ++ extra)) =
        onFailure body k c (e'.broken cl fops fm extra rc) := by
  induction fuel generalizing e with
  | zero => omega
  | succ fuel ih =>
    have hop : op ≠ .hardReset := by
      rintro rfl
      exact hB.not_hardReset
    have hcv : c ≠ .verifyFailed := by
      rcases hB.cond with rfl | rfl <;> simp
    rw [restarting_succ] at h ⊢
    unfold Prog.catch at h ⊢
    cases hr : body e with
    | ok c1 e1 =>
      rw [hr] at h
      cases h
    | fault f =>
      rw [hr] at h
      cases h
    | wait op1 e1 =>
      rw [hr] at h
      cases h
      have hk := hO.keeps (e.setLoc (e.locals.withPhase ph)) e' (by rw [← hfirst, hr]; rfl)
      refine ⟨hk.params, hk.raised, hk.phase hph, (hk.att h15 ha).2, fuel, fun extra => ?_⟩
      obtain ⟨rc, hrc⟩ := hO.breaks m e hm extra hr hs (by rw [hk.params]; exact hB)
      refine ⟨rc, ?_⟩
      rw [hrc]
      simp only [if_neg hcv]
    | raise c1 e1 =>
      rw [hr] at h
      have hk := hO.keeps (e.setLoc (e.locals.withPhase ph)) e1 (by rw [← hfirst, hr]; rfl)
      simp only [] at h
      by_cases hv : c1 = .verifyFailed
      · rw [if_pos hv] at h
        cases h
      rw [if_neg hv] at h
      unfold onFailure at h
      rw [Prog.ask_bind] at h
      cases hep : epilogue false e1 with
      | wait op1 e2 =>
        unfold Prog.andThen at h
        rw [Prog.bind_wait hep] at h
        cases h
        exact absurd (epilogue_waits hep) hop
      | raise c2 e2 =>
        rw [Prog.andThen_raise hep] at h
        cases h
      | fault f =>
        unfold Prog.andThen at h
        rw [Prog.bind_fault hep] at h
        cases h
      | ok u e2 =>
        have hk2 := hk.trans ((Open.epilogue (P := P) false).keeps e1 e2 (by rw [hep]; rfl))
        have hp2 : e2.params = e.params := hk2.params
        have ha2 := hk2.att h15 ha
        simp only [Eng.setLoc_regs, Eng.setLoc_params] at ha2
        rw [Prog.andThen_ok hep] at h
        have hleft : ∀ e : Eng, (attemptsLeft.bind fun more =>
            if more then nextAttempt.andThen (restarting body fuel)
            else Prog.ret (⟨c1.err, e1.locals.phase, 0⟩ : Completion)) e =
            if e.regs.att.toNat < e.params.retryAttempts then restarting body fuel (e.setAtt (e.regs.att + 1#4))
            else .ok ⟨c1.err, e1.locals.phase, 0⟩ e := by
          intro e
          refine (Prog.ask_bind _ _ _).trans ?_
          by_cases h : e.regs.att.toNat < e.params.retryAttempts
          · rw [if_pos h, if_pos (by exact decide_eq_true h)]
            rfl
          · rw [if_neg h, if_neg (by rw [decide_eq_true_eq]; exact h)]
            rfl
        rw [hleft] at h
        split at h
        · rename_i hlt
          rw [hp2] at hlt
          have hadd : (e2.regs.att + 1#4).toNat = e2.regs.att.toNat + 1 := by
            rw [BitVec.toNat_add, BitVec.toNat_ofNat]
            omega
          obtain ⟨h1, h2, h3, h4, k, h5⟩ := ih (e := e2.setAtt (e2.regs.att + 1#4)) (hm.trans hk2.grows)
            (by rw [Eng.setAtt_params, hp2]; exact h15)
            (by change (e2.regs.att + 1#4).toNat ≤ e2.params.retryAttempts; rw [hp2]; omega)
            (by change e2.params.retryAttempts < (e2.regs.att + 1#4).toNat + fuel; rw [hp2]; omega) h
            (by rw [Eng.setAtt_params, hp2]; exact hB)
          refine ⟨h1.trans hp2, h2.trans hk2.raised, h3, by rw [← hp2]; exact h4, k, fun extra => ?_⟩
          obtain ⟨rc, hrc⟩ := h5 extra
          refine ⟨rc, ?_⟩
          rw [hO.toSteady.raise _ hr]
          simp only []
          rw [if_neg hv, onFailure, Prog.ask_bind]
          refine (Prog.andThen_ok ((Open.epilogue (P := P) false).toSteady.ok _ hep)).trans ?_
          refine (hleft _).trans ?_
          rw [if_pos (by rw [Eng.more_regs, Eng.more_params, hp2]; exact hlt)]
          exact hrc
        · cases h

/-- The same from the first attempt (R150). -/
theorem retried_breaks {P : Phase → Prop} {body : Prog Completion} (hO : Open P body) {ph : Phase} (hph : P ph)
    (hfirst : ∀ e : Eng, body e = body (e.setLoc (e.locals.withPhase ph))) {e e' : Eng} {op : LinkOp} {c : Cond}
    {cl : Bool} {fm : List Move} {fops : List LinkOp} {m : Nat} (hm : m ≤ e.regs.issued.length) (hwf : e.params.wf)
    (h : retried body e = .wait op e') (hs : e'.script = [])
    (hB : Breaks e.params (e'.regs.issued.drop m).getLast? op c cl fm fops) :
    e'.params = e.params ∧ e'.raised = e.raised ∧ P e'.locals.phase ∧
      e'.regs.att.toNat ≤ e.params.retryAttempts ∧
      ∃ k, ∀ extra, ∃ rc, retried body (e.more (fm ++ extra)) = onFailure body k c (e'.broken cl fops fm extra rc) :=
  restarting_breaks hO hph hfirst (e := e.setAtt 1#4) hm hwf.1.2 hwf.1.1
    (by change e.params.retryAttempts < 1 + e.params.retryAttempts; omega) h hs hB

/-- The retry wrapper's choice, however its hard reset ends. -/
theorem onFailure_ends {body : Prog Completion} {k : Nat} {c : Cond} {ok : Bool} {e : Eng} {hm rest : List Move}
    {hops : List LinkOp} (h : HardResetEnds e.params ok hm hops) (hs : e.script = hm ++ rest) :
    onFailure body k c e = if e.regs.att.toNat < e.params.retryAttempts
      then restarting body k ((e.recovered false ok hops hm rest).setAtt (e.regs.att + 1#4))
      else .ok ⟨c.err, e.locals.phase, 0⟩ (e.recovered false ok hops hm rest) := by
  unfold onFailure
  rw [Prog.ask_bind]
  refine (Prog.andThen_ok (epilogue_ends h hs)).trans ?_
  refine (Prog.ask_bind _ _ _).trans ?_
  by_cases h : e.regs.att.toNat < e.params.retryAttempts
  · rw [if_pos h, if_pos (by exact decide_eq_true h)]
    rfl
  · rw [if_neg h, if_neg (by rw [decide_eq_true_eq]; exact h)]
    rfl

/-- A read that is its command's first operation is not broken by an answer without a byte (R109). -/
theorem readBulk_first_breaks {m : Nat} {e : Eng} : BreaksFrom e.regs.issued.length (readBulk m) e :=
  BreaksFrom.bind (Timed.xfer _).toSteady (xfer_breaks (by simp) fun k _ => by simp) fun r e1 h op e' c cl fm fops extra hw => by
    cases hw

end Sys2Proof.Machine
end

