-- ==== Sys2Proof/Laws/Phase.lean ====
section
/-! SUPPORT. The phase a writing command reports: where it waits, `verify` exactly from the bus reset of step 4 of a scratchpad
cycle until the next one (spec/60_exceptions.md R174, spec/43_scratchpad_write.md R141). -/

-- One proof at a time: many at once need a thread each, and the package as one text has 22 GiB for them all.
set_option Elab.async false

namespace Sys2Proof.Machine

/-! ## Operations since the last bus resets -/

theorem lastResets_reset (ops : List LinkOp) : lastResets (ops ++ [.ctl .reset]) = ((lastResets ops).2, []) := by
  simp [lastResets, List.foldl_append]

theorem lastResets_other {ops : List LinkOp} {op : LinkOp} (h : op ≠ .ctl .reset) :
    lastResets (ops ++ [op]) = ((lastResets ops).1, (lastResets ops).2 ++ [op]) := by
  simp [lastResets, List.foldl_append, h]

theorem cyclePhase_reset (ops : List LinkOp) :
    cyclePhase (ops ++ [.ctl .reset]) = if filledScratchpad (lastResets ops).2 then .verify else .write := by
  rw [cyclePhase, lastResets_reset]

theorem cyclePhase_other {ops : List LinkOp} {op : LinkOp} (h : op ≠ .ctl .reset) :
    cyclePhase (ops ++ [op]) = cyclePhase ops := by
  rw [cyclePhase, lastResets_other h, cyclePhase]

/-- The `Out`s among the operations since the last bus reset have these lengths. -/
def Sent (ls : List Nat) (ops : List LinkOp) : Prop := ops.filterMap LinkOp.outLength = ls

theorem Sent.quiet {ls : List Nat} {ops : List LinkOp} {op : LinkOp} (h : op.outLength = none) (hs : Sent ls ops) :
    Sent ls (ops ++ [op]) := by
  rw [Sent, List.filterMap_append, hs]
  simp [h]

theorem Sent.out {ls : List Nat} {ops : List LinkOp} {bytes : List Byte} (hs : Sent ls ops) :
    Sent (ls ++ [bytes.length]) (ops ++ [.bulkOut bytes]) := by
  rw [Sent, List.filterMap_append, hs]
  rfl

theorem Sent.write {ls : List Nat} {ops : List LinkOp} {bytes : List Byte} (hs : Sent ls ops) :
    Sent (ls ++ [bytes.length]) (ops ++ writeOps bytes) := by
  rw [Sent, List.filterMap_append, hs]
  rfl

/-- The second `Out` decides: another command than step 2's. -/
theorem Sent.notFilled {ls : List Nat} {ops : List LinkOp} (hs : Sent ls ops) (h : ls[1]? ≠ some 3) :
    filledScratchpad ops = false := by
  rw [filledScratchpad, hs]
  simp [h]

/-! ## Where a run stands -/

/-- `n` operations were issued before the command, and the last of them are `S` since the last bus reset; the phase is that of
R174. -/
structure Placed (p : Params) (n : Nat) (S : List LinkOp → Prop) (e : Eng) : Prop where
  params : e.params = p
  after : n ≤ e.regs.issued.length
  phase : e.locals.phase = cyclePhase (e.regs.issued.drop n)
  here : S (lastResets (e.regs.issued.drop n)).2

/-- The operations since the last bus reset are whole steps 1 to 3, or not; the phase may be any. -/
structure Ends (p : Params) (n : Nat) (filled : Bool) (e : Eng) : Prop where
  params : e.params = p
  after : n ≤ e.regs.issued.length
  filled : filledScratchpad (lastResets (e.regs.issued.drop n)).2 = filled

/-- The parameters and the operations before the command are still there. -/
structure Known (p : Params) (n : Nat) (e : Eng) : Prop where
  params : e.params = p
  after : n ≤ e.regs.issued.length

/-- `x` run from an engine of `A` returns to one of `B`; where it waits, but for a hard reset, the phase is that of R174 with
the operation it waits at. -/
def Marks {α : Type} (p : Params) (n : Nat) (A : Eng → Prop) (x : Prog α) (B : Eng → Prop) : Prop :=
  ∀ e, A e → match x e with
    | .ok _ e' => B e'
    | .raise _ e' => Known p n e'
    | .wait op e' => op ≠ .hardReset → e'.locals.phase = cyclePhase (e'.regs.issued.drop n ++ [op])
    | .fault _ => True

variable {α β : Type} {p : Params} {n : Nat} {A B C : Eng → Prop} {S T : List LinkOp → Prop}

theorem Placed.mono {e : Eng} (h : Placed p n S e) (hs : ∀ c, S c → T c) : Placed p n T e := { h with here := hs _ h.here }

theorem Placed.ends {e : Eng} {b : Bool} (h : Placed p n S e) (hs : ∀ c, S c → filledScratchpad c = b) : Ends p n b e :=
  ⟨h.params, h.after, hs _ h.here⟩

theorem Placed.known {e : Eng} (h : Placed p n S e) : Known p n e := ⟨h.params, h.after⟩

theorem Ends.known {e : Eng} {b : Bool} (h : Ends p n b e) : Known p n e := ⟨h.params, h.after⟩

theorem Marks.bind {x : Prog α} {f : α → Prog β} (hx : Marks p n A x B) (hf : ∀ a, Marks p n B (f a) C) :
    Marks p n A (x.bind f) C := by
  intro e h
  have h1 := hx e h
  cases hr : x e with
  | ok a e1 =>
    rw [hr] at h1
    rw [Prog.bind_ok hr]
    exact hf a e1 h1
  | raise c e1 => rw [hr] at h1; rw [Prog.bind_raise hr]; exact h1
  | wait op e1 => rw [hr] at h1; rw [Prog.bind_wait hr]; exact h1
  | fault f => rw [Prog.bind_fault hr]; trivial

theorem Marks.andThen {x : Prog Unit} {y : Prog β} (hx : Marks p n A x B) (hy : Marks p n B y C) :
    Marks p n A (x.andThen y) C := hx.bind fun _ => hy

theorem Marks.post {x : Prog α} (hx : Marks p n A x B) (h : ∀ e, B e → C e) : Marks p n A x C := by
  intro e he
  have h1 := hx e he
  cases hr : x e with
  | ok a e1 => rw [hr] at h1; exact h e1 h1
  | raise c e1 => rw [hr] at h1; exact h1
  | wait op e1 => rw [hr] at h1; exact h1
  | fault f => trivial

theorem Marks.pre {x : Prog α} (hx : Marks p n B x C) (h : ∀ e, A e → B e) : Marks p n A x C := fun e he => hx e (h e he)

theorem Marks.ret (a : α) : Marks p n A (Prog.ret a) A := fun _ h => h

theorem Marks.throw (c : Cond) (h : ∀ e, A e → Known p n e) : Marks p n A (Prog.raise c : Prog α) B := fun e he => h e he

theorem Marks.ask (f : Eng → α) : Marks p n A (Prog.ask f) A := fun _ h => h

theorem Marks.ite {q : Prop} [Decidable q] {x y : Prog α} (hx : Marks p n A x B) (hy : Marks p n A y B) :
    Marks p n A (if q then x else y) B := by
  split
  · exact hx
  · exact hy

theorem Marks.catch {x : Prog α} {h : Cond → Prog α} (hx : Marks p n A x B) (hh : ∀ c, Marks p n (Known p n) (h c) B) :
    Marks p n A (x.catch h) B := by
  intro e he
  have h1 := hx e he
  unfold Prog.catch
  cases hr : x e with
  | ok a e1 => rw [hr] at h1; exact h1
  | raise c e1 => rw [hr] at h1; exact hh c e1 h1
  | wait op e1 => rw [hr] at h1; exact h1
  | fault f => trivial

theorem Marks.setRegs (f : Regs → Regs) (h : ∀ r, (f r).issued = r.issued := by intro r; rfl) :
    Marks p n (Placed p n S) (Prog.setRegs f) (Placed p n S) := fun e he => by
  have hi : ({ e with regs := f e.regs } : Eng).regs.issued = e.regs.issued := h _
  exact ⟨he.params, by rw [hi]; exact he.after, by rw [hi]; exact he.phase, by rw [hi]; exact he.here⟩

theorem Marks.setRegs_ends {b : Bool} (f : Regs → Regs) (h : ∀ r, (f r).issued = r.issued := by intro r; rfl) :
    Marks p n (Ends p n b) (Prog.setRegs f) (Ends p n b) := fun e he => by
  have hi : ({ e with regs := f e.regs } : Eng).regs.issued = e.regs.issued := h _
  exact ⟨he.params, by rw [hi]; exact he.after, by rw [hi]; exact he.filled⟩

theorem Marks.setLocals (f : Locals → Locals) (h : ∀ l, (f l).phase = l.phase := by intro l; rfl) :
    Marks p n (Placed p n S) (Prog.setLocals f) (Placed p n S) := fun e he =>
  { he with phase := (h e.locals).trans he.phase }

theorem Marks.setLocals_ends {b : Bool} (f : Locals → Locals) : Marks p n (Ends p n b) (Prog.setLocals f) (Ends p n b) :=
  fun _ he => ⟨he.params, he.after, he.filled⟩

theorem Marks.loadBytes (a m : Nat) : Marks p n A (Machine.loadBytes a m) A := by
  intro e he
  unfold Machine.loadBytes
  cases e.regs.mem.readBytes a m with
  | ok bs => exact he
  | error x => trivial

/-! ## The link -/

theorem drop_concat {ops : List LinkOp} (op : LinkOp) (h : n ≤ ops.length) : (ops ++ [op]).drop n = ops.drop n ++ [op] :=
  List.drop_append_of_le_length h

/-- An operation that is no bus reset joins those since the last one. -/
theorem Marks.link {op : LinkOp} (hop : op ≠ .ctl .reset) :
    Marks p n (Placed p n S) (Machine.link op) (Placed p n fun c => ∃ c0, S c0 ∧ c = c0 ++ [op]) := by
  intro e he
  rcases link_cases op e with ⟨r, sc, g, h1⟩ | ⟨sc, g, -, h1⟩ | ⟨sc, h1, -⟩ <;> rw [h1]
  · refine ⟨he.params, ?_, ?_, ?_⟩
    · exact he.after.trans (by simp)
    · change e.locals.phase = cyclePhase ((e.regs.issued ++ [op]).drop n)
      rw [drop_concat _ he.after, cyclePhase_other hop]
      exact he.phase
    · change ∃ c0, _ ∧ (lastResets ((e.regs.issued ++ [op]).drop n)).2 = _
      rw [drop_concat _ he.after, lastResets_other hop]
      exact ⟨_, he.here, rfl⟩
  · exact ⟨he.params, he.after⟩
  · intro _
    change e.locals.phase = cyclePhase (e.regs.issued.drop n ++ [op])
    rw [cyclePhase_other hop]
    exact he.phase

theorem Marks.xfer {op : LinkOp} (hop : op ≠ .ctl .reset) :
    Marks p n (Placed p n S) (Machine.xfer op) (Placed p n fun c => ∃ c0, S c0 ∧ c = c0 ++ [op]) :=
  (Marks.link hop).bind fun a => by
    cases a with
    | ok d b => exact .ret _
    | fail => exact .throw _ fun _ h => h.known
    | timeout => exact .throw _ fun _ h => h.known

theorem Marks.send {op : LinkOp} (hop : op ≠ .ctl .reset := by simp) :
    Marks p n (Placed p n S) (Machine.send op) (Placed p n fun c => ∃ c0, S c0 ∧ c = c0 ++ [op]) :=
  (Marks.xfer hop).bind fun _ => .ret _

/-- An operation other than a bus reset or an `Out` leaves the `Out`s alone. -/
theorem Marks.quiet {x : Prog α} {op : LinkOp} {ls : List Nat} (h : op.outLength = none)
    (hx : Marks p n (Placed p n (Sent ls)) x (Placed p n fun c => ∃ c0, Sent ls c0 ∧ c = c0 ++ [op])) :
    Marks p n (Placed p n (Sent ls)) x (Placed p n (Sent ls)) :=
  hx.post fun _ he => he.mono fun _ ⟨_, hs, hc⟩ => hc ▸ hs.quiet h

theorem Marks.pollLoop (ls : List Nat) (m : Nat) :
    Marks p n (Placed p n (Sent ls)) (Machine.pollLoop m) (Placed p n (Sent ls)) := by
  induction m with
  | zero => exact .throw _ fun _ h => h.known
  | succ m ih => exact (Marks.quiet (op := .stat) rfl (.xfer (by simp))).bind fun _ => .ite ih (.ret _)

theorem Marks.bufferClear (ls : List Nat) :
    Marks p n (Placed p n (Sent ls)) Machine.bufferClear (Placed p n (Sent ls)) := (Marks.ask _).bind fun m => .pollLoop ls m

theorem Marks.hardResetLoop (ls : List Nat) (m : Nat) :
    Marks p n (Placed p n (Sent ls)) (Machine.hardResetLoop m) (Placed p n (Sent ls)) := by
  induction m with
  | zero => exact .ret _
  | succ m ih =>
    refine (Marks.quiet (op := .hardReset) rfl (.link (by simp))).bind fun a => ?_
    cases a with
    | ok d b => exact (Marks.setRegs _).andThen (.ret _)
    | fail => exact .ret _
    | timeout => exact ih

theorem Marks.afterReset (a : Reply) :
    Marks p n (Placed p n (Sent [])) (Machine.afterReset a) (Placed p n (Sent [])) := by
  have hf : Marks p n (Placed p n (Sent [])) (Machine.hardResetBounded.bind fun done =>
      if done then Machine.bufferClear else Prog.raise .transportError) (Placed p n (Sent [])) :=
    ((Marks.ask _).bind fun m => .hardResetLoop [] m).bind fun _ => .ite (.bufferClear _) (.throw _ fun _ h => h.known)
  cases a with
  | ok d b => exact .bufferClear _
  | fail => exact hf
  | timeout => exact hf

/-- `RomCommand`: one `Out`, the id (R110). -/
theorem Marks.romCommand (x : RomSel) (d : Bool) :
    Marks p n (Placed p n (Sent [])) (Machine.romCommand x d)
      (Placed p n fun c => ∃ m, Sent [m] c) := by
  refine (Marks.ask _).bind fun r => (Marks.quiet (op := .ctl (.rom r)) rfl .send).andThen ?_
  refine Marks.andThen ((Marks.quiet (op := .ctl (.speed d)) rfl .send).andThen (.setRegs _)) ?_
  exact (Marks.ask _).bind fun id => (Marks.send).post fun _ he => he.mono fun _ ⟨_, hs, hc⟩ => ⟨_, hc ▸ hs.out⟩

/-- The phase set for a bus reset is the one its step has (R141, R174). -/
theorem Marks.atReset {b : Bool} {ph : Phase} {d : Bool} {y : Prog β} (hph : ph = if b then .verify else .write)
    (hy : Marks p n (Placed p n fun c => ∃ m, Sent [m] c) y B) :
    Marks p n (Ends p n b) ((setPhase ph).andThen ((selectTarget d).andThen y)) B := by
  have hrest : ∀ a, Marks p n (Placed p n (Sent [])) ((Machine.afterReset a).andThen
      ((Machine.romCommand .matchRom d).andThen y)) B := fun a =>
    (Marks.afterReset a).andThen ((Marks.romCommand _ _).andThen hy)
  intro e he
  have heq : ((setPhase ph).andThen ((selectTarget d).andThen y)) e =
      ((Machine.link (.ctl .reset)).bind fun a => (Machine.afterReset a).andThen
        ((Machine.romCommand .matchRom d).andThen y)) (e.setLoc (e.locals.withPhase ph)) := by
    rw [setPhase_andThen]
    unfold selectTarget
    rw [busReset_eq]
    simp only [Prog.andThen, Prog.bind_assoc]
  rw [heq]
  have hnow : cyclePhase (e.regs.issued.drop n ++ [.ctl .reset]) = ph := by rw [cyclePhase_reset, he.filled, hph]
  rcases link_cases (.ctl .reset) (e.setLoc (e.locals.withPhase ph)) with ⟨r, sc, g, h1⟩ | ⟨sc, g, -, h1⟩ | ⟨sc, h1, -⟩
  · rw [Prog.bind_ok h1]
    refine hrest r _ ⟨he.params, he.after.trans (by simp), ?_, ?_⟩
    · change ph = cyclePhase ((e.regs.issued ++ [LinkOp.ctl .reset]).drop n)
      rw [drop_concat _ he.after, hnow]
    · change Sent [] (lastResets ((e.regs.issued ++ [LinkOp.ctl .reset]).drop n)).2
      rw [drop_concat _ he.after, lastResets_reset]
      rfl
  · rw [Prog.bind_raise h1]
    exact ⟨he.params, he.after⟩
  · rw [Prog.bind_wait h1]
    exact fun _ => hnow.symm

theorem Marks.writeWire (bytes : List Byte) :
    Marks p n (Placed p n S) (Machine.writeWire bytes true) (Placed p n fun c => ∃ c0, S c0 ∧ c = c0 ++ writeOps bytes) := by
  refine (Marks.send).andThen ((Marks.send).andThen ((Marks.send).post fun _ he => he.mono ?_))
  rintro _ ⟨_, ⟨_, ⟨c0, hs, rfl⟩, rfl⟩, rfl⟩
  exact ⟨c0, hs, by simp [writeOps]⟩

theorem Marks.readExact {ls : List Nat} (m : Nat) :
    Marks p n (Placed p n (Sent ls)) (Machine.readExact m) (Placed p n (Sent ls)) := by
  have hloop : ∀ fuel acc, Marks p n (Placed p n (Sent ls)) (Machine.readExactLoop m fuel acc) (Placed p n (Sent ls)) := by
    intro fuel
    induction fuel with
    | zero => exact fun acc => .ret _
    | succ fuel ih =>
      intro acc
      refine .ite (.ret _) ((Marks.ask _).bind fun c => ?_)
      refine Marks.bind ((Marks.quiet (op := .bulkIn _) rfl (.xfer (by simp))).bind fun _ => .ret _) fun d => ?_
      exact .ite (.throw _ fun _ h => h.known) ((Marks.setLocals _).andThen (ih _))
  exact (Marks.setLocals _).andThen (hloop _ _)

/-! ## The scratchpad cycle -/

/-- The second `Out` since the last bus reset is step 2's, and the last write is drained. -/
theorem Marks.writeSlices (sls : List (List Byte)) :
    Marks p n (Placed p n fun c => filledScratchpad c = true) (Machine.writeSlices sls)
      (Placed p n fun c => filledScratchpad c = true) := by
  induction sls with
  | nil => exact .ret _
  | cons sl sls ih =>
    refine ((Marks.writeWire sl).post fun _ he => he.mono ?_).andThen ih
    rintro _ ⟨c0, hs, rfl⟩
    rw [filledScratchpad, Bool.and_eq_true, beq_iff_eq] at hs ⊢
    refine ⟨?_, by simp [writeOps, LinkOp.isIn]⟩
    rw [List.filterMap_append, List.getElem?_append_left (List.getElem?_eq_some_iff.1 hs.1).1]
    exact hs.1

theorem Marks.fillScratchpad (off : Half) (data : List Byte) (d : Bool) :
    Marks p n (Ends p n false) (Machine.fillScratchpad off data d) (Ends p n true) := by
  refine .atReset rfl ((Marks.ask _).bind fun q => ?_)
  refine ((Marks.writeWire _).post fun _ he => he.mono ?_).andThen ((Marks.writeSlices _).post fun _ he => he.ends fun _ h => h)
  rintro _ ⟨c0, ⟨m, hs⟩, rfl⟩
  rw [filledScratchpad, hs.write]
  simp [writeOps, LinkOp.isIn]

theorem Marks.readScratchpad (m : Nat) (d : Bool) :
    Marks p n (Ends p n true) (Machine.readScratchpad m d) (Ends p n false) := by
  refine .atReset rfl ((Marks.ask _).bind fun q => ?_)
  refine Marks.andThen (B := Placed p n fun c => ∃ k, Sent [k, 1] c) ((Marks.writeWire _).post fun _ he => he.mono ?_) ?_
  · rintro _ ⟨c0, ⟨k, hs⟩, rfl⟩
    exact ⟨k, hs.write⟩
  · have hread : ∀ {x : Prog (List Byte)}, (∀ k, Marks p n (Placed p n (Sent [k, 1])) x (Placed p n (Sent [k, 1]))) →
        Marks p n (Placed p n fun c => ∃ k, Sent [k, 1] c) x (Ends p n false) := by
      intro x hx e he
      obtain ⟨k, hk⟩ := he.here
      exact (hx k).post (fun _ h => h.ends fun _ hs => hs.notFilled (by simp)) e { he with here := hk }
    exact hread fun k => .ite ((Marks.readExact _).bind fun _ => .readExact _) (.readExact _)

theorem Marks.copyScratchpad (off : Half) (m : Nat) (d : Bool) :
    Marks p n (Ends p n false) (Machine.copyScratchpad off m d) (Ends p n false) := by
  refine .atReset rfl ((Marks.ask _).bind fun q => (Marks.writeWire _).post fun _ he => he.ends ?_)
  rintro _ ⟨c0, ⟨k, hs⟩, rfl⟩
  exact hs.write.notFilled (by simp)

theorem Marks.cycleLoop (off : Half) (data : List Byte) (d : Bool) (fuel : Nat) :
    Marks p n (Ends p n false) (Machine.cycleLoop off data d fuel) (Ends p n false) := by
  induction fuel with
  | zero => exact .throw _ fun _ h => h.known
  | succ fuel ih =>
    refine (Marks.fillScratchpad _ _ _).andThen ((Marks.readScratchpad _ _).bind fun rb => .ite (.copyScratchpad _ _ _) ?_)
    exact (Marks.ask _).bind fun more => .ite ((Marks.setRegs_ends _).andThen ih) (.throw _ fun _ h => h.known)

theorem Marks.scratchpadCycle (off : Half) (data : List Byte) (d : Bool) :
    Marks p n (Ends p n false) (Machine.scratchpadCycle off data d) (Ends p n false) :=
  (Marks.ask _).bind fun _ => .cycleLoop _ _ _ _

theorem Marks.writePage (k : Nat) (d : Bool) : Marks p n (Ends p n false) (Machine.writePage k d) (Ends p n false) :=
  (Marks.loadBytes _ _).bind fun _ => .scratchpadCycle _ _ _

theorem Marks.writePages (d : Bool) (ks : List Nat) :
    Marks p n (Ends p n false) (Machine.writePages d ks) (Ends p n false) := by
  induction ks with
  | nil => exact .ret _
  | cons k ks ih => exact (Marks.setLocals_ends _).andThen ((Marks.writePage k d).andThen ih)

theorem Marks.diffPages (d : Bool) (ks : List Nat) :
    Marks p n (Ends p n false) (Machine.diffPages d ks) (Ends p n false) := by
  induction ks with
  | nil => exact .ret _
  | cons k ks ih =>
    exact (Marks.setLocals_ends _).andThen (Marks.andThen ((Marks.loadBytes _ _).bind fun _ =>
      (Marks.loadBytes _ _).bind fun _ => .ite (.ret _) (.scratchpadCycle _ _ _)) ih)

theorem Marks.writeallBody (f : Bool) : Marks p n (Ends p n false) (Machine.writeallBody f) (Ends p n false) :=
  (Marks.setLocals_ends _).andThen ((Marks.ask _).bind fun _ => (Marks.writePages _ _).andThen (.ret _))

theorem Marks.writediffBody (f : Bool) : Marks p n (Ends p n false) (Machine.writediffBody f) (Ends p n false) :=
  (Marks.setLocals_ends _).andThen ((Marks.ask _).bind fun _ => (Marks.diffPages _ _).andThen (.ret _))

/-! ## Error handling -/

/-- The epilogue's hard reset cuts steps 1 to 3 short (R172). -/
theorem Marks.epilogue (h : 1 ≤ p.hrAttempts) (b : Bool) :
    Marks p n (Known p n) (Machine.epilogue b) (Ends p n false) := by
  have hloop : ∀ m, Marks p n (Ends p n false) (Machine.hardResetLoop m) (Ends p n false) ∧
      Marks p n (Known p n) (Machine.hardResetLoop (m + 1)) (Ends p n false) := by
    have hlink : ∀ {A : Eng → Prop}, (∀ e, A e → Known p n e) →
        Marks p n A (Machine.link .hardReset) (Ends p n false) := by
      intro A hA e he
      obtain ⟨hp, ha⟩ := hA e he
      rcases link_cases .hardReset e with ⟨r, sc, g, h1⟩ | ⟨sc, g, -, h1⟩ | ⟨sc, h1, -⟩ <;> rw [h1]
      · refine ⟨hp, ha.trans (by simp), ?_⟩
        change filledScratchpad (lastResets ((e.regs.issued ++ [LinkOp.hardReset]).drop n)).2 = false
        rw [drop_concat _ ha, lastResets_other (by simp), filledScratchpad]
        simp [LinkOp.isIn]
      · exact ⟨hp, ha⟩
      · exact fun h => absurd rfl h
    have hstep : ∀ {A : Eng → Prop} {m : Nat}, (∀ e, A e → Known p n e) →
        Marks p n (Ends p n false) (Machine.hardResetLoop m) (Ends p n false) →
        Marks p n A (Machine.hardResetLoop (m + 1)) (Ends p n false) := by
      intro A m hA ih
      refine (hlink hA).bind fun a => ?_
      cases a with
      | ok d b => exact (Marks.setRegs_ends _).andThen (.ret _)
      | fail => exact .ret _
      | timeout => exact ih
    intro m
    induction m with
    | zero => exact ⟨.ret _, hstep (fun _ h => h) (.ret _)⟩
    | succ m ih => exact ⟨hstep (fun _ h => h.known) ih.1, hstep (fun _ h => h) (hstep (fun _ h => h.known) ih.1)⟩
  refine Marks.bind (B := Ends p n false) ?_ fun _ => .ite (.setRegs_ends _) (.ret _)
  intro e he
  have := (hloop (p.hrAttempts - 1)).2 e he
  rw [show p.hrAttempts - 1 + 1 = p.hrAttempts by omega] at this
  unfold Machine.hardResetBounded
  rw [Prog.ask_bind, he.params]
  exact this

/-- Without a bound on the hard reset nothing is known of the operations after it, and nothing waits there. -/
theorem Marks.errorCompletion (b : Bool) (c : Cond) :
    Marks p n (Known p n) (Machine.errorCompletion b c) fun _ => True := by
  intro e he
  cases hr : Machine.errorCompletion b c e with
  | ok a e1 => trivial
  | raise c1 e1 =>
    have hk := (Open.errorCompletion (P := fun _ => True) b c).keeps e e1 (by rw [hr]; rfl)
    exact ⟨hk.params.trans he.params, he.after.trans hk.grows⟩
  | wait op e1 => exact fun h => absurd (errorCompletion_waits hr) h
  | fault f => trivial

theorem Marks.guarded {body : Prog Completion} (h : Marks p n A body B) (b : Bool) :
    Marks p n A (Machine.guarded b body) fun _ => True := (h.post fun _ _ => trivial).catch fun c => .errorCompletion b c

theorem Marks.restarting {body : Prog Completion} (hr : 1 ≤ p.hrAttempts) (h : Marks p n (Ends p n false) body B)
    (fuel : Nat) : Marks p n (Ends p n false) (Machine.restarting body fuel) fun _ => True := by
  induction fuel with
  | zero => exact h.guarded false
  | succ fuel ih =>
    rw [restarting_succ]
    refine (h.post fun _ _ => trivial).catch fun c => .ite (.errorCompletion _ _) ?_
    exact (Marks.ask _).bind fun _ => (Marks.epilogue hr false).andThen <| (Marks.ask _).bind fun _ =>
      .ite ((Marks.setRegs_ends _).andThen ih) ((Marks.ret _).post fun _ _ => trivial)

theorem Marks.retried {body : Prog Completion} (hr : 1 ≤ p.hrAttempts) (h : Marks p n (Ends p n false) body B) :
    Marks p n (Ends p n false) (Machine.retried body) fun _ => True :=
  (Marks.setRegs_ends _).andThen ((Marks.ask _).bind fun m => .restarting hr h m)

/-! ## The commands -/

/-- What is said of an accepted command's body, of the command. -/
theorem Marks.accept {i : Instr} {body : Prog Completion} {s t : State} {op : LinkOp} {l : Locals} {entry : Regs}
    {got : List Move} (hb : Marks s.params s.issued.length (Ends s.params s.issued.length false) body B)
    (h : Machine.accept i body s = .next t) (hs : t.seq = .busy (.command i) op l entry got) (hop : op ≠ .hardReset) :
    l.phase = cyclePhase (t.issued.drop s.issued.length ++ [op]) := by
  have h0 := hb (s.eng false) ⟨rfl, Nat.le_refl _, by
    change filledScratchpad (lastResets (s.issued.drop s.issued.length)).2 = false
    rw [List.drop_length]
    rfl⟩
  unfold Machine.accept at h
  cases hu : usageError i s with
  | some c =>
    rw [hu] at h
    cases h
    cases hs
  | none =>
    rw [hu] at h
    simp only [] at h
    unfold runCommand at h
    cases hr : body (s.eng false) with
    | wait op' e =>
      rw [hr] at h h0
      cases h
      cases hs
      exact h0 hop
    | fault f =>
      rw [hr] at h
      cases h
    | _ =>
      rw [hr] at h
      cases h
      cases hs

/-- A writing command that waits, but for a hard reset, is in the phase R174 says. -/
theorem exec_cyclePhase {i : Instr} {s t : State} {op : LinkOp} {l : Locals} {entry : Regs} {got : List Move}
    (hi : i.opc = 0x30#8 ∨ i.opc = 0x31#8 ∨ (i.opc = 0x39#8 ∨ i.opc = 0x3A#8) ∧ 1 ≤ s.params.hrAttempts)
    (h : exec i s = .next t) (hs : t.seq = .busy (.command i) op l entry got) (hop : op ≠ .hardReset) :
    l.phase = cyclePhase (t.issued.drop s.issued.length ++ [op]) := by
  cases i with
  | pgWrite p d =>
    exact Marks.accept (.guarded ((Marks.setRegs_ends _).andThen ((Marks.setLocals_ends _).andThen
      ((Marks.writePage _ _).andThen (.ret _)))) false) h hs hop
  | rgWrite x y m =>
    exact Marks.accept (.guarded ((Marks.setRegs_ends _).andThen ((Marks.setLocals_ends _).andThen
      ((Marks.loadBytes _ _).bind fun _ => (Marks.scratchpadCycle _ _ _).andThen (.ret _)))) false) h hs hop
  | memWriteall f => exact Marks.accept (.retried (by simpa [Instr.opc] using hi) (.writeallBody f)) h hs hop
  | memWritediff f => exact Marks.accept (.retried (by simpa [Instr.opc] using hi) (.writediffBody f)) h hs hop
  | _ => simp [Instr.opc] at hi

end Sys2Proof.Machine
end

