-- ==== Sys2Proof/Laws/Port.lean ====
section
/-! SUPPORT. The host address map (spec/20_memory.md R41) and the accesses that are refused (R42, R45, R48). -/

namespace Sys2Proof.Machine

/-- `TXBUF`, `IMG_A` and `IMG_B`: the windows the host may write (R41). -/
theorem placeOf_writable {a : Half}
    (h : 0x0100 ≤ a.toNat ∧ a.toNat ≤ 0x01FF ∨ 0x2000 ≤ a.toNat ∧ a.toNat ≤ 0x5FFF) :
    placeOf a = some (.buffer true true) := by
  unfold placeOf
  simp only []
  iterate 12 rw [if_neg (by omega)]
  rcases h with h | h
  · rw [if_pos h]
  · iterate 3 rw [if_neg (by omega)]
    by_cases h1 : a.toNat ≤ 0x3FFF
    · rw [if_pos ⟨h.1, h1⟩]
    · rw [if_neg (by omega), if_pos (by omega)]

/-- `RXBUF` (R41). -/
theorem placeOf_rx {a : Half} (h : 0x0200 ≤ a.toNat ∧ a.toNat ≤ 0x02FF) : placeOf a = some (.buffer false true) := by
  unfold placeOf
  simp only []
  iterate 13 rw [if_neg (by omega)]
  rw [if_pos h]

/-- `DET` (R41). -/
theorem placeOf_det {a : Half} (h : 0x0400 ≤ a.toNat ∧ a.toNat ≤ 0x04FF) : placeOf a = some (.buffer false false) := by
  unfold placeOf
  simp only []
  iterate 14 rw [if_neg (by omega)]
  rw [if_pos h]

/-- An address outside every window at which no register starts is unmapped (R41, R48). -/
theorem placeOf_unmapped {a : Half}
    (hw : ¬(0x0100 ≤ a.toNat ∧ a.toNat ≤ 0x02FF ∨ 0x0400 ≤ a.toNat ∧ a.toNat ≤ 0x04FF ∨
      0x2000 ≤ a.toNat ∧ a.toNat ≤ 0x5FFF)) (hr : ¬(a.toNat ≤ 0x002C ∧ a.toNat % 4 = 0)) : placeOf a = none := by
  unfold placeOf
  simp only []
  iterate 17 rw [if_neg (by omega)]

/-- A register starts at every multiple of 4 up to 0x002C (R41, R42). -/
theorem placeOf_register {a : Half} (h : a.toNat ≤ 0x002C ∧ a.toNat % 4 = 0) :
    ∃ pl, placeOf a = some pl ∧ pl.width = .word := by
  obtain ⟨k, hk, hk'⟩ : ∃ k, k ≤ 11 ∧ a.toNat = 4 * k := ⟨a.toNat / 4, by omega, by omega⟩
  have ha : a = BitVec.ofNat 16 (4 * k) := by rw [← hk', BitVec.ofNat_toNat, BitVec.setWidth_eq]
  subst ha
  have all : ∀ k < 12, ∃ pl, placeOf (BitVec.ofNat 16 (4 * k)) = some pl ∧ pl.width = .word := by
    intro k hk
    iterate 12
      rcases k with _ | k
      · exact ⟨_, rfl, rfl⟩
    omega
  exact all k (by omega)

/-- A writable buffer byte lies in one of those windows, and the engine owns it (R41, R45). -/
theorem placeOf_buffer {a : Half} {o : Bool} (h : placeOf a = some (.buffer true o)) :
    o = true ∧ (0x0100 ≤ a.toNat ∧ a.toNat ≤ 0x01FF ∨ 0x2000 ≤ a.toNat ∧ a.toNat ≤ 0x5FFF) := by
  by_cases hw : 0x0100 ≤ a.toNat ∧ a.toNat ≤ 0x01FF ∨ 0x2000 ≤ a.toNat ∧ a.toNat ≤ 0x5FFF
  · rw [placeOf_writable hw] at h
    cases h
    exact ⟨rfl, hw⟩
  by_cases hr : 0x0200 ≤ a.toNat ∧ a.toNat ≤ 0x02FF
  · rw [placeOf_rx hr] at h
    cases h
  by_cases hd : 0x0400 ≤ a.toNat ∧ a.toNat ≤ 0x04FF
  · rw [placeOf_det hd] at h
    cases h
  unfold placeOf at h
  simp only [] at h
  iterate 12
    obtain ⟨-, h⟩ | ⟨-, h⟩ := ite_eq_iff.1 h
    · cases h
  rw [if_neg (by omega), if_neg (by omega), if_neg (by omega), if_neg (by omega), if_neg (by omega)] at h
  cases h

/-- A page count as written stays in its range (R48). -/
theorem npagesField_le {old new : BitVec 9} (h : old.toNat ≤ 256) : (npagesField old new).toNat ≤ 256 := by
  unfold npagesField
  split
  · assumption
  · exact h

/-- What an access that is not refused has shown (R42, R45). -/
theorem accessRefusal_none {s : State} {a : Half} {n : Width} {pl : Place} (hp : placeOf a = some pl)
    (h : accessRefusal s a n = none) : n = pl.width ∧ (pl.owned = true → s.lock = false) := by
  unfold accessRefusal at h
  rw [hp] at h
  simp only [] at h
  split at h
  · cases h
  split at h
  · cases h
  split at h
  · cases h
  split at h
  · cases h
  · rename_i _ h1 _ h2
    refine ⟨by simpa using h1, fun ho => ?_⟩
    simpa [ho] using h2

/-- An aligned access of the right width, to an existing entry and not while the engine owns the place, is not refused
(R42, R44, R45, R48). -/
theorem accessRefusal_of {s : State} {a : Half} {n : Width} {pl : Place} (hp : placeOf a = some pl)
    (hw : n = pl.width) (ha : n = .word → a.toNat % 4 = 0)
    (hd : pl = .buffer false false → (a.toNat - 0x0400) / 8 < s.params.maxDev) (ho : pl.owned = true → s.lock = false) :
    accessRefusal s a n = none := by
  unfold accessRefusal
  rw [hp]
  simp only []
  rw [if_neg (by rintro ⟨h1, h2⟩; exact h2 (ha h1)), if_neg (by simpa using hw),
    if_neg (by rintro ⟨h1, h2⟩; have := hd h1; omega), if_neg]
  cases h : pl.owned with
  | true => simp [ho h]
  | false => simp

/-- A read of a register (R41, R47). -/
theorem hostMemRead_register {s : State} {a : Half} {n : Width} {pl : Place} {v : Word} (hp : placeOf a = some pl)
    (ha : accessRefusal s a n = none) (hv : registerValue s pl = some v) :
    hostMemRead a n s = .next { s with hostRead := some v } := by
  unfold hostMemRead
  rw [ha, hp]
  cases pl with
  | buffer w o => cases hv
  | _ => simp only [hv]

/-- A read of a buffer byte (R31, R41). -/
theorem hostMemRead_buffer {s : State} {a : Half} {n : Width} {w o : Bool} (hp : placeOf a = some (.buffer w o))
    (ha : accessRefusal s a n = none) :
    (∀ b, s.mem.read? a.toNat = some b → hostMemRead a n s = .next { s with hostRead := some (b.setWidth 32) }) ∧
    (s.mem.read? a.toNat = none → hostMemRead a n s = .fault (.unwritten a.toNat)) := by
  unfold hostMemRead
  rw [ha, hp]
  exact ⟨fun b hb => by simp only [hb], fun hb => by simp only [hb]⟩

/-- A write of a register's value, and of one that is read only (R41, R48). -/
theorem hostMemWrite_register {s : State} {a : Half} {n : Width} {v : Word} {pl : Place} (hp : placeOf a = some pl)
    (ha : accessRefusal s a n = none) (hc : pl ≠ .cmd) (hb : ∀ o, pl ≠ .buffer true o) :
    (∀ t, writeRegister s v pl = some t → hostMemWrite a n v s = .next t) ∧
    (writeRegister s v pl = none → hostMemWrite a n v s = .refused (.readOnly a)) := by
  unfold hostMemWrite
  rw [ha, hp]
  cases pl with
  | cmd => exact absurd rfl hc
  | buffer w o =>
    cases w with
    | true => exact absurd rfl (hb o)
    | false => exact ⟨fun t ht => (nomatch ht), fun _ => rfl⟩
  | _ => exact ⟨fun t ht => by simp only [ht], fun ht => by simp only [ht]⟩

/-- A write of a buffer byte (R41). -/
theorem hostMemWrite_buffer {s : State} {a : Half} {n : Width} {v : Word} {o : Bool}
    (hp : placeOf a = some (.buffer true o)) (ha : accessRefusal s a n = none) :
    hostMemWrite a n v s = .next { s with mem := s.mem.write a.toNat (v.extractLsb' 0 8) } := by
  unfold hostMemWrite
  rw [ha, hp]

/-- An access that is refused (R42, R45, R48). -/
theorem access_refused {s : State} {a : Half} {n : Width} {r : Refusal} (h : accessRefusal s a n = some r) :
    hostMemRead a n s = .refused r ∧ ∀ v, hostMemWrite a n v s = .refused r := by
  unfold hostMemRead hostMemWrite
  rw [h]
  exact ⟨rfl, fun _ => rfl⟩

/-! ## One step -/

theorem step_cons {s : State} {m : Move} {rest : List Move} (h : s.inputs = m :: rest) :
    step s = applyMove m { s with inputs := rest } := by
  unfold step takeMove
  rw [h]

theorem step_nil {s : State} (h : s.inputs = []) : step s = acceptHeld s := by
  unfold step takeMove
  rw [h]

/-- A write to CMD reaches the port whatever the lock is (R43, R44). -/
theorem hostMemWrite_cmd (w : Word) (s : State) : hostMemWrite 0x0000#16 .word w s = writeCmd w s := by
  have h : accessRefusal s 0x0000#16 .word = none :=
    accessRefusal_of (pl := .cmd) (by decide) rfl (fun _ => by decide) (by simp) (by simp [Place.owned])
  unfold hostMemWrite
  rw [h, show placeOf 0x0000#16 = some .cmd by decide]

theorem step_cmd {s : State} {w : Word} {rest : List Move} (h : s.inputs = cmdMove w :: rest) :
    step s = writeCmd w { s with inputs := rest } := by
  rw [step_cons h]
  exact hostMemWrite_cmd w _

/-- Acceptance of the oldest held word (R43). -/
theorem acceptHeld_free {s : State} {w : Word} {ws : List Word} (hl : s.lock = false) (hp : s.port = w :: ws) :
    acceptHeld s = acceptWord w { s with port := ws } := by
  unfold acceptHeld
  rw [hl, hp]

/-- While `LOCK=1` the arbiter's move leaves everything as it is (R43, R62). -/
theorem acceptHeld_locked {s : State} (hl : s.lock = true) : acceptHeld s = .next s := by
  unfold acceptHeld
  rw [hl]

/-- What `offer` answers where `f` gives a next state. -/
theorem offer_next {ms rest : List Move} {f : State → Host.Outcome State Fault Refusal} {s t : State}
    (h : f { s with inputs := ms } = .next t) : offer ms rest f s = .next { t with inputs := t.inputs ++ rest } := by
  unfold offer
  rw [h]

/-- The ways `offer` ends are those of what it runs. -/
theorem offer_next_cases {ms rest : List Move} {f : State → Host.Outcome State Fault Refusal} {s t : State}
    (h : offer ms rest f s = .next t) :
    ∃ u, f { s with inputs := ms } = .next u ∧ t = { u with inputs := u.inputs ++ rest } := by
  unfold offer at h
  cases hf : f { s with inputs := ms } with
  | next u =>
    rw [hf] at h
    cases h
    exact ⟨u, rfl, rfl⟩
  | fault x => rw [hf] at h; cases h
  | refused x => rw [hf] at h; cases h

theorem offer_refused {ms rest : List Move} {f : State → Host.Outcome State Fault Refusal} {s : State} {r : Refusal}
    (h : offer ms rest f s = .refused r) : f { s with inputs := ms } = .refused r := by
  unfold offer at h
  cases hf : f { s with inputs := ms } with
  | next u => rw [hf] at h; cases h
  | fault x => rw [hf] at h; cases h
  | refused x => rw [hf] at h; cases h; rfl

/-- A step that answers a suspended job, or declares PassTimeout to it (R28, log 3). -/
theorem step_suspended (s : State) (job : Job) (op : LinkOp) (e : Eng) (m : Move) (rest : List Move)
    (hm : m = .passTimeout ∨ ∃ r, m = .reply r) :
    step { s.suspend job op e with inputs := m :: rest } =
      offer (e.got ++ [m]) rest job.run { s with lock := false, seq := .idle } := by
  have h : step { s.suspend job op e with inputs := m :: rest } =
      answerMove m { s.suspend job op e with inputs := rest } := by
    rw [step_cons (s := { s.suspend job op e with inputs := m :: rest }) rfl]
    rcases hm with rfl | ⟨r, rfl⟩ <;> rfl
  rw [h]
  rfl

/-! ## Several steps -/

theorem run_step (M : Host.Core) (k : Nat) (s : M.State) :
    M.run (k + 1) s = match M.step s with
      | .next s' => M.run k s'
      | .fault r => .fault r
      | .refused r => .refused r := rfl

theorem run_succ {k : Nat} {s t : State} (h : step s = .next t) : core.run (k + 1) s = core.run k t := by
  have h1 : core.step s = .next t := h
  exact (run_step core k s).trans (by rw [h1])

theorem run_snoc {k : Nat} {s t u : State} (h : core.run k s = .next t) (h2 : step t = .next u) :
    core.run (k + 1) s = .next u := by
  induction k generalizing s with
  | zero =>
    cases h
    exact run_succ h2
  | succ k ih =>
    have h1 := run_step core k s
    cases hs : core.step s with
    | next s' =>
      rw [run_succ hs] at h ⊢
      exact ih h
    | fault r =>
      rw [hs] at h1
      rw [h1] at h
      cases h
    | refused r =>
      rw [hs] at h1
      rw [h1] at h
      cases h

end Sys2Proof.Machine
end

