-- ==== Sys2Proof/Laws/Replay.lean ====
section
/-! SUPPORT. Acceptance clears DONE once and for all, and a command whose environment only answers consumes the answers
in order: where it waits it has consumed them all (R61). -/

namespace Sys2Proof.Machine

theorem State.clearDone_clearDone (s : State) : s.clearDone.clearDone = s.clearDone := by
  unfold State.clearDone clearFlags
  simp [BitVec.and_assoc]

/-- A state in which DONE is already clear is accepted like the one before (R43). -/
theorem accept_clearDone (i : Instr) (body : Prog Completion) (s : State) :
    accept i body s.clearDone = accept i body s := by
  unfold accept completeNow runCommand
  rw [State.clearDone_clearDone]
  rfl

theorem completeNow_clearDone (opc : Byte) (c : Completion) (s : State) :
    completeNow opc c s.clearDone = completeNow opc c s := by
  unfold completeNow
  rw [State.clearDone_clearDone]

/-- The same for every command. -/
theorem exec_clearDone (i : Instr) (s : State) : exec i s.clearDone = exec i s := by
  by_cases hb : Instr.usesBus i = true
  · obtain ⟨body, h, -⟩ := exec_bus i hb
    by_cases hc : i = .close → s.lc ≠ .closed
    · rw [h s hc, h s.clearDone hc, accept_clearDone]
    · push Not at hc
      obtain ⟨rfl, hc⟩ := hc
      change execClose s.clearDone = execClose s
      unfold execClose
      rw [if_pos hc, if_pos (show s.clearDone.lc = .closed from hc), completeNow_clearDone]
  · cases i with
    | srchStart =>
      change execSrchStart s.clearDone = execSrchStart s
      unfold execSrchStart
      rw [show usageError .srchStart s.clearDone = usageError .srchStart s from rfl]
      cases usageError .srchStart s with
      | some c => exact completeNow_clearDone _ _ _
      | none => exact completeNow_clearDone _ _ { s with searching := true }
    | crc16Clr => exact completeNow_clearDone _ _ { s with crc16 := s.params.crc16Init }
    | crc16Byte v => exact completeNow_clearDone _ _ { s with crc16 := crc16Step s.crc16 v }
    | crc16Chk p =>
      change execCrc16Chk p s.clearDone = execCrc16Chk p s
      unfold execCrc16Chk onPage
      rw [State.clearDone_mem]
      cases s.mem.readBytes (imgAAddr p.toNat 0) Config.pageBytes with
      | error a => rfl
      | ok pg =>
        simp only []
        split
        · exact completeNow_clearDone _ _ _
        · exact completeNow_clearDone _ _ { s with crc16 := crc16 pg s.params.crc16Init }
    | crc16Gen p =>
      change execCrc16Gen p s.clearDone = execCrc16Gen p s
      unfold execCrc16Gen onPage
      rw [State.clearDone_mem]
      cases s.mem.readBytes (imgAAddr p.toNat 0) Config.pageBytes with
      | error a => rfl
      | ok pg =>
        simp only []
        split
        · exact completeNow_clearDone _ _ _
        · exact completeNow_clearDone _ _ { s with
            crc16 := crc16 (pg.take Config.crcDataBytes) s.params.crc16Init
            mem := s.mem.writeBytes (imgAAddr p.toNat 30)
              (crcBytes (crc16 (pg.take Config.crcDataBytes) s.params.crc16Init)) }
    | _ => exact absurd rfl hb

/-- Moves that all answer. -/
def OnlyReplies (ms : List Move) : Prop := ∀ m ∈ ms, ∃ q, m = .reply q

/-- The law that answers are consumed in order, and all of them where a run waits. -/
def Law.replies : Law where
  R e e' := e'.params = e.params ∧
    (OnlyReplies e.script → OnlyReplies e'.script ∧ e'.got ++ e'.script = e.got ++ e.script)
  W e e' := e'.params = e.params ∧ (OnlyReplies e.script → e'.script = [] ∧ e'.got = e.got ++ e.script)
  F _ _ := True

theorem Law.replies_same {e e' : Eng} (h1 : e'.params = e.params) (h2 : e'.script = e.script) (h3 : e'.got = e.got) :
    Law.replies.R e e' := ⟨h1, fun h => by rw [h2, h3]; exact ⟨h, rfl⟩⟩

theorem Law.replies_link (op : LinkOp) : Within Law.replies (link op) := by
  intro e
  unfold Runs
  by_cases h : OnlyReplies e.script
  · cases hs : e.script with
    | nil =>
      rw [link_wait hs]
      exact ⟨rfl, fun _ => ⟨hs, by simp [hs]⟩⟩
    | cons m rest =>
      rw [hs] at h
      obtain ⟨q, rfl⟩ := h m (by simp)
      rw [link_reply hs]
      refine ⟨⟨rfl, fun _ => ⟨fun m hm => h m (List.mem_cons_of_mem _ hm), ?_⟩⟩, trivial⟩
      rw [hs]
      simp
  · rcases link_cases op e with ⟨r, sc, g, h1⟩ | ⟨sc, g, -, h1⟩ | ⟨sc, h1, -⟩
    · rw [h1]
      exact ⟨⟨rfl, fun h2 => absurd h2 h⟩, trivial⟩
    · rw [h1]
      exact ⟨rfl, fun h2 => absurd h2 h⟩
    · rw [h1]
      exact ⟨rfl, fun h2 => absurd h2 h⟩

theorem Law.replies_delivers : Law.replies.Delivers where
  refl _ := Law.replies_same rfl rfl rfl
  trans h1 h2 := ⟨h2.1.trans h1.1, fun h => by
    obtain ⟨h3, h4⟩ := h1.2 h
    obtain ⟨h5, h6⟩ := h2.2 h3
    exact ⟨h5, h6.trans h4⟩⟩
  transW h1 h2 := ⟨h2.1.trans h1.1, fun h => by
    obtain ⟨h3, h4⟩ := h1.2 h
    obtain ⟨h5, h6⟩ := h2.2 h3
    exact ⟨h5, h6.trans h4⟩⟩
  transF _ _ := trivial
  link := Law.replies_link
  locals _ _ := Law.replies_same rfl rfl rfl
  params h := h.1
  spdLost _ := Law.replies_same rfl rfl rfl
  spdSet _ _ := Law.replies_same rfl rfl rfl
  lastDevice _ := Law.replies_same rfl rfl rfl
  romId _ _ := Law.replies_same rfl rfl rfl
  found _ _ _ := Law.replies_same rfl rfl rfl
  init _ := Law.replies_same rfl rfl rfl
  deliver _ _ _ _ := Law.replies_same rfl rfl rfl

/-- Every command's body obeys it. -/
theorem Law.replies_allows (i : Instr) : Law.replies.Allows i := by
  have hL := Law.replies_delivers
  have hw : Law.replies.Writes := {
    hL with
    firstAttempt := fun _ => Law.replies_same rfl rfl rfl
    nextAttempt := fun _ _ => Law.replies_same rfl rfl rfl
    load := fun _ _ _ _ => trivial
    lax := fun _ _ => .inr fun _ _ => trivial }
  cases i with
  | claim => exact { hL with claimed := fun _ => Law.replies_same rfl rfl rfl }
  | close => exact ⟨hL.toClosed, fun _ => Law.replies_same rfl rfl rfl⟩
  | srchStart => exact trivial
  | owReset => exact hL.toLine
  | owSpeed f => exact hL.toLine
  | owWbit f => exact hL.toLine
  | owRbit => exact hL.toLine
  | owWrite n c => exact ⟨hL.toLine, fun _ _ _ _ => trivial⟩
  | owRead n => exact ⟨hL.toLine, fun _ _ _ => Law.replies_same rfl rfl rfl⟩
  | owRom s d => exact hL.toLine
  | srchFirst => exact hL.toSearch
  | srchNext => exact hL.toSearch
  | srchEnum => exact hL
  | pgWrite p d => exact hw
  | rgWrite h l n => exact hw
  | memReadall f =>
    exact ⟨{ hw with
      page := fun _ _ _ _ _ => Law.replies_same rfl rfl rfl
      note := fun _ _ _ _ _ => Law.replies_same rfl rfl rfl
      npages := fun _ => Law.replies_same rfl rfl rfl }, fun _ _ h => h⟩
  | memWriteall f => exact hw
  | memWritediff f => exact hw
  | crc16Clr => exact trivial
  | crc16Byte v => exact trivial
  | crc16Chk p => exact trivial
  | crc16Gen p => exact trivial

/-- A command that waits has consumed the answers it was given, and has kept them (R28, R61). -/
theorem exec_waits {i : Instr} {s t : State} {ms : List Move} (hms : OnlyReplies ms)
    (h : exec i { s with inputs := ms } = .next t) (hl : t.lock = true) :
    t.inputs = [] ∧ ∃ op l, t.seq = .busy (.command i) op l s.toRegs ms := by
  by_cases hb : Instr.usesBus i = true
  · by_cases hc : i = .close → s.lc ≠ .closed
    · rcases exec_next (s := { s with inputs := ms }) hb (Law.replies_allows i) hc h with
        ⟨c, -, rfl⟩ | ⟨-, c, e, hR, rfl⟩ | ⟨-, op, e, hR, rfl⟩
      · cases hl
      · cases hl
      · obtain ⟨h1, h2⟩ := hR.2 hms
        have h3 : e.got = ms := by rw [h2]; rfl
        exact ⟨h1, op, e.locals, by rw [← h3]; rfl⟩
    · push Not at hc
      obtain ⟨rfl, hc⟩ := hc
      have : exec .close { s with inputs := ms } =
          completeNow Instr.close.opc ⟨.ok, .noPhase, 0⟩ { s with inputs := ms } := if_pos hc
      rw [this] at h
      cases h
      cases hl
  · rcases exec_noBus i (by simpa using hb) { s with inputs := ms } with ⟨c, s1, -, h1⟩ | ⟨x, -, -, -, h1⟩
    · rw [h1] at h
      cases h
      cases hl
    · rw [h1] at h
      cases h

theorem Law.replies_background : Law.replies.Background where
  toDelivers := Law.replies_delivers
  untimed _ := Law.replies_same rfl rfl rfl
  srchErr _ := Law.replies_same rfl rfl rfl

/-- The same for a background pass. -/
theorem runBackground_waits {s t : State} {ms : List Move} (hms : OnlyReplies ms)
    (h : runBackground { s with inputs := ms } = .next t) (hl : t.lock = true) :
    t.inputs = [] ∧ ∃ op l, t.seq = .busy .background op l s.toRegs ms := by
  rcases runBackground_cases { s with inputs := ms } Law.replies_background with
    ⟨e, -, h1⟩ | ⟨op, e, -, hR, h1⟩ | ⟨f, -, h1⟩
  · rw [h1] at h
    cases h
    cases hl
  · rw [h1] at h
    cases h
    obtain ⟨h2, h3⟩ := hR.2 hms
    have h4 : e.got = ms := by rw [h3]; rfl
    exact ⟨h2, op, e.locals, by rw [← h4]; rfl⟩
  · rw [h1] at h
    cases h

/-- A command takes no word from the port (R43, R61). -/
theorem exec_port {i : Instr} {s t : State} (h : exec i s = .next t) : t.port = s.port := by
  by_cases hb : Instr.usesBus i = true
  · by_cases hc : i = .close → s.lc ≠ .closed
    · rcases exec_next hb (Law.replies_allows i) hc h with ⟨c, -, rfl⟩ | ⟨-, c, e, -, rfl⟩ | ⟨-, op, e, -, rfl⟩ <;> rfl
    · push Not at hc
      obtain ⟨rfl, hc⟩ := hc
      rw [show exec .close s = completeNow Instr.close.opc ⟨.ok, .noPhase, 0⟩ s from if_pos hc] at h
      cases h
      rfl
  · rcases exec_noBus i (by simpa using hb) s with ⟨c, s1, hs1, h1⟩ | ⟨x, -, -, -, h1⟩
    · rw [h1] at h
      cases h
      rcases hs1 with rfl | ⟨-, rfl⟩ | ⟨-, -, r, rfl⟩ | ⟨p, r, bs, -, -, rfl⟩ <;> rfl
    · rw [h1] at h
      cases h

/-- Nor does a job in progress. -/
theorem job_port {j : Job} {s t : State} (h : j.run s = .next t) : t.port = s.port := by
  cases j with
  | command i => exact exec_port h
  | background =>
    change runBackground s = _ at h
    rcases runBackground_cases s Law.replies_background with ⟨e, -, h1⟩ | ⟨op, e, -, -, h1⟩ | ⟨f, -, h1⟩ <;>
      rw [h1] at h <;> cases h <;> rfl

end Sys2Proof.Machine
end

