-- ==== Sys2Proof/Laws/Received.lean ====
section
/-! SUPPORT. The bytes MEM_READALL notes as received for `IMG_A` are among those its answers carried for it
(spec/44_memory_ops.md R151, 93 U6). -/

namespace Sys2Proof.Machine

/-- Where `receivedFor` stands after the operations `zs`. -/
def posAfter : Option Nat → List (LinkOp × Reply) → Option Nat
  | pos, [] => pos
  | _, (.ctl .reset, _) :: zs => posAfter none zs
  | none, (.bulkIn _, .ok _ _) :: zs => posAfter (some 0x2000) zs
  | some a, (.bulkIn n, .ok d _) :: zs => posAfter (some (a + (d.take n).length)) zs
  | pos, _ :: zs => posAfter pos zs

theorem receivedFor_append (pos : Option Nat) (xs ys : List (LinkOp × Reply)) :
    receivedFor pos (xs ++ ys) = receivedFor pos xs ++ receivedFor (posAfter pos xs) ys := by
  fun_induction receivedFor pos xs with
  | case1 => rfl
  | case2 pos r zs ih => simpa [receivedFor, posAfter] using ih
  | case3 n d b zs ih => simpa [receivedFor, posAfter] using ih
  | case4 a n d b zs ih =>
    rw [List.cons_append, receivedFor, posAfter, ih, List.append_assoc]
  | case5 pos z zs h1 h2 h3 ih =>
    rw [List.cons_append, receivedFor, posAfter, ih]
    all_goals assumption

theorem posAfter_append (pos : Option Nat) (xs ys : List (LinkOp × Reply)) :
    posAfter pos (xs ++ ys) = posAfter (posAfter pos xs) ys := by
  fun_induction posAfter pos xs with
  | case1 => rfl
  | case2 pos r zs ih => simpa [posAfter] using ih
  | case3 n d b zs ih => simpa [posAfter] using ih
  | case4 a n d b zs ih =>
    rw [List.cons_append, posAfter, ih]
  | case5 pos z zs h1 h2 h3 ih =>
    rw [List.cons_append, posAfter, ih]
    all_goals assumption

/-- An operation that is neither a bus reset nor a bulk-in carries no byte for `IMG_A`. -/
def LinkOp.neutral : LinkOp → Bool
  | .ctl .reset => false
  | .bulkIn _ => false
  | _ => true

theorem received_neutral {op : LinkOp} (h : op.neutral = true) (pos : Option Nat) (r : Reply) :
    receivedFor pos [(op, r)] = [] ∧ posAfter pos [(op, r)] = pos := by
  cases op with
  | ctl c => cases c <;> first | (cases h; done) | (cases pos <;> exact ⟨rfl, rfl⟩)
  | bulkIn n => cases h
  | _ => cases pos <;> exact ⟨rfl, rfl⟩

/-! ## Traces -/

/-- From `e0` to `e` the operations `zs` were issued and answered, and only answers are still to come. -/
structure Traced (e0 : Eng) (zs : List (LinkOp × Reply)) (e : Eng) : Prop where
  issued : e.regs.issued = e0.regs.issued ++ zs.map (·.1)
  script : e0.script = zs.map (fun z => .reply z.2) ++ e.script
  replies : OnlyReplies e.script

/-- Every byte noted as received was carried by the operations `zs`. -/
def Sound (zs : List (LinkOp × Reply)) (m : Memory) : Prop := ∀ c ∈ m, c ∈ receivedFor none zs

/-- The run from `e0` to `e` noted only bytes it was given for `IMG_A`; `pos` is where the chip's data stands. -/
def Noted (e0 : Eng) (pos : Option Nat) (e : Eng) : Prop :=
  ∃ zs, Traced e0 zs e ∧ Sound zs e.received ∧ posAfter none zs = pos

/-- The same at some position. -/
def NotedSomewhere (e0 e : Eng) : Prop := ∃ pos, Noted e0 pos e

/-- `x` run where the data stands at `pre` returns with it at `post`, and however it ends has noted only
bytes given; a condition leaves it only if it `may`. -/
def Notes {α : Type} (may : Prop) (pre post : Option Nat) (x : Prog α) : Prop :=
  ∀ e0 e, Noted e0 pre e → match x e with
    | .ok _ e' => Noted e0 post e'
    | .raise _ e' => may ∧ NotedSomewhere e0 e'
    | .wait _ _ => True
    | .fault _ => True

/-- `x` moves no data for `IMG_A`. -/
def Quiet {α : Type} (may : Prop) (x : Prog α) : Prop := ∀ pos, Notes may pos pos x

variable {α β : Type} {may : Prop}

theorem Notes.bind {x : Prog α} {f : α → Prog β} {p q t : Option Nat} (hx : Notes may p q x) (hf : ∀ a, Notes may q t (f a)) :
    Notes may p t (x.bind f) := by
  intro e0 e h
  have h1 := hx e0 e h
  cases hr : x e with
  | ok a e1 =>
    rw [hr] at h1
    rw [Prog.bind_ok hr]
    exact hf a e0 e1 h1
  | raise c e1 =>
    rw [hr] at h1
    rw [Prog.bind_raise hr]
    exact h1
  | wait op e1 => rw [Prog.bind_wait hr]; trivial
  | fault f => rw [Prog.bind_fault hr]; trivial

theorem Notes.andThen {x : Prog Unit} {y : Prog β} {p q t : Option Nat} (hx : Notes may p q x) (hy : Notes may q t y) :
    Notes may p t (x.andThen y) := hx.bind fun _ => hy

theorem Quiet.bind {x : Prog α} {f : α → Prog β} (hx : Quiet may x) (hf : ∀ a, Quiet may (f a)) : Quiet may (x.bind f) :=
  fun pos => (hx pos).bind fun a => hf a pos

theorem Quiet.andThen {x : Prog Unit} {y : Prog β} (hx : Quiet may x) (hy : Quiet may y) : Quiet may (x.andThen y) :=
  hx.bind fun _ => hy

theorem Quiet.ret (a : α) : Quiet may (Prog.ret a) := fun _ _ _ h => h

theorem Quiet.throw (c : Cond) : Quiet True (Prog.raise c : Prog α) := fun pos _ _ h => ⟨trivial, pos, h⟩

theorem Quiet.ask (f : Eng → α) : Quiet may (Prog.ask f) := fun _ _ _ h => h

theorem Quiet.ite {p : Prop} [Decidable p] {x y : Prog α} (hx : Quiet may x) (hy : Quiet may y) : Quiet may (if p then x else y) := by
  split
  · exact hx
  · exact hy

/-- A change that leaves the operations issued alone. -/
theorem Quiet.setRegs (f : Regs → Regs) (h : ∀ r, (f r).issued = r.issued := by intro r; rfl) :
    Quiet may (Prog.setRegs f) := fun _ _ e ⟨zs, ht, hs, hp⟩ =>
  ⟨zs, ⟨(h e.regs).trans ht.issued, ht.script, ht.replies⟩, hs, hp⟩

theorem Quiet.setLocals (f : Locals → Locals) : Quiet may (Prog.setLocals f) := fun _ _ _ ⟨zs, ht, hs, hp⟩ =>
  ⟨zs, ⟨ht.issued, ht.script, ht.replies⟩, hs, hp⟩

/-- `Link` where only answers are to come: it waits, or adds one operation with its answer (R52). -/
theorem link_traced {e0 e : Eng} {zs : List (LinkOp × Reply)} (op : LinkOp) (h : Traced e0 zs e) :
    (∃ e', link op e = .wait op e') ∨
      ∃ r e', link op e = .ok r e' ∧ Traced e0 (zs ++ [(op, r)]) e' ∧ e'.received = e.received ∧
        e'.locals = e.locals := by
  cases hs : e.script with
  | nil => exact .inl ⟨e, link_wait hs⟩
  | cons m rest =>
    obtain ⟨r, rfl⟩ := h.replies m (by simp [hs])
    refine .inr ⟨r, _, link_reply hs, ⟨?_, ?_, fun m hm => h.replies m (by rw [hs]; exact List.mem_cons_of_mem _ hm)⟩,
      rfl, rfl⟩
    · simp [h.issued]
    · rw [h.script, hs]
      simp

/-- The same with what was noted: the bytes and the position move as `receivedFor` says. -/
theorem Notes.link {op : LinkOp} {pre post : Option Nat} (h : ∀ r, posAfter pre [(op, r)] = post) :
    Notes may pre post (Machine.link op) := by
  intro e0 e ⟨zs, ht, hs, hp⟩
  rcases link_traced op ht with ⟨e', h1⟩ | ⟨r, e', h1, h2, h3, -⟩
  · rw [h1]
    trivial
  · rw [h1]
    refine ⟨_, h2, fun c hc => ?_, ?_⟩
    · rw [receivedFor_append]
      rw [h3] at hc
      exact List.mem_append_left _ (hs c hc)
    · rw [posAfter_append, hp, h]

theorem Quiet.link {op : LinkOp} (h : op.neutral = true) : Quiet may (Machine.link op) := fun pos =>
  .link fun r => (received_neutral h pos r).2

/-- A transfer raises where it is not answered `ok`, and moves the data no further there (R60). -/
theorem Quiet.xfer {op : LinkOp} (h : op.neutral = true) : Quiet True (Machine.xfer op) :=
  (Quiet.link h).bind fun a => by
    cases a with
    | ok d b => exact .ret _
    | fail => exact .throw _
    | timeout => exact .throw _

theorem Quiet.send {op : LinkOp} (h : op.neutral = true) : Quiet True (Machine.send op) := (Quiet.xfer h).bind fun _ => .ret _

theorem Quiet.pollLoop (n : Nat) : Quiet True (Machine.pollLoop n) := by
  induction n with
  | zero => exact .throw _
  | succ n ih => exact (Quiet.xfer rfl).bind fun r => .ite ih (.ret _)

theorem Quiet.bufferClear : Quiet True Machine.bufferClear := (Quiet.ask _).bind fun n => .pollLoop n

theorem Quiet.hardResetLoop (n : Nat) : Quiet may (Machine.hardResetLoop n) := by
  induction n with
  | zero => exact .ret _
  | succ n ih =>
    refine (Quiet.link rfl).bind fun a => ?_
    cases a with
    | ok d b => exact (Quiet.setRegs _).andThen (.ret _)
    | fail => exact .ret _
    | timeout => exact ih

theorem Quiet.hardResetBounded : Quiet may Machine.hardResetBounded := (Quiet.ask _).bind fun n => .hardResetLoop n

theorem Quiet.epilogue (b : Bool) : Quiet may (Machine.epilogue b) :=
  Quiet.hardResetBounded.bind fun _ => .ite (.setRegs _) (.ret _)

/-- A bus reset: the chip's data starts anew (R104). -/
theorem Notes.busReset (pre : Option Nat) : Notes True pre none Machine.busReset := by
  refine Notes.bind (q := none) (.link fun r => by cases pre <;> rfl) fun a => ?_
  cases a with
  | ok d b => exact Quiet.bufferClear _
  | fail => exact (Quiet.hardResetBounded.bind fun done => .ite .bufferClear (.throw _)) _
  | timeout => exact (Quiet.hardResetBounded.bind fun done => .ite .bufferClear (.throw _)) _

theorem Quiet.romCommand (x : RomSel) (d : Bool) : Quiet True (Machine.romCommand x d) :=
  (Quiet.ask _).bind fun _ => (Quiet.send rfl).andThen <|
    ((Quiet.send rfl).andThen (.setRegs _)).andThen <| (Quiet.ask _).bind fun _ => .send rfl

theorem Notes.selectTarget (pre : Option Nat) (d : Bool) : Notes True pre none (Machine.selectTarget d) :=
  (Notes.busReset pre).andThen (Quiet.romCommand _ _ _)

/-- A transfer in: what it answers `ok` moves the position, and what it carries is received (R52, R151). -/
theorem readBulk_traced {e0 e : Eng} {zs : List (LinkOp × Reply)} {m : Nat} (h : Traced e0 zs e) :
    (∃ e', readBulk m e = .wait (.bulkIn m) e') ∨
    (∃ e' r, readBulk m e = .raise .transportError e' ∧ r.failed = true ∧ Traced e0 (zs ++ [(.bulkIn m, r)]) e' ∧
      e'.received = e.received ∧ e'.locals = e.locals) ∨
    ∃ e' d b, readBulk m e = .ok (d.take m) e' ∧ Traced e0 (zs ++ [(.bulkIn m, .ok d b)]) e' ∧
      e'.received = e.received ∧ e'.locals = e.locals := by
  rcases link_traced (.bulkIn m) h with ⟨e', h1⟩ | ⟨r, e', h1, h2, h3, h4⟩
  · exact .inl ⟨e', Prog.bind_wait (Prog.bind_wait h1)⟩
  · cases r with
    | ok d b => exact .inr (.inr ⟨e', d, b, (Prog.bind_ok (x := Machine.xfer (.bulkIn m)) ((Prog.bind_ok h1).trans rfl)).trans rfl, h2, h3, h4⟩)
    | fail => exact .inr (.inl ⟨e', .fail, Prog.bind_raise ((Prog.bind_ok h1).trans rfl), rfl, h2, h3, h4⟩)
    | timeout => exact .inr (.inl ⟨e', .timeout, Prog.bind_raise ((Prog.bind_ok h1).trans rfl), rfl, h2, h3, h4⟩)

/-- The drain of a command's echo: the chip's data starts at `IMG_A[0]` after it (R108, R151). -/
theorem Notes.writeWire (bytes : List Byte) : Notes True none (some 0x2000) (Machine.writeWire bytes true) := by
  refine (Quiet.send rfl none).andThen ((Quiet.send rfl none).andThen ?_)
  intro e0 e ⟨zs, ht, hs, hp⟩
  rw [if_pos rfl]
  rcases link_traced (.bulkIn bytes.length) ht with ⟨e', h1⟩ | ⟨r, e', h1, h2, h3, -⟩
  · rw [show Machine.send (.bulkIn bytes.length) e = .wait (.bulkIn bytes.length) e' from
      Prog.bind_wait (Prog.bind_wait h1)]
    trivial
  · have hmem : ∀ c ∈ e'.received, c ∈ receivedFor none (zs ++ [(.bulkIn bytes.length, r)]) := by
      intro c hc
      rw [receivedFor_append]
      rw [h3] at hc
      exact List.mem_append_left _ (hs c hc)
    cases r with
    | ok d b =>
      rw [show Machine.send (.bulkIn bytes.length) e = .ok () e' from
        (Prog.bind_ok (x := Machine.xfer _) ((Prog.bind_ok h1).trans rfl)).trans rfl]
      exact ⟨_, h2, hmem, by rw [posAfter_append, hp]; rfl⟩
    | fail =>
      rw [show Machine.send (.bulkIn bytes.length) e = .raise .transportError e' from
        Prog.bind_raise ((Prog.bind_ok h1).trans rfl)]
      exact ⟨trivial, _, _, h2, hmem, rfl⟩
    | timeout =>
      rw [show Machine.send (.bulkIn bytes.length) e = .raise .transportError e' from
        Prog.bind_raise ((Prog.bind_ok h1).trans rfl)]
      exact ⟨trivial, _, _, h2, hmem, rfl⟩

theorem cellsFrom_append (a : Nat) (xs ys : List Byte) :
    cellsFrom a (xs ++ ys) = cellsFrom a xs ++ cellsFrom (a + xs.length) ys := by
  induction xs generalizing a with
  | nil => rfl
  | cons x xs ih =>
    rw [List.cons_append, cellsFrom, cellsFrom, ih, List.cons_append, List.length_cons]
    congr 3
    omega

/-- While a page is read from host address `a`: `acc` has arrived for it, and is received. -/
def Reading (e0 : Eng) (a : Nat) (acc : List Byte) (e : Eng) : Prop :=
  ∃ zs, Traced e0 zs e ∧ Sound zs (e.received ++ cellsFrom a acc) ∧ posAfter none zs = some (a + acc.length)

/-- `ReadExact`'s loop returns, or leaves in `bytes_read`, what has arrived (R111). -/
theorem readExactLoop_reading {e0 : Eng} {a n : Nat} (fuel : Nat) (acc : List Byte) (e : Eng)
    (h : Reading e0 a acc e) (hl : e.locals.bytesRead = acc) :
    match Machine.readExactLoop n fuel acc e with
    | .ok d e' => Reading e0 a d e'
    | .raise _ e' => (∃ zs, Traced e0 zs e' ∧ Sound zs (e'.received ++ cellsFrom a e'.locals.bytesRead))
    | .wait _ _ => True
    | .fault _ => True := by
  induction fuel generalizing acc e with
  | zero => exact h
  | succ fuel ih =>
    rw [readExactLoop]
    by_cases hn : n ≤ acc.length
    · rw [if_pos hn]
      exact h
    rw [if_neg hn, Prog.ask_bind]
    obtain ⟨zs, ht, hs, hp⟩ := h
    have key : ∀ (m : Nat) (e' : Eng) (d : List Byte) (b : Bool),
        Traced e0 (zs ++ [(.bulkIn m, .ok d b)]) e' → e'.received = e.received →
        Reading e0 a (acc ++ d.take m) e' := by
      intro m e' d b h2 h3
      refine ⟨_, h2, fun c hc => ?_, ?_⟩
      · rw [h3, cellsFrom_append, ← List.append_assoc] at hc
        rw [receivedFor_append, hp]
        rcases List.mem_append.1 hc with hc | hc
        · exact List.mem_append_left _ (hs c hc)
        · exact List.mem_append_right _ (by simpa [receivedFor] using hc)
      · rw [posAfter_append, hp, List.length_append, ← Nat.add_assoc]
        rfl
    rcases readBulk_traced (m := min e.params.rdChunk (n - acc.length)) ht with
      ⟨e', h1⟩ | ⟨e', r, h1, hr, h2, h3, h4⟩ | ⟨e', d, b, h1, h2, h3, h4⟩
    · rw [Prog.bind_wait h1]
      trivial
    · rw [Prog.bind_raise h1]
      refine ⟨_, h2, fun c hc => ?_⟩
      rw [h3, h4, hl] at hc
      rw [receivedFor_append]
      exact List.mem_append_left _ (hs c hc)
    · rw [Prog.bind_ok h1]
      have hk := key _ e' d b h2 h3
      by_cases hd : d.take (min e.params.rdChunk (n - acc.length)) = []
      · rw [if_pos hd]
        obtain ⟨zs', k1, k2, -⟩ := hk
        refine ⟨zs', k1, ?_⟩
        rw [h4, hl]
        rwa [hd, List.append_nil] at k2
      · rw [if_neg hd]
        obtain ⟨zs', k1, k2, k3⟩ := hk
        exact ih _ (e'.setLoc _) ⟨zs', ⟨k1.issued, k1.script, k1.replies⟩, k2, k3⟩ rfl

/-- A page of `IMG_A` (R151). -/
theorem Notes.readPage (p : Nat) : Notes True (some (imgAAddr p 0)) (some (imgAAddr (p + 1) 0)) (Machine.readPage p) := by
  intro e0 e ⟨zs, ht, hs, hp⟩
  have h0 : Reading e0 (imgAAddr p 0) [] ((e.setLoc (e.locals.withPage p)).setLoc
      ((e.locals.withPage p).withBytes [])) :=
    ⟨zs, ⟨ht.issued, ht.script, ht.replies⟩, by rw [cellsFrom, List.append_nil]; exact hs, hp⟩
  have h1 := readExactLoop_reading (n := Config.pageBytes) Config.pageBytes [] _ h0 rfl
  have h2 := Runs.readExact Law.replies_delivers.toClosed Config.pageBytes (e.setLoc (e.locals.withPage p))
  have h3 : readExact Config.pageBytes (e.setLoc (e.locals.withPage p)) = readExactLoop Config.pageBytes
      Config.pageBytes [] ((e.setLoc (e.locals.withPage p)).setLoc ((e.locals.withPage p).withBytes [])) := rfl
  unfold Runs at h2
  unfold Machine.readPage
  rw [Prog.setLocals_andThen]
  rw [← h3] at h1
  cases hr : readExact Config.pageBytes (e.setLoc (e.locals.withPage p)) with
  | ok d e1 =>
    rw [hr] at h1 h2
    rw [Prog.bind_ok (Prog.catch_ok hr)]
    obtain ⟨zs', k1, k2, k3⟩ := h1
    have hlen : d.length = 32 := h2.2
    exact ⟨zs', ⟨k1.issued, k1.script, k1.replies⟩, k2, k3.trans (by rw [hlen]; unfold imgAAddr; congr 1)⟩
  | raise c e1 =>
    rw [hr] at h1
    obtain ⟨zs', k1, k2⟩ := h1
    rw [Prog.bind_raise (e' := { e1 with received := e1.received ++ cellsFrom (imgAAddr p 0) e1.locals.bytesRead })
      (c := c) ((Prog.catch_raise hr).trans rfl)]
    exact ⟨trivial, _, zs', ⟨k1.issued, k1.script, k1.replies⟩, k2, rfl⟩
  | wait op e1 =>
    rw [Prog.bind_wait (by unfold Prog.catch; rw [hr])]
    trivial
  | fault f =>
    rw [Prog.bind_fault (by unfold Prog.catch; rw [hr])]
    trivial

theorem Notes.readPages (k n : Nat) :
    Notes True (some (imgAAddr k 0)) (some (imgAAddr (k + n) 0)) (Machine.readPages (List.range' k n)) := by
  induction n generalizing k with
  | zero => exact Quiet.ret _ _
  | succ n ih =>
    rw [List.range'_succ, Machine.readPages]
    refine (Notes.readPage k).andThen ?_
    rw [show k + (n + 1) = k + 1 + n by omega]
    exact ih (k + 1)

/-- The body of MEM_READALL, wherever the data stood before (R151). -/
theorem Notes.readallBody (pre : Option Nat) (f : Bool) : Notes True pre (some 0x4000) (Machine.readallBody f) := by
  have h := Notes.readPages 0 256
  rw [← List.range_eq_range'] at h
  exact (Quiet.setLocals _ pre).andThen <| (Notes.selectTarget pre f).andThen <| (Quiet.ask _ none).bind fun _ =>
    (Notes.writeWire _).andThen <| h.andThen <| ((Quiet.setRegs _).andThen (.ret _)) _

/-! ## The command -/

/-- A run that, started where only bytes given were noted, returns so. -/
def Settled {α : Type} (x : Prog α) : Prop :=
  ∀ e0 e, NotedSomewhere e0 e → match x e with
    | .ok _ e' => NotedSomewhere e0 e'
    | .raise _ _ => False
    | .wait _ _ => True
    | .fault _ => True

theorem Quiet.settled {x : Prog α} (h : Quiet False x) : Settled x := by
  intro e0 e ⟨pos, hp⟩
  have := h pos e0 e hp
  cases hr : x e with
  | ok a e1 => rw [hr] at this; exact ⟨_, this⟩
  | raise c e1 => rw [hr] at this; exact this.1
  | wait op e1 => trivial
  | fault f => trivial

theorem Settled.bind {x : Prog α} {f : α → Prog β} (hx : Settled x) (hf : ∀ a, Settled (f a)) : Settled (x.bind f) := by
  intro e0 e h
  have h1 := hx e0 e h
  cases hr : x e with
  | ok a e1 =>
    rw [hr] at h1
    rw [Prog.bind_ok hr]
    exact hf a e0 e1 h1
  | raise c e1 => rw [hr] at h1; exact h1.elim
  | wait op e1 => rw [Prog.bind_wait hr]; trivial
  | fault f => rw [Prog.bind_fault hr]; trivial

/-- A handler takes every condition, wherever the data stood. -/
theorem Settled.catch {x : Prog α} {h : Cond → Prog α} {post : Option Nat} (hx : ∀ pre, Notes True pre post x)
    (hh : ∀ c, Settled (h c)) : Settled (x.catch h) := by
  intro e0 e ⟨pos, he⟩
  have h1 := hx pos e0 e he
  unfold Prog.catch
  cases hr : x e with
  | ok a e1 =>
    rw [hr] at h1
    exact ⟨_, h1⟩
  | raise c e1 =>
    rw [hr] at h1
    exact hh c e0 e1 h1.2
  | wait op e1 => trivial
  | fault f => trivial

theorem Quiet.errorCompletion (b : Bool) (c : Cond) : Quiet may (Machine.errorCompletion b c) := by
  have h : ∀ c : Cond, Quiet may ((Prog.ask fun e => e.locals.phase).bind fun ph =>
      (Machine.epilogue b).andThen (Prog.ret (⟨c.err, ph, 0⟩ : Completion))) :=
    fun c => (Quiet.ask _).bind fun _ => (Quiet.epilogue b).andThen (.ret _)
  cases c with
  | verifyFailed => exact .ret _
  | _ => exact h _

theorem Settled.restarting {body : Prog Completion} {post : Option Nat} (hb : ∀ pre, Notes True pre post body)
    (fuel : Nat) : Settled (Machine.restarting body fuel) := by
  induction fuel with
  | zero => exact .catch hb fun c => (Quiet.errorCompletion _ c).settled
  | succ fuel ih =>
    refine .catch hb fun c => ?_
    have h : ∀ c : Cond, Settled ((Prog.ask fun e => e.locals.phase).bind fun ph =>
        (Machine.epilogue false).andThen <| attemptsLeft.bind fun more =>
          if more then nextAttempt.andThen (Machine.restarting body fuel)
          else Prog.ret (⟨c.err, ph, 0⟩ : Completion)) := by
      refine fun c => (Quiet.ask _).settled.bind fun _ => (Quiet.epilogue _).settled.bind fun _ =>
        (Quiet.ask _).settled.bind fun more => ?_
      cases more with
      | true =>
        exact (Quiet.setRegs (fun r => { r with att := r.att + 1#4 }) fun _ => rfl).settled.bind (x := nextAttempt)
          fun _ => ih
      | false => exact (Quiet.ret _).settled
    cases c with
    | verifyFailed => exact (Quiet.errorCompletion _ _).settled
    | _ => exact h _

/-- MEM_READALL with its retries notes only bytes it was given for `IMG_A`, and lets no condition through (R150,
R151). -/
theorem Settled.retried (f : Bool) : Settled (Machine.retried (Machine.readallBody f)) :=
  (Quiet.setRegs (fun r => { r with att := 1#4 }) fun _ => rfl).settled.bind (x := firstAttempt) fun _ =>
    (Quiet.ask fun e => e.params.retryAttempts).settled.bind fun n => .restarting (Notes.readallBody · f) n

/-- MEM_READALL where only answers are to come: what an error completion leaves is the free mix of the old image and
bytes it was given for it (R151, 93 U6). -/
theorem readallCommand_noted (f : Bool) (e : Eng) (hr : OnlyReplies e.script) (h0 : e.received = []) :
    match readallCommand f e with
    | .ok c e' => ∃ zs, Traced e zs e' ∧ (c.err ≠ .ok → ∃ m n, Sound zs m ∧
        e'.regs.mem = mixInto n e.regs.mem m (m.map (·.1)) e.regs.mem)
    | .raise _ _ => False
    | .wait _ _ => True
    | .fault _ => True := by
  have h := Settled.retried f e e ⟨none, [], ⟨by simp, by simp, hr⟩, by rw [h0]; exact fun c hc => (by cases hc), rfl⟩
  unfold readallCommand
  rw [Prog.ask_bind]
  cases hx : retried (readallBody f) e with
  | ok c e1 =>
    rw [hx] at h
    obtain ⟨pos, zs, ht, hs, -⟩ := h
    rw [Prog.bind_ok hx]
    by_cases hc : c.err = .ok
    · rw [if_pos hc]
      exact ⟨zs, ht, fun h => absurd hc h⟩
    · rw [if_neg hc]
      exact ⟨zs, ⟨ht.issued, ht.script, ht.replies⟩, fun _ => ⟨_, _, hs, rfl⟩⟩
  | raise c e1 => rw [hx] at h; exact h.elim
  | wait op e1 => rw [Prog.bind_wait hx]; trivial
  | fault x => rw [Prog.bind_fault hx]; trivial

end Sys2Proof.Machine
end

