-- ==== Sys2Proof/Tests/Slice0.lean ====
section
/-! SUPPORT. Tests whose expected results are the spec's own (spec/30_encoding.md R72, R73; spec/95_test_vectors.md),
and a state that meets the hypotheses of each statement. -/

-- One proof at a time: many at once need a thread each, and the package as one text has 22 GiB for them all.
set_option Elab.async false

namespace Sys2Proof.Tests

open Sys2Proof Sys2Proof.Machine

/-! ## Decoding: words written out from R71 to R73 (OPC, A, B, C, most significant byte first) -/

theorem test_decode_claim : decode 0b00000001_00000000_00000000_00000000#32 = some .claim := by decide

theorem test_decode_close : decode 0b00000010_00000000_00000000_00000000#32 = some .close := by decide

theorem test_decode_srchStart : decode 0b00000011_00000000_00000000_00000000#32 = some .srchStart := by decide

theorem test_decode_owReset : decode 0b00010000_00000000_00000000_00000000#32 = some .owReset := by decide

theorem test_decode_owSpeed : decode 0b00010001_00000000_00000000_00000001#32 = some (.owSpeed true) := by decide

theorem test_decode_owWbit : decode 0b00010010_00000000_00000000_00000001#32 = some (.owWbit true) := by decide

theorem test_decode_owRbit : decode 0b00010011_00000000_00000000_00000000#32 = some .owRbit := by decide

theorem test_decode_owWrite : decode 0b00010100_00000011_00000000_00000001#32 = some (.owWrite 3 true) := by decide

theorem test_decode_owRead : decode 0b00010101_00000100_00000000_00000000#32 = some (.owRead 4) := by decide

theorem test_decode_owRom : decode 0b00010110_00000000_00000010_00000001#32 = some (.owRom 2 true) := by decide

theorem test_decode_srchFirst : decode 0b00100000_00000000_00000000_00000000#32 = some .srchFirst := by decide

theorem test_decode_srchNext : decode 0b00100001_00000000_00000000_00000000#32 = some .srchNext := by decide

theorem test_decode_srchEnum : decode 0b00100010_00000000_00000000_00000000#32 = some .srchEnum := by decide

theorem test_decode_pgWrite : decode 0b00110000_11111111_00000000_00000001#32 = some (.pgWrite 255 true) := by decide

theorem test_decode_rgWrite : decode 0b00110001_00000010_00000001_00000100#32 = some (.rgWrite 2 1 4) := by decide

theorem test_decode_memReadall : decode 0b00111000_00000000_00000000_00000001#32 = some (.memReadall true) := by decide

theorem test_decode_memWriteall : decode 0b00111001_00000000_00000000_00000000#32 = some (.memWriteall false) := by
  decide

theorem test_decode_memWritediff : decode 0b00111010_00000000_00000000_00000001#32 = some (.memWritediff true) := by
  decide

theorem test_decode_crc16Clr : decode 0b01000000_00000000_00000000_00000000#32 = some .crc16Clr := by decide

theorem test_decode_crc16Byte : decode 0b01000001_00000000_00000000_10100101#32 = some (.crc16Byte 0xA5) := by decide

theorem test_decode_crc16Chk : decode 0b01000010_00000011_00000000_00000000#32 = some (.crc16Chk 3) := by decide

theorem test_decode_crc16Gen : decode 0b01000011_00000011_00000000_00000000#32 = some (.crc16Gen 3) := by decide

/-- Illegal words of V6 and V7. -/
theorem test_decode_illegal :
    [0x00000000, 0x04000000, 0x10000001, 0xFF123456, 0x14030002, 0x15040001, 0x16000400, 0x16010000, 0x41000100,
      0x42030001].all (fun w : Word => decode w = none) = true := by decide

theorem test_encode_owRom : encode (.owRom 2 true) = 0x16000201#32 := by decide

theorem test_encode_rgWrite : encode (.rgWrite 2 0 4) = 0x31020004#32 := by decide

theorem test_decodeTableWord : decodeTableWord 32 0x31FFFF20 = some (.rgWrite 0xFF 0xFF 32) := by decide

/-! ## WellFormed: ill-formed terms are refused (R72) -/

theorem test_wf_owWrite_zero : ¬WellFormed (.owWrite 0 true) := by decide

theorem test_wf_owRead_zero : ¬WellFormed (.owRead 0) := by decide

theorem test_wf_owRom_three : ¬WellFormed (.owRom 3 false) := by decide

theorem test_wf_rgWrite_zero : ¬WellFormed (.rgWrite 0 0 0) := by decide

theorem test_wf_rgWrite_33 : ¬WellFormed (.rgWrite 0 0 33) := by decide

theorem test_wf_edges : WellFormed (.owWrite 255 false) ∧ WellFormed (.owRom 2 true) ∧ WellFormed (.rgWrite 255 255 32) := by
  decide

/-! ## A small machine: the parameter values of spec/95_test_vectors.md -/

/-- The vectors' parameters; the ROMX constants are R79's suggested values, ROMX_SEARCH_OD not supplied. -/
def vecParams : Params where
  retryAttempts := 3
  hrAttempts := 2
  pollLimit := 4
  wrChunk := 16
  rdChunk := 16
  maxDev := 8
  spPreamble := 0
  cmdWsp := 0x0F
  cmdRsp := 0xAA
  cmdCsp := 0x55
  cmdRm := 0xF0
  romxMatch := 0x55
  romxSearch := 0xF0
  romxSkip := 0xCC
  romxMatchOd := 0x69
  romxSkipOd := 0x3C
  romxSearchOd := none
  crc8Poly := 0x8C
  crc16Init := 0x0000
  linkCodes := default

/-- Hardware reset under those parameters, with these moves to come. -/
def fresh (ms : List Move) : State := { State.reset with params := vecParams, inputs := ms }

/-- Claimed, chip A's id in `TARGET_ID`, with these moves to come. -/
def claimed (ms : List Move) : State := { fresh ms with lc := .claimed, targetId := 0x320000000000010C#64 }

/-- `n` answers `ok` with no data. -/
def oks (n : Nat) : List Move := List.replicate n (bytesReply [])

/-- The next state satisfies `q`. -/
def leads (o : Host.Outcome State Fault Refusal) (q : State → Bool) : Bool :=
  match o with
  | .next t => q t
  | _ => false

/-- The engine is at rest with this `RESULT`, DONE set. -/
def done (t : State) (r : Word) : Bool := t.result = r ∧ t.event.getLsbD 0 ∧ t.lock = false ∧ t.seq = .idle

/-- The sample page `PG`. -/
def samplePage : List Byte := (List.range 30).map (fun i => BitVec.ofNat 8 (i + 1)) ++ [0xE4, 0x94]

/-! ## One command at a time, from the vectors -/

/-- V1. -/
theorem test_claim_ok : leads (exec .claim (fresh (oks 3))) (fun t =>
    done t 0x01000000 && (t.lc = .claimed) && (t.event = 1#32) && (statusWord t = 0x00000011#32) &&
      t.issued = [.claim, .hardReset, .stat]) = true := by decide +kernel

/-- V3. -/
theorem test_claim_busy : leads (exec .claim (fresh (oks 2 ++ busyPolls 4))) (fun t =>
    done t 0x01000011 && (t.lc = .unclaimed) && t.issued.length = 6) = true := by decide +kernel

/-- V5, first CLOSE. -/
theorem test_close : leads (step { claimed [cmdMove 0x02000000, .reply .fail] with searching := true }) (fun t =>
    t.lock && !t.searching && (t.lc = .claimed) && leads (step t) (fun u =>
      done u 0x02000000 && (u.lc = .closed) && u.issued = [.release])) = true := by decide +kernel

/-- V5, second CLOSE. -/
theorem test_close_twice : leads (step { fresh [cmdMove 0x02000000] with lc := .closed }) (fun t =>
    done t 0x02000000 && (t.lc = .closed) && t.issued = []) = true := by decide +kernel

/-- R93. -/
theorem test_srchStart : leads (exec .srchStart (claimed [])) (fun t =>
    done t 0x03000000 && t.searching && t.issued = []) = true := by decide +kernel

/-- V6. -/
theorem test_illegal : leads (step (fresh [cmdMove 0xFF123456])) (fun t =>
    done t 0xFF000007 && t.issued = []) = true := by decide +kernel

/-- V4: the lifecycle state is checked before the operand. -/
theorem test_state_before_operand : leads (exec (.owWrite 0 false) (fresh [])) (fun t => done t 0x14000008) &&
    leads (exec (.owWrite 0 false) (claimed [])) (fun t => done t 0x14000009) = true := by decide +kernel

/-- V10. -/
theorem test_owReset_recovers : leads (exec .owReset { claimed (.reply .fail :: oks 2) with spdValid := true }) (fun t =>
    done t 0x10000000 && !t.spdValid && t.issued = [.ctl .reset, .hardReset, .stat]) = true := by decide +kernel

/-- V11. -/
theorem test_owReset_busy : leads (exec .owReset (claimed (oks 1 ++ busyPolls 4 ++ oks 1))) (fun t =>
    done t 0x10000003 && t.issued.length = 6) = true := by decide +kernel

/-- V13. -/
theorem test_owSpeed : leads (exec (.owSpeed true) (claimed (oks 1))) (fun t =>
    done t 0x11000000 && t.spdValid && t.spdOd) = true := by decide +kernel

/-- V13. -/
theorem test_owSpeed_timeout :
    leads (exec (.owSpeed true) { claimed (.reply .timeout :: oks 1) with spdValid := true }) (fun t =>
      done t 0x11000002 && !t.spdValid && !t.spdOd) = true := by decide +kernel

/-- V24. -/
theorem test_owWbit : leads (exec (.owWbit true) (claimed (oks 1))) (fun t =>
    done t 0x12000000 && t.issued = [.ctl (.wbit true)]) = true := by decide +kernel

/-- V24: bit 0 only. -/
theorem test_owRbit : leads (exec .owRbit (claimed (oks 1 ++ [bytesReply [0xFF]]))) (fun t =>
    done t 0x13000100 && t.issued = [.ctl .rbit, .bulkIn 1]) = true := by decide +kernel

/-- V24: no byte arrives. -/
theorem test_owRbit_empty : leads (exec .owRbit (claimed (oks 3))) (fun t => done t 0x13000002) = true := by decide +kernel

/-- V25. -/
theorem test_owWrite : leads (exec (.owWrite 3 true) { claimed (oks 3) with mem := cellsFrom 0x0100 [0xF0, 0, 0] })
    (fun t => done t 0x14000000 && t.issued = [.bulkOut [0xF0, 0, 0], .ctl (.count 3), .bulkIn 3]) = true := by decide +kernel

/-- 93 U9: a byte of TXBUF that holds no value stops the command. -/
theorem test_owWrite_unwritten :
    (match exec (.owWrite 3 true) { claimed (oks 3) with mem := cellsFrom 0x0100 [0xF0, 0] } with
      | .fault f => decide (f = .unwritten 0x0102)
      | _ => false) = true := by decide +kernel

/-- V26. -/
theorem test_owRead : leads (exec (.owRead 4) (claimed [bytesReply [0x11, 0x22, 0x33]])) (fun t =>
    done t 0x15000300 && (t.rxLen = 3#8) && t.mem = cellsFrom 0x0200 [0x11, 0x22, 0x33]) = true := by decide +kernel

/-- V26: an empty answer is a success. -/
theorem test_owRead_empty : leads (exec (.owRead 4) (claimed (oks 1))) (fun t =>
    done t 0x15000000 && (t.rxLen = 0#8) && t.mem = []) = true := by decide +kernel

/-- V27. -/
theorem test_owRom_match : leads (exec (.owRom 0 true) (claimed (oks 3))) (fun t =>
    done t 0x16000000 && t.spdOd && t.issued = [.ctl (.rom 0x69), .ctl (.speed true),
      .bulkOut [0x0C, 0x01, 0, 0, 0, 0, 0, 0x32]]) = true := by decide +kernel

/-- V7: search at overdrive with no ROMX_SEARCH_OD. -/
theorem test_owRom_search_od : leads (exec (.owRom 1 true) (claimed [])) (fun t => done t 0x16000009) = true := by
  decide +kernel

/-- V17. -/
theorem test_srchFirst_empty :
    leads (exec .srchFirst (claimed (oks 6 ++ (positionReplies (true, true)).take 4))) (fun t =>
      done t 0x20000026 && (t.romId = 0#64) && (t.lastDisc = 0#7) && t.lastDevice && t.issued.length = 10) = true := by
  decide +kernel

/-- V15: at position 9 `last_zero` is 9 already when the 0 is written (R123). -/
theorem test_v15_position9 :
    leads (exec .srchFirst (claimed (oks 6 ++ ([(0, 1), (0, 1), (1, 0), (1, 0), (0, 1), (0, 1), (0, 1), (0, 1)].flatMap fun bc =>
        [bytesReply [], bytesReply [bc.1], bytesReply [], bytesReply [bc.2], bytesReply []]) ++
        [bytesReply [], bytesReply [0], bytesReply [], bytesReply [0]]))) (fun t =>
      match t.seq with
      | .busy _ op l _ _ => (op = .ctl (.wbit false)) && (l.k = 9) && l.lastZero = 9
      | .idle => false) = true := by decide +kernel

/-- V14, the fifth SRCH_NEXT. -/
theorem test_srchNext_none : leads (exec .srchNext (claimed [])) (fun t =>
    done t 0x2100002A && t.issued = []) = true := by decide +kernel

/-- V17. -/
theorem test_srchEnum_empty :
    leads (exec .srchEnum (claimed (oks 6 ++ (positionReplies (true, true)).take 4))) (fun t =>
      done t 0x22000000 && (t.detCount = 0#6) && t.event = 3#32) = true := by decide +kernel

/-- V39: step 2, step 3, the read-back and the copy bytes. -/
theorem test_rgWrite :
    leads (exec (.rgWrite 2 0 4) { claimed (oks 19 ++ [bytesReply [0x78, 0x56, 0x34, 0x12]] ++ oks 8) with
        mem := cellsFrom 0x0100 [0x78, 0x56, 0x34, 0x12] }) (fun t =>
      done t 0x31000000 && (t.att = 1#4) && (t.issued.length = 28) &&
        (t.issued[5]? = some (.bulkOut [0x0F, 0x00, 0x02])) && t.issued[25]? = some (.bulkOut [0x55, 0x00, 0x02, 0x03])) =
      true := by decide +kernel

/-- V7, V39: the ending offset, at the top of the chip's address space and across a page. -/
theorem test_endOff : endOff 0xFFFF 32 = 0x1E ∧ endOff 0x001E 4 = 0x01 := by decide +kernel

/-- V20, without the mismatch: 32 operations, the slices of 16, the copy bytes. -/
theorem test_pgWrite :
    leads (exec (.pgWrite 3 false) { claimed (oks 22 ++ readReplies (slices 16 samplePage) ++ oks 8) with
        mem := cellsFrom 0x2060 samplePage }) (fun t =>
      done t 0x30000000 && (t.att = 1#4) && (t.issued.length = 32) &&
        (t.issued[5]? = some (.bulkOut [0x0F, 0x60, 0x00])) && (t.issued[8]? = some (.bulkOut (samplePage.take 16))) &&
        t.issued[29]? = some (.bulkOut [0x55, 0x60, 0x00, 0x1F])) = true := by decide +kernel

/-- V38. -/
theorem test_pgWrite_fail :
    leads (exec (.pgWrite 3 false) { claimed (oks 8 ++ [.reply .fail] ++ oks 1) with
        mem := cellsFrom 0x2060 samplePage }) (fun t => done t 0x30000042 && t.att = 1#4) = true := by decide +kernel

/-- V38: the same at the first read of the read-back. -/
theorem test_pgWrite_fail_verify :
    leads (exec (.pgWrite 3 false) { claimed (oks 22 ++ [.reply .fail] ++ oks 1) with
        mem := cellsFrom 0x2060 samplePage }) (fun t => done t 0x30000052 && t.att = 1#4) = true := by decide +kernel

/-- V42: every attempt fails. -/
theorem test_memReadall_fail :
    leads (exec (.memReadall false) (claimed (oks 6 ++ [.reply .timeout] ++ oks 1 ++ oks 6 ++ [.reply .timeout] ++ oks 1 ++
        oks 6 ++ [.reply .timeout] ++ oks 1))) (fun t =>
      done t 0x38000032 && (t.att = 3#4) && t.npagesA = 256#9) = true := by decide +kernel

/-- V43. -/
theorem test_memWriteall_none : leads (exec (.memWriteall false) { claimed [] with npagesA := 0#9 }) (fun t =>
    done t 0x39000000 && t.issued = []) = true := by decide +kernel

/-- V40. -/
theorem test_memWritediff_lengths : leads (exec (.memWritediff false) { claimed [] with npagesB := 255#9 }) (fun t =>
    done t 0x3A000045 && t.att = 0#4) = true := by decide +kernel

/-- V40, on images of one page. -/
theorem test_memWritediff_equal :
    leads (exec (.memWritediff true) { claimed [] with
        npagesA := 1#9, npagesB := 1#9, mem := cellsFrom 0x2000 samplePage ++ cellsFrom 0x4000 samplePage }) (fun t =>
      done t 0x3A000000 && t.issued = []) = true := by decide +kernel

/-- R161. -/
theorem test_crc16Clr : leads (exec .crc16Clr { fresh [] with crc16 := 0xB001#16 }) (fun t =>
    done t 0x40000000 && t.crc16 = 0x0000#16) = true := by decide +kernel

/-- V30. -/
theorem test_crc16Byte : leads (exec (.crc16Byte 0x80) (fresh [])) (fun t =>
    done t 0x41000000 && t.crc16 = 0xA001#16) = true := by decide +kernel

/-- V31, V32. -/
theorem test_crc16 : crc16 [0x31, 0x32, 0x33, 0x34, 0x35, 0x36, 0x37, 0x38, 0x39] 0 = 0xBB3D#16 ∧
    crc16 (samplePage.take 30) 0 = 0x6B1B#16 := by decide +kernel

/-- V33. -/
theorem test_crc16Chk : leads (exec (.crc16Chk 3) { fresh [] with mem := cellsFrom 0x2060 samplePage }) (fun t =>
    done t 0x42000100 && t.crc16 = 0xB001#16) = true := by decide +kernel

/-- V33: byte 0 set to 0. -/
theorem test_crc16Chk_invalid :
    leads (exec (.crc16Chk 3) { fresh [] with mem := cellsFrom 0x2060 (samplePage.set 0 0) }) (fun t =>
      done t 0x42000000 && t.crc16 = 0x1C00#16) = true := by decide +kernel

/-- P2: GEN on the sample page with its CRC bytes 0. -/
theorem test_crc16Gen :
    leads (exec (.crc16Gen 3) { fresh [] with mem := cellsFrom 0x2060 (samplePage.take 30 ++ [0, 0]) }) (fun t =>
      done t 0x43000000 && (t.crc16 = 0x6B1B#16) && t.mem = cellsFrom 0x2060 samplePage) = true := by decide +kernel

/-- V36: an empty page. -/
theorem test_crc16Gen_empty :
    leads (exec (.crc16Gen 0) { fresh [] with mem := cellsFrom 0x2000 (List.replicate 32 0x55) }) (fun t =>
      done t 0x43000200 && t.crc16 = 0x0000#16) = true := by decide +kernel

/-- CRC8 running values of spec/95_test_vectors.md: 0 over id A. -/
theorem test_crc8 : crc8 0x8C [0x0C, 0x01, 0, 0, 0, 0, 0] = 0x32#8 ∧ crc8 0x8C [0x02, 0x1C, 0xB8, 0x01, 0, 0, 0] = 0xA2#8 ∧
    validId 0x8C 0x320000000000010C#64 = true ∧ validId 0x8C 0x330000000000010C#64 = false ∧
    validId 0x8C 0x3700000000000100#64 = false := by decide +kernel

/-- V29, its failing half: the seventh operation of the pass times out. -/
theorem test_background_error :
    leads (runBackground { claimed (oks 6 ++ [.reply .timeout] ++ oks 1) with searching := true }) (fun t =>
      t.lastDevice && (t.event = 4#32) && !t.lock && (t.detCount = 0#6) && t.result = 0#32) = true := by decide +kernel

/-- V8: ROM_HI of id D. -/
theorem test_host_read_rom : leads (step { fresh [.read 0x001C .word] with romId := 0x13000000107E5A0C#64 }) (fun t =>
    t.hostRead = some 0x13000000#32) = true := by decide +kernel

/-- V8: NPAGES. -/
theorem test_host_write_npages : leads (step { fresh [.write 0x0024 .word 0x01010080] with npagesB := 255#9 }) (fun t =>
    (t.npagesA = 128#9) && t.npagesB = 255#9) = true := by decide +kernel

/-- V8: EVENT. -/
theorem test_host_write_event : leads (step { fresh [.write 0x000C .word 2] with event := 3#32 }) (fun t =>
    t.event = 1#32) = true := by decide +kernel

/-- V8: a 4-byte access to a window, a 1-byte access to a register. -/
theorem test_host_refused :
    (match step (fresh [.read 0x0100 .word]) with | .refused r => decide (r = .accessWidth 0x0100) | _ => false) &&
      (match step (fresh [.read 0x0004 .byte]) with | .refused r => decide (r = .accessWidth 0x0004) | _ => false) =
        true := by decide +kernel

/-- V8: IMG_A, IMG_B and DET addresses. -/
theorem test_addresses : imgAAddr 3 30 = 0x207E ∧ imgBAddr 200 0 = 0x5900 ∧ detAddr 1 7 = 0x040F := by decide +kernel

/-- A step advances one link operation (R28): with three answers ready CLAIM is at its first operation, then its second. -/
theorem test_one_operation_a_step : leads (step (fresh (cmdMove 0x01000000 :: oks 3))) (fun t =>
    t.lock && (t.issued = []) && (t.inputs.length = 3) && leads (step t) (fun u =>
      u.lock && (u.issued = [.claim]) && (u.result = 0#32) && u.inputs.length = 2)) = true := by decide +kernel

/-- R97: PassTimeout while OW_RBIT waits leaves it waiting at the same operation; its answers then complete it. -/
theorem test_passTimeout_command : leads (step (claimed [cmdMove 0x13000000, .passTimeout, bytesReply [], bytesReply [1]]))
    (fun t => t.lock && leads (step t) (fun u => u.lock && (u.seq = t.seq) && (u.issued = []) && leads (step u) (fun v =>
      leads (step v) (fun x => done x 0x13000100)))) = true := by decide +kernel

/-- R190: hardware reset drops the held words and keeps the parameters. -/
theorem test_hardwareReset : leads (step { claimed [.hardwareReset] with lock := true, port := [0x12000001] }) (fun t =>
    (t.lc = .unclaimed) && !t.lock && (t.port = []) && t.params = vecParams) = true := by decide +kernel

theorem test_reset_memory_wf : State.reset.mem.wf := List.Pairwise.nil

/-! ## States that meet the hypotheses of the statements

Each theorem gives a state and operands for every clause of the statement it is named after, at boundary values. -/

theorem vecParams_wf : vecParams.wf := by decide

theorem oks_acks (n : Nat) : Acks n (oks n) :=
  ⟨List.length_replicate, fun m hm => by rw [List.eq_of_mem_replicate hm]; rfl⟩

theorem cells_hold (a : Nat) (bs : List Byte) : HoldsBytes (cellsFrom a bs) a bs := fun i _ => by
  rw [Memory.read?_cellsFrom, if_pos (by omega), Nat.add_sub_cancel_left]

/-- A stretch of equal bytes holds each of its parts. -/
theorem cells_hold_part {base size a n : Nat} (v : Byte) (h1 : base ≤ a) (h2 : a + n ≤ base + size) :
    HoldsBytes (cellsFrom base (List.replicate size v)) a (List.replicate n v) := fun i hi => by
  rw [List.length_replicate] at hi
  rw [Memory.read?_cellsFrom, if_pos (by omega), List.getElem?_replicate, List.getElem?_replicate, if_pos (by omega),
    if_pos hi]

/-- Bytes that arrive one at a time. -/
def bytewise (data : List Byte) : List (List Byte) := data.map fun b => [b]

theorem bytewise_flatten (data : List Byte) : (bytewise data).flatten = data := by
  induction data with
  | nil => rfl
  | cons b bs ih => exact congrArg (b :: ·) ih

theorem bytewise_arrive (data : List Byte) : Arrive vecParams data.length (bytewise data) := by
  refine ⟨congrArg List.length (bytewise_flatten data), fun d hd => ?_⟩
  obtain ⟨b, -, rfl⟩ := List.mem_map.1 hd
  exact ⟨by simp, (by decide : 1 ≤ vecParams.rdChunk)⟩

/-- No preamble byte is wanted. -/
theorem nothing_arrives : Arrive vecParams vecParams.spPreamble [] := ⟨rfl, fun _ h => (by cases h)⟩

/-- The sample page in full chunks, one byte at a time, and in unequal pieces of at most RD_CHUNK bytes. -/
def samplePieces : List (List (List Byte)) :=
  [[samplePage.take 16, samplePage.drop 16], bytewise samplePage,
    [samplePage.take 5, (samplePage.drop 5).take 15, (samplePage.drop 20).take 1, samplePage.drop 21]]

theorem samplePieces_arrive : ∀ back ∈ samplePieces, back.flatten = samplePage ∧ Arrive vecParams samplePage.length back := by
  have h : ∀ back ∈ samplePieces, back.flatten = samplePage ∧ back.flatten.length = samplePage.length ∧
      ∀ d ∈ back, d ≠ [] ∧ d.length ≤ vecParams.rdChunk := by decide +kernel
  exact fun back hb => ⟨(h back hb).1, (h back hb).2⟩

/-- Answers of a scratchpad cycle that succeeds, the read-back arriving in these pieces. -/
def cycleScript (back : List (List Byte)) : List Move :=
  oks (8 + 3 * (slices 16 back.flatten).length) ++ oks 8 ++ readReplies [] ++ readReplies back ++ oks 8

theorem cycleScript_replies {back : List (List Byte)} (h : Arrive vecParams back.flatten.length back) :
    CycleReplies vecParams [] back (cycleScript back) :=
  ⟨_, _, ⟨nothing_arrives, h, _, _, oks_acks _, oks_acks _, rfl⟩, oks_acks _, rfl⟩

/-- Answers of an attempt that reads back zeros, one at a time. -/
def mismatchScript (data : List Byte) : List Move :=
  oks (8 + 3 * (slices 16 data).length) ++ oks 8 ++ readReplies [] ++ readReplies (bytewise (List.replicate data.length 0))

/-- The mismatches of `n` attempts on `data` that read back zeros. -/
def zerosRead (data : List Byte) (n : Nat) : List Mismatch :=
  List.replicate n ⟨[], bytewise (List.replicate data.length 0)⟩

theorem zerosRead_replies {data : List Byte} (h : List.replicate data.length 0#8 ≠ data) (n : Nat) :
    MismatchReplies vecParams data (zerosRead data n) (List.replicate n (mismatchScript data)).flatten := by
  induction n with
  | zero => rfl
  | succ n ih =>
    have hz : Arrive vecParams data.length (bytewise (List.replicate data.length 0)) := by
      have := bytewise_arrive (List.replicate data.length 0)
      rwa [List.length_replicate] at this
    exact ⟨_, _, by rw [bytewise_flatten]; exact h,
      ⟨nothing_arrives, hz, _, _, oks_acks _, oks_acks _, rfl⟩, ih, rfl⟩

/-- Answers of page cycles that succeed after their mismatches. -/
def pagesScript (js : List PageJob) : List Move :=
  js.flatMap fun j => (List.replicate j.misses.length (mismatchScript j.data)).flatten ++ cycleScript j.back

theorem pages_replies (js : List PageJob)
    (h : ∀ j ∈ js, j.preamble = [] ∧ Arrive vecParams j.data.length j.back ∧ (∃ n, j.misses = zerosRead j.data n) ∧
      List.replicate j.data.length 0#8 ≠ j.data) :
    PageReplies vecParams js (pagesScript js) := by
  induction js with
  | nil => rfl
  | cons j js ih =>
    obtain ⟨hp, hb, ⟨n, hn⟩, hd⟩ := h j (by simp)
    refine ⟨_, _, _, ?_, ?_, ih fun j hj => h j (by simp [hj]), rfl⟩
    · rw [hn, zerosRead, List.length_replicate]
      exact zerosRead_replies hd n
    · rw [hp]
      exact cycleScript_replies hb

/-- Ids the vectors call valid (A) and invalid (V19). -/
theorem sample_ids : validId vecParams.crc8Poly 0x320000000000010C#64 = true ∧
    validId vecParams.crc8Poly 0x330000000000010C#64 = false := by decide +kernel

theorem reset_regs_inv : Regs.reset.Inv vecParams where
  memWf := List.Pairwise.nil
  memIn := fun _ h => (by cases h)
  att := by decide
  lastDisc := by decide
  npagesA := by decide
  npagesB := by decide
  detCount := by decide
  resultZero := by decide
  resultCodes := by decide
  resultOk := by decide

/-- Registers that a lifecycle state and an id do not disturb. -/
theorem claimed_regs_inv : { Regs.reset with lc := .claimed, targetId := 0x320000000000010C#64 }.Inv vecParams :=
  ⟨List.Pairwise.nil, fun _ h => (by cases h), by decide, by decide, by decide, by decide, by decide, by decide,
    by decide, by decide⟩

theorem fresh_inv (ms : List Move) : (fresh ms).Inv where
  params := vecParams_wf
  regs := reset_regs_inv
  seqInv := trivial
  lock := by simp [fresh, State.reset]
  event := show (0#32).extractLsb' 3 29 = 0#29 by decide
  port := fun _ h => (by cases h)

theorem witness_DecodedWordIsItsEncoding : decode 0x31FFFF20#32 = some (.rgWrite 0xFF 0xFF 32) := by decide

theorem witness_DecoderIsTheOpcodeTable : ∃ r, r ∈ opcodeRows ∧ r.matches 0x14030001#32 = true :=
  ⟨⟨0x14000000, 0xFF00FFFE⟩, by decide, by decide⟩

/-- The three ways in which the word `w` is accepted with the lock free; behind it a CLOSE is held. -/
theorem accepted_ways (w : Word) : ∃ s1 s2 s3 u1 u2 u3 : State, s1.lock = false ∧ s2.lock = false ∧ s3.lock = false ∧
    s1.seq = .idle ∧ s2.seq = .idle ∧ s3.seq = .idle ∧ s1.lc = .claimed ∧ s2.lc = .claimed ∧ s3.lc = .claimed ∧
    Accepts s1 w u1 ∧ Accepts s2 w u2 ∧ Accepts s3 w u3 ∧ u1.port = [] ∧ u2.port = [0x02000000] ∧ u3.port = [] :=
  ⟨claimed [cmdMove w], { claimed [.accept] with port := [w, 0x02000000] }, { claimed [] with port := [w] }, _, _, _,
    rfl, rfl, rfl, rfl, rfl, rfl, rfl, rfl, rfl, .written [] rfl rfl, .arbitrated [0x02000000] [] rfl rfl,
    .drained [] rfl rfl, rfl, rfl, rfl⟩

theorem witness_StepRunsDecodedCommand : ∀ w ∈ [0x02000000#32, 0x10000000], (∃ i, decode w = some i) ∧
    ∃ s1 s2 s3 u1 u2 u3 : State, s1.lock = false ∧ s2.lock = false ∧ s3.lock = false ∧ Accepts s1 w u1 ∧ Accepts s2 w u2 ∧
      Accepts s3 w u3 := by
  intro w hw
  obtain ⟨s1, s2, s3, u1, u2, u3, h1, h2, h3, -, -, -, -, -, -, a1, a2, a3, -⟩ := accepted_ways w
  refine ⟨?_, s1, s2, s3, u1, u2, u3, h1, h2, h3, a1, a2, a3⟩
  simp only [List.mem_cons, List.not_mem_nil, or_false] at hw
  rcases hw with rfl | rfl
  · exact ⟨.close, by decide⟩
  · exact ⟨.owReset, by decide⟩

theorem leads_next {o : Host.Outcome State Fault Refusal} {q : State → Bool} (h : leads o q = true) :
    ∃ t, o = .next t ∧ q t = true := by
  cases o with
  | next t => exact ⟨t, rfl, h⟩
  | fault x => cases h
  | refused x => cases h

/-- The state waits at link operation `op` of command `i`. -/
def atOp (i : Instr) (op : LinkOp) (t : State) : Bool :=
  match t.seq with
  | .busy job o _ _ _ => job = .command i && o = op
  | .idle => false

/-- Command `i` run from `s` on the answers `ms` waits at link operation `op`, the last one issued before it being `prev`, in
a state that satisfies `q`. -/
def Waits (i : Instr) (s : State) (ms : List Move) (prev : Option LinkOp) (op : LinkOp) (q : State → Bool) : Prop :=
  ∃ t l entry got, exec i { s with inputs := ms } = .next t ∧ t.seq = .busy (.command i) op l entry got ∧
    (t.issued.drop s.issued.length).getLast? = prev ∧ q t = true

theorem waits_of {i : Instr} {s : State} {ms : List Move} {prev : Option LinkOp} {op : LinkOp} {q : State → Bool}
    (h : leads (exec i { s with inputs := ms }) (fun t => atOp i op t &&
      ((t.issued.drop s.issued.length).getLast? = prev && q t)) = true) : Waits i s ms prev op q := by
  obtain ⟨t, h1, h2⟩ := leads_next h
  rw [Bool.and_eq_true, Bool.and_eq_true, decide_eq_true_eq] at h2
  obtain ⟨h2, h3, h4⟩ := h2
  unfold atOp at h2
  cases hs : t.seq with
  | idle => rw [hs] at h2; cases h2
  | busy job o l entry got =>
    rw [hs] at h2
    simp only [Bool.and_eq_true, decide_eq_true_eq] at h2
    obtain ⟨rfl, rfl⟩ := h2
    exact ⟨t, l, entry, got, h1, hs, h3, h4⟩

/-- The job in progress since `s` is in phase `ph`, and the link operations since then and the one waited at tell so. -/
def inPhase (s : State) (ph : Phase) (t : State) : Bool :=
  match t.seq with
  | .busy _ op l _ _ => l.phase = ph && cyclePhase (t.issued.drop s.issued.length ++ [op]) = ph
  | .idle => false

/-- A transfer that is not answered `ok`. -/
theorem transfer_breaks (p : Params) (prev : Option LinkOp) {op : LinkOp} (r : Reply) (h : r.failed = true)
    (h1 : op ≠ .ctl .reset := by decide) (h2 : op ≠ .hardReset := by decide) (h3 : op ≠ .claim := by decide)
    (h4 : op ≠ .release := by decide) : Breaks p prev op .transportError false [.reply r] [op] :=
  .transfer r h1 h2 h3 h4 h

/-- The three ends of the bounded hard reset, at the bound of its attempts. -/
theorem hardReset_ends : HardResetEnds vecParams true (timeouts 1 ++ oks 1) (List.replicate 2 .hardReset) ∧
    HardResetEnds vecParams false (timeouts 1 ++ [.reply .fail]) (List.replicate 2 .hardReset) ∧
    HardResetEnds vecParams false (timeouts 2) (List.replicate 2 .hardReset) :=
  ⟨.ok 1 _ (by decide) (oks_acks 1), .fail 1 (by decide), .timeouts⟩

/-- Every way in which Reset() comes to a condition at its reset command. -/
theorem reset_breaks (prev : Option LinkOp) :
    Breaks vecParams prev (.ctl .reset) .transportError false (.reply .fail :: (timeouts 1 ++ [.reply .fail]))
      (.ctl .reset :: List.replicate 2 .hardReset) ∧
    Breaks vecParams prev (.ctl .reset) .transportError false (.reply .timeout :: timeouts 2)
      (.ctl .reset :: List.replicate 2 .hardReset) ∧
    Breaks vecParams prev (.ctl .reset) .busBusy false (oks 1 ++ busyPolls 4) (.ctl .reset :: List.replicate 4 .stat) ∧
    Breaks vecParams prev (.ctl .reset) .busBusy true (.reply .fail :: (timeouts 1 ++ oks 1) ++ busyPolls 4)
      (.ctl .reset :: List.replicate 2 .hardReset ++ List.replicate 4 .stat) :=
  ⟨.noReset .fail _ _ rfl rfl hardReset_ends.2.1, .noReset .timeout _ _ rfl rfl hardReset_ends.2.2,
    .busy (oks 1) rfl (oks_acks 1), .busyAfterHardReset .fail _ _ rfl rfl hardReset_ends.1⟩

/-- The write of each kind of word, with the lock held and with a word held; with the lock held the arbiter's move, no move
to come, and the answer that completes the command in progress, after which the word is still held. -/
theorem witness_CommandWordsAreHeld :
    (∃ s : State, s.lock = true ∧ s.inputs = [cmdMove 0x02000000] ∧ decode 0x02000000#32 = some .close) ∧
    (∃ s : State, s.lock = false ∧ s.port ≠ [] ∧ s.inputs = [cmdMove 0x02000000]) ∧
    (∃ s : State, s.lock = true ∧ s.inputs = [cmdMove 0x10000000] ∧ decode 0x10000000#32 ≠ some .close ∧ s.port = []) ∧
    (∃ s : State, s.lock = true ∧ s.inputs = [cmdMove 0x10000000] ∧ s.port ≠ []) ∧
    (∃ s : State, s.lock = false ∧ s.inputs = [cmdMove 0x10000000] ∧ s.port ≠ []) ∧
    (∃ s : State, s.lock = true ∧ s.port ≠ [] ∧ s.inputs = [.accept]) ∧
    (∃ s : State, s.lock = true ∧ s.port ≠ [] ∧ s.inputs = []) ∧
    ∃ s t : State, s.lock = true ∧ s.port = [0x10000000] ∧ s.inputs.head? ≠ some .hardwareReset ∧ step s = .next t ∧
      (!t.lock && t.port = [0x10000000]) = true :=
  ⟨⟨{ fresh [cmdMove 0x02000000] with lock := true }, rfl, rfl, by decide⟩,
    ⟨{ fresh [cmdMove 0x02000000] with port := [0x12000001] }, rfl, by simp, rfl⟩,
    ⟨{ fresh [cmdMove 0x10000000] with lock := true }, rfl, rfl, by decide, rfl⟩,
    ⟨{ fresh [cmdMove 0x10000000] with lock := true, port := [0x12000001] }, rfl, rfl, by simp⟩,
    ⟨{ fresh [cmdMove 0x10000000] with port := [0x12000001] }, rfl, rfl, by simp⟩,
    ⟨{ fresh [.accept] with lock := true, port := [0x12000001] }, rfl, by simp, rfl⟩,
    ⟨{ fresh [] with lock := true, port := [0x12000001] }, rfl, by simp, rfl⟩,
    { claimed (oks 1) with
      lock := true, seq := .busy (.command (.owWbit true)) (.ctl (.wbit true)) .start (claimed []).toRegs []
      port := [0x10000000] },
    let ⟨t, h1, h2⟩ := leads_next (q := fun t : State => !t.lock && t.port = [0x10000000]) (by decide +kernel)
    ⟨t, rfl, rfl, by decide, h1, h2⟩⟩

theorem oks_replies (n : Nat) : ∀ m ∈ oks n, ∃ q, m = .reply q := fun _ hm => ⟨_, List.eq_of_mem_replicate hm⟩

theorem witness_AnswersComeOneAStep : ∃ s : State, s.seq = .idle ∧ s.lock = false ∧ s.port = [] ∧ s.lc = .claimed ∧
    s.searching = true ∧ (∀ m ∈ oks 1, ∃ q, m = .reply q) ∧
    (∃ t, exec .owRbit { s with inputs := oks 1 } = .next t ∧ t.lock = true) ∧
    (∃ t, runBackground { s with inputs := oks 1 } = .next t ∧ t.lock = true) ∧
    (∃ u, exec (.owWbit true) { s with inputs := oks 1 } = .next u ∧ (u.inputs = [] && !u.lock) = true) ∧
    (∃ u, exec .close { s with inputs := oks 1, searching := false } = .next u ∧ (u.inputs = [] && !u.lock) = true) ∧
    ∃ u, runBackground { s with inputs := oks 9 } = .next u ∧ (u.inputs = [] && !u.lock) = true :=
  ⟨{ claimed [] with searching := true }, rfl, rfl, rfl, rfl, rfl, oks_replies 1,
    leads_next (q := fun t => t.lock) (by decide +kernel), leads_next (q := fun t => t.lock) (by decide +kernel),
    leads_next (by decide +kernel), leads_next (by decide +kernel), leads_next (by decide +kernel)⟩

theorem witness_HardwareResetDropsEverything : ∃ s : State, s.lock = true ∧ s.inputs = [.hardwareReset] :=
  ⟨{ fresh [.hardwareReset] with lock := true }, rfl, rfl⟩

theorem witness_StepKeepsInvariant : ∃ s t : State, s.Inv ∧ step s = .next t ∧ t.lock = true :=
  ⟨fresh [cmdMove 0x01000000], _, fresh_inv _, rfl, rfl⟩

theorem witness_BadStateAndBadOperand :
    (∃ s : State, s.lc ≠ .unclaimed) ∧
    (∃ s : State, s.lc ≠ .claimed ∧ (Instr.memWritediff true).opc.toNat < 0x40) ∧
    (∃ s : State, s.lc = .claimed ∧ s.params.romxSearchOd = none) ∧ 32 < (33#8).toNat :=
  ⟨⟨claimed [], by decide⟩, ⟨fresh [], by decide, by decide⟩, ⟨claimed [], rfl, rfl⟩, by decide⟩

/-- A word no row matches, and each check's word, in the three ways a word is accepted. -/
theorem witness_UsageChecksInOrder :
    (∀ w ∈ [0x14030002#32, 0x14000000, 0x21000000, 0x3A000000], ∃ s1 s2 s3 u1 u2 u3 : State,
      s1.lock = false ∧ s1.seq = .idle ∧ Accepts s1 w u1 ∧ s2.lock = false ∧ s2.seq = .idle ∧ Accepts s2 w u2 ∧
      s3.lock = false ∧ s3.seq = .idle ∧ Accepts s3 w u3) ∧
    decode 0x14030002#32 = none ∧ decode 0x14000000#32 = some (.owWrite 0 false) ∧
    legalIn (.owWrite 0 false) (fresh []).lc = false ∧ legalIn (.owWrite 0 false) (claimed []).lc = true ∧
    operandInRange vecParams (.owWrite 0 false) = false ∧ decode 0x21000000#32 = some .srchNext ∧
    (claimed []).lc = .claimed ∧ (claimed []).lastDevice = true ∧ decode 0x3A000000#32 = some (.memWritediff false) ∧
    ({ claimed [] with npagesB := 255#9 } : State).npagesA ≠ ({ claimed [] with npagesB := 255#9 } : State).npagesB := by
  refine ⟨fun w _ => ?_, by decide, by decide, rfl, rfl, by decide, by decide, rfl, rfl, by decide, by decide⟩
  obtain ⟨s1, s2, s3, u1, u2, u3, h1, h2, h3, k1, k2, k3, -, -, -, a1, a2, a3, -⟩ := accepted_ways w
  exact ⟨s1, s2, s3, u1, u2, u3, h1, k1, a1, h2, k2, a2, h3, k3, a3⟩

/-- V6, V7, of words held at the port: an illegal word the arbiter takes, and one taken when no move is to come. -/
theorem test_illegal_held :
    leads (step { claimed [.accept] with port := [0x14030002, 0x10000000] }) (fun t =>
      done t 0x14000007 && (t.port = [0x10000000]) && t.issued = []) &&
    leads (step { claimed [] with port := [0x10000001] }) (fun t => done t 0x10000007 && (t.port = []) && t.issued = []) =
      true := by decide +kernel

theorem witness_CommandCompletesOrHoldsTheLock :
    (∃ s t : State, exec (.owWbit true) s = .next t ∧ t.lock = false) ∧
    (∃ s t : State, exec (.owWbit true) s = .next t ∧ t.lock = true) :=
  ⟨⟨claimed (oks 1), _, rfl, rfl⟩, ⟨claimed [], _, rfl, rfl⟩⟩

theorem witness_OnlyHostAccessesAreRefused : ∃ s : State, step s = .refused (.writeOnly 0x0000) :=
  ⟨fresh [.read 0x0000 .word], rfl⟩

theorem witness_CommandFaultsOnlyOnUnwrittenBytes : ∃ s : State, s.Inv ∧
    exec (.crc16Chk 0) s = .fault (.unwritten 0x2000) := ⟨fresh [], fresh_inv _, rfl⟩

theorem witness_ClaimClaimsOrFails (n : Nat) : ∃ (s : State) (r : Reply), s.lc = .unclaimed ∧ s.params.wf ∧
    1 < s.params.hrAttempts ∧ Acks 1 (oks 1) ∧ r.failed = true ∧ 3 < s.params.pollLimit ∧
    s.inputs = [oks 1 ++ timeouts 1 ++ oks 1 ++ busyPolls 3 ++ oks 1, oks 1 ++ timeouts 1 ++ oks 1 ++ busyPolls 0 ++ oks 1, [.reply r], oks 1 ++ timeouts 1 ++ [.reply .fail],
      oks 1 ++ timeouts vecParams.hrAttempts, oks 1 ++ oks 1 ++ busyPolls vecParams.pollLimit,
      oks 1 ++ oks 1 ++ busyPolls 3 ++ [.reply r]].getD n [] :=
  ⟨fresh _, .fail, rfl, vecParams_wf, (by decide : 1 < vecParams.hrAttempts), oks_acks 1, rfl,
    (by decide : 3 < vecParams.pollLimit), rfl⟩

theorem witness_CloseReleasesOnce : (∃ s : State, s.lc ≠ .closed ∧ s.inputs = [.reply .timeout]) ∧
    ∃ s : State, s.lc = .closed :=
  ⟨⟨claimed [.reply .timeout], by decide, rfl⟩, { fresh [] with lc := .closed }, rfl⟩

theorem witness_SrchStartEnablesSearching : ∃ s : State, s.lc = .claimed := ⟨claimed [], rfl⟩

theorem witness_LifecycleCommandsFrame :
    (∃ s t : State, exec .claim s = .next t) ∧ (∃ s t : State, exec .close s = .next t) ∧
    ∃ s t : State, exec .srchStart s = .next t :=
  ⟨⟨fresh (oks 3), _, rfl⟩, ⟨claimed (oks 1), _, rfl⟩, claimed [], _, rfl⟩

theorem witness_LifecycleChangesOnlyByClaimCloseReset :
    (∃ s : State, s.Inv ∧ leads (step s) (fun t => s.lc = .unclaimed && t.lc = .claimed) = true) ∧
    (∃ s : State, s.Inv ∧ leads (step s) (fun t => s.lc = .claimed && t.lc = .closed) = true) ∧
    ∃ s : State, s.Inv ∧ leads (step s) (fun t => s.lc = .claimed && t.lc = .unclaimed) = true := by
  refine ⟨⟨{ fresh (oks 1) with lock := true, seq := .busy (.command .claim) .stat .start .reset (oks 2) }, ?_, ?_⟩,
    ⟨{ claimed (oks 1) with lock := true, seq := .busy (.command .close) .release .start (claimed []).toRegs [] }, ?_, ?_⟩,
    ⟨claimed [.hardwareReset], ?_, ?_⟩⟩
  · exact ⟨vecParams_wf, reset_regs_inv, ⟨reset_regs_inv, rfl, rfl, rfl, rfl, rfl, rfl⟩, by simp,
      show (0#32).extractLsb' 3 29 = 0#29 by decide, fun _ h => (by cases h)⟩
  · decide +kernel
  · exact ⟨vecParams_wf, claimed_regs_inv, ⟨claimed_regs_inv, rfl, rfl, rfl, rfl, rfl, rfl⟩, by simp,
      show (0#32).extractLsb' 3 29 = 0#29 by decide, fun _ h => (by cases h)⟩
  · decide +kernel
  · exact ⟨vecParams_wf, claimed_regs_inv, trivial, by simp [claimed, fresh, State.reset],
      show (0#32).extractLsb' 3 29 = 0#29 by decide, fun _ h => (by cases h)⟩
  · decide +kernel

theorem witness_OwResetSucceeds (n : Nat) : ∃ (s : State) (r : Reply), s.lc = .claimed ∧ 3 < s.params.pollLimit ∧
    1 < s.params.hrAttempts ∧ Acks 1 (oks 1) ∧ r.failed = true ∧
    s.inputs = [oks 1 ++ busyPolls 3 ++ oks 1, .reply r :: timeouts 1 ++ oks 1 ++ busyPolls 3 ++ oks 1].getD n [] :=
  ⟨claimed _, .timeout, rfl, (by decide : 3 < vecParams.pollLimit), (by decide : 1 < vecParams.hrAttempts), oks_acks 1, rfl,
    rfl⟩

theorem witness_OwSpeedAndOwWbitSucceed : ∃ s : State, s.lc = .claimed ∧ Acks 1 (oks 1) ∧ s.inputs = oks 1 ++ [] :=
  ⟨claimed _, rfl, oks_acks 1, rfl⟩

theorem witness_OwRbitReportsTheBit (b : Byte) : ∃ s : State, s.lc = .claimed ∧ Acks 1 (oks 1) ∧
    s.inputs = oks 1 ++ [bytesReply [b]] := ⟨claimed _, rfl, oks_acks 1, rfl⟩

theorem witness_OwWriteSendsTxbuf (n : Byte) (h : n ≠ 0) : ∃ (s : State) (bytes : List Byte), s.lc = .claimed ∧ n ≠ 0 ∧
    bytes.length = n.toNat ∧ HoldsBytes s.mem 0x0100 bytes ∧ Acks 2 (oks 2) ∧ Acks 1 (oks 1) ∧
    s.inputs = oks 2 ++ oks 1 :=
  ⟨{ claimed (oks 2 ++ oks 1) with mem := cellsFrom 0x0100 (List.replicate n.toNat 0) }, _, rfl, h,
    List.length_replicate, cells_hold _ _, oks_acks 2, oks_acks 1, rfl⟩

theorem witness_OwReadStoresWhatArrives : ∃ (s t : State) (d : List Byte), s.lc = .claimed ∧ d.length ≤ (255#8).toNat ∧
    s.inputs = [bytesReply d] ∧ t.lc = .claimed ∧ t.inputs = [bytesReply []] :=
  ⟨claimed _, claimed _, List.replicate 255 0, rfl, Nat.le_of_eq List.length_replicate, rfl, rfl, rfl⟩

theorem witness_OwRomAddressesChips : ∃ s : State, s.lc = .claimed ∧ Acks 3 (oks 3) ∧ s.inputs = oks 3 ++ [] ∧
    s.params.romxSearchOd = some 0xA5 :=
  ⟨{ claimed (oks 3) with params := { vecParams with romxSearchOd := some 0xA5 } }, rfl, oks_acks 3, rfl, rfl⟩

/-- A line primitive at a transfer, at Reset(), at ReadBit's read; a search command; the writing commands, at a transfer and
at ReadExact's first and second read. -/
theorem witness_FailureEndsUnrestartedCommand :
    (Waits (.owRom 0 true) (claimed []) (oks 1) (some (.ctl (.rom 0x69))) (.ctl (.speed true)) (fun _ => true) ∧
      Breaks vecParams (some (.ctl (.rom 0x69))) (.ctl (.speed true)) .transportError false [.reply .timeout]
        [.ctl (.speed true)]) ∧
    Waits .owReset (claimed []) [] none (.ctl .reset) (fun _ => true) ∧
    (Waits .owRbit (claimed []) (oks 1) (some (.ctl .rbit)) (.bulkIn 1) (fun _ => true) ∧
      Breaks vecParams (some (.ctl .rbit)) (.bulkIn 1) .transportError false [bytesReply []] [.bulkIn 1]) ∧
    (Waits .srchFirst (claimed []) (oks 7) (some (.ctl .rbit)) (.bulkIn 1) (fun _ => true) ∧
      Breaks vecParams (some (.ctl .rbit)) (.bulkIn 1) .transportError false [.reply .fail] [.bulkIn 1]) ∧
    (Waits (.pgWrite 3 false) { claimed [] with mem := cellsFrom 0x2060 samplePage } (oks 8) (some (.bulkIn 3))
        (.bulkOut (samplePage.take 16)) (fun _ => true) ∧
      Breaks vecParams (some (.bulkIn 3)) (.bulkOut (samplePage.take 16)) .transportError false [.reply .fail]
        [.bulkOut (samplePage.take 16)]) ∧
    (Waits (.rgWrite 0 0 1) { claimed [] with mem := [(0x0100, 0)] } (oks 19) (some (.bulkIn 1)) (.bulkIn 1)
        (fun _ => true) ∧
      Breaks vecParams (some (.bulkIn 1)) (.bulkIn 1) .transportError false [bytesReply []] [.bulkIn 1]) ∧
    (Waits (.pgWrite 3 false) { claimed [] with mem := cellsFrom 0x2060 samplePage }
        (oks 22 ++ [bytesReply (samplePage.take 16)]) (some (.bulkIn 16)) (.bulkIn 16) (fun _ => true) ∧
      Breaks vecParams (some (.bulkIn 16)) (.bulkIn 16) .transportError false [.reply (.ok [] true)] [.bulkIn 16]) :=
  ⟨⟨waits_of (by decide +kernel), transfer_breaks _ _ .timeout rfl⟩, waits_of (by decide +kernel),
    ⟨waits_of (by decide +kernel), .empty 1 false rfl (.inl rfl)⟩,
    ⟨waits_of (by decide +kernel), transfer_breaks _ _ .fail rfl⟩,
    ⟨waits_of (by decide +kernel), transfer_breaks _ _ .fail rfl⟩,
    ⟨waits_of (by decide +kernel), .empty 1 false rfl (.inr ⟨1, rfl⟩)⟩,
    ⟨waits_of (by decide +kernel), .empty 16 true rfl (.inr ⟨16, rfl⟩)⟩⟩

/-- V20 at its operations 1, 9, 14, 15, 23, 24, 25, 39, 49 and 56: step 4 of a cycle is operations 15 to 24 and 39 to 48
(R141, R174). -/
theorem test_v20_phases : ∀ x ∈ [(0, Phase.write), (8, .write), (13, .write), (14, .verify), (22, .verify), (23, .verify),
      (24, .write), (38, .verify), (48, .write), (55, .write)],
    leads (exec (.pgWrite 3 false) { claimed ((oks 22 ++ readReplies [0 :: (samplePage.take 16).tail, samplePage.drop 16] ++
        oks 22 ++ readReplies (slices 16 samplePage) ++ oks 8).take x.1) with mem := cellsFrom 0x2060 samplePage })
      (inPhase (claimed []) x.2) = true := by decide +kernel

theorem witness_LinePrimitivesFrame : (∃ s t : State, exec (.owRead 4) s = .next t ∧ t.lock = false) ∧
    (∃ s t : State, exec (.owRom 0 true) s = .next t ∧ t.lock = false) ∧
    0x10 ≤ Instr.owReset.opc.toNat ∧ (Instr.owRom 0 true).opc.toNat ≤ 0x16 :=
  ⟨⟨claimed [bytesReply [1]], _, rfl, rfl⟩, ⟨claimed (oks 3), _, rfl, rfl⟩, by decide, by decide⟩

theorem witness_Crc8ValidatesExactlyItsOwnCrcByte : (0x8C#8).getLsbD 7 = true := by decide

/-- What the bus answers along the walk to `id` when the chips on it differ at the positions `discs` (R122). -/
def walkBits (id : RomId) (discs : List Nat) : List (Bool × Bool) :=
  positions.map fun k => if k ∈ discs then (false, false) else (romBit id k, !romBit id k)

theorem walkBits_length (id : RomId) (discs : List Nat) : (walkBits id discs).length = 64 := by simp [walkBits, positions]

theorem walkBits_get {id : RomId} {discs : List Nat} {k : Nat} {bc : Bool × Bool} (h1 : 1 ≤ k)
    (h : (walkBits id discs)[k - 1]? = some bc) : bc = if k ∈ discs then (false, false) else (romBit id k, !romBit id k) := by
  simp only [walkBits, positions, List.getElem?_map, Option.map_eq_some_iff] at h
  obtain ⟨x, hx, rfl⟩ := h
  obtain ⟨h3, h2⟩ := List.getElem?_eq_some_iff.1 hx
  rw [List.getElem_range'] at h2
  rw [← h2, show 1 + 1 * (k - 1) = k from by omega]

theorem walkBits_answered (id : RomId) (discs : List Nat) : ∀ bc ∈ walkBits id discs, bc ≠ (true, true) := by
  intro bc h
  obtain ⟨k, -, rfl⟩ := List.mem_map.1 h
  split
  · decide
  · cases romBit id k <;> simp

/-- The vectors' chips: B, A, C, D. -/
def idB : RomId := 0x6B0000000000020C#64

/-- A -/
def idA : RomId := 0x320000000000010C#64

/-- C -/
def idC : RomId := 0x5C0000000000030C#64

/-- D -/
def idD : RomId := 0x13000000107E5A0C#64

/-- A pass of V14 or V15: the discrepancies it meets, the id it finds, its bookmark. -/
def vecPass (discs : List Nat) (id : RomId) (lz : Nat) : Pass := ⟨oks 6, walkBits id discs, id, lz⟩

theorem vecPass_found {p : Params} {discs : List Nat} {id old : RomId} {ld lz : Nat} (hp : p.crc8Poly = 0x8C#8)
    (h1 : ∀ k ∈ discs, romBit id k = if k < ld then romBit old k else decide (k = ld))
    (h2 : lz = 0 ∨ (1 ≤ lz ∧ (walkBits id discs)[lz - 1]? = some (false, false) ∧ romBit id lz = false))
    (h3 : ∀ k ∈ discs, lz < k → romBit id k = true) (h4 : validId 0x8C id = true) :
    (vecPass discs id lz).FoundFrom p old ld := by
  refine ⟨oks_acks 6, walkBits_length id discs, walkBits_answered id discs, fun k bc hk hb => ?_, by rw [hp]; exact h4, h2, ?_⟩
  · rw [walkBits_get hk hb]
    change romBit id k = _
    by_cases hd : k ∈ discs
    · rw [if_pos hd, h1 k hd]
      rfl
    · rw [if_neg hd]
      cases romBit id k <;> rfl
  · rintro k hk ⟨h5, h6, h7⟩
    change romBit id k = false at h7
    have h8 := walkBits_get h5 h6
    by_cases hd : k ∈ discs
    · rw [h3 k hd hk] at h7
      cases h7
    · rw [if_neg hd, h7] at h8
      cases h8

/-- V14: the second pass replays the 0 at 9 before the bookmark and takes 1 at it, 12; the third takes 1 at the bookmark,
9, and 0 beyond it, at 10. Each ends with the id and the bookmark of the table. -/
theorem test_v14 :
    (vecPass [9, 12] idB 12).FoundFrom vecParams 0#64 0 ∧ (vecPass [9, 12] idD 9).FoundFrom vecParams idB 12 ∧
    (vecPass [9, 10] idA 10).FoundFrom vecParams idD 9 ∧ (vecPass [9, 10] idC 0).FoundFrom vecParams idA 10 :=
  ⟨vecPass_found rfl (by decide +kernel) (by decide +kernel) (by decide +kernel) (by decide +kernel),
    vecPass_found rfl (by decide +kernel) (by decide +kernel) (by decide +kernel) (by decide +kernel),
    vecPass_found rfl (by decide +kernel) (by decide +kernel) (by decide +kernel) (by decide +kernel),
    vecPass_found rfl (by decide +kernel) (by decide +kernel) (by decide +kernel) (by decide +kernel)⟩

/-- V15: two chips. -/
theorem twoChips_found {p : Params} (hp : p.crc8Poly = 0x8C#8) :
    FoundPasses p 0#64 0 [vecPass [9] idB 9, vecPass [9] idA 0] :=
  ⟨vecPass_found hp (by decide +kernel) (by decide +kernel) (by decide +kernel) (by decide +kernel),
    vecPass_found hp (by decide +kernel) (by decide +kernel) (by decide +kernel) (by decide +kernel), trivial⟩

/-- The bits of V14's passes 2 and 3: discrepancies before, at and beyond the bookmark. -/
theorem witness_SrchNextFollowsTheBookmark (discs : List Nat) (id old : RomId) (ld : BitVec 7) (h : ld.toNat ≤ 64) :
    (∃ s : State, s.lc = .claimed ∧ s.params.wf ∧ s.lastDevice = false ∧ s.romId = old ∧ s.lastDisc = ld ∧
      s.lastDisc.toNat ≤ 64 ∧ (walkBits id discs).length = 64 ∧ (∀ bc ∈ walkBits id discs, bc ≠ (true, true)) ∧
      Acks 6 (oks 6) ∧ s.inputs = oks 6 ++ (walkBits id discs).flatMap positionReplies ++ []) ∧
    (walkBits idD [9, 12])[9 - 1]? = some (false, false) ∧ (walkBits idD [9, 12])[12 - 1]? = some (false, false) ∧
    (walkBits idA [9, 10])[9 - 1]? = some (false, false) ∧ (walkBits idA [9, 10])[10 - 1]? = some (false, false) :=
  ⟨⟨{ claimed _ with lastDevice := false, romId := old, lastDisc := ld }, rfl, vecParams_wf, rfl, rfl, rfl, h,
      walkBits_length _ _, walkBits_answered _ _, oks_acks 6, rfl⟩,
    by decide +kernel, by decide +kernel, by decide +kernel, by decide +kernel⟩

theorem witness_SrchFirstTakesZeroAtDiscrepancies (discs : List Nat) (id : RomId)
    (h : ∀ k ∈ discs, romBit id k = false) :
    (∃ s : State, s.lc = .claimed ∧ s.params.wf ∧ (walkBits id discs).length = 64 ∧
      (∀ bc ∈ walkBits id discs, bc ≠ (true, true)) ∧
      (∀ k bc, 1 ≤ k → (walkBits id discs)[k - 1]? = some bc → romBit id k = bc.1) ∧ Acks 6 (oks 6) ∧
      s.inputs = oks 6 ++ (walkBits id discs).flatMap positionReplies ++ []) ∧
    (∀ k ∈ [9, 12], romBit idB k = false) ∧ (∀ k ∈ ([] : List Nat), romBit 0x330000000000010C#64 k = false) :=
  ⟨⟨claimed _, rfl, vecParams_wf, walkBits_length id discs, walkBits_answered id discs, fun k bc h1 h2 => by
      rw [walkBits_get h1 h2]
      by_cases hd : k ∈ discs
      · rw [if_pos hd, h k hd]
      · rw [if_neg hd], oks_acks 6, rfl⟩,
    by decide +kernel, fun _ h => (by cases h)⟩

/-- A pass assembles the id its bits lead to (R122). -/
theorem walkBits_assembles {discs : List Nat} {id old : RomId} {ld : Nat}
    (h : ∀ k ∈ discs, romBit id k = if k < ld then romBit old k else decide (k = ld)) :
    Assembles old ld (walkBits id discs) id := by
  intro k h1 h2
  cases hb : (walkBits id discs)[k - 1]? with
  | none =>
    rw [List.getElem?_eq_none_iff, walkBits_length] at hb
    omega
  | some bc =>
    rw [walkBits_get h1 hb]
    by_cases hd : k ∈ discs
    · rw [if_pos hd]
      exact h k hd
    · rw [if_neg hd]
      change _ = if romBit id k ≠ !romBit id k then romBit id k else _
      rw [if_pos (by cases romBit id k <;> decide)]

/-- `n` positions answered with an id bit 0, then none: `ROM_ID` stays 0. -/
theorem silent_pass (n : Nat) (h : n < 64) (ld : Nat) : ∃ ops, FailedPass vecParams 0#64 ld
    (oks 6 ++ (List.replicate n (false, true)).flatMap positionReplies ++ (positionReplies (true, true)).take 4) ops 0#64 := by
  refine ⟨_, .noResponder _ _ _ (oks_acks 6) (by rw [List.length_replicate]; exact h)
    (fun bc hbc => by rw [List.eq_of_mem_replicate hbc]; decide) fun k _ _ => ?_⟩
  cases hb : (List.replicate n (false, true))[k - 1]? with
  | none => rfl
  | some bc =>
    rw [List.eq_of_mem_replicate (List.mem_of_getElem? hb)]
    simp [romBit]

/-- No chip answers at the first position: `ROM_ID` stays as it was. -/
theorem absent_pass (old : RomId) (ld : Nat) : ∃ ops, FailedPass vecParams old ld
    (oks 6 ++ (positionReplies (true, true)).take 4) ops old :=
  ⟨_, .noResponder (oks 6) [] old (oks_acks 6) (by decide) (fun _ h => by cases h) fun k _ _ => rfl⟩

/-- V19: the id assembled does not validate. -/
theorem invalid_pass (old : RomId) (ld : Nat) : ∃ ops, FailedPass vecParams old ld
    (oks 6 ++ (walkBits 0x330000000000010C#64 []).flatMap positionReplies) ops 0x330000000000010C#64 :=
  ⟨_, .invalid _ _ _ (oks_acks 6) (walkBits_length _ _) (walkBits_answered _ _)
    (walkBits_assembles fun _ h => by cases h) sample_ids.2⟩

/-- V17 for every number of positions answered before the silence, V19, and a bookmark that is left. -/
theorem witness_NoResponderFailsThePass (n : Nat) (h : n < 64) (ld : BitVec 7) :
    (∃ (s : State) (ms : List Move) (ops : List LinkOp), s.lc = .claimed ∧ s.params.wf ∧ s.inputs = ms ++ [] ∧
      FailedPass s.params 0#64 0 ms ops 0#64) ∧
    (∃ (s : State) (ms : List Move) (ops : List LinkOp), s.lc = .claimed ∧ s.params.wf ∧ s.inputs = ms ++ [] ∧
      s.lastDevice = false ∧ s.romId = idB ∧ s.lastDisc = ld ∧ FailedPass s.params s.romId s.lastDisc.toNat ms ops idB) ∧
    ∃ (s : State) (ms : List Move) (ops : List LinkOp), s.lc = .claimed ∧ s.params.wf ∧ s.inputs = ms ++ [] ∧
      s.lastDevice = false ∧ FailedPass s.params s.romId s.lastDisc.toNat ms ops 0x330000000000010C#64 := by
  obtain ⟨ops1, h1⟩ := silent_pass n h 0
  obtain ⟨ops2, h2⟩ := absent_pass idB ld.toNat
  obtain ⟨ops3, h3⟩ := invalid_pass 0#64 0
  exact ⟨⟨claimed _, _, ops1, rfl, vecParams_wf, rfl, h1⟩,
    ⟨{ claimed _ with lastDevice := false, romId := idB, lastDisc := ld }, _, ops2, rfl, vecParams_wf, rfl, rfl, rfl, rfl, h2⟩,
    ⟨{ claimed _ with lastDevice := false }, _, ops3, rfl, vecParams_wf, rfl, rfl, h3⟩⟩

/-- For SRCH_ENUM and the background pass: a batch of two chips; a table of one entry that is full while chips remain; a second
pass no chip answers, and one that finds no valid id. -/
theorem witness_batches :
    (∃ (s : State) (xs : List Pass) (x : Pass), s.lc = .claimed ∧ s.lock = false ∧ s.seq = .idle ∧ s.params.wf ∧
      FoundPasses s.params 0#64 0 xs ∧ (∀ y ∈ xs.dropLast, y.zero ≠ 0) ∧ xs.length = 2 ∧ xs.length ≤ s.params.maxDev ∧
      xs.getLast? = some x ∧ x.zero = 0 ∧ s.inputs = xs.flatMap Pass.replies ++ []) ∧
    (∃ (s : State) (xs : List Pass) (x : Pass), s.lc = .claimed ∧ s.lock = false ∧ s.seq = .idle ∧ s.params.wf ∧
      FoundPasses s.params 0#64 0 xs ∧ (∀ y ∈ xs.dropLast, y.zero ≠ 0) ∧ xs.length = s.params.maxDev ∧
      xs.getLast? = some x ∧ x.zero ≠ 0 ∧ s.inputs = xs.flatMap Pass.replies ++ []) ∧
    ∀ ms ∈ [oks 6 ++ (positionReplies (true, true)).take 4,
        oks 6 ++ (walkBits 0x330000000000010C#64 []).flatMap positionReplies],
      ∃ (s : State) (xs : List Pass) (ops : List LinkOp) (id : RomId), s.lc = .claimed ∧ s.lock = false ∧ s.seq = .idle ∧
        s.params.wf ∧ FoundPasses s.params 0#64 0 xs ∧ (∀ y ∈ xs, y.zero ≠ 0) ∧ xs.length = 1 ∧
        xs.length < s.params.maxDev ∧
        FailedPass s.params ((xs.getLast?.map Pass.id).getD 0#64) ((xs.getLast?.map Pass.zero).getD 0) ms ops id ∧
        s.inputs = xs.flatMap Pass.replies ++ (ms ++ []) := by
  refine ⟨⟨claimed _, [vecPass [9] idB 9, vecPass [9] idA 0], _, rfl, rfl, rfl, vecParams_wf, twoChips_found rfl,
      by simp [vecPass], rfl, (by decide : 2 ≤ vecParams.maxDev), rfl, rfl, rfl⟩,
    ⟨{ claimed _ with params := { vecParams with maxDev := 1 } }, [vecPass [9] idB 9], _, rfl, rfl, rfl,
      (by decide : { vecParams with maxDev := 1 }.wf), ⟨(twoChips_found rfl).1, trivial⟩, by simp, rfl, rfl,
      by simp [vecPass], rfl⟩, fun ms hms => ?_⟩
  simp only [List.mem_cons, List.not_mem_nil, or_false] at hms
  rcases hms with rfl | rfl
  · obtain ⟨ops, h⟩ := absent_pass idB 9
    exact ⟨claimed _, [vecPass [9] idB 9], ops, _, rfl, rfl, rfl, vecParams_wf, ⟨(twoChips_found rfl).1, trivial⟩,
      by simp [vecPass], rfl, (by decide : 1 < vecParams.maxDev), h, rfl⟩
  · obtain ⟨ops, h⟩ := invalid_pass idB 9
    exact ⟨claimed _, [vecPass [9] idB 9], ops, _, rfl, rfl, rfl, vecParams_wf, ⟨(twoChips_found rfl).1, trivial⟩,
      by simp [vecPass], rfl, (by decide : 1 < vecParams.maxDev), h, rfl⟩

theorem witness_SrchEnumDeliversBatch : ∃ (s : State) (xs : List Pass), s.lc = .claimed ∧ s.params.wf ∧
    FoundPasses s.params 0#64 0 xs ∧ (∀ y ∈ xs.dropLast, y.zero ≠ 0) ∧ xs.length ≤ s.params.maxDev :=
  let ⟨s, xs, _, h1, _, _, h2, h3, h4, _, h5, _⟩ := witness_batches.1
  ⟨s, xs, h1, h2, h3, h4, h5⟩

theorem witness_SearchCommandsFrame : (∃ s t : State, exec .srchNext s = .next t) ∧
    (∃ s t : State, exec .srchEnum s = .next t) ∧ 0x20 ≤ Instr.srchFirst.opc.toNat ∧ Instr.srchEnum.opc.toNat ≤ 0x22 :=
  ⟨⟨claimed [], _, rfl⟩, ⟨claimed [], _, rfl⟩, by decide, by decide⟩

theorem witness_TickStartsPassWhenEnabled :
    (∃ s : State, s.inputs = [.tick] ∧ ¬(s.lc = .claimed ∧ s.searching = true ∧ s.lock = false)) ∧
    ∃ s : State, s.inputs = [.tick] ∧ s.lc = .claimed ∧ s.searching = true ∧ s.lock = false ∧ s.params.wf :=
  ⟨⟨claimed [.tick], rfl, by simp [claimed, fresh, State.reset]⟩, { claimed [.tick] with searching := true }, rfl, rfl, rfl,
    rfl, vecParams_wf⟩

theorem witness_BackgroundPassDelivers : ∃ (s : State) (xs : List Pass), s.lock = false ∧ s.seq = .idle ∧
    s.params.wf ∧ FoundPasses s.params 0#64 0 xs ∧ (∀ y ∈ xs.dropLast, y.zero ≠ 0) ∧ xs.length ≤ s.params.maxDev :=
  let ⟨s, xs, _, _, h0, h1, h2, h3, h4, _, h5, _⟩ := witness_batches.1
  ⟨s, xs, h0, h1, h2, h3, h4, h5⟩

/-- The enumeration waits. -/
def enumWaits {α : Type} (o : Res α) : Bool :=
  match o with
  | .wait _ _ => true
  | _ => false

theorem enumWaits_of {α : Type} {o : Res α} (h : enumWaits o = true) : ∃ op e, o = .wait op e := by
  cases o with
  | wait op e => exact ⟨op, e, rfl⟩
  | _ => cases h

/-- A background pass run on the answers `ms` waits at `op`, the last link operation issued before it being `prev`. -/
def PassWaits (s : State) (ms : List Move) (prev : Option LinkOp) (op : LinkOp) : Prop :=
  ∃ t l entry got, runBackground { s with inputs := ms } = .next t ∧ t.seq = .busy .background op l entry got ∧
    (t.issued.drop s.issued.length).getLast? = prev

theorem passWaits_of {s : State} {ms : List Move} {prev : Option LinkOp} {op : LinkOp}
    (h : leads (runBackground { s with inputs := ms }) (fun t => (match t.seq with
      | .busy job o _ _ _ => decide (job = .background) && decide (o = op)
      | .idle => false) && ((t.issued.drop s.issued.length).getLast? = prev)) = true) : PassWaits s ms prev op := by
  obtain ⟨t, h1, h2⟩ := leads_next h
  rw [Bool.and_eq_true, decide_eq_true_eq] at h2
  obtain ⟨h2, h3⟩ := h2
  cases hs : t.seq with
  | idle => rw [hs] at h2; cases h2
  | busy job o l entry got =>
    rw [hs] at h2
    simp only [Bool.and_eq_true, decide_eq_true_eq] at h2
    obtain ⟨rfl, rfl⟩ := h2
    exact ⟨t, l, entry, got, h1, hs, h3⟩

/-- PassTimeout right after the first operation, in the walk, and in a second pass's first operation; a condition at the
first reset command, at a poll, and at both ends of a read. -/
theorem witness_PassTimeoutEndsThePass :
    (∀ ms ∈ [oks 1, oks 7, (vecPass [9] idB 9).replies], (∀ m ∈ ms, ∃ q, m = .reply q) ∧ ms ≠ [] ∧
      (∃ op e, enumerate (State.eng { claimed [] with inputs := ms } true) = .wait op e) ∧
      ∃ t, runBackground { claimed [] with inputs := ms } = .next t ∧ t.lock = true) ∧
    PassWaits (claimed []) [] none (.ctl .reset) ∧
    (PassWaits (claimed []) (oks 1) (some (.ctl .reset)) .stat ∧
      Breaks vecParams (some (.ctl .reset)) .stat .transportError false [.reply .fail] [.stat]) ∧
    PassWaits (claimed []) (oks 7) (some (.ctl .rbit)) (.bulkIn 1) ∧
    Breaks vecParams (some (.ctl .rbit)) (.bulkIn 1) .transportError false [bytesReply []] [.bulkIn 1] ∧
    Breaks vecParams (some (.ctl .rbit)) (.bulkIn 1) .transportError false [.reply .timeout] [.bulkIn 1] := by
  refine ⟨fun ms hms => ?_, passWaits_of (by decide +kernel),
    ⟨passWaits_of (by decide +kernel), transfer_breaks _ _ .fail rfl⟩, passWaits_of (by decide +kernel),
    .empty 1 false rfl (.inl rfl), transfer_breaks _ _ .timeout rfl⟩
  simp only [List.mem_cons, List.not_mem_nil, or_false] at hms
  rcases hms with rfl | rfl | rfl
  · exact ⟨oks_replies _, by decide, enumWaits_of (by decide +kernel),
      leads_next (q := fun t => t.lock) (by decide +kernel)⟩
  · exact ⟨oks_replies _, by decide, enumWaits_of (by decide +kernel),
      leads_next (q := fun t => t.lock) (by decide +kernel)⟩
  · refine ⟨fun m hm => ?_, by simp [Pass.replies, vecPass, oks], enumWaits_of (by decide +kernel),
      leads_next (q := fun t => t.lock) (by decide +kernel)⟩
    rcases List.mem_append.1 hm with h | h
    · exact oks_replies 6 m h
    · obtain ⟨bc, -, h⟩ := List.mem_flatMap.1 h
      simp only [positionReplies, bytesReply, List.mem_cons, List.not_mem_nil, or_false] at h
      rcases h with h | h | h | h | h <;> exact ⟨_, h⟩

theorem witness_BackgroundPassFrame : ∃ s t : State, runBackground s = .next t ∧ t.lock = true :=
  ⟨claimed [], _, rfl, rfl⟩

/-- Every number of mismatches allowed, the read-back in full chunks, byte by byte and in unequal pieces; and a preamble
that comes in two. -/
theorem witness_PgWriteCommitsAfterMatchingReadBack (n : Nat) (hn : n < 3) :
    (∀ back ∈ samplePieces, ∃ (s : State) (xs : List Mismatch) (bad good : List Move), xs.length = n ∧ s.lc = .claimed ∧
      s.params.wf ∧ samplePage.length = 32 ∧ HoldsBytes s.mem (0x2000 + 32 * (255#8).toNat) samplePage ∧
      xs.length < s.params.retryAttempts ∧ MismatchReplies s.params samplePage xs bad ∧ back.flatten = samplePage ∧
      CycleReplies s.params [] back good ∧ s.inputs = bad ++ good ++ []) ∧
    { vecParams with spPreamble := 3 }.wf ∧ Arrive { vecParams with spPreamble := 3 } 3 [[1, 2], [3]] := by
  refine ⟨fun back hb => ?_, by decide, rfl, by decide⟩
  obtain ⟨h1, h2⟩ := samplePieces_arrive back hb
  exact ⟨{ claimed _ with mem := cellsFrom (0x2000 + 32 * 255) samplePage }, zerosRead samplePage n, _, _,
    List.length_replicate, rfl, vecParams_wf, rfl, cells_hold _ _,
    (by rw [zerosRead, List.length_replicate]; exact hn), zerosRead_replies (by decide) n, h1,
    cycleScript_replies (by rw [h1]; exact h2), rfl⟩

theorem witness_PgWriteVerifyFailedSendsNoCopy :
    ∃ (s : State) (xs : List Mismatch) (bad : List Move), s.lc = .claimed ∧ s.params.wf ∧ samplePage.length = 32 ∧
      HoldsBytes s.mem (0x2000 + 32 * (0#8).toNat) samplePage ∧ xs.length = s.params.retryAttempts ∧
      MismatchReplies s.params samplePage xs bad ∧ s.inputs = bad ++ [] :=
  ⟨{ claimed _ with mem := cellsFrom 0x2000 samplePage }, zerosRead samplePage 3, _, rfl,
    vecParams_wf, rfl, cells_hold _ _, rfl, zerosRead_replies (by decide) 3, rfl⟩

theorem witness_RgWriteWritesRegion (n : Byte) (h1 : 1 ≤ n.toNat) (h2 : n.toNat ≤ 32) :
    ∀ k ≤ 3, ∃ (s : State) (data : List Byte) (back : List (List Byte)) (xs : List Mismatch) (bad good : List Move),
      s.lc = .claimed ∧ s.params.wf ∧ data.length = n.toNat ∧ HoldsBytes s.mem 0x0100 data ∧ MismatchReplies s.params data xs bad ∧ xs.length = k ∧
      s.params.retryAttempts = 3 ∧ back.flatten = data ∧ CycleReplies s.params [] back good ∧
      s.inputs = if k < 3 then bad ++ good ++ [] else bad ++ [] := by
  intro k _
  have hne : List.replicate (List.replicate n.toNat 0x55#8).length 0#8 ≠ List.replicate n.toNat 0x55#8 := by
    intro h
    have h3 : (List.replicate n.toNat 0x55#8)[0]? = (List.replicate n.toNat 0#8)[0]? := by
      rw [← h, List.length_replicate]
    rw [List.getElem?_replicate, List.getElem?_replicate, if_pos (by omega), if_pos (by omega)] at h3
    cases h3
  exact ⟨{ claimed _ with mem := cellsFrom 0x0100 (List.replicate n.toNat 0x55) }, List.replicate n.toNat 0x55,
    bytewise (List.replicate n.toNat 0x55), zerosRead _ k, _, _, rfl, vecParams_wf, List.length_replicate, cells_hold _ _,
    zerosRead_replies hne k, List.length_replicate, rfl, bytewise_flatten _,
    cycleScript_replies (by rw [bytewise_flatten]; exact bytewise_arrive _), rfl⟩

theorem witness_MemReadallFillsImage : ∀ pg ∈ samplePieces, ∃ (s : State) (img : List (List (List Byte))), s.lc = .claimed ∧
    s.params.wf ∧ img.length = 256 ∧ (∀ pg ∈ img, Arrive s.params 32 pg) ∧ Acks 8 (oks 8) ∧
    s.inputs = oks 8 ++ img.flatMap readReplies ++ [] := fun pg hpg =>
  ⟨claimed (oks 8 ++ (List.replicate 256 pg).flatMap readReplies ++ []), List.replicate 256 pg, rfl, vecParams_wf,
    List.length_replicate, fun d hd => by rw [List.eq_of_mem_replicate hd]; exact (samplePieces_arrive pg hpg).2, oks_acks 8,
    rfl⟩

/-- Three attempts whose transfer `k` times out and whose hard reset answers `ok`, or fewer. -/
def failedAttempts (k n : Nat) : List Move := (List.replicate n (oks k ++ [.reply .timeout] ++ oks 1)).flatten

/-- A machine with one page to write, for the three commands: `IMG_A` holds `PG`, `IMG_B` an empty page. -/
def onePage : State :=
  { claimed [] with
    npagesA := 1#9, npagesB := 1#9, mem := cellsFrom 0x2000 samplePage ++ cellsFrom 0x4000 (List.replicate 32 0x55) }

theorem onePage_holds : HoldsBytes onePage.mem 0x2000 samplePage ∧
    HoldsBytes onePage.mem 0x4000 (List.replicate 32 0x55) := by
  have h1 : ∀ i < 32, onePage.mem.read? (0x2000 + i) = samplePage[i]? := by decide +kernel
  have h2 : ∀ i < 32, onePage.mem.read? (0x4000 + i) = (List.replicate 32 0x55#8)[i]? := by decide +kernel
  exact ⟨h1, h2⟩

theorem samplePage_ne : List.replicate samplePage.length 0#8 ≠ samplePage := by decide

/-- The cycle of `onePage`'s page after `n` mismatches. -/
def pageJob (n : Nat) : PageJob := ⟨0, zerosRead samplePage n, [], bytewise samplePage⟩

theorem pageJob_data (n : Nat) : (pageJob n).data = samplePage := bytewise_flatten samplePage

theorem pageJob_replies (n : Nat) : PageReplies vecParams [pageJob n] (pagesScript [pageJob n]) :=
  pages_replies _ fun j hj => by
    rw [List.mem_singleton.1 hj, pageJob_data]
    exact ⟨rfl, bytewise_arrive samplePage, ⟨n, rfl⟩, samplePage_ne⟩

/-- With attempts left and with none, at a transfer of the body and at its first line, for each command; the body run again
with no mismatch, with as many as the attempts left allow, and with one too many. -/
theorem witness_WholeMemoryCommandsRestartTheirBody :
    onePage.params.wf ∧
    (∀ i ∈ [Instr.memReadall false, .memWriteall true, .memWritediff false],
      Waits i onePage (oks 7) (some (.ctl (.count 3))) (.bulkIn 3) (fun t => t.att = 1#4) ∧
      Waits i onePage [] none (.ctl .reset) (fun t => t.att = 1#4) ∧
      Waits i onePage (failedAttempts 6 2 ++ oks 7) (some (.ctl (.count 3))) (.bulkIn 3) (fun t => t.att = 3#4)) ∧
    Breaks vecParams (some (.ctl (.count 3))) (.bulkIn 3) .transportError false [.reply .fail] [.bulkIn 3] ∧
    (∀ i ∈ [Instr.memWriteall true, .memWritediff false],
      Waits i onePage (oks 15) (some (.ctl .reset)) .stat (inPhase onePage .verify) ∧
      Waits i onePage (failedAttempts 15 2 ++ oks 7) (some (.ctl (.count 3))) (.bulkIn 3) (inPhase onePage .write) ∧
      Waits i onePage (failedAttempts 15 1 ++ oks 15) (some (.ctl .reset)) .stat (inPhase onePage .verify)) ∧
    (Waits (.memReadall false) onePage (oks 8) (some (.bulkIn 3)) (.bulkIn 16) (fun t => t.att = 1#4) ∧
      Breaks vecParams (some (.bulkIn 3)) (.bulkIn 16) .transportError false [bytesReply []] [.bulkIn 16]) ∧
    (List.replicate 256 (bytewise samplePage)).length = 256 ∧ Acks 8 (oks 8) ∧ Arrive vecParams 32 (bytewise samplePage) ∧
    (∀ n ≤ 1, [pageJob n].map PageJob.page = List.range onePage.npagesA.toNat ∧
      (1#4).toNat + 1 + missesOf [pageJob n] ≤ onePage.params.retryAttempts ∧
      PageReplies onePage.params [pageJob n] (pagesScript [pageJob n])) ∧
    samplePage.length = 32 ∧ HoldsBytes onePage.mem (0x2000 + 32 * 0) samplePage ∧
    HoldsBytes onePage.mem (0x4000 + 32 * 0) (List.replicate 32 0x55) ∧ samplePage ≠ List.replicate 32 0x55 ∧
    (PageReplies onePage.params [] [] ∧ 0 < onePage.npagesA.toNat ∧
      MismatchReplies onePage.params samplePage (zerosRead samplePage 2)
        (List.replicate 2 (mismatchScript samplePage)).flatten ∧
      (1#4).toNat + missesOf [] + (zerosRead samplePage 2).length = onePage.params.retryAttempts) := by
  refine ⟨vecParams_wf, fun i hi => ?_, transfer_breaks _ _ .fail rfl, fun i hi => ?_,
    ⟨waits_of (by decide +kernel), .empty 16 false rfl (.inr ⟨3, rfl⟩)⟩, List.length_replicate, oks_acks 8,
    bytewise_arrive samplePage, fun n hn => ⟨rfl, ?_, pageJob_replies n⟩, rfl, onePage_holds.1, onePage_holds.2, by decide, rfl, by decide +kernel,
    zerosRead_replies samplePage_ne 2, rfl⟩
  · simp only [List.mem_cons, List.not_mem_nil, or_false] at hi
    rcases hi with rfl | rfl | rfl
    · exact ⟨waits_of (by decide +kernel), waits_of (by decide +kernel), waits_of (by decide +kernel)⟩
    · exact ⟨waits_of (by decide +kernel), waits_of (by decide +kernel), waits_of (by decide +kernel)⟩
    · exact ⟨waits_of (by decide +kernel), waits_of (by decide +kernel), waits_of (by decide +kernel)⟩
  · simp only [List.mem_cons, List.not_mem_nil, or_false] at hi
    rcases hi with rfl | rfl
    · exact ⟨waits_of (by decide +kernel), waits_of (by decide +kernel), waits_of (by decide +kernel)⟩
    · exact ⟨waits_of (by decide +kernel), waits_of (by decide +kernel), waits_of (by decide +kernel)⟩
  · have h1 : missesOf [pageJob n] = n := by simp [missesOf, pageJob, zerosRead]
    have h2 : onePage.params.retryAttempts = 3 := rfl
    have h3 : (1#4).toNat = 1 := rfl
    omega

/-- A read that goes on, and one that ends in an error after it received a byte. -/
theorem witness_MemReadallFrame : (∃ s t : State, exec (.memReadall true) s = .next t ∧ t.lock = true) ∧
    ∃ (s t : State) (ms : List Move), s.inputs = ms ∧ ms = failedAttempts 6 2 ++ oks 8 ++ [bytesReply [0x77],
      .reply .timeout] ++ oks 1 ∧ (∀ m ∈ ms, ∃ q, m = .reply q) ∧ exec (.memReadall false) s = .next t ∧
      (t.lock = false && resultErr t.result ≠ 0#4) = true := by
  refine ⟨⟨claimed [], _, rfl, rfl⟩, claimed (failedAttempts 6 2 ++ oks 8 ++ [bytesReply [0x77], .reply .timeout] ++ oks 1), ?_⟩
  obtain ⟨t, h1, h2⟩ := leads_next (o := exec (.memReadall false)
    (claimed (failedAttempts 6 2 ++ oks 8 ++ [bytesReply [0x77], .reply .timeout] ++ oks 1)))
    (q := fun t => t.lock = false && resultErr t.result ≠ 0#4) (by decide +kernel)
  refine ⟨t, _, rfl, rfl, fun m hm => ?_, h1, h2⟩
  have h : ∀ ms : List Move, (ms.all fun m => match m with | .reply _ => true | _ => false) = true → ∀ m ∈ ms,
      ∃ q, m = .reply q := by
    intro ms hms m hm
    have := List.all_eq_true.1 hms m hm
    cases m with
    | reply q => exact ⟨q, rfl⟩
    | _ => cases this
  exact h _ (by decide +kernel) m hm

/-- An empty page arrives byte by byte. -/
theorem emptyPage_arrives : Arrive vecParams 32 (bytewise (List.replicate 32 0x55)) := bytewise_arrive _

theorem emptyPage_ne : List.replicate 32 (0#8 : Byte) ≠ List.replicate 32 0x55#8 := by decide

/-- Every page count; two mismatches at the one page; one mismatch at the first page and two at the second, one too many. -/
theorem witness_MemWriteallWritesEveryPage (n : BitVec 9) (h : n.toNat ≤ 256) :
    (∃ (s : State) (js : List PageJob) (ms : List Move), s.lc = .claimed ∧ s.params.wf ∧ s.npagesA = n ∧
      js.map PageJob.page = List.range s.npagesA.toNat ∧
      (∀ j ∈ js, j.data.length = 32 ∧ HoldsBytes s.mem (0x2000 + 32 * j.page) j.data) ∧
      PageReplies s.params js ms ∧ s.inputs = ms ++ []) ∧
    ([pageJob 2].map PageJob.page = List.range onePage.npagesA.toNat ∧ 1 + missesOf [pageJob 2] = 3 ∧
      onePage.params.retryAttempts = 3 ∧ HoldsBytes onePage.mem (0x2000 + 32 * 0) samplePage ∧
      PageReplies onePage.params [pageJob 2] (pagesScript [pageJob 2])) ∧
    ∃ (s : State) (js : List PageJob) (ms : List Move) (data : List Byte) (xs : List Mismatch) (bad : List Move),
      s.lc = .claimed ∧ s.params.wf ∧ js.map PageJob.page = List.range 1 ∧ 1 < s.npagesA.toNat ∧
      (∀ j ∈ js, j.data.length = 32 ∧ HoldsBytes s.mem (0x2000 + 32 * j.page) j.data) ∧ PageReplies s.params js ms ∧
      data.length = 32 ∧ HoldsBytes s.mem (0x2000 + 32 * 1) data ∧ xs ≠ [] ∧ MismatchReplies s.params data xs bad ∧
      missesOf js + xs.length = s.params.retryAttempts ∧ s.inputs = ms ++ bad ++ [] := by
  refine ⟨⟨{ claimed _ with npagesA := n, mem := cellsFrom 0x2000 (List.replicate 8192 0x55) },
    (List.range n.toNat).map fun k => ⟨k, [], [], bytewise (List.replicate 32 0x55)⟩, _, rfl, vecParams_wf, rfl, ?_, ?_,
    pages_replies _ ?_, rfl⟩, ⟨rfl, rfl, rfl, onePage_holds.1, pageJob_replies 2⟩,
    { claimed _ with npagesA := 2#9, mem := cellsFrom 0x2000 (List.replicate 8192 0x55) },
    [⟨0, zerosRead (List.replicate 32 0x55) 1, [], bytewise (List.replicate 32 0x55)⟩], _, List.replicate 32 0x55,
    zerosRead (List.replicate 32 0x55) 2, _, rfl, vecParams_wf, rfl, (by decide : 1 < (2#9).toNat), ?_, pages_replies _ ?_, rfl,
    cells_hold_part _ (by omega) (by omega), by decide, zerosRead_replies (by decide) 2, rfl, rfl⟩
  · rw [List.map_map]; exact List.map_id _
  · intro j hj
    obtain ⟨k, hk, rfl⟩ := List.mem_map.1 hj
    rw [List.mem_range] at hk
    exact ⟨rfl, cells_hold_part (base := 0x2000) (size := 8192) (a := 0x2000 + 32 * k) (n := 32) 0x55#8 (by omega) (by omega)⟩
  · intro j hj
    obtain ⟨k, -, rfl⟩ := List.mem_map.1 hj
    exact ⟨rfl, emptyPage_arrives, ⟨0, rfl⟩, emptyPage_ne⟩
  · intro j hj
    rw [List.mem_singleton.1 hj]
    exact ⟨rfl, cells_hold_part (base := 0x2000) (size := 8192) (a := 0x2000) (n := 32) 0x55#8 (by omega) (by omega)⟩
  · intro j hj
    rw [List.mem_singleton.1 hj]
    exact ⟨rfl, emptyPage_arrives, ⟨1, rfl⟩, emptyPage_ne⟩

/-- The images of `DiffMinimality`: page `k` of `IMG_A` is the sample page, every other page is empty. -/
def newPage (k j : Nat) : List Byte := if j = k then samplePage else List.replicate 32 0x55

/-- Both images, differing at page `k`. -/
def diffMem (k : Nat) : Memory :=
  (cellsFrom 0x2000 (List.replicate 0x4000 0x55)).writeBytes (0x2000 + 32 * k) samplePage

theorem diffMem_holds {k : Nat} (hk : k < 256) (j : Nat) (hj : j < 256) :
    (newPage k j).length = 32 ∧ HoldsBytes (diffMem k) (0x2000 + 32 * j) (newPage k j) ∧
      HoldsBytes (diffMem k) (0x4000 + 32 * j) (List.replicate 32 0x55) := by
  have hl : samplePage.length = 32 := rfl
  refine ⟨by unfold newPage; split <;> rfl, fun i hi => ?_, fun i hi => ?_⟩
  · unfold newPage at hi ⊢
    unfold diffMem
    split at hi
    · next h =>
      rw [if_pos h, Memory.read?_writeBytes, if_pos (by omega), h, Nat.add_sub_cancel_left]
    · next h =>
      have h1 := hi
      rw [List.length_replicate] at h1
      rw [if_neg h, Memory.read?_writeBytes, if_neg (by omega)]
      exact cells_hold_part 0x55#8 (by omega) (by omega) i hi
  · have h1 := hi
    rw [List.length_replicate] at h1
    unfold diffMem
    rw [Memory.read?_writeBytes, if_neg (by omega)]
    exact cells_hold_part 0x55#8 (by omega) (by omega) i hi

theorem newPage_differs (k j : Nat) : newPage k j ≠ List.replicate 32 0x55 ↔ j = k := by
  unfold newPage
  split
  · next h => exact ⟨fun _ => h, fun _ => by decide⟩
  · next h => exact ⟨fun h' => absurd rfl h', fun h' => absurd h' h⟩

theorem witness_DiffMinimality (k : Nat) (hk : k < 256) :
    ∃ (s : State) (new old : Nat → List Byte) (back : List (List Byte)) (ms : List Move), s.lc = .claimed ∧ s.params.wf ∧
      s.npagesA = 256#9 ∧
      s.npagesB = 256#9 ∧
      (∀ j < 256, (new j).length = 32 ∧ (old j).length = 32 ∧ HoldsBytes s.mem (0x2000 + 32 * j) (new j) ∧
        HoldsBytes s.mem (0x4000 + 32 * j) (old j)) ∧
      (∀ j < 256, new j ≠ old j ↔ j = k) ∧ back.flatten = new k ∧ CycleReplies s.params [] back ms ∧ s.inputs = ms ++ [] :=
  ⟨{ claimed _ with mem := diffMem k }, newPage k, fun _ => List.replicate 32 0x55, bytewise (newPage k k), _, rfl,
    vecParams_wf, rfl, rfl, fun j hj => ⟨(diffMem_holds hk j hj).1, rfl, (diffMem_holds hk j hj).2⟩,
    fun j _ => newPage_differs k j, bytewise_flatten _,
    cycleScript_replies (by rw [bytewise_flatten]; exact bytewise_arrive _), rfl⟩

theorem diffPages_through (n : Nat) (h : n ≤ 256) : (List.range n).filter (fun k => newPage 255 k ≠ List.replicate 32 0x55) =
    if n = 256 then [255] else [] := by
  have : ∀ n ≤ 256, (List.range n).filter (fun k => decide (k = 255)) = if n = 256 then [255] else [] := by decide +kernel
  simp only [newPage_differs]
  exact this n h

/-- Page 255 alone differs: its cycle after two mismatches, and with one too many. -/
theorem witness_MemWritediffWritesChangedPages :
    ∃ (s u : State) (new old : Nat → List Byte) (js : List PageJob) (ms bad : List Move), s.lc = .claimed ∧ s.params.wf ∧
      s.npagesA = s.npagesB ∧ s.npagesA = 256#9 ∧
      (∀ k < s.npagesA.toNat, (new k).length = 32 ∧ (old k).length = 32 ∧
        HoldsBytes s.mem (0x2000 + 32 * k) (new k) ∧ HoldsBytes s.mem (0x4000 + 32 * k) (old k)) ∧
      js.map PageJob.page = (List.range s.npagesA.toNat).filter (fun k => new k ≠ old k) ∧
      1 + missesOf js = s.params.retryAttempts ∧ (∀ j ∈ js, j.data = new j.page) ∧ PageReplies s.params js ms ∧
      s.inputs = ms ++ [] ∧ u = { s with inputs := [] ++ bad ++ [] } ∧ PageReplies s.params [] [] ∧
      ([] : List PageJob).map PageJob.page = (List.range 255).filter (fun k => new k ≠ old k) ∧ new 255 ≠ old 255 ∧
      MismatchReplies s.params (new 255) (zerosRead (new 255) 3) bad ∧
      missesOf [] + (zerosRead (new 255) 3).length = s.params.retryAttempts := by
  refine ⟨{ claimed _ with mem := diffMem 255 }, _, newPage 255, fun _ => List.replicate 32 0x55,
    [⟨255, zerosRead samplePage 2, [], bytewise samplePage⟩], _, _, rfl, vecParams_wf, rfl, rfl,
    fun j hj => ⟨(diffMem_holds (by omega) j hj).1, rfl, (diffMem_holds (by omega) j hj).2⟩,
    (diffPages_through 256 (by omega)).symm, rfl, ?_, pages_replies _ ?_, rfl, rfl, rfl,
    (diffPages_through 255 (by omega)).symm, (newPage_differs 255 255).2 rfl, zerosRead_replies (by decide) 3, rfl⟩
  · intro j hj
    rw [List.mem_singleton.1 hj]; rfl
  · intro j hj
    rw [List.mem_singleton.1 hj]
    exact ⟨rfl, bytewise_arrive samplePage, ⟨2, rfl⟩, samplePage_ne⟩

theorem witness_WritingCommandsFrame :
    (∃ s t : State, exec (.rgWrite 0 0 1) s = .next t ∧ t.lock = true) ∧
    (∃ s t : State, exec (.memWriteall false) s = .next t ∧ t.lock = false) ∧
    (Instr.rgWrite 0 0 1).opc = 0x31#8 ∧ (Instr.memWriteall false).opc = 0x39#8 :=
  ⟨⟨{ claimed [] with mem := [(0x0100, 0)] }, _, rfl, rfl⟩, ⟨{ claimed [] with npagesA := 0#9 }, _, rfl, rfl⟩, rfl, rfl⟩

/-- A page that holds values, and one that lacks its byte `bs.length`. -/
theorem witness_Crc16ChkValidates (p : Byte) (pg bs : List Byte) :
    (∃ s : State, HoldsBytes s.mem (0x2000 + 32 * p.toNat) pg) ∧
    ∃ s : State, HoldsBytes s.mem (0x2000 + 32 * p.toNat) bs ∧ s.mem.read? (0x2000 + 32 * p.toNat + bs.length) = none :=
  ⟨⟨{ fresh [] with mem := cellsFrom (0x2000 + 32 * p.toNat) pg }, cells_hold _ _⟩,
    { fresh [] with mem := cellsFrom (0x2000 + 32 * p.toNat) bs }, cells_hold _ _, by
      simp only [Memory.read?_cellsFrom]
      rw [if_pos (by omega), Nat.add_sub_cancel_left]
      exact List.getElem?_eq_none (Nat.le_refl _)⟩

theorem witness_Crc16GenStamps (p : Byte) (bs : List Byte) :
    (∃ s : State, samplePage.length = 32 ∧ HoldsBytes s.mem (0x2000 + 32 * p.toNat) samplePage ∧
      samplePage ≠ List.replicate 32 0x55#8) ∧
    ∃ s : State, HoldsBytes s.mem (0x2000 + 32 * p.toNat) bs ∧ s.mem.read? (0x2000 + 32 * p.toNat + bs.length) = none :=
  ⟨⟨{ fresh [] with mem := cellsFrom (0x2000 + 32 * p.toNat) samplePage }, rfl, cells_hold _ _, by decide⟩,
    (witness_Crc16ChkValidates p [] bs).2⟩

theorem witness_StampedPageValidates : ∃ s t : State, exec (.crc16Gen 255) s = .next t :=
  ⟨{ fresh [] with mem := cellsFrom 0x3FE0 (List.replicate 32 0x55) }, _, rfl⟩

theorem witness_EverySingleByteChangeIsDetected : 31 < samplePage.length ∧ samplePage[31]? ≠ some 0x95#8 ∧
    crc16 samplePage 0 = 0xB001#16 := by decide +kernel

theorem witness_StatusLayout : ∃ s t : State, s.inputs = [.read 0x0004 .word] ∧ t.inputs = [.write 0x0004 .word 0] :=
  ⟨fresh _, fresh _, rfl, rfl⟩

theorem witness_HostReadsReturnValues (a : Half) (n : Width) (b : Byte) :
    ∃ s : State, s.lock = false ∧ s.inputs = [.read a n] ∧ s.mem.read? a.toNat = some b ∧ s.params.maxDev = 8 ∧
      (0x043F#16).toNat - 0x0400 < 8 * s.params.maxDev :=
  ⟨{ fresh [.read a n] with mem := [(a.toNat, b)] }, rfl, rfl, by simp [Memory.read?], rfl,
    (by decide : (0x043F#16).toNat - 0x0400 < 8 * vecParams.maxDev)⟩

theorem witness_HostWritesStore (a : Half) (n : Width) (v : Word) :
    ∃ s : State, s.lock = false ∧ s.inputs = [.write a n v] := ⟨fresh _, rfl, rfl⟩

theorem witness_HostAccessesRefused (m : Move) (b : Bool) : ∃ s : State, s.lock = b ∧ s.inputs = [m] ∧
    s.params.maxDev = 8 ∧ (0x043F - 0x0400) / 8 < s.params.maxDev ∧ s.params.maxDev ≤ (0x0440 - 0x0400) / 8 :=
  ⟨{ fresh [m] with lock := b }, rfl, rfl, rfl, (by decide : (0x043F - 0x0400) / 8 < vecParams.maxDev),
    (by decide : vecParams.maxDev ≤ (0x0440 - 0x0400) / 8)⟩

/-- The addresses at the ends of the windows, the registers and the holes of R41. -/
theorem test_map_edges :
    ([0x0100, 0x02FF, 0x0400, 0x04FF, 0x2000, 0x5FFF].all fun a : Half =>
      match placeOf a with | some (.buffer _ _) => true | _ => false) &&
    ([0x0000, 0x0004, 0x0008, 0x000C, 0x0010, 0x0014, 0x0018, 0x001C, 0x0020, 0x0024, 0x0028, 0x002C].all fun a : Half =>
      match placeOf a with | some (.buffer _ _) => false | some _ => true | none => false) &&
    ([0x0030, 0x00FC, 0x00FF, 0x0300, 0x03FF, 0x0500, 0x1FFF, 0x6000, 0xFFFC].all fun a : Half => placeOf a = none) =
      true := by decide +kernel

theorem witness_EngineNeverWritesTargetId : ∃ s t : State, s.Inv ∧ step s = .next t ∧ t.targetId ≠ s.targetId ∧
    s.inputs.head? = some (.write 0x0010 .word 0x0000010C) :=
  ⟨fresh [.write 0x0010 .word 0x0000010C], _, fresh_inv _, rfl, by decide, rfl⟩

end Sys2Proof.Tests
end

/-! ## What one step can do

Every next state of `step`, said once (`step_stepped`): the invariant, the changes of `LC` and the owners of `TARGET_ID` and
`NPAGES_B` are read off its cases. -/

namespace Sys2Proof.Machine

/-- The address of a register (R41); none for a buffer byte, which has its window's. -/
def Place.registerAddr : Place → Option Half
  | .cmd => some 0x0000#16
  | .status => some 0x0004#16
  | .result => some 0x0008#16
  | .event => some 0x000C#16
  | .tgtLo => some 0x0010#16
  | .tgtHi => some 0x0014#16
  | .romLo => some 0x0018#16
  | .romHi => some 0x001C#16
  | .crc16 => some 0x0020#16
  | .npages => some 0x0024#16
  | .detCnt => some 0x0028#16
  | .rxLen => some 0x002C#16
  | .buffer _ _ => none

/-- A register stands at one address only (R41). -/
theorem placeOf_registerAddr {a b : Half} {pl : Place} (h : placeOf a = some pl) (hb : pl.registerAddr = some b) :
    a = b := by
  unfold placeOf at h
  simp only [] at h
  iterate 12
    obtain ⟨ha, h⟩ | ⟨-, h⟩ := ite_eq_iff.1 h
    · cases h
      cases hb
      exact BitVec.eq_of_toNat_eq ha
  iterate 5
    obtain ⟨-, h⟩ | ⟨-, h⟩ := ite_eq_iff.1 h
    · cases h
      cases hb
  cases h

/-- The place at a register's address is the register (R41, R42). -/
theorem placeOf_of_registerAddr {a : Half} {pl : Place} (h : pl.registerAddr = some a) :
    placeOf a = some pl ∧ pl.width = .word ∧ a.toNat % 4 = 0 := by
  cases pl with
  | buffer w o => cases h
  | _ =>
    cases h
    exact ⟨by decide, rfl, by decide⟩

/-- A host read changes nothing but the value read (R47). -/
theorem hostMemRead_next {a : Half} {n : Width} {s t : State} (h : hostMemRead a n s = .next t) :
    ∃ v, t = { s with hostRead := v } := by
  unfold hostMemRead at h
  split at h
  · cases h
  · split at h
    · cases h
    · split at h <;> cases h
      exact ⟨_, rfl⟩
    · split at h <;> cases h
      exact ⟨_, rfl⟩

/-- What a host write that is not refused does (R41, R43, R45). -/
theorem hostMemWrite_next {a : Half} {n : Width} {v : Word} {s t : State} (h : hostMemWrite a n v s = .next t) :
    writeCmd v s = .next t ∨
    (∃ pl, placeOf a = some pl ∧ n = pl.width ∧ (pl.owned = true → s.lock = false) ∧ writeRegister s v pl = some t) ∨
    (s.lock = false ∧ (0x0100 ≤ a.toNat ∧ a.toNat ≤ 0x01FF ∨ 0x2000 ≤ a.toNat ∧ a.toNat ≤ 0x5FFF) ∧
      t = { s with mem := s.mem.write a.toNat (v.extractLsb' 0 8) }) := by
  unfold hostMemWrite at h
  split at h
  · cases h
  · rename_i ha
    split at h
    · cases h
    · exact .inl h
    · rename_i o hp
      cases h
      obtain ⟨rfl, hw⟩ := placeOf_buffer hp
      exact .inr (.inr ⟨(accessRefusal_none hp ha).2 rfl, hw, rfl⟩)
    · rename_i pl _ _ hp
      split at h <;> cases h
      rename_i hw
      obtain ⟨hn, ho⟩ := accessRefusal_none hp ha
      exact .inr (.inl ⟨pl, hp, hn, ho, hw⟩)

/-- A register the host may write is one of five (R41). -/
theorem writeRegister_cases {s t : State} {v : Word} {pl : Place} (h : writeRegister s v pl = some t) :
    (pl = .event ∧ t = { s with event := clearFlags s.event v }) ∨
    ((pl = .tgtLo ∨ pl = .tgtHi) ∧ ∃ id, t = { s with targetId := id }) ∨
    (pl = .crc16 ∧ ∃ r, t = { s with crc16 := r }) ∨
    (pl = .npages ∧ ∃ m n, t = { s with npagesA := npagesField s.npagesA m, npagesB := npagesField s.npagesB n }) := by
  cases pl with
  | event => exact .inl ⟨rfl, (Option.some.inj h).symm⟩
  | tgtLo => exact .inr (.inl ⟨.inl rfl, _, (Option.some.inj h).symm⟩)
  | tgtHi => exact .inr (.inl ⟨.inr rfl, _, (Option.some.inj h).symm⟩)
  | crc16 => exact .inr (.inr (.inl ⟨rfl, _, (Option.some.inj h).symm⟩))
  | npages => exact .inr (.inr (.inr ⟨rfl, _, _, (Option.some.inj h).symm⟩))
  | _ => cases h

/-- `s` with its oldest held word, if any, taken from the port, and SEARCHING as a write of CLOSE may leave it. -/
def State.taking (s : State) (b : Bool) : State := { s with searching := b, port := s.port.tail }

/-- How a job comes to run in a step from `s`, and the state it runs in, up to the moves offered to it. -/
inductive Starts (s : State) : Job → State → Prop where
  /-- A command word is accepted (R43). -/
  | accepted (i : Instr) (b : Bool) : s.lock = false → Starts s (.command i) (s.taking b)
  /-- TICK starts a pass (R95). -/
  | ticked : bgEnabled s = true → Starts s .background s
  /-- The job in progress is answered (R28, log 3). -/
  | answered (j : Job) (op : LinkOp) (l : Locals) (entry : Regs) (got : List Move) :
      s.seq = .busy j op l entry got → Starts s j (s.rewind entry)

/-- What a step from `s` may lead to. -/
inductive Stepped (s : State) : State → Prop where
  /-- A host read, or a move that changes nothing (R47, log 1). -/
  | read (v : Option Word) (ms : List Move) : Stepped s { s with hostRead := v, inputs := ms }
  /-- A command word is held at the port (R43, R195). -/
  | held (w : Word) (b : Bool) (ms : List Move) : s.port = [] ∨ decode w = some .close →
      Stepped s { s with searching := b, port := s.port ++ [w], inputs := ms }
  /-- The host writes a register (R41). -/
  | register (a : Half) (n : Width) (v : Word) (pl : Place) (ms : List Move) (t : State) :
      s.inputs = .write a n v :: ms → placeOf a = some pl → n = pl.width → (pl.owned = true → s.lock = false) →
      writeRegister { s with inputs := ms } v pl = some t → Stepped s t
  /-- The host writes a buffer byte (R41). -/
  | buffer (a : Nat) (b : Byte) (ms : List Move) : s.lock = false →
      (0x0100 ≤ a ∧ a ≤ 0x01FF ∨ 0x2000 ≤ a ∧ a ≤ 0x5FFF) →
      Stepped s { s with mem := s.mem.write a b, inputs := ms }
  /-- An illegal word is accepted and completes (R74). -/
  | illegal (w : Word) (b : Bool) (ms : List Move) :
      Stepped s ({ s.taking b with inputs := ms }.clearDone.complete (opcField w) ⟨.illegalCmd, .noPhase, 0⟩)
  /-- A command or pass runs, on the moves offered to it. -/
  | ran (j : Job) (s0 u : State) (ms rest : List Move) : Starts s j s0 → j.run { s0 with inputs := ms } = .next u →
      Stepped s { u with inputs := rest }
  /-- Hardware reset (R190). -/
  | reset (ms : List Move) : s.inputs = .hardwareReset :: ms → Stepped s (hardwareReset { s with inputs := ms })

/-- Acceptance of a word runs its command or completes as illegal (R43, R74). -/
theorem acceptWord_stepped {s t : State} {w : Word} {b : Bool} {ms : List Move} (hl : s.lock = false)
    (h : acceptWord w { s.taking b with inputs := ms } = .next t) : Stepped s t := by
  unfold acceptWord at h
  split at h
  · obtain ⟨u, hu, rfl⟩ := offer_next_cases h
    exact .ran _ _ u _ _ (.accepted _ b hl) hu
  · cases h
    exact .illegal w b ms

theorem acceptHeld_stepped {s t : State} {ms : List Move} (h : acceptHeld { s with inputs := ms } = .next t) :
    Stepped s t := by
  unfold acceptHeld at h
  split at h
  · rename_i w ws hl hp
    refine acceptWord_stepped (w := w) (b := s.searching) (ms := ms) hl ?_
    unfold State.taking
    rw [show s.port = w :: ws from hp]
    exact h
  · cases h
    exact .read s.hostRead ms

/-- CLOSE's part 1, at the write of a word (R92). -/
theorem closeAtWrite_ite (w : Word) (s : State) : (if decode w = some .close then closeAtWrite s else s) =
    { s with searching := if decode w = some .close then false else s.searching } := by
  split <;> rfl

theorem writeCmd_stepped {s t : State} {w : Word} {ms : List Move} (h : writeCmd w { s with inputs := ms } = .next t) :
    Stepped s t := by
  unfold writeCmd at h
  simp only [closeAtWrite_ite] at h
  split at h
  · rename_i hc
    obtain ⟨hl, hp⟩ : s.lock = false ∧ s.port = [] := by simpa using hc
    refine acceptWord_stepped (w := w) (b := if decode w = some .close then false else s.searching) (ms := ms) hl ?_
    unfold State.taking
    rw [hp, List.tail_nil, ← hp]
    exact h
  · split at h <;> cases h
    rename_i hc
    exact .held w _ ms hc

theorem answerMove_stepped {s t : State} {m : Move} {ms : List Move} (h : answerMove m { s with inputs := ms } = .next t) :
    Stepped s t := by
  unfold answerMove at h
  split at h
  · cases h
    exact .read s.hostRead ms
  · rename_i j op l entry got hs
    obtain ⟨u, hu, rfl⟩ := offer_next_cases h
    exact .ran _ _ u _ _ (.answered j op l entry got hs) hu

theorem tickMove_stepped {s t : State} {ms : List Move} (h : tickMove { s with inputs := ms } = .next t) :
    Stepped s t := by
  unfold tickMove at h
  split at h
  · rename_i hb
    obtain ⟨u, hu, rfl⟩ := offer_next_cases h
    exact .ran _ _ u _ _ (.ticked hb) hu
  · cases h
    exact .read s.hostRead ms

/-- Every next state of a step (R8). -/
theorem step_stepped {s t : State} (h : step s = .next t) : Stepped s t := by
  cases hin : s.inputs with
  | nil =>
    rw [step_nil hin] at h
    exact acceptHeld_stepped (ms := s.inputs) h
  | cons m ms =>
    rw [step_cons hin] at h
    cases m with
    | read a n =>
      obtain ⟨v, rfl⟩ := hostMemRead_next h
      exact .read v ms
    | write a n v =>
      rcases hostMemWrite_next h with h | ⟨pl, hp, hn, ho, hw⟩ | ⟨hl, ha, rfl⟩
      · exact writeCmd_stepped h
      · exact .register a n v pl ms t hin hp hn ho hw
      · exact .buffer _ _ ms hl ha
    | accept => exact acceptHeld_stepped h
    | reply r => exact answerMove_stepped h
    | tick => exact tickMove_stepped h
    | passTimeout => exact answerMove_stepped h
    | hardwareReset =>
      cases h
      exact .reset ms hin

end Sys2Proof.Machine

/-! ## The invariant is kept

`State.Sound` is the part of the invariant that does not speak of the lock and the sequencer: a job that runs from a sound
state ends in a state that meets the whole invariant (`Job.run_inv`). -/

namespace Sys2Proof.Machine

/-- The invariant but for its clauses on LOCK and SEQ. -/
structure State.Sound (s : State) : Prop where
  params : s.params.wf
  regs : s.toRegs.Inv s.params
  event : s.event.extractLsb' 3 29 = 0#29
  port : ∀ w ∈ s.port.tail, decode w = some .close

theorem State.Inv.sound {s : State} (h : s.Inv) : s.Sound := ⟨h.params, h.regs, h.event, h.port⟩

/-- With the lock free and the sequencer idle a sound state meets the invariant. -/
theorem State.Sound.inv {s : State} (h : s.Sound) (hl : s.lock = false) (hs : s.seq = .idle) : s.Inv where
  params := h.params
  regs := h.regs
  seqInv := by
    rw [hs]
    trivial
  lock := by simp [hl, hs]
  event := h.event
  port := h.port

/-- The invariant says nothing of the moves to come and of the host's last read. -/
theorem State.Inv.withInputs {s : State} (h : s.Inv) (v : Option Word) (ms : List Move) :
    State.Inv { s with hostRead := v, inputs := ms } := { h with }

theorem Err.ok_of_code {e : Err} : e.code = 0#4 → e = .ok := by cases e <;> decide

/-- A result word meets the invariant's clauses on `RESULT` (R25, R170). -/
theorem Regs.Inv.withResult {p : Params} {r : Regs} (h : r.Inv p) (opc : Byte) (c : Completion) :
    Regs.Inv p { r with result := resultWord opc c } :=
  { h with
    resultZero := resultWord_zero opc c
    resultCodes := by
      rw [resultErr_word, resultPhase_word]
      exact code_le _ _
    resultOk := by
      rw [resultErr_word, resultPhase_word]
      intro hc
      rw [if_pos (Err.ok_of_code hc)]
      rfl }

/-- Completion of a command in a sound state (R170). -/
theorem State.Sound.complete {s : State} (h : s.Sound) (opc : Byte) (c : Completion) : (s.complete opc c).Inv :=
  State.Sound.inv ⟨h.params, h.regs.withResult opc c, raiseFlags_high h.event (by decide), h.port⟩ rfl rfl

theorem State.Sound.clearDone {s : State} (h : s.Sound) : s.clearDone.Sound :=
  { h with event := clearFlags_high h.event }

theorem noFlags_high : (0#32).extractLsb' 3 29 = 0#29 := by decide

/-- The sequencer starts a job with its invariant (R43, R95). -/
theorem State.Sound.good {s : State} (h : s.Sound) (timed : Bool) : (s.eng timed).Good :=
  ⟨h.params, h.regs, fun _ hc => (nomatch hc), noFlags_high⟩

/-- What the sequencer leaves is stored back. -/
theorem State.Sound.absorb {s : State} {e : Eng} (h : s.Sound) (hp : e.params = s.params) (hg : e.Good) :
    (s.absorb e).Sound := by
  obtain ⟨-, hr, -, hv⟩ := hg
  rw [hp] at hr
  exact ⟨h.params, hr, raiseFlags_high h.event hv, h.port⟩

/-- A job that waits, having changed nothing it may not. -/
theorem State.Sound.suspend {s : State} {j : Job} {op : LinkOp} {e : Eng} (h : s.Sound)
    (hj : j.startable s.toRegs = true) (hp : e.params = s.params) (hg : e.Good) (hk : e.regs.kept = s.toRegs.kept) :
    (s.suspend j op e).Inv where
  params := h.params
  regs := by
    obtain ⟨-, hr, -⟩ := hg
    rw [hp] at hr
    exact hr
  seqInv := by
    simp only [Regs.kept, Prod.mk.injEq] at hk
    exact ⟨h.regs, hj, hk⟩
  lock := by simp
  event := h.event
  port := h.port

/-- What a command that completes in the step that accepts it may have changed before it completes: SEARCHING, the CRC
register, two bytes of `IMG_A`. -/
inductive AtOnce (s : State) : State → Prop where
  | nothing : AtOnce s s
  | searching : AtOnce s { s with searching := true }
  | crc (r : Half) : AtOnce s { s with crc16 := r }
  | stamp (p : Byte) (r : Half) (bs : List Byte) : bs.length = 2 →
      AtOnce s { s with crc16 := r, mem := s.mem.writeBytes (imgAAddr p.toNat 30) bs }

theorem AtOnce.sound {s t : State} (h : AtOnce s t) (hs : s.Sound) : t.Sound := by
  cases h with
  | nothing => exact hs
  | searching => exact { hs with }
  | crc r => exact { hs with regs := { hs.regs with } }
  | stamp p r bs hb =>
    have hm := hs.regs.store (imgAAddr p.toNat 30) bs fun x h1 h2 => by
      have := p.isLt
      unfold imgAAddr at h1 h2
      refine bufferAddr_img ?_
      unfold imgAddr
      omega
    exact { hs with regs := { hm with } }

/-- Only a legal command passes the usage checks (R90, R175). -/
theorem legalIn_of_usageError {i : Instr} {s : State} (h : usageError i s = none) : legalIn i s.lc = true := by
  by_contra hl
  unfold usageError at h
  rw [if_pos (by simpa using hl)] at h
  cases h

/-- CLOSE in `Closed` (R92). -/
theorem exec_close_closed {s : State} (h : s.lc = .closed) :
    exec .close s = completeNow Instr.close.opc ⟨.ok, .noPhase, 0⟩ s := if_pos h

/-- Every next state of a command, under a law that allows it: it completes at once, or its body has run to its end, or
waits at the link. -/
theorem exec_ends {L : Law} {i : Instr} {s t : State} (ha : L.Allows i) (h : exec i s = .next t) :
    (∃ c s1, AtOnce s s1 ∧ t = s1.clearDone.complete i.opc c) ∨
    (∃ c e, L.R (s.eng false) e ∧ t = (s.clearDone.absorb e).complete i.opc c) ∨
    (legalIn i s.lc = true ∧ ∃ op e, L.W (s.eng false) e ∧ t = s.clearDone.suspend (.command i) op e) := by
  by_cases hb : Instr.usesBus i = true
  · by_cases hc : i = .close → s.lc ≠ .closed
    · rcases exec_next hb ha hc h with ⟨c, -, ht⟩ | ⟨-, c, e, hR, ht⟩ | ⟨hu, op, e, hW, ht⟩
      · exact .inl ⟨c, s, .nothing, ht⟩
      · exact .inr (.inl ⟨c, e, hR, ht⟩)
      · exact .inr (.inr ⟨legalIn_of_usageError hu, op, e, hW, ht⟩)
    · push Not at hc
      obtain ⟨rfl, hc⟩ := hc
      rw [exec_close_closed hc] at h
      cases h
      exact .inl ⟨_, s, .nothing, rfl⟩
  · rcases exec_noBus i (by simpa using hb) s with ⟨c, s1, hs1, h1⟩ | ⟨a, -, -, -, h1⟩
    · rw [h1] at h
      cases h
      refine .inl ⟨c, s1, ?_, rfl⟩
      rcases hs1 with rfl | ⟨-, rfl⟩ | ⟨-, -, r, rfl⟩ | ⟨p, r, bs, -, hl, rfl⟩
      · exact .nothing
      · exact .searching
      · exact .crc r
      · exact .stamp p r bs hl
    · rw [h1] at h
      cases h

/-- A command from a sound state ends in a state that meets the invariant. -/
theorem exec_inv {i : Instr} {s t : State} (hs : s.Sound) (h : exec i s = .next t) : t.Inv := by
  rcases exec_ends (Law.inv_allows i) h with ⟨c, s1, h1, rfl⟩ | ⟨c, e, ⟨hp, hg⟩, rfl⟩ | ⟨hl, op, e, ⟨hp, hg⟩, rfl⟩
  · exact (h1.sound hs).clearDone.complete _ c
  · exact (hs.clearDone.absorb hp (hg (hs.good false))).complete _ c
  · exact hs.clearDone.suspend hl hp (hg (hs.good false)) ((exec_kept h).2.2 rfl)

/-- A pass changes none of `LC`, `TARGET_ID`, `CRC16`, `NPAGES_B` and `RESULT` (R96). -/
theorem runBackground_kept {s t : State} (h : runBackground s = .next t) : t.toRegs.kept = s.toRegs.kept := by
  rcases runBackground_cases s (Law.keep_background (f := Regs.kept) fun _ _ => rfl) with
    ⟨e, hR, h1⟩ | ⟨op, e, -, hR, h1⟩ | ⟨f, -, h1⟩
  · rw [h1] at h
    cases h
    exact hR.2.2
  · rw [h1] at h
    cases h
    exact hR.2.2
  · rw [h1] at h
    cases h

/-- The same of a background pass, which starts in `Claimed` (R95). -/
theorem runBackground_inv {s t : State} (hs : s.Sound) (hc : s.lc = .claimed) (h : runBackground s = .next t) :
    t.Inv := by
  rcases runBackground_cases s Law.inv_background with ⟨e, ⟨hp, hg⟩, h1⟩ | ⟨op, e, -, ⟨hp, hg⟩, h1⟩ | ⟨f, -, h1⟩
  · rw [h1] at h
    cases h
    have he := hs.absorb hp (hg (hs.good true))
    exact State.Sound.inv { he with } rfl rfl
  · have hk := runBackground_kept h
    rw [h1] at h
    cases h
    exact hs.suspend (decide_eq_true hc) hp (hg (hs.good true)) hk
  · rw [h1] at h
    cases h

/-- The same of any job. -/
theorem Job.run_inv {j : Job} {s t : State} (hs : s.Sound) (hj : j = .background → s.lc = .claimed)
    (h : j.run s = .next t) : t.Inv := by
  cases j with
  | command i => exact exec_inv hs h
  | background => exact runBackground_inv hs (hj rfl) h

/-- A job starts from a sound state, a pass in `Claimed`. -/
theorem Starts.sound {s s0 : State} {j : Job} (h : Starts s j s0) (hs : s.Inv) :
    s0.Sound ∧ (j = .background → s0.lc = .claimed) := by
  cases h with
  | accepted i b hl => exact ⟨{ hs with port := fun w hw => hs.port w (List.mem_of_mem_tail hw) }, fun hj => by cases hj⟩
  | ticked hb =>
    unfold bgEnabled at hb
    simp only [Bool.and_eq_true, decide_eq_true_eq] at hb
    exact ⟨hs.sound, fun _ => hb.1.1⟩
  | answered j op l entry got hq =>
    have hi := hs.seqInv
    rw [hq] at hi
    obtain ⟨he, hst, -⟩ := hi
    refine ⟨{ hs with regs := he }, ?_⟩
    rintro rfl
    exact of_decide_eq_true hst

/-- With the lock free no job is in progress (R12). -/
theorem State.Inv.idle {s : State} (hs : s.Inv) (hl : s.lock = false) : s.seq = .idle := by
  by_contra hq
  rw [hs.lock.2 hq] at hl
  cases hl

/-- A host write of a register keeps the invariant: `CRC16`, `TARGET_ID` and `NPAGES` are written with no job in progress
only (R45), a page count over 256 not at all (R48). -/
theorem writeRegister_inv {s t : State} {v : Word} {pl : Place} (hs : s.Inv) (ho : pl.owned = true → s.lock = false)
    (h : writeRegister s v pl = some t) : t.Inv := by
  rcases writeRegister_cases h with ⟨rfl, rfl⟩ | ⟨hp, id, rfl⟩ | ⟨rfl, r, rfl⟩ | ⟨rfl, m, n, rfl⟩
  · exact { hs with event := clearFlags_high hs.event }
  · have hl := ho (by rcases hp with rfl | rfl <;> rfl)
    exact State.Sound.inv { hs with regs := { hs.regs with } } hl (hs.idle hl)
  · have hl := ho rfl
    exact State.Sound.inv { hs with regs := { hs.regs with } } hl (hs.idle hl)
  · have hl := ho rfl
    exact State.Sound.inv { hs with regs := { hs.regs with
      npagesA := npagesField_le hs.regs.npagesA, npagesB := npagesField_le hs.regs.npagesB } } hl (hs.idle hl)

/-- The registers after reset meet their invariant, whatever the parameters are (R31). -/
theorem Regs.reset_inv {p : Params} : Regs.reset.Inv p where
  memWf := List.Pairwise.nil
  memIn := fun _ hc => nomatch hc
  att := Nat.zero_le _
  lastDisc := by decide
  npagesA := by decide
  npagesB := by decide
  detCount := Nat.zero_le _
  resultZero := by decide
  resultCodes := by decide
  resultOk := by decide

/-- Hardware reset leads to a state that meets the invariant (R190). -/
theorem hardwareReset_inv {s : State} (h : s.params.wf) : (hardwareReset s).Inv :=
  State.Sound.inv ⟨h, { Regs.reset_inv with }, noFlags_high, fun _ hw => nomatch hw⟩ rfl rfl

/-- A step keeps the invariant, whatever it does. -/
theorem Stepped.inv {s t : State} (h : Stepped s t) (hs : s.Inv) : t.Inv := by
  cases h with
  | read v ms => exact hs.withInputs v ms
  | held w b ms hw =>
    refine { hs with port := fun x hx => ?_ }
    have hp := hs.port x
    cases hq : s.port with
    | nil =>
      rw [hq] at hx
      cases hx
    | cons y ys =>
      rw [hq] at hx hp hw
      rcases List.mem_append.1 hx with hx | hx
      · exact hp hx
      · rw [List.mem_singleton.1 hx]
        exact hw.resolve_left (by simp)
  | register a n v pl ms t hi hp hn ho hw => exact writeRegister_inv (hs.withInputs s.hostRead ms) ho hw
  | buffer a b ms hl ha =>
    have hm := hs.regs.store a [b] fun x h1 h2 => by
      rw [List.length_singleton] at h2
      unfold bufferAddr
      simp only [Bool.or_eq_true, Bool.and_eq_true, decide_eq_true_eq]
      omega
    exact State.Sound.inv { hs with regs := hm } hl (hs.idle hl)
  | illegal w b ms =>
    have h1 : State.Sound { s.taking b with inputs := ms } :=
      { hs with port := fun w hw => hs.port w (List.mem_of_mem_tail hw) }
    exact h1.clearDone.complete _ _
  | ran j s0 u ms rest h0 hu =>
    obtain ⟨h1, h2⟩ := h0.sound hs
    exact (Job.run_inv (s := { s0 with inputs := ms }) { h1 with } h2 hu).withInputs u.hostRead rest
  | reset ms hi => exact hardwareReset_inv hs.params

/-- Settles O11: each way a step can end keeps the invariant (`Stepped.inv`). -/
theorem stepKeepsInvariant : Obligations.StepKeepsInvariant := by
  unfold Obligations.StepKeepsInvariant
  exact fun s t hs h => (step_stepped h).inv hs

/-- The parameters after reset are in their ranges, whatever the open ones are (R6). -/
theorem Config.params_wf : Config.params.wf := by
  have h1 := Config.retryFree.isLt
  have h2 := Config.wrFree.isLt
  have h3 := Config.rdFree.isLt
  have h4 := Config.maxDevFree.isLt
  unfold Params.wf Config.params
  simp only []
  omega

/-- Settles O10: the reset values meet each clause. -/
theorem resetSatisfiesInvariant : Obligations.ResetSatisfiesInvariant := by
  unfold Obligations.ResetSatisfiesInvariant
  exact State.Sound.inv ⟨Config.params_wf, Regs.reset_inv, noFlags_high, fun _ hw => nomatch hw⟩ rfl rfl

end Sys2Proof.Machine

/-! ## Who changes LC, TARGET_ID and NPAGES_B -/

namespace Sys2Proof.Machine

/-- The state a job runs in agrees with the one the step starts from on all that no job changes before it completes. -/
theorem Starts.kept {s s0 : State} {j : Job} (h : Starts s j s0) (hs : s.Inv) : s0.toRegs.kept = s.toRegs.kept := by
  cases h with
  | accepted i b hl => rfl
  | ticked hb => rfl
  | answered j op l entry got hq =>
    have hi := hs.seqInv
    rw [hq] at hi
    obtain ⟨-, -, hk⟩ := hi
    simp only [Regs.kept, Prod.mk.injEq]
    exact ⟨hk.1.symm, hk.2.1.symm, hk.2.2.1.symm, hk.2.2.2.1.symm, hk.2.2.2.2.symm⟩

/-- How a job changes `LC`: a CLAIM or a CLOSE that completes OK (R91, R92, R96). -/
theorem Job.run_lc {j : Job} {s t : State} (h : j.run s = .next t) : t.lc = s.lc ∨
    (s.lc = .unclaimed ∧ t.lc = .claimed ∧ t.result = 0x01000000#32) ∨ (t.lc = .closed ∧ t.result = 0x02000000#32) := by
  cases j with
  | command i =>
    rcases exec_lc h with h1 | ⟨-, h1, h2, -, h3⟩ | ⟨-, h1, -, h2⟩
    · exact .inl h1
    · exact .inr (.inl ⟨h1, h2, h3⟩)
    · exact .inr (.inr ⟨h1, h2⟩)
  | background => exact .inl (congrArg Prod.fst (runBackground_kept h))

/-- No job writes `TARGET_ID` or `NPAGES_B` (R14, R23). -/
theorem Job.run_targetId_npagesB {j : Job} {s t : State} (h : j.run s = .next t) :
    t.targetId = s.targetId ∧ t.npagesB = s.npagesB := by
  cases j with
  | command i =>
    obtain ⟨h1, h2, -⟩ := exec_kept h
    exact ⟨h1, h2⟩
  | background =>
    have hk := runBackground_kept h
    simp only [Regs.kept, Prod.mk.injEq] at hk
    obtain ⟨-, h1, -, h2, -⟩ := hk
    exact ⟨h1, h2⟩

/-- Settles O21: by the cases of a step; of the jobs only CLAIM and CLOSE change `LC` (`Job.run_lc`). -/
theorem lifecycleChangesOnlyByClaimCloseReset : Obligations.LifecycleChangesOnlyByClaimCloseReset := by
  unfold Obligations.LifecycleChangesOnlyByClaimCloseReset
  intro s t hs h hne
  cases step_stepped h with
  | read v ms => exact absurd rfl hne
  | held w b ms hw => exact absurd rfl hne
  | register a n v pl ms t hi hp hn ho hw =>
    rcases writeRegister_cases hw with ⟨-, rfl⟩ | ⟨-, id, rfl⟩ | ⟨-, r, rfl⟩ | ⟨-, m, n, rfl⟩ <;> exact absurd rfl hne
  | buffer a b ms hl ha => exact absurd rfl hne
  | illegal w b ms => exact absurd rfl hne
  | ran j s0 u ms rest h0 hu =>
    have hlc : s0.lc = s.lc := congrArg Prod.fst (h0.kept hs)
    rcases Job.run_lc hu with h1 | ⟨h1, h2, h3⟩ | ⟨h1, h2⟩
    · exact absurd (h1.trans hlc) hne
    · exact .inl ⟨hlc ▸ h1, h2, h3⟩
    · exact .inr (.inl ⟨h1, h2⟩)
  | reset ms hi => exact .inr (.inr ⟨rfl, by rw [hi]; rfl⟩)

/-- A host write that changes `TARGET_ID` is one to TGT_LO or TGT_HI, one that changes `NPAGES_B` is one to NPAGES
(R14, R23, R41). -/
theorem writeRegister_targetId_npagesB {s t : State} {a : Half} {v : Word} {pl : Place} (hp : placeOf a = some pl)
    (h : writeRegister s v pl = some t) :
    (t.targetId = s.targetId ∨ a = 0x0010#16 ∨ a = 0x0014#16) ∧ (t.npagesB = s.npagesB ∨ a = 0x0024#16) := by
  rcases writeRegister_cases h with ⟨-, rfl⟩ | ⟨rfl | rfl, id, rfl⟩ | ⟨-, r, rfl⟩ | ⟨rfl, m, n, rfl⟩
  · exact ⟨.inl rfl, .inl rfl⟩
  · exact ⟨.inr (.inl (placeOf_registerAddr hp rfl)), .inl rfl⟩
  · exact ⟨.inr (.inr (placeOf_registerAddr hp rfl)), .inl rfl⟩
  · exact ⟨.inl rfl, .inl rfl⟩
  · exact ⟨.inl rfl, .inr (placeOf_registerAddr hp rfl)⟩

/-- A register the host may write is written as a word (R42). -/
theorem writeRegister_width {s t : State} {v : Word} {pl : Place} (h : writeRegister s v pl = some t) :
    pl.width = .word := by
  cases pl with
  | buffer w o => cases h
  | _ => rfl

/-- Settles O60: by the cases of a step; a job keeps both registers, from its acceptance on (`Starts.kept`,
`Job.run_targetId_npagesB`). -/
theorem engineNeverWritesTargetId : Obligations.EngineNeverWritesTargetId := by
  unfold Obligations.EngineNeverWritesTargetId
  intro s t hs h
  cases step_stepped h with
  | read v ms => exact ⟨absurd rfl, absurd rfl⟩
  | held w b ms hw => exact ⟨absurd rfl, absurd rfl⟩
  | register a n v pl ms t hi hp hn ho hw =>
    have hn : n = .word := hn.trans (writeRegister_width hw)
    subst hn
    rw [hi]
    obtain ⟨h1, h2⟩ := writeRegister_targetId_npagesB hp hw
    refine ⟨fun hne => .inr ⟨v, ?_⟩, fun hne => .inr ⟨v, ?_⟩⟩
    · rcases h1.resolve_left hne with rfl | rfl
      · exact .inl rfl
      · exact .inr rfl
    · rw [h2.resolve_left hne]
      rfl
  | buffer a b ms hl ha => exact ⟨absurd rfl, absurd rfl⟩
  | illegal w b ms => exact ⟨absurd rfl, absurd rfl⟩
  | ran j s0 u ms rest h0 hu =>
    have hk := h0.kept hs
    simp only [Regs.kept, Prod.mk.injEq] at hk
    obtain ⟨-, h1, -, h2, -⟩ := hk
    obtain ⟨h3, h4⟩ := Job.run_targetId_npagesB hu
    exact ⟨absurd (h3.trans h1), absurd (h4.trans h2)⟩
  | reset ms hi =>
    rw [hi]
    exact ⟨fun _ => .inl rfl, fun _ => .inl rfl⟩

/-! ## What stops a command -/

/-- A command stops only on a source byte that holds no value (R31, 93 U9). -/
theorem exec_fault {i : Instr} {s : State} {f : Fault} (hn : s.npagesA.toNat ≤ 256) (h : exec i s = .fault f) :
    ∃ a, f = .unwritten a ∧ s.mem.read? a = none ∧ sourceAddr a := by
  by_cases hb : Instr.usesBus i = true
  · obtain ⟨body, hbody, hw⟩ := exec_bus i hb
    by_cases hc : i = .close → s.lc ≠ .closed
    · rw [hbody s hc] at h
      have key : ∀ pages, (Law.faults pages).Allows i → (Law.faults pages).F (s.eng false) f := by
        intro pages ha
        rcases accept_cases i s (hw _ ha) with ⟨c, -, h1⟩ | ⟨-, ⟨c, e, -, h1⟩ | ⟨op, e, -, -, h1⟩ | ⟨g, hF, h1⟩⟩ <;>
          rw [h1] at h <;> cases h
        exact hF
      rcases Law.faults_allows i with ha | ha
      · exact key _ ha fun _ => hn
      · exact key _ ha fun hp => hp.elim
    · push Not at hc
      obtain ⟨rfl, hc⟩ := hc
      rw [exec_close_closed hc] at h
      cases h
  · rcases exec_noBus i (by simpa using hb) s with ⟨c, s1, -, h1⟩ | ⟨a, hm, h2, h3, h1⟩
    · rw [h1] at h
      cases h
    · rw [h1] at h
      cases h
      exact ⟨a, rfl, hm, .inr ⟨h2, by omega⟩⟩

/-- Settles O16: the page count of a state that meets the invariant keeps the pages read inside their windows
(`exec_fault`). -/
theorem commandFaultsOnlyOnUnwrittenBytes : Obligations.CommandFaultsOnlyOnUnwrittenBytes := by
  unfold Obligations.CommandFaultsOnlyOnUnwrittenBytes
  intro i s a hs h
  obtain ⟨x, hx, hm, ha⟩ := exec_fault hs.regs.npagesA h
  cases hx
  exact ⟨hm, ha⟩

end Sys2Proof.Machine

/-! ## One answer a step

A run on all the answers (`exec`, `runBackground`) ends where the steps over them end: a job that has ended leaves the answers
that follow to come (`exec_more`), so where it uses them all up it still waits before the last. -/

namespace Sys2Proof.Machine

/-- Decoding undoes encoding (R70, R71, R73). -/
theorem decode_encode (i : Instr) : decode (encode i) = some i := by
  cases i with
  | owSpeed f | owWbit f | owWrite n f | pgWrite p f | memReadall f | memWriteall f | memWritediff f =>
    exact (decode_ofFields _ _ _ _).trans (congrArg (Option.map _) (flagOf?_flagByte f))
  | owRom s d =>
    refine (decode_ofFields _ _ _ _).trans ?_
    change (selOf? (s.setWidth 8)).bind (fun s => (flagOf? (flagByte d)).map (Instr.owRom s)) = _
    rw [selOf?_setWidth, flagOf?_flagByte]
    rfl
  | _ => exact decode_ofFields _ _ _ _

/-- Where a command waits after the answers `ms`: it has consumed and kept them (R28, R61). -/
theorem exec_suspends {i : Instr} {s t : State} {ms : List Move} (hms : OnlyReplies ms)
    (h : exec i { s with inputs := ms } = .next t) (hl : t.lock = true) :
    ∃ op e, t = ({ s with inputs := ms } : State).clearDone.suspend (.command i) op e ∧ e.got = ms := by
  rcases exec_ends (Law.replies_allows i) h with ⟨c, s1, -, rfl⟩ | ⟨c, e, -, rfl⟩ | ⟨-, op, e, hW, rfl⟩
  · cases hl
  · cases hl
  · exact ⟨op, e, rfl, (hW.2 hms).2⟩

/-- The same of a background pass. -/
theorem runBackground_suspends {s t : State} {ms : List Move} (hms : OnlyReplies ms)
    (h : runBackground { s with inputs := ms } = .next t) (hl : t.lock = true) :
    ∃ op e, t = ({ s with inputs := ms } : State).suspend .background op e ∧ e.got = ms := by
  rcases runBackground_cases { s with inputs := ms } Law.replies_background with
    ⟨e, -, h1⟩ | ⟨op, e, -, hW, h1⟩ | ⟨f, -, h1⟩ <;> rw [h1] at h <;> cases h
  · cases hl
  · exact ⟨op, e, rfl, (hW.2 hms).2⟩

/-- What is offered replaces the moves to come, and acceptance clears DONE once (R43). -/
theorem offer_exec_clearDone (i : Instr) (ms rest : List Move) (s : State) :
    offer ms rest (exec i) s.clearDone = offer ms rest (exec i) s := by
  have h : exec i { s.clearDone with inputs := ms } = exec i { s with inputs := ms } :=
    exec_clearDone i { s with inputs := ms }
  unfold offer
  rw [h]

section

variable {s : State} {ms rest : List Move} (hms : OnlyReplies ms) (hq : s.seq = .idle) (hl : s.lock = false)

include hms hq hl

/-- A step that offers one more move to a command that waits runs it on all of them (R28). -/
theorem step_exec_waiting {i : Instr} {t : State} (h : exec i { s with inputs := ms } = .next t) (ht : t.lock = true)
    {m : Move} (hm : m = .passTimeout ∨ ∃ r, m = .reply r) :
    step { t with inputs := m :: rest } = offer (ms ++ [m]) rest (exec i) s := by
  obtain ⟨op, e, rfl, hg⟩ := exec_suspends hms h ht
  rw [step_suspended _ _ _ _ _ _ hm, hg, ← offer_exec_clearDone i _ _ s]
  unfold State.clearDone
  rw [← hq, ← hl]
  rfl

/-- The same of a background pass. -/
theorem step_background_waiting {t : State} (h : runBackground { s with inputs := ms } = .next t) (ht : t.lock = true)
    {m : Move} (hm : m = .passTimeout ∨ ∃ r, m = .reply r) :
    step { t with inputs := m :: rest } = offer (ms ++ [m]) rest runBackground s := by
  obtain ⟨op, e, rfl, hg⟩ := runBackground_suspends hms h ht
  rw [step_suspended _ _ _ _ _ _ hm, hg, ← hq, ← hl]
  rfl

/-- PassTimeout while a command waits only uses up the move (R97). -/
theorem step_exec_passTimeout {i : Instr} {t : State} (h : exec i { s with inputs := ms } = .next t)
    (ht : t.lock = true) : step { t with inputs := .passTimeout :: rest } = .next { t with inputs := rest } := by
  rw [step_exec_waiting hms hq hl h ht (.inl rfl)]
  have hin := (exec_waits hms h ht).1
  have hd : exec i { s with inputs := ms ++ [.passTimeout] } = .next t := exec_deaf h ht hin
  rw [offer_next hd, hin, List.nil_append]

end

/-- What runs on all the answers and uses them up waits before the last: else that one would still be to come. -/
theorem waits_before_last {f : State → Host.Outcome State Fault Refusal} {s u : State} {ms : List Move} {m : Move}
    (hmore : (∀ t, f { s with inputs := ms } = .next t → t.lock = false) →
      f { s with inputs := ms ++ [m] } = stillToCome [m] (f { s with inputs := ms }))
    (h : f { s with inputs := ms ++ [m] } = .next u) (hu : u.inputs = []) :
    ∃ t, f { s with inputs := ms } = .next t ∧ t.lock = true := by
  by_contra hc
  push Not at hc
  rw [hmore fun t ht => by simpa using hc t ht] at h
  unfold stillToCome at h
  split at h <;> cases h
  simp at hu

/-- Steps that start a run with no answer and offer the answers one by one come to the end of the run on all of them
(R28, R61). `s1` is the state from which the first step, START, runs `f`. -/
theorem run_answers {f : State → Host.Outcome State Fault Refusal} {s : State} {s1 : List Move → State}
    (hstart : ∀ rest, step (s1 rest) = offer [] rest f s)
    (hmore : ∀ ms m, (∀ t, f { s with inputs := ms } = .next t → t.lock = false) →
      f { s with inputs := ms ++ [m] } = stillToCome [m] (f { s with inputs := ms }))
    (hstep : ∀ ms rest t r, OnlyReplies ms → f { s with inputs := ms } = .next t → t.lock = true →
      t.inputs = [] ∧ step { t with inputs := .reply r :: rest } = offer (ms ++ [.reply r]) rest f s)
    (ms : List Move) (hms : OnlyReplies ms) (rest : List Move) {u : State} (h : f { s with inputs := ms } = .next u)
    (hu : u.inputs = []) : core.run (ms.length + 1) (s1 (ms ++ rest)) = .next { u with inputs := rest } := by
  induction ms using List.reverseRecOn generalizing rest u with
  | nil =>
    have h1 := hstart rest
    rw [offer_next h, hu] at h1
    exact run_succ h1
  | append_singleton ms m ih =>
    obtain ⟨t, ht, htl⟩ := waits_before_last (hmore ms m) h hu
    have hms' : OnlyReplies ms := fun x hx => hms x (List.mem_append_left _ hx)
    obtain ⟨r, rfl⟩ := hms m (by simp)
    obtain ⟨hti, h2⟩ := hstep ms rest t r hms' ht htl
    rw [offer_next h, hu] at h2
    have h3 := ih hms' (.reply r :: rest) ht hti
    rw [List.length_append, List.append_assoc]
    exact run_snoc h3 h2

/-- A write of a command's word with the lock free and no word held accepts it, up to its first link operation (R43, R92). -/
theorem step_cmd_accepts {s : State} (i : Instr) (rest : List Move) (hl : s.lock = false) (hp : s.port = []) :
    step { s with inputs := cmdMove (encode i) :: rest } =
      offer [] rest (exec i) { s with searching := if i = .close then false else s.searching } := by
  rw [step_cmd rfl]
  unfold writeCmd
  simp only [closeAtWrite_ite]
  rw [if_pos (by simp [hl, hp])]
  unfold acceptWord
  simp only [decode_encode, Option.some.injEq]
  rfl

/-- TICK where `BgStart` is enabled takes the pass to its first link operation (R95). -/
theorem step_tick_starts {s : State} (rest : List Move) (hb : bgEnabled s = true) :
    step { s with inputs := .tick :: rest } = offer [] rest runBackground s := by
  rw [step_cons rfl]
  exact if_pos hb

/-- Settles O7: each step offers one more answer (`step_exec_waiting`), PassTimeout is dropped (`exec_deaf`), and by
induction on the answers the steps come to the end of the run on all of them (`run_answers`). -/
theorem answersComeOneAStep : Obligations.AnswersComeOneAStep := by
  unfold Obligations.AnswersComeOneAStep
  intro s ms rest hms hq hl
  refine ⟨fun i t r h ht => ⟨?_, ?_⟩, fun t r h ht => ?_, fun i u hp h hu => ?_, fun u hc hs h hu => ?_⟩
  · exact step_exec_waiting hms hq hl h ht (.inr ⟨r, rfl⟩)
  · exact step_exec_passTimeout hms hq hl h ht
  · exact step_background_waiting hms hq hl h ht (.inr ⟨r, rfl⟩)
  · exact run_answers (s1 := fun ms => { s with inputs := cmdMove (encode i) :: ms })
      (fun rest => step_cmd_accepts i rest hl hp) (fun ms m => exec_more [m])
      (fun ms rest t r hms h ht => ⟨(exec_waits hms h ht).1,
        step_exec_waiting (s := { s with searching := if i = .close then false else s.searching }) hms hq hl h ht
          (.inr ⟨r, rfl⟩)⟩) ms hms rest h hu
  · have hb : bgEnabled s = true := by simp [bgEnabled, hc, hs, hl]
    exact run_answers (s1 := fun ms => { s with inputs := .tick :: ms }) (fun rest => step_tick_starts rest hb)
      (fun ms m => runBackground_more [m])
      (fun ms rest t r hms h ht => ⟨(runBackground_waits hms h ht).1,
        step_background_waiting hms hq hl h ht (.inr ⟨r, rfl⟩)⟩) ms hms rest h hu

end Sys2Proof.Machine

/-! ## CRC16_CHK and CRC16_GEN -/

namespace Sys2Proof.Machine

/-- An empty page is 32 sentinels (R160). -/
theorem pageEmpty_iff {pg : List Byte} (hl : pg.length = 32) :
    pageEmpty pg = true ↔ pg = List.replicate 32 0x55#8 := by
  unfold pageEmpty
  rw [List.all_eq_true, List.eq_replicate_iff]
  simp [hl]

/-- A command on a page that holds values runs on them. -/
theorem onPage_holds {s : State} {p : Byte} {pg : List Byte} (hl : pg.length = 32)
    (h : HoldsBytes s.mem (0x2000 + 32 * p.toNat) pg) (f : List Byte → Host.Outcome State Fault Refusal) :
    onPage p f s = f pg := by
  unfold onPage
  rw [Memory.readBytes_ok.2 ⟨hl, hl ▸ h⟩]

/-- A command on a page that lacks a value stops at the first byte that has none (R31). -/
theorem onPage_lacks {s : State} {p : Byte} {bs : List Byte} (hl : bs.length < 32)
    (h : HoldsBytes s.mem (0x2000 + 32 * p.toNat) bs) (hn : s.mem.read? (0x2000 + 32 * p.toNat + bs.length) = none)
    (f : List Byte → Host.Outcome State Fault Refusal) :
    onPage p f s = .fault (.unwritten (0x2000 + 32 * p.toNat + bs.length)) := by
  unfold onPage
  rw [show s.mem.readBytes (imgAAddr p.toNat 0) Config.pageBytes = _ from Memory.readBytes_stops hl h hn]
  rfl

/-- Completion with result word `w`, in the terms claims use (R170). -/
theorem completeNow_eq {opc : Byte} {c : Completion} {w : Word} (h : resultWord opc c = w) (s : State) :
    completeNow opc c s = .next (s.completed w) := by
  rw [← h, ← complete_eq_completed]
  rfl

/-- Settles O51: by whether the page lacks a value, is empty, or is not. -/
theorem crc16ChkValidates : Obligations.Crc16ChkValidates := by
  unfold Obligations.Crc16ChkValidates
  refine ⟨fun s p bs hl h hn => onPage_lacks hl h hn _, fun s p pg hl h => ⟨fun he => ?_, fun he => ?_⟩⟩
  · refine (onPage_holds hl h _).trans ?_
    rw [if_pos ((pageEmpty_iff hl).2 he)]
    exact completeNow_eq (opc := 0x42#8) (by decide) s
  · refine (onPage_holds hl h _).trans ?_
    rw [if_neg (mt (pageEmpty_iff hl).1 he)]
    refine completeNow_eq (opc := 0x42#8) ?_ { s with crc16 := crc16 pg s.params.crc16Init }
    split
    · decide
    · decide

/-- Two bytes stored are read back, and every other address reads as before. -/
theorem Memory.read?_writeBytes_pair (m : Memory) (a : Nat) (b c : Byte) :
    (m.writeBytes a [b, c]).read? a = some b ∧ (m.writeBytes a [b, c]).read? (a + 1) = some c ∧
      ∀ x, x < a ∨ a + 2 ≤ x → (m.writeBytes a [b, c]).read? x = m.read? x := by
  refine ⟨?_, ?_, fun x hx => Memory.read?_writeBytes_outside hx⟩
  · rw [Memory.read?_writeBytes, if_pos (by simp), Nat.sub_self]
    rfl
  · rw [Memory.read?_writeBytes, if_pos (by simp), Nat.add_sub_cancel_left]
    rfl

/-- Settles O52: by the same cases; the two bytes stored are bytes 30 and 31 of the page. -/
theorem crc16GenStamps : Obligations.Crc16GenStamps := by
  unfold Obligations.Crc16GenStamps
  refine ⟨fun s p bs hl h hn => onPage_lacks hl h hn _, fun s p pg hl h => ⟨fun he => ?_, fun he => ?_⟩⟩
  · refine (onPage_holds hl h _).trans ?_
    rw [if_pos ((pageEmpty_iff hl).2 he)]
    exact completeNow_eq (opc := 0x43#8) (by decide) s
  · intro r
    refine ⟨s.mem.writeBytes (imgAAddr p.toNat 30) (crcBytes r), ?_, Memory.read?_writeBytes_pair _ _ _ _⟩
    refine (onPage_holds hl h _).trans ?_
    rw [if_neg (mt (pageEmpty_iff hl).1 he)]
    exact completeNow_eq (opc := 0x43#8) (by decide) { s with
      crc16 := r, mem := s.mem.writeBytes (imgAAddr p.toNat 30) (crcBytes r) }

/-! ## Host accesses -/

/-- Settles O8: each value is the one `State.reset` gives. -/
theorem resetValues : Obligations.ResetValues := by
  unfold Obligations.ResetValues
  exact ⟨rfl, rfl, rfl, rfl, rfl, rfl, rfl, rfl, rfl, rfl, rfl, rfl, rfl, rfl, rfl, rfl, rfl, rfl, rfl, rfl, rfl,
    fun _ => rfl⟩

/-- A read of a register, as a step (R41, R44, R47). -/
theorem step_read_register {s : State} {a : Half} {rest : List Move} {pl : Place} {v : Word}
    (h : s.inputs = .read a .word :: rest) (ha : pl.registerAddr = some a) (ho : pl.owned = true → s.lock = false)
    (hv : registerValue s pl = some v) : step s = .next { s with inputs := rest, hostRead := some v } := by
  obtain ⟨hp, hw, h4⟩ := placeOf_of_registerAddr ha
  rw [step_cons h]
  refine hostMemRead_register hp (accessRefusal_of hp hw.symm (fun _ => h4) ?_ ho) ?_
  · rintro rfl
    cases ha
  · cases pl <;> exact hv

/-- A read of a buffer byte, as a step (R31, R41, R48). -/
theorem step_read_buffer {s : State} {a : Half} {rest : List Move} {w o : Bool} (h : s.inputs = .read a .byte :: rest)
    (hp : placeOf a = some (.buffer w o))
    (hd : Place.buffer w o = .buffer false false → (a.toNat - 0x0400) / 8 < s.params.maxDev)
    (ho : o = true → s.lock = false) :
    (∀ b, s.mem.read? a.toNat = some b → step s = .next { s with inputs := rest, hostRead := some (b.setWidth 32) }) ∧
    (s.mem.read? a.toNat = none → step s = .fault (.unwritten a.toNat)) := by
  rw [step_cons h]
  exact hostMemRead_buffer (s := { s with inputs := rest }) hp
    (accessRefusal_of hp rfl (fun hn => nomatch hn) hd ho)

/-- A write of a register, as a step (R41, R48). -/
theorem step_write_register {s : State} {a : Half} {v : Word} {rest : List Move} {pl : Place}
    (h : s.inputs = .write a .word v :: rest) (ha : pl.registerAddr = some a) (ho : pl.owned = true → s.lock = false)
    (hc : pl ≠ .cmd) :
    (∀ t, writeRegister { s with inputs := rest } v pl = some t → step s = .next t) ∧
    (writeRegister { s with inputs := rest } v pl = none → step s = .refused (.readOnly a)) := by
  obtain ⟨hp, hw, h4⟩ := placeOf_of_registerAddr ha
  rw [step_cons h]
  refine hostMemWrite_register hp (accessRefusal_of hp hw.symm (fun _ => h4) ?_ ho) hc ?_
  · rintro rfl
    cases ha
  · rintro o rfl
    cases ha

/-- Settles O58: a register by `step_write_register`, a buffer byte by the window it lies in. -/
theorem hostWritesStore : Obligations.HostWritesStore := by
  unfold Obligations.HostWritesStore
  intro s a n v rest h
  refine ⟨?_, ?_, ?_⟩
  · rintro rfl rfl
    exact (step_write_register (pl := .event) h rfl (fun ho => nomatch ho) (by simp)).1 _ rfl
  · rintro hl rfl
    refine ⟨?_, ?_, ?_, ?_⟩ <;> rintro rfl
    · exact (step_write_register (pl := .tgtLo) h rfl (fun _ => hl) (by simp)).1 _ rfl
    · exact (step_write_register (pl := .tgtHi) h rfl (fun _ => hl) (by simp)).1 _ rfl
    · exact (step_write_register (pl := .crc16) h rfl (fun _ => hl) (by simp)).1 _ rfl
    · exact (step_write_register (pl := .npages) h rfl (fun _ => hl) (by simp)).1 _ rfl
  · rintro hl rfl ha
    have hp := placeOf_writable ha
    refine ⟨s.mem.write a.toNat (v.extractLsb' 0 8), ?_, Memory.read?_write _ _ _⟩
    rw [step_cons h]
    exact hostMemWrite_buffer hp (accessRefusal_of hp rfl (by simp) (by simp) fun _ => hl)

/-- The buffer windows the engine owns while `LOCK=1` (R41, R45). -/
theorem placeOf_ownedBuffer {a : Half}
    (h : 0x0100 ≤ a.toNat ∧ a.toNat ≤ 0x02FF ∨ 0x2000 ≤ a.toNat ∧ a.toNat ≤ 0x5FFF) :
    ∃ w, placeOf a = some (.buffer w true) := by
  by_cases hr : 0x0200 ≤ a.toNat ∧ a.toNat ≤ 0x02FF
  · exact ⟨false, placeOf_rx hr⟩
  · exact ⟨true, placeOf_writable (by omega)⟩

/-- Settles O57: a register by `step_read_register`, a buffer byte by the window it lies in. -/
theorem hostReadsReturnValues : Obligations.HostReadsReturnValues := by
  unfold Obligations.HostReadsReturnValues
  intro s a rest
  refine ⟨fun v h hv => ?_, fun h ha => ?_⟩
  · simp only [List.mem_cons, Prod.mk.injEq, List.not_mem_nil, or_false] at hv
    rcases hv with (⟨rfl, rfl⟩ | ⟨rfl, rfl⟩ | ⟨rfl, rfl⟩ | ⟨rfl, rfl⟩) |
      ⟨hl, ⟨rfl, rfl⟩ | ⟨rfl, rfl⟩ | ⟨rfl, rfl⟩ | ⟨rfl, rfl⟩ | ⟨rfl, rfl⟩ | ⟨rfl, rfl⟩ | ⟨rfl, rfl⟩⟩
    · exact step_read_register (pl := .status) h rfl (fun ho => nomatch ho) rfl
    · exact step_read_register (pl := .result) h rfl (fun ho => nomatch ho) rfl
    · exact step_read_register (pl := .event) h rfl (fun ho => nomatch ho) rfl
    · exact step_read_register (pl := .detCnt) h rfl (fun ho => nomatch ho) rfl
    · exact step_read_register (pl := .tgtLo) h rfl (fun _ => hl) rfl
    · exact step_read_register (pl := .tgtHi) h rfl (fun _ => hl) rfl
    · exact step_read_register (pl := .romLo) h rfl (fun _ => hl) rfl
    · exact step_read_register (pl := .romHi) h rfl (fun _ => hl) rfl
    · exact step_read_register (pl := .crc16) h rfl (fun _ => hl) rfl
    · exact step_read_register (pl := .npages) h rfl (fun _ => hl) rfl
    · exact step_read_register (pl := .rxLen) h rfl (fun _ => hl) rfl
  · rcases ha with ⟨h1, h2, hd⟩ | ⟨hl, ha⟩
    · exact step_read_buffer h (placeOf_det ⟨h1, h2⟩) (fun _ => hd) fun ho => nomatch ho
    · obtain ⟨w, hp⟩ := placeOf_ownedBuffer ha
      exact step_read_buffer h hp (fun hb => by cases hb) fun _ => hl

/-- The one-bit fields of `STATUS`, and its bit 15 (R27). -/
theorem statusWord_bits (s : State) :
    (statusWord s).getLsbD 2 = s.lock ∧ (statusWord s).getLsbD 3 = s.searching ∧
    (statusWord s).getLsbD 4 = s.lastDevice ∧ (statusWord s).getLsbD 5 = s.spdValid ∧
    (statusWord s).getLsbD 6 = s.spdOd ∧ (statusWord s).getLsbD 7 = s.detTrunc ∧
    (statusWord s).getLsbD 15 = false := by
  unfold statusWord bit
  simp only [BitVec.getLsbD_append]
  simp

theorem statusWord_lc (s : State) : (statusWord s).extractLsb' 0 2 = s.lc.code := BitVec.extractLsb'_append_eq_right

/-- Seven fields lie below `LAST_DISC` (R27). -/
theorem statusWord_lastDisc (s : State) : (statusWord s).extractLsb' 8 7 = s.lastDisc := by
  unfold statusWord
  iterate 7 refine (BitVec.extractLsb'_append_eq_of_le (by decide)).trans ?_
  exact BitVec.extractLsb'_append_eq_right

/-- Nine fields lie below `ATT` (R27). -/
theorem statusWord_att (s : State) : (statusWord s).extractLsb' 16 4 = s.att := by
  unfold statusWord
  iterate 9 refine (BitVec.extractLsb'_append_eq_of_le (by decide)).trans ?_
  exact BitVec.extractLsb'_append_eq_right

/-- Ten fields lie below the bits that read 0 (R27). -/
theorem statusWord_high (s : State) : (statusWord s).extractLsb' 20 12 = 0#12 := by
  unfold statusWord
  iterate 10 refine (BitVec.extractLsb'_append_eq_of_le (by decide)).trans ?_
  exact BitVec.extractLsb'_eq_self

/-- Settles O56: the port's part by the register rules, the fields by `statusWord_bits` and the lemmas after it. -/
theorem statusLayout : Obligations.StatusLayout := by
  unfold Obligations.StatusLayout
  intro s
  obtain ⟨h2, h3, h4, h5, h6, h7, h15⟩ := statusWord_bits s
  refine ⟨fun rest h => ?_, fun v rest h => ?_, ?_, h2, h3, h4, h5, h6, h7, statusWord_lastDisc s, h15,
    statusWord_att s, statusWord_high s⟩
  · exact step_read_register (pl := .status) h rfl (fun ho => nomatch ho) rfl
  · exact (step_write_register (pl := .status) h rfl (fun ho => nomatch ho) (by simp)).2 rfl
  · rw [statusWord_lc]
    cases s.lc <;> rfl

end Sys2Proof.Machine

/-! ## Acceptance of a command word -/

namespace Sys2Proof.Machine

/-- Each of the three ways a word is accepted comes to `acceptWord` (R43, R63). -/
theorem Accepts.step_eq {s s' : State} {w : Word} (h : Accepts s w s') (hl : s.lock = false) :
    step s = acceptWord w s' := by
  cases h with
  | written rest hp hi =>
    rw [step_cmd hi]
    unfold writeCmd
    simp only [closeAtWrite_ite]
    rw [if_pos (by simp [hl, hp])]
  | arbitrated ws rest hp hi =>
    rw [step_cons hi]
    exact acceptHeld_free hl hp
  | drained ws hp hi =>
    rw [step_nil hi]
    exact acceptHeld_free hl hp

/-- Acceptance changes none of the registers and parameters (R43). -/
theorem Accepts.kept {s s' : State} {w : Word} (h : Accepts s w s') :
    s'.toRegs = s.toRegs ∧ s'.params = s.params := by
  cases h <;> exact ⟨rfl, rfl⟩

/-- Settles O5: by `Accepts.step_eq`, the word decoding to its command. -/
theorem stepRunsDecodedCommand : Obligations.StepRunsDecodedCommand := by
  unfold Obligations.StepRunsDecodedCommand
  intro s s' w i hl hd h
  rw [h.step_eq hl]
  unfold acceptWord
  rw [hd]

/-- A command that fails a usage check completes in the step that accepts it, with nothing offered to it (R175). -/
theorem Accepts.step_usage {s s' : State} {w : Word} {i : Instr} {c : Completion} (h : Accepts s w s')
    (hl : s.lock = false) (hd : decode w = some i) (hi : i ≠ .close) (hc : i.opc.toNat < 0x40)
    (hu : usageError i s = some c) : step s = .next (s'.completed (resultWord i.opc c)) := by
  have hs : usageError i { s' with inputs := [] } = some c := by
    obtain ⟨hr, hp⟩ := h.kept
    rw [← hu]
    unfold usageError
    rw [hp, hr]
  rw [stepRunsDecodedCommand s s' w i hl hd h, offer_next (exec_usage hi hc hs)]
  rfl

/-- A result word is OPC and the 24 bits below it, which do not depend on OPC (R25). -/
theorem resultWord_append {opc : Byte} {c : Completion} {w : BitVec 24}
    (h : (resultWord 0#8 c).extractLsb' 0 24 = w) : resultWord opc c = opc ++ w := by
  subst h
  refine BitVec.eq_of_getLsbD_eq fun i hi => ?_
  rw [BitVec.getLsbD_append, BitVec.getLsbD_extractLsb', resultWord_getLsbD, resultWord_getLsbD, Nat.zero_add]
  by_cases h24 : i < 24
  · simp [h24]
  · simp [h24, show ¬i < 4 by omega, show ¬i < 7 by omega, show ¬i < 8 by omega, show ¬i < 16 by omega]

/-- CLOSE and the CRC commands are legal in every lifecycle state (R90). -/
theorem not_close_of_illegal {i : Instr} {lc : Lifecycle} (h : legalIn i lc = false) :
    i ≠ .close ∧ i.opc.toNat < 0x40 := by
  cases i with
  | close | crc16Clr | crc16Byte | crc16Chk | crc16Gen => cases h
  | _ => exact ⟨by simp, by simp [Instr.opc]⟩

/-- Only OW_WRITE, OW_READ, OW_ROM and RG_WRITE have operands out of range (R74). -/
theorem not_close_of_outOfRange {i : Instr} {p : Params} (h : operandInRange p i = false) :
    i ≠ .close ∧ i.opc.toNat < 0x40 := by
  cases i with
  | owWrite | owRead | owRom | rgWrite => exact ⟨by simp, by simp [Instr.opc]⟩
  | _ => cases h

/-- Settles O13: an unmatched word completes at once; the others fail their usage check (`Accepts.step_usage`). -/
theorem usageChecksInOrder : Obligations.UsageChecksInOrder := by
  unfold Obligations.UsageChecksInOrder
  intro s s' w hl hq h
  refine ⟨fun hd => ?_, fun i hd hi => ?_, fun i hd hi ho => ?_, fun hd hc hdev => ?_, fun f hd hc hn => ?_⟩
  · rw [h.step_eq hl]
    unfold acceptWord
    rw [hd]
    exact completeNow_eq (resultWord_append (by decide)) s'
  · obtain ⟨h1, h2⟩ := not_close_of_illegal hi
    have hu : usageError i s = some ⟨.badState, .noPhase, 0⟩ := by
      unfold usageError
      rw [hi]
      rfl
    rw [h.step_usage hl hd h1 h2 hu, resultWord_append (w := 0x000008#24) (by decide)]
  · obtain ⟨h1, h2⟩ := not_close_of_outOfRange ho
    have hu : usageError i s = some ⟨.badOperand, .noPhase, 0⟩ := by
      unfold usageError
      rw [hi, ho]
      rfl
    rw [h.step_usage hl hd h1 h2 hu, resultWord_append (w := 0x000009#24) (by decide)]
  · have hu : usageError .srchNext s = some ⟨.noNext, .search, 0⟩ := by
      simp [usageError, legalIn, operandInRange, Instr.wf, hc, hdev]
    exact h.step_usage hl hd (by simp) (by decide) hu
  · have hu : usageError (.memWritediff f) s = some ⟨.lengthMismatch, .write, 0⟩ := by
      simp [usageError, legalIn, operandInRange, Instr.wf, hc, hn]
    have hw : resultWord 0x3A#8 ⟨.lengthMismatch, .write, 0⟩ = 0x3A000045#32 := by decide
    rw [h.step_usage hl hd (by simp) (by simp [Instr.opc]) hu, show (Instr.memWritediff f).opc = 0x3A#8 from rfl, hw]

/-! ## How a command ends -/

/-- What a result word says of itself (R25, R170). -/
theorem resultWord_fields (opc : Byte) (c : Completion) : resultOpc (resultWord opc c) = opc ∧
    (resultWord opc c).extractLsb' 16 8 = 0#8 ∧ (resultWord opc c).getLsbD 7 = false ∧
    (resultErr (resultWord opc c) = 0#4 → resultPhase (resultWord opc c) = 0#3) := by
  obtain ⟨h7, h16⟩ := resultWord_zero opc c
  refine ⟨resultOpc_word opc c, h16, h7, fun he => ?_⟩
  rw [resultErr_word] at he
  rw [resultPhase_word, if_pos (Err.ok_of_code he)]
  rfl

/-- Completion sets DONE (R170). -/
theorem raiseFlags_evDone (e : Word) : (raiseFlags e evDone).getLsbD 0 = true := by
  simp [raiseFlags, evDone]

/-- Settles O14: by the three ends of a command (`exec_ends`), under the law that `RESULT` is kept. -/
theorem commandCompletesOrHoldsTheLock : Obligations.CommandCompletesOrHoldsTheLock := by
  unfold Obligations.CommandCompletesOrHoldsTheLock
  intro i s t h
  rcases exec_ends (Law.keep_allows (f := Regs.result) (fun _ _ => rfl) i fun _ _ _ => rfl) h with
    ⟨c, s1, -, rfl⟩ | ⟨c, e, -, rfl⟩ | ⟨-, op, e, ⟨-, -, hk⟩, rfl⟩
  · exact .inl ⟨rfl, rfl, raiseFlags_evDone _, resultWord_fields _ c⟩
  · exact .inl ⟨rfl, rfl, raiseFlags_evDone _, resultWord_fields _ c⟩
  · exact .inr ⟨rfl, hk, rfl, op, _, _, rfl⟩

/-! ## What is refused -/

/-- No command is refused. -/
theorem exec_ne_refused (i : Instr) (s : State) (r : Refusal) : exec i s ≠ .refused r := by
  intro h
  by_cases hb : Instr.usesBus i = true
  · by_cases hc : i = .close → s.lc ≠ .closed
    · obtain ⟨body, hbody, hw⟩ := exec_bus i hb
      rw [hbody s hc] at h
      rcases accept_cases i s (hw _ (Law.replies_allows i)) with
        ⟨c, -, h1⟩ | ⟨-, ⟨c, e, -, h1⟩ | ⟨op, e, -, -, h1⟩ | ⟨f, -, h1⟩⟩ <;> rw [h1] at h <;> cases h
    · push Not at hc
      obtain ⟨rfl, hc⟩ := hc
      rw [exec_close_closed hc] at h
      cases h
  · rcases exec_noBus i (by simpa using hb) s with ⟨c, s1, -, h1⟩ | ⟨a, -, -, -, h1⟩ <;> rw [h1] at h <;> cases h

/-- Nor is a background pass, hence no job. -/
theorem Job.run_ne_refused (j : Job) (s : State) (r : Refusal) : j.run s ≠ .refused r := by
  cases j with
  | command i => exact exec_ne_refused i s r
  | background =>
    intro h
    change runBackground s = _ at h
    rcases runBackground_cases s Law.replies_background with ⟨e, -, h1⟩ | ⟨op, e, -, -, h1⟩ | ⟨f, -, h1⟩ <;>
      rw [h1] at h <;> cases h

/-- Acceptance of a word refuses nothing (R43, R74). -/
theorem acceptWord_ne_refused (w : Word) (s : State) (r : Refusal) : acceptWord w s ≠ .refused r := by
  intro h
  unfold acceptWord at h
  split at h
  · exact exec_ne_refused _ _ _ (offer_refused h)
  · cases h

theorem acceptHeld_ne_refused (s : State) (r : Refusal) : acceptHeld s ≠ .refused r := by
  intro h
  unfold acceptHeld at h
  split at h
  · exact acceptWord_ne_refused _ _ _ h
  · cases h

theorem answerMove_ne_refused (m : Move) (s : State) (r : Refusal) : answerMove m s ≠ .refused r := by
  intro h
  unfold answerMove at h
  split at h
  · cases h
  · exact Job.run_ne_refused _ _ _ (offer_refused h)

theorem tickMove_ne_refused (s : State) (r : Refusal) : tickMove s ≠ .refused r := by
  intro h
  unfold tickMove at h
  split at h
  · exact Job.run_ne_refused .background _ _ (offer_refused h)
  · cases h

/-- Settles O15: no command is refused (`exec_ne_refused`), nor is any move but a host access, by the kind of move. -/
theorem onlyHostAccessesAreRefused : Obligations.OnlyHostAccessesAreRefused := by
  unfold Obligations.OnlyHostAccessesAreRefused
  refine ⟨exec_ne_refused, fun s r h => ?_⟩
  cases hi : s.inputs with
  | nil =>
    rw [step_nil hi] at h
    exact absurd h (acceptHeld_ne_refused s r)
  | cons m rest =>
    rw [step_cons hi] at h
    refine ⟨m, rest, rfl, ?_⟩
    cases m with
    | read a n => rfl
    | write a n v => rfl
    | accept => exact absurd h (acceptHeld_ne_refused _ r)
    | reply x => exact absurd h (answerMove_ne_refused _ _ r)
    | tick => exact absurd h (tickMove_ne_refused _ r)
    | passTimeout => exact absurd h (answerMove_ne_refused _ _ r)
    | hardwareReset => cases h

end Sys2Proof.Machine

/-! ## Command words at the port -/

namespace Sys2Proof.Machine

/-- A write to CMD while `LOCK=1` or a word is held (R43, R92, R195). -/
theorem writeCmd_held {s : State} {w : Word} (h : s.lock = true ∨ s.port ≠ []) : writeCmd w s =
    if s.port = [] ∨ decode w = some .close then
      .next { s with searching := if decode w = some .close then false else s.searching, port := s.port ++ [w] }
    else .refused (.wordHeld w) := by
  have hn : ¬(s.lock = false ∧ s.port = []) := by
    rintro ⟨hl, hp⟩
    rcases h with h | h
    · rw [hl] at h
      cases h
    · exact h hp
  unfold writeCmd
  simp only [closeAtWrite_ite]
  rw [if_neg (by simpa using hn)]

/-- A write of a register leaves the port as it is. -/
theorem writeRegister_port {s t : State} {v : Word} {pl : Place} (h : writeRegister s v pl = some t) :
    t.port = s.port := by
  rcases writeRegister_cases h with ⟨-, rfl⟩ | ⟨-, id, rfl⟩ | ⟨-, r, rfl⟩ | ⟨-, m, n, rfl⟩ <;> rfl

/-- While `LOCK=1` a move other than hardware reset takes no word from the port (R43, R62). -/
theorem applyMove_locked_port {s t : State} {m : Move} (hl : s.lock = true) (hm : m ≠ .hardwareReset)
    (h : applyMove m s = .next t) : ∃ ws, t.port = s.port ++ ws := by
  have hsame : t.port = s.port → ∃ ws, t.port = s.port ++ ws := fun hp => ⟨[], by rw [hp, List.append_nil]⟩
  have hanswer : ∀ m, answerMove m s = .next t → t.port = s.port := by
    intro m h
    unfold answerMove at h
    split at h
    · cases h
      rfl
    · obtain ⟨u, hu, rfl⟩ := offer_next_cases h
      have hp := job_port hu
      exact hp
  cases m with
  | read a n =>
    obtain ⟨v, rfl⟩ := hostMemRead_next h
    exact hsame rfl
  | write a n v =>
    rcases hostMemWrite_next h with h | ⟨pl, -, -, -, hw⟩ | ⟨hf, -, -⟩
    · rw [writeCmd_held (.inl hl)] at h
      split at h <;> cases h
      exact ⟨[v], rfl⟩
    · exact hsame (writeRegister_port hw)
    · rw [hl] at hf
      cases hf
  | accept =>
    cases (acceptHeld_locked hl).symm.trans h
    exact hsame rfl
  | reply r => exact hsame (hanswer _ h)
  | tick =>
    have hb : bgEnabled s = false := by simp [bgEnabled, hl]
    cases (show tickMove s = .next s by simp [tickMove, hb]).symm.trans h
    exact hsame rfl
  | passTimeout => exact hsame (hanswer _ h)
  | hardwareReset => exact absurd rfl hm

/-- Settles O6: the write to CMD by `writeCmd_held`; with the lock held nothing is accepted (`acceptHeld_locked`), and no
move but hardware reset takes a word (`applyMove_locked_port`). -/
theorem commandWordsAreHeld : Obligations.CommandWordsAreHeld := by
  unfold Obligations.CommandWordsAreHeld
  refine fun s => ⟨fun w rest h hi => ?_, fun hl => ⟨fun rest hi => ?_, fun hi => ?_, fun t ht hr => ?_⟩⟩
  · rw [step_cmd hi, writeCmd_held (s := { s with inputs := rest }) h]
    refine ⟨fun hc => ?_, fun hc hp => ?_, fun hc hp => ?_⟩
    · rw [if_pos (.inr hc), if_pos hc]
    · rw [if_pos (.inl hp), if_neg hc, show s.port ++ [w] = [w] by rw [hp]; rfl]
    · rw [if_neg (by simp [hp, hc])]
  · rw [step_cons hi]
    exact acceptHeld_locked hl
  · rw [step_nil hi]
    exact acceptHeld_locked hl
  · cases hi : s.inputs with
    | nil =>
      rw [step_nil hi, acceptHeld_locked hl] at ht
      cases ht
      exact ⟨[], by rw [List.append_nil]⟩
    | cons m rest =>
      rw [step_cons hi] at ht
      refine applyMove_locked_port (s := { s with inputs := rest }) hl ?_ ht
      rintro rfl
      rw [hi] at hr
      exact hr rfl

/-! ## Accesses that are refused -/

/-- A host access to `a` of width `n`, as the next move. -/
def Move.IsAccessAt (m : Move) (a : Half) (n : Width) : Prop := m = .read a n ∨ ∃ v, m = .write a n v

/-- A step whose move is an access that is refused whatever it reads or writes (R42, R45, R48). -/
theorem step_access_refused {s : State} {m : Move} {a : Half} {n : Width} {rest : List Move} {r : Refusal}
    (hi : s.inputs = m :: rest) (hm : m.IsAccessAt a n) (hr : accessRefusal s a n = some r) : step s = .refused r := by
  have hr' : accessRefusal { s with inputs := rest } a n = some r := hr
  obtain ⟨h1, h2⟩ := access_refused hr'
  rw [step_cons hi]
  rcases hm with rfl | ⟨v, rfl⟩
  · exact h1
  · exact h2 v

/-- An access of the wrong width, aligned if it is a word (R42). -/
theorem accessRefusal_width {s : State} {a : Half} {n : Width} {pl : Place} (hp : placeOf a = some pl)
    (ha : n = .word → a.toNat % 4 = 0) (hw : n ≠ pl.width) : accessRefusal s a n = some (.accessWidth a) := by
  unfold accessRefusal
  rw [hp]
  simp only []
  rw [if_neg (by rintro ⟨h1, h2⟩; exact h2 (ha h1)), if_pos hw]

/-- A word access at an address that is no multiple of 4 (R42). -/
theorem accessRefusal_misaligned {s : State} {a : Half} (ha : a.toNat % 4 ≠ 0) :
    accessRefusal s a .word = some (.misaligned a) := by
  unfold accessRefusal
  cases placeOf a with
  | none => exact if_pos ⟨rfl, ha⟩
  | some pl => exact if_pos ⟨rfl, ha⟩

/-- An access where nothing is mapped (R48). -/
theorem accessRefusal_unmapped {s : State} {a : Half} {n : Width} (hp : placeOf a = none)
    (ha : n = .word → a.toNat % 4 = 0) : accessRefusal s a n = some (.unmapped a) := by
  unfold accessRefusal
  rw [hp]
  exact if_neg (by rintro ⟨h1, h2⟩; exact h2 (ha h1))

/-- An access to a `DET` entry that does not exist (R48). -/
theorem accessRefusal_detBeyond {s : State} {a : Half} (hp : placeOf a = some (.buffer false false))
    (hd : s.params.maxDev ≤ (a.toNat - 0x0400) / 8) :
    accessRefusal s a .byte = some (.detBeyond ((a.toNat - 0x0400) / 8)) := by
  unfold accessRefusal
  rw [hp]
  simp only []
  rw [if_neg (by simp), if_neg (by simp [Place.width]), if_pos ⟨trivial, hd⟩]

/-- While `LOCK=1` an access to what the engine owns (R45). -/
theorem accessRefusal_owned {s : State} {a : Half} {n : Width} {pl : Place} (hp : placeOf a = some pl)
    (ha : n = .word → a.toNat % 4 = 0) (hw : n = pl.width) (hl : s.lock = true) (ho : pl.owned = true) :
    accessRefusal s a n = some (.engineOwned a) := by
  unfold accessRefusal
  rw [hp]
  simp only []
  rw [if_neg (by rintro ⟨h1, h2⟩; exact h2 (ha h1)), if_neg (by simpa using hw), if_neg, if_pos (by simp [hl, ho])]
  rintro ⟨rfl, -⟩
  cases ho

/-- A byte write to a window the host only reads (R41, R48). -/
theorem step_write_readOnly {s : State} {a : Half} {v : Word} {rest : List Move} {o : Bool}
    (hi : s.inputs = .write a .byte v :: rest) (hp : placeOf a = some (.buffer false o))
    (hd : o = false → (a.toNat - 0x0400) / 8 < s.params.maxDev) (ho : o = true → s.lock = false) :
    step s = .refused (.readOnly a) := by
  rw [step_cons hi]
  refine (hostMemWrite_register (s := { s with inputs := rest }) hp
    (accessRefusal_of hp rfl (fun hn => nomatch hn) ?_ ho) (by simp) (by simp)).2 rfl
  intro hb
  exact hd (by cases hb; rfl)

/-- The places of the buffer windows (R41). -/
theorem placeOf_window {a : Half}
    (h : 0x0100 ≤ a.toNat ∧ a.toNat ≤ 0x02FF ∨ 0x0400 ≤ a.toNat ∧ a.toNat ≤ 0x04FF ∨
      0x2000 ≤ a.toNat ∧ a.toNat ≤ 0x5FFF) : ∃ w o, placeOf a = some (.buffer w o) := by
  by_cases hd : 0x0400 ≤ a.toNat ∧ a.toNat ≤ 0x04FF
  · exact ⟨_, _, placeOf_det hd⟩
  · obtain ⟨w, hp⟩ := placeOf_ownedBuffer (a := a) (by omega)
    exact ⟨w, true, hp⟩

/-- The addresses of the registers the engine owns, and the registers there (R41, R45). -/
theorem placeOf_ownedRegister {a : Half}
    (h : a ∈ [0x0010#16, 0x0014#16, 0x0018#16, 0x001C#16, 0x0020#16, 0x0024#16, 0x002C#16]) :
    ∃ pl, placeOf a = some pl ∧ pl.width = .word ∧ a.toNat % 4 = 0 ∧ pl.owned = true := by
  simp only [List.mem_cons, List.not_mem_nil, or_false] at h
  rcases h with rfl | rfl | rfl | rfl | rfl | rfl | rfl
  · exact ⟨.tgtLo, by decide⟩
  · exact ⟨.tgtHi, by decide⟩
  · exact ⟨.romLo, by decide⟩
  · exact ⟨.romHi, by decide⟩
  · exact ⟨.crc16, by decide⟩
  · exact ⟨.npages, by decide⟩
  · exact ⟨.rxLen, by decide⟩

/-- A read of CMD (R41, R48). -/
theorem hostMemRead_cmd (s : State) : hostMemRead 0x0000#16 .word s = .refused (.writeOnly 0x0000#16) := by
  have h : accessRefusal s 0x0000#16 .word = none :=
    accessRefusal_of (pl := .cmd) (by decide) rfl (fun _ => by decide) (by simp) (by simp [Place.owned])
  unfold hostMemRead
  rw [h, show placeOf 0x0000#16 = some .cmd by decide]
  rfl

/-- Settles O59: each clause by the check of `accessRefusal` that refuses it, at the place its address names. -/
theorem hostAccessesRefused : Obligations.HostAccessesRefused := by
  unfold Obligations.HostAccessesRefused
  intro s m a rest hi window register bytes word det
  refine ⟨?_, ?_, ?_, ?_, ?_, ?_, ?_, ?_, ?_, ?_, ?_, ?_⟩
  · rintro rfl
    rw [step_cons hi]
    exact hostMemRead_cmd _
  · rintro v rfl ha
    simp only [List.mem_cons, List.not_mem_nil, or_false] at ha
    rcases ha with rfl | rfl | rfl
    · exact (step_write_register (pl := .status) hi rfl (fun ho => nomatch ho) (by simp)).2 rfl
    · exact (step_write_register (pl := .result) hi rfl (fun ho => nomatch ho) (by simp)).2 rfl
    · exact (step_write_register (pl := .detCnt) hi rfl (fun ho => nomatch ho) (by simp)).2 rfl
  · rintro v rfl hl ha
    simp only [List.mem_cons, List.not_mem_nil, or_false] at ha
    rcases ha with rfl | rfl | rfl
    · exact (step_write_register (pl := .romLo) hi rfl (fun _ => hl) (by simp)).2 rfl
    · exact (step_write_register (pl := .romHi) hi rfl (fun _ => hl) (by simp)).2 rfl
    · exact (step_write_register (pl := .rxLen) hi rfl (fun _ => hl) (by simp)).2 rfl
  · rintro v rfl hl ha
    exact step_write_readOnly hi (placeOf_rx ha) (fun ho => nomatch ho) fun _ => hl
  · rintro v rfl ha hd
    exact step_write_readOnly hi (placeOf_det ha) (fun _ => hd) fun ho => nomatch ho
  · exact fun hm ha hd => step_access_refused hi hm (accessRefusal_detBeyond (placeOf_det ha) hd)
  · intro hm ha
    obtain ⟨pl, hp, hw⟩ := placeOf_register ha
    exact step_access_refused hi hm (accessRefusal_width hp (fun hn => nomatch hn) (by simp [hw]))
  · intro hm h4 ha
    obtain ⟨w, o, hp⟩ := placeOf_window ha
    exact step_access_refused hi hm (accessRefusal_width hp (fun _ => h4) (by simp [Place.width]))
  · exact fun hm h4 => step_access_refused hi hm (accessRefusal_misaligned h4)
  · intro hm hw hr
    have hp := placeOf_unmapped hw hr
    rcases hm with hm | ⟨hm, h4⟩
    · exact step_access_refused hi hm (accessRefusal_unmapped hp fun hn => nomatch hn)
    · exact step_access_refused hi hm (accessRefusal_unmapped hp fun _ => h4)
  · intro hl hm ha
    obtain ⟨pl, hp, hw, h4, ho⟩ := placeOf_ownedRegister ha
    exact step_access_refused hi hm (accessRefusal_owned hp (fun _ => h4) hw.symm hl ho)
  · intro hl hm hw hd
    obtain ⟨w, hp⟩ := placeOf_ownedBuffer (a := a) (by omega)
    exact step_access_refused hi hm (accessRefusal_owned hp (fun hn => nomatch hn) rfl hl rfl)

end Sys2Proof.Machine

/-! ## A page write and a whole-memory read, answered -/

namespace Sys2Proof.Machine

/-- PG_WRITE has no operand out of range and no check of its own (R175). -/
theorem pgWrite_usage {s : State} (p : Byte) (d : Bool) (hl : s.lc = .claimed) :
    usageError (.pgWrite p d) s = none :=
  usageError_none (by simp [legalIn, hl]) rfl (fun h => nomatch h) (fun _ h => nomatch h)

/-- Nor has MEM_READALL. -/
theorem memReadall_usage {s : State} (f : Bool) (hl : s.lc = .claimed) : usageError (.memReadall f) s = none :=
  usageError_none (by simp [legalIn, hl]) rfl (fun h => nomatch h) (fun _ h => nomatch h)

/-- The result word of a completion with OK and no value (R170). -/
theorem resultWord_ok {i : Instr} {w : Word} (opc : Byte) (hi : i.opc = opc) (h : opc ++ 0x000000#24 = w) :
    resultWord i.opc ⟨.ok, .noPhase, 0⟩ = w := by
  rw [hi, ← h]
  exact resultWord_append (by decide)

/-- A page whose read-back matches after some mismatches (R141, R142). -/
theorem writePage_commits {e : Eng} {p : Nat} {pre back : List (List Byte)} {xs : List Mismatch} {d : Bool}
    {bad good rest : List Move} (hwf : e.params.wf) (hlen : back.flatten.length = 32)
    (hm : HoldsBytes e.regs.mem (0x2000 + 32 * p) back.flatten)
    (hatt : e.regs.att.toNat + xs.length ≤ e.params.retryAttempts) (ha : 1 ≤ e.regs.att.toNat)
    (hbad : MismatchReplies e.params back.flatten xs bad) (hgood : CycleReplies e.params pre back good)
    (hs : e.script = bad ++ good ++ rest) :
    ∃ l, writePage p d e = .ok ()
      ((((e.setAtt (e.regs.att + BitVec.ofNat 4 xs.length)).setSpd d).setLoc l).adv
        (mismatchOps e.params e.regs.targetId (pageOff p) back.flatten d xs ++
          cycleOps e.params e.regs.targetId (pageOff p) pre back d) (bad ++ good) rest) := by
  obtain ⟨l, hl⟩ := scratchpadCycle_commits (off := pageOff p) (d := d) hwf hatt ha hbad hgood hs
  exact ⟨l, (Prog.bind_ok (loadBytes_holds hlen hm)).trans hl⟩

/-- Settles O40: the cycle's loop commits at the first read-back that matches (`writePage_commits`). -/
theorem pgWriteCommitsAfterMatchingReadBack : Obligations.PgWriteCommitsAfterMatchingReadBack := by
  unfold Obligations.PgWriteCommitsAfterMatchingReadBack
  intro s p d data pre back xs bad good rest hc hwf hlen hm hx hbad hback hgood hs
  subst hback
  obtain ⟨l, hl⟩ := writePage_commits (e := ((s.eng false).setAtt 1#4).setLoc (Locals.start.withPhase .write)) (d := d)
    (rest := rest) hwf hlen hm (by change 1 + xs.length ≤ s.params.retryAttempts; omega) (Nat.le_refl 1) hbad hgood hs
  refine accept_ok (pgWrite_usage p d hc) (guarded_ok (Prog.andThen_ok (y := done) hl)) rfl
    (resultWord_ok 0x30#8 rfl (by decide)) ?_
  have hatt : 1#4 + BitVec.ofNat 4 xs.length = BitVec.ofNat 4 (xs.length + 1) := by
    rw [Nat.add_comm, BitVec.ofNat_add]
  simp [State.ran, Eng.adv, Eng.setAtt, Eng.setSpd, Eng.setLoc, State.eng, hatt]

/-- Settles O43: the body reads the pages in order (`readallBody_ack`) and returns at its first attempt. -/
theorem memReadallFillsImage : Obligations.MemReadallFillsImage := by
  unfold Obligations.MemReadallFillsImage
  intro s f img pre rest hc hwf hlen h32 hpre hs
  obtain ⟨m, r, l, hl, himg, hout⟩ := readallBody_ack (e := (s.eng false).setAtt 1#4) (f := f) (rest := rest)
    hwf.2.2.1 hlen h32 hpre (by rw [Eng.setAtt_script, ← List.append_assoc]; exact hs)
  refine ⟨m, ?_, himg, hout⟩
  have hbody := Prog.bind_ok (f := fun c => if c.err = .ok then Prog.ret c else
    (mixImage s.mem).andThen (Prog.ret c)) (retried_ok hl)
  refine accept_ok (memReadall_usage f hc) hbody rfl (resultWord_ok 0x38#8 rfl (by decide)) ?_
  simp [State.ran, Eng.adv, Eng.setAtt, Eng.setSpd, Eng.setLoc, Eng.setBuffers, Eng.fullImage, State.eng]

end Sys2Proof.Machine

/-! ## Conditions that end a command -/

namespace Sys2Proof.Machine

section

variable {α β : Type} {P : Phase → Prop}

/-- Where `x` waits when it runs from `e`, the conditions its position allows end it, with the parameters and the event flags as
at its start and in a phase of the set `P`. -/
structure Interruptible (P : Phase → Prop) (x : Prog α) (e : Eng) : Prop where
  breaks : BreaksFrom e.regs.issued.length x e
  waits : ∀ op e', x e = .wait op e' → e'.params = e.params ∧ e'.raised = e.raised ∧ P e'.locals.phase

/-- Pseudocode with no error handling of its own. -/
theorem Open.interruptible {x : Prog α} (h : Open P x) {e : Eng} (hp : P e.locals.phase) : Interruptible P x e where
  breaks := h.breaks _ e (Nat.le_refl _)
  waits op e' hw := by
    have hk := h.keeps e e' (by rw [hw]; rfl)
    exact ⟨hk.params, hk.raised, hk.phase hp⟩

theorem Interruptible.mono {Q : Phase → Prop} {x : Prog α} {e : Eng} (h : Interruptible P x e) (hq : ∀ ph, P ph → Q ph) :
    Interruptible Q x e where
  breaks := h.breaks
  waits op e' hw := by
    obtain ⟨hp, hr, hph⟩ := h.waits op e' hw
    exact ⟨hp, hr, hq _ hph⟩

/-- Before a part that never waits. -/
theorem Interruptible.bind_instant {x : Prog α} {f : α → Prog β} {e : Eng} (h : Interruptible P x e) (hs : Steady x)
    (hf : ∀ a e1 op e', f a e1 ≠ .wait op e') : Interruptible P (x.bind f) e where
  breaks := h.breaks.bind hs fun a e1 _ _ op' _ _ _ _ _ hw => absurd hw (hf a e1 _ _)
  waits op e' hw := by
    cases hr : x e with
    | ok a e1 =>
      rw [Prog.bind_ok hr] at hw
      exact absurd hw (hf a e1 op e')
    | raise c e1 => rw [Prog.bind_raise hr] at hw; cases hw
    | wait op1 e1 =>
      rw [Prog.bind_wait hr] at hw
      cases hw
      exact h.waits op e' hr
    | fault r => rw [Prog.bind_fault hr] at hw; cases hw

/-- After the phase is set. -/
theorem Interruptible.setPhase {y : Prog β} {ph : Phase} {e : Eng}
    (h : Interruptible P y (e.setLoc (e.locals.withPhase ph))) : Interruptible P ((setPhase ph).andThen y) e :=
  ⟨h.breaks, h.waits⟩

/-- After `ATT <- 1`. -/
theorem Interruptible.firstAttempt {y : Prog β} {e : Eng} (h : Interruptible P y (e.setAtt 1#4)) :
    Interruptible P (firstAttempt.andThen y) e :=
  ⟨h.breaks, h.waits⟩

/-- OW_READ waits at its first operation only (R109). -/
theorem Interruptible.owRead {m : Nat} {e : Eng} (hp : P e.locals.phase) :
    Interruptible P ((readBulk m).bind storeRx) e := by
  refine .bind_instant ⟨readBulk_first_breaks, fun op e' hw => ?_⟩ (Timed.readBulk m).toSteady fun _ _ _ _ h => by cases h
  have hk := Keeps.readBulk (P := P) m e e' (by rw [hw]; rfl)
  exact ⟨hk.params, hk.raised, hk.phase hp⟩

/-- SRCH_ENUM waits in its enumeration only (R128). -/
theorem Interruptible.enumBody {e : Eng} (hp : P e.locals.phase) : Interruptible P enumBody e :=
  (Open.enumerate.interruptible hp).bind_instant (Open.enumerate (P := P)).toSteady fun _ _ _ _ h => by cases h

end

/-- The phases a line primitive or a search command may wait in (R174); a write's is told by its operations. -/
def MayWaitIn (i : Instr) (ph : Phase) : Prop :=
  (i.opc.toNat / 16 = 1 → ph = .noPhase) ∧ (i.opc.toNat / 16 = 2 → ph = .search)

/-- The command runs one body under the error epilogue, a search command's or not, and any condition ends it where it waits
(R172, R173). -/
def Unrestarted (i : Instr) : Prop := ∃ (search : Bool) (body : Prog Completion), (search = true ↔ i.opc.toNat / 16 = 2) ∧
  ∀ s : State, exec i s = accept i (guarded search body) s ∧ Interruptible (MayWaitIn i) body (s.eng false)

section

variable {i : Instr} {body : Prog Completion}

theorem Unrestarted.line (hi : i.opc.toNat / 16 = 1) (he : ∀ s, exec i s = accept i (guarded false body) s)
    (hb : ∀ s : State, Interruptible (· = .noPhase) body (s.eng false)) : Unrestarted i :=
  ⟨false, body, by simp [hi], fun s => ⟨he s, (hb s).mono fun ph hp => ⟨fun _ => hp, fun h => by omega⟩⟩⟩

theorem Unrestarted.search (hi : i.opc.toNat / 16 = 2)
    (he : ∀ s, exec i s = accept i (guarded true ((setPhase .search).andThen body)) s)
    (hb : ∀ e : Eng, e.locals.phase = .search → Interruptible (· = .search) body e) : Unrestarted i :=
  ⟨true, _, by simp [hi], fun s => ⟨he s, (Interruptible.setPhase (hb _ rfl)).mono fun ph hp =>
    ⟨fun h => by omega, fun _ => hp⟩⟩⟩

theorem Unrestarted.write (hi : i.opc.toNat / 16 = 3)
    (he : ∀ s, exec i s = accept i (guarded false (firstAttempt.andThen body)) s)
    (hb : Open (fun _ => True) body) : Unrestarted i :=
  ⟨false, _, by simp [hi], fun s => ⟨he s, (Interruptible.firstAttempt (hb.interruptible trivial)).mono fun ph _ =>
    ⟨fun h => by omega, fun h => by omega⟩⟩⟩

end

/-- The line primitives, the search commands, PG_WRITE and RG_WRITE are of this kind. -/
theorem exec_unrestarted {i : Instr} (h1 : 0x10 ≤ i.opc.toNat) (h2 : i.opc.toNat ≤ 0x31) : Unrestarted i := by
  have line : ∀ {j : Instr} {x : Prog Completion}, j.opc.toNat / 16 = 1 → (∀ s, exec j s = accept j (guarded false x) s) →
      Open (· = .noPhase) x → Unrestarted j := fun hj he h => .line hj he fun s => h.interruptible rfl
  cases i with
  | owReset => exact line (by simp [Instr.opc]) (fun _ => rfl) (Open.busReset.andThen .done)
  | owSpeed f => exact line (by simp [Instr.opc]) (fun _ => rfl) ((Open.setSpeed f).andThen .done)
  | owWbit f => exact line (by simp [Instr.opc]) (fun _ => rfl) ((Open.writeBit f).andThen .done)
  | owRbit => exact line (by simp [Instr.opc]) (fun _ => rfl) (Open.readBit.bind fun _ => .ret _)
  | owWrite n c =>
    exact line (by simp [Instr.opc]) (fun _ => rfl) ((Open.loadBytes _ _).bind fun _ => (Open.writeWire _ _).andThen .done)
  | owRead n => exact .line (by simp [Instr.opc]) (fun _ => rfl) fun _ => .owRead rfl
  | owRom sel d => exact line (by simp [Instr.opc]) (fun _ => rfl) (.romBody sel d)
  | srchFirst =>
    exact .search (by simp [Instr.opc]) (fun _ => rfl) fun _ hp => (Open.searchInit.andThen .passBody).interruptible hp
  | srchNext => exact .search (by simp [Instr.opc]) (fun _ => rfl) fun _ hp => Open.passBody.interruptible hp
  | srchEnum => exact .search (by simp [Instr.opc]) (fun _ => rfl) fun _ hp => .enumBody hp
  | pgWrite p d =>
    exact .write (by simp [Instr.opc]) (fun _ => rfl) ((Open.setPhase trivial).andThen
      ((Open.writePage trivial trivial _ d).andThen .done))
  | rgWrite h l n =>
    exact .write (by simp [Instr.opc]) (fun _ => rfl) ((Open.setPhase trivial).andThen ((Open.loadBytes _ _).bind fun _ =>
      (Open.scratchpadCycle trivial trivial _ _ _).andThen .done))
  | claim | close | srchStart => simp [Instr.opc] at h1
  | memReadall | memWriteall | memWritediff | crc16Clr | crc16Byte | crc16Chk | crc16Gen => simp [Instr.opc] at h2

/-- What the answers that bring a condition about and those of the epilogue's hard reset leave (R19, R172). -/
theorem Eng.recovered_broken_regs (e : Eng) (b cl ok : Bool) (fops hops : List LinkOp) (fm hm rest : List Move)
    (rc : Memory) : ((e.broken cl fops fm (hm ++ rest) rc).recovered b ok hops hm rest).regs = { e.regs with
      issued := e.regs.issued ++ fops ++ hops, spdValid := e.regs.spdValid && !cl && !ok,
      lastDevice := if b = true then true else e.regs.lastDevice } := by
  cases b <;> simp [Eng.recovered, Eng.broken, Eng.adv, Eng.clearSpd, Eng.notFound]

theorem Eng.recovered_script (e : Eng) (b ok : Bool) (hops : List LinkOp) (hm rest : List Move) :
    (e.recovered b ok hops hm rest).script = rest := by
  cases b <;> rfl

theorem Eng.recovered_raised (e : Eng) (b ok : Bool) (hops : List LinkOp) (hm rest : List Move) :
    (e.recovered b ok hops hm rest).raised = e.raised := by
  cases b <;> rfl

/-- The result word of a command that a condition ends (R170, R172). -/
theorem resultWord_failed {c : Cond} (hc : c = .transportError ∨ c = .busBusy) (opc : Byte) (ph : Phase) :
    resultWord opc ⟨c.err, ph, 0⟩ =
      opc ++ 0x0000#16 ++ 0#1 ++ ph.code ++ (if c = Cond.busBusy then 3#4 else 2#4) := by
  have h16 : (opc ++ 0#8 ++ 0#8 : BitVec 24) = opc ++ 0x0000#16 := by
    refine BitVec.eq_of_getLsbD_eq fun i hi => ?_
    simp only [BitVec.getLsbD_append]
    by_cases h1 : i < 8
    · simp [h1, show i < 16 by omega]
    by_cases h2 : i < 16
    · simp [h1, h2, show i - 8 < 8 by omega]
    · simp [h1, h2, show ¬i - 8 < 8 by omega, show i - 8 - 8 = i - 16 by omega]
  unfold resultWord
  rcases hc with rfl | rfl
  · exact congrArg (fun x : BitVec 24 => x ++ 0#1 ++ ph.code ++ 2#4) h16
  · exact congrArg (fun x : BitVec 24 => x ++ 0#1 ++ ph.code ++ 3#4) h16

/-- A command found waiting holds the lock (R62). -/
theorem exec_busy_lock {i : Instr} {s t : State} {j : Job} {op : LinkOp} {l : Locals} {entry : Regs} {got : List Move}
    (h : exec i s = .next t) (hs : t.seq = .busy j op l entry got) : t.lock = true := by
  rcases commandCompletesOrHoldsTheLock i s t h with ⟨-, hi, -⟩ | ⟨hl, -⟩
  · rw [hs] at hi
    cases hi
  · exact hl

/-- `s` with the command `i` waiting at `op`, no move left to it (R62). -/
def State.waiting (s : State) (i : Instr) (op : LinkOp) (e : Eng) : State :=
  { s.clearDone.suspend (.command i) op e with inputs := [] }

/-- Where a command waits: its body is at the operation. -/
theorem exec_waiting {i : Instr} {s t : State} {ms : List Move} {op : LinkOp} {l : Locals} {entry : Regs}
    {got : List Move} {body : Prog Completion} (hms : OnlyReplies ms) (h : exec i { s with inputs := ms } = .next t)
    (hs : t.seq = .busy (.command i) op l entry got)
    (hb : exec i { s with inputs := ms } = accept i body { s with inputs := ms }) :
    usageError i s = none ∧ ∃ e, body (State.eng { s with inputs := ms } false) = .wait op e ∧ e.script = [] ∧
      l = e.locals ∧ t = s.waiting i op e := by
  have hl := exec_busy_lock h hs
  have hin := (exec_waits hms h hl).1
  rw [hb] at h
  obtain ⟨hu, op', e, hw, rfl⟩ := accept_waits h hl
  cases hs
  exact ⟨hu, e, hw, hin, rfl, by unfold State.waiting; rw [← hin]; rfl⟩

/-- Settles O28: where it waits the condition is raised (`Interruptible`), and the error completion ends the command
(`guarded_breaks`). -/
theorem failureEndsUnrestartedCommand : Obligations.FailureEndsUnrestartedCommand := by
  unfold Obligations.FailureEndsUnrestartedCommand
  intro i s t ms fm hm rest op l entry got c fops hops cleared ok h1 h2 hms h hs hB hh
  obtain ⟨search, body, hsearch, hrun⟩ := exec_unrestarted h1 h2
  obtain ⟨hexec, hbreaks, hwaits⟩ := hrun { s with inputs := ms }
  obtain ⟨hu, e, hw, hscript, rfl, rfl⟩ := exec_waiting hms h hs hexec
  have hop : op ≠ .hardReset := by
    rintro rfl
    exact hB.not_hardReset
  obtain ⟨hparams, hraised, hphase⟩ := hwaits op e (guarded_waits hw hop)
  refine ⟨?_, hphase.1, hphase.2, fun h3 => ?_⟩
  · obtain ⟨rc, hrc⟩ := guarded_breaks (rest := rest) hbreaks hw hscript (by rw [hparams]; exact hB)
      (by rw [hparams]; exact hh)
    rw [(hrun _).1, List.append_assoc, List.append_assoc]
    refine (accept_ok (s := { s with inputs := ms ++ (fm ++ (hm ++ rest)) }) hu hrc ?_ (resultWord_failed hB.cond _ _)
      rfl).trans ?_
    · rw [Eng.recovered_raised]
      exact hraised
    · rw [Eng.recovered_broken_regs, Eng.recovered_script, ← State.clearDone_completed]
      simp only [hsearch]
      rfl
  · have h0 : i.opc = 0x30#8 ∨ i.opc = 0x31#8 := by
      have h4 : i.opc.toNat = 0x30 ∨ i.opc.toNat = 0x31 := by omega
      exact h4.imp BitVec.eq_of_toNat_eq BitVec.eq_of_toNat_eq
    exact exec_cyclePhase (s := { s with inputs := ms }) (h0.imp_right .inl) h hs hop

end Sys2Proof.Machine

/-! ## A background pass that ends early -/

namespace Sys2Proof.Machine

/-- What a law says of a run that waits. -/
theorem Runs.wait {α : Type} {L : Law} {x : Prog α} {e e' : Eng} {op : LinkOp} {Q : α → Eng → Prop} (h : Runs L x e Q)
    (hw : x e = .wait op e') : L.W e e' := by
  unfold Runs at h
  rw [hw] at h
  exact h

/-- Where the enumeration waits, the pass does. -/
theorem backgroundBody_wait {e e' : Eng} {op : LinkOp} (h : enumerate e = .wait op e') :
    backgroundBody e = .wait op e' := by
  unfold backgroundBody
  rw [h]

/-- A condition that ends the enumeration comes to the end of the pass (R96). -/
theorem backgroundBody_raise {e e' : Eng} {c : Cond} (h : enumerate e = .raise c e') :
    backgroundBody e = srchErrEnd e' := by
  unfold backgroundBody
  rw [h]
  rfl

/-- The end of a pass waits in the bounded hard reset only, all its answers consumed (R28, R96). -/
theorem srchErrEnd_waits {e e' : Eng} {op : LinkOp} (h : srchErrEnd e = .wait op e') :
    op = .hardReset ∧ (OnlyReplies e.script → e'.script = [] ∧ e'.got = e.got ++ e.script) := by
  have hL := Law.replies_background
  have hw : Within Law.replies ((epilogue true).andThen (raiseEvent evSrchErr)) :=
    .andThen hL.toClosed (.epilogueSearch hL.toResets hL.lastDevice) fun e => ⟨hL.srchErr e, trivial⟩
  refine ⟨?_, fun hms => ((hw { e with timed := false }).wait h).2 hms⟩
  change ((epilogue true).andThen (raiseEvent evSrchErr)) { e with timed := false } = _ at h
  cases hr : epilogue true { e with timed := false } with
  | ok u e1 =>
    rw [Prog.andThen_ok hr] at h
    cases h
  | raise c e1 =>
    rw [Prog.andThen_raise hr] at h
    cases h
  | wait op1 e1 =>
    unfold Prog.andThen at h
    rw [Prog.bind_wait hr] at h
    cases h
    exact epilogue_waits hr
  | fault f =>
    unfold Prog.andThen at h
    rw [Prog.bind_fault hr] at h
    cases h

/-- A pass that waits outside its end waits in its enumeration. -/
theorem enumerate_waits {e e' : Eng} {op : LinkOp} (h : backgroundBody e = .wait op e') (hop : op ≠ .hardReset) :
    enumerate e = .wait op e' := by
  cases hr : enumerate e with
  | ok r e1 =>
    unfold backgroundBody at h
    rw [hr] at h
    cases h
  | raise c e1 =>
    rw [backgroundBody_raise hr] at h
    exact absurd (srchErrEnd_waits h).1 hop
  | wait op1 e1 =>
    rw [backgroundBody_wait hr] at h
    cases h
    rfl
  | fault f =>
    unfold backgroundBody at h
    rw [hr] at h
    cases h

/-- Where the enumeration of a pass waits it has consumed the answers and kept them, and nothing is delivered (R28, R96). -/
theorem enumerate_waiting {s : State} {e : Eng} {op : LinkOp} {ms : List Move} (hms : OnlyReplies ms)
    (h : enumerate (State.eng { s with inputs := ms } true) = .wait op e) :
    e.script = [] ∧ e.got = ms ∧ e.timed = true ∧ e.params = s.params ∧ e.raised = 0 ∧ e.regs.mem = s.mem ∧
      e.regs.detCount = s.detCount ∧ e.regs.detTrunc = s.detTrunc := by
  obtain ⟨-, hrep⟩ := (Runs.enumerate Law.replies_delivers.toSearch _).wait h
  obtain ⟨hs, hg⟩ := hrep hms
  have hview := (Runs.enumerate (Law.view_search (f := fun r => (r.mem, r.detCount, r.detTrunc)) (g := id)
    fun _ _ _ _ _ _ _ => rfl) _).wait h
  obtain ⟨hp, hr, hf⟩ := hview
  simp only [Prod.mk.injEq] at hf
  have hk := (Open.enumerate (P := fun _ => True)).keeps _ e (by rw [h]; rfl)
  exact ⟨hs, hg, hk.timed, hp, hr, hf⟩

/-- `s` after a pass that a condition ended with the registers `r`, its hard reset, answered `ok` or not, the operations `hops`
(R96). -/
def State.srchErred (s : State) (r : Regs) (ok : Bool) (hops : List LinkOp) (rest : List Move) : State :=
  { s with
    toRegs := { r with issued := r.issued ++ hops, spdValid := r.spdValid && !ok, lastDevice := true }
    inputs := rest, event := s.event ||| 4#32, lock := false, seq := .idle }

/-- A pass whose enumeration raises a condition, however its hard reset ends (R96). -/
theorem runBackground_raise {s : State} {e : Eng} {c : Cond} {ok : Bool} {hm rest : List Move} {hops : List LinkOp}
    (h : enumerate (s.eng true) = .raise c e) (hr : e.raised = 0) (hh : HardResetEnds e.params ok hm hops)
    (hs : e.script = hm ++ rest) : runBackground s = .next (s.srchErred e.regs ok hops rest) := by
  have hend : srchErrEnd e = .ok () { (Eng.recovered { e with timed := false } true ok hops hm rest) with
      raised := raiseFlags e.raised evSrchErr } :=
    (Prog.andThen_ok (epilogue_ends (e := { e with timed := false }) hh hs)).trans rfl
  unfold runBackground
  rw [backgroundBody_raise h, hend]
  simp [State.srchErred, State.absorb, Eng.recovered, Eng.notFound, Eng.adv, Eng.clearSpd, hr, raiseFlags, evSrchErr]

theorem HardResetEnds.onlyReplies {p : Params} {ok : Bool} {hm : List Move} {hops : List LinkOp}
    (h : HardResetEnds p ok hm hops) : OnlyReplies hm := by
  have ht : ∀ n, OnlyReplies (Machine.timeouts n) := fun n m hm => ⟨.timeout, List.eq_of_mem_replicate hm⟩
  cases h with
  | ok n a hn ha =>
    intro m hm
    rcases List.mem_append.1 hm with hm | hm
    · exact ht n m hm
    · obtain ⟨d, rfl⟩ := Move.isAck_cases (ha.2 m hm)
      exact ⟨_, rfl⟩
  | fail n hn =>
    intro m hm
    rcases List.mem_append.1 hm with hm | hm
    · exact ht n m hm
    · exact ⟨.fail, List.mem_singleton.1 hm⟩
  | timeouts => exact ht _

/-- A pass found waiting, and where its body waits. -/
theorem runBackground_waiting {s t : State} (h : runBackground s = .next t) (hs : t.lock = true ∨ t.seq ≠ .idle) :
    ∃ op e, backgroundBody (s.eng true) = .wait op e ∧ t = s.suspend .background op e := by
  have hidle : ∀ s' : State, ¬({ s' with lock := false, seq := .idle }.lock = true ∨
      { s' with lock := false, seq := .idle }.seq ≠ .idle) := by simp
  unfold runBackground at h
  split at h <;> cases h
  · exact absurd hs (hidle _)
  · exact absurd hs (hidle _)
  · exact ⟨_, _, by assumption, rfl⟩

section

variable {s : State} {ms : List Move} {op : LinkOp} {e : Eng} (hms : OnlyReplies ms)
  (he : enumerate (State.eng { s with inputs := ms } true) = .wait op e)

include hms he

/-- PassTimeout ends the enumeration where it waits, after its first link operation (R97). -/
theorem enumerate_passTimeout (hne : ms ≠ []) (extra : List Move) :
    ∃ rc, enumerate (State.eng { s with inputs := ms ++ [.passTimeout] ++ extra } true) =
      .raise .passTimeout { e.adv [] [.passTimeout] extra with received := rc } := by
  obtain ⟨hs, hg, ht, -⟩ := enumerate_waiting hms he
  obtain ⟨rc, hrc⟩ := (Open.enumerate (P := fun _ => True)).timeout extra he hs ht (by rw [hg]; exact hne)
  exact ⟨rc, by rw [← hrc, List.append_assoc]; rfl⟩

/-- After PassTimeout a step answers the hard reset of the pass's end (R28, R97). -/
theorem step_timedOut (hne : ms ≠ []) (hl : s.lock = false) (hq : s.seq = .idle) {hm rest : List Move} {t : State}
    {r : Reply} (hhm : OnlyReplies hm)
    (h : runBackground { s with inputs := ms ++ [.passTimeout] ++ hm } = .next t) (ht : t.lock = true) :
    t.inputs = [] ∧ step { t with inputs := .reply r :: rest } =
      offer (ms ++ [.passTimeout] ++ (hm ++ [.reply r])) rest runBackground s := by
  obtain ⟨rc, hrc⟩ := enumerate_passTimeout hms he hne hm
  obtain ⟨-, hg, -⟩ := enumerate_waiting hms he
  obtain ⟨op', e', hw, rfl⟩ := runBackground_waiting h (.inl ht)
  rw [backgroundBody_raise hrc] at hw
  obtain ⟨hscript, hgot⟩ := (srchErrEnd_waits hw).2 hhm
  refine ⟨hscript, ?_⟩
  rw [step_suspended _ _ _ _ _ _ (.inr ⟨r, rfl⟩), hgot, ← hl, ← hq]
  simp only [Eng.adv_got, hg, List.append_assoc]
  rfl

/-- PassTimeout and the answers to the hard reset, one a step, end the pass (R97). -/
theorem run_timedOut (hne : ms ≠ []) (hl : s.lock = false) (hq : s.seq = .idle) {ok : Bool} {hm rest : List Move}
    {hops : List LinkOp} (hh : HardResetEnds s.params ok hm hops) :
    core.run (hm.length + 1)
        { ({ s with inputs := ms } : State).suspend .background op e with inputs := .passTimeout :: hm ++ rest } =
      .next (s.srchErred e.regs ok hops rest) := by
  obtain ⟨-, hg, -, hp, hr, -⟩ := enumerate_waiting hms he
  have hmore : ∀ (hm : List Move) (m : Move),
      (∀ t, runBackground { s with inputs := ms ++ [.passTimeout] ++ hm } = .next t → t.lock = false) →
      runBackground { s with inputs := ms ++ [.passTimeout] ++ (hm ++ [m]) } =
        stillToCome [m] (runBackground { s with inputs := ms ++ [.passTimeout] ++ hm }) := by
    intro hm m h
    rw [← List.append_assoc]
    exact runBackground_more [m] h
  obtain ⟨rc, hrc⟩ := enumerate_passTimeout hms he hne hm
  have hend := runBackground_raise (s := { s with inputs := ms ++ [.passTimeout] ++ hm }) (rest := []) hrc hr
    (by exact hp ▸ hh) (List.append_nil _).symm
  refine (run_answers (s := s) (f := fun s => runBackground { s with inputs := ms ++ [.passTimeout] ++ s.inputs })
    (s1 := fun hm => { ({ s with inputs := ms } : State).suspend .background op e with inputs := .passTimeout :: hm })
    (fun rest => ?_) hmore (fun hm rest t r hhm h ht => step_timedOut hms he hne hl hq hhm h ht) hm
    hh.onlyReplies rest hend rfl).trans ?_
  · rw [step_suspended _ _ _ _ _ _ (.inl rfl), hg]
    change _ = offer (ms ++ [.passTimeout] ++ []) rest runBackground s
    rw [List.append_nil, ← hl, ← hq]
    rfl
  · simp only [State.srchErred, Eng.adv_regs, List.append_nil]

end

/-- Settles O38: PassTimeout and the answers after it by `run_timedOut`; a condition is raised where the enumeration waits, and
the end of the pass follows (`runBackground_raise`). -/
theorem passTimeoutEndsThePass : Obligations.PassTimeoutEndsThePass := by
  unfold Obligations.PassTimeoutEndsThePass
  intro s t ms hm rest hops ok hwf hms h hh ended
  refine ⟨fun op e hne he => ?_, fun op l entry got fm fops c cleared hs hB => ?_⟩
  · obtain ⟨-, -, -, -, -, hmem, hcount, htrunc⟩ := enumerate_waiting hms he
    have ht : runBackground { s with inputs := ms } = .next (({ s with inputs := ms } : State).suspend .background op e) := by
      unfold runBackground
      rw [backgroundBody_wait he]
    cases ht.symm.trans h
    refine ⟨(run_timedOut (s := { s with lock := false, seq := .idle }) hms he hne rfl rfl hh).trans ?_, rfl, hmem,
      hcount, htrunc⟩
    simp [State.srchErred, ended]
  · obtain ⟨op', e, hw, rfl⟩ := runBackground_waiting h (.inr (by rw [hs]; simp))
    cases hs
    have he := enumerate_waits hw (by rintro rfl; exact hB.not_hardReset)
    obtain ⟨hscript, -, -, hp, hr, hmem, hcount, htrunc⟩ := enumerate_waiting hms he
    refine ⟨?_, hmem, hcount, htrunc⟩
    obtain ⟨rc, hrc⟩ := (Open.enumerate (P := fun _ => True)).breaks s.issued.length _ (Nat.le_refl _) (hm ++ rest) he
      hscript (by rw [hp]; exact hB)
    rw [List.append_assoc, List.append_assoc]
    refine (runBackground_raise (s := { s with inputs := ms ++ (fm ++ (hm ++ rest)) }) hrc hr (by exact hp ▸ hh)
      rfl).trans ?_
    simp [State.srchErred, ended, Eng.broken, Eng.clearSpd, Eng.adv]

end Sys2Proof.Machine

/-! ## Whole-memory commands that restart -/

namespace Sys2Proof.Machine

/-- The sequencer goes on from the registers `g`, with the moves `rest` to come. -/
structure Eng.GoesOn (r : Eng) (p : Params) (g : Regs) (rest : List Move) : Prop where
  regs : r.regs = g
  params : r.params = p
  script : r.script = rest
  raised : r.raised = 0#32

section

variable {p : Params} {g : Regs} {r : Eng} {good ms rest : List Move}

theorem Eng.GoesOn.setAtt (h : r.GoesOn p g rest) (a : BitVec 4) :
    (r.setAtt a).GoesOn p { g with att := a } rest :=
  ⟨by rw [Eng.setAtt_regs, h.regs], h.params, h.script, h.raised⟩

/-- After page cycles whose read-backs match (R152, R153). -/
theorem Eng.GoesOn.wrote (h : r.GoesOn p g ms) (f : Bool) (js : List PageJob) (l : Locals) (ops : List LinkOp) :
    ((r.wrote f js l).adv ops good rest).GoesOn p { g with
      issued := g.issued ++ ops, att := g.att + BitVec.ofNat 4 (missesOf js),
      spdValid := if js = [] then g.spdValid else true, spdOd := if js = [] then g.spdOd else f } rest where
  regs := by rw [Eng.adv_regs, Eng.wrote_regs, h.regs]
  params := by rw [Eng.adv_params, Eng.wrote_params, h.params]
  script := rfl
  raised := by rw [Eng.adv_raised, Eng.wrote_raised, h.raised]

/-- After a page cycle that uses up the attempts (R144). -/
theorem Eng.GoesOn.exhausted (h : r.GoesOn p g ms) (f : Bool) (l : Locals) (ops : List LinkOp) :
    ((((r.setAtt (BitVec.ofNat 4 p.retryAttempts)).setSpd f).setLoc l).adv ops good rest).GoesOn p { g with
      issued := g.issued ++ ops, att := BitVec.ofNat 4 p.retryAttempts, spdValid := true, spdOd := f } rest where
  regs := by
    obtain ⟨rfl, -, -, -⟩ := h
    rfl
  params := h.params
  script := rfl
  raised := h.raised

/-- After the 256 pages are read (R151). -/
theorem Eng.GoesOn.readAll (h : r.GoesOn p g ms) (f : Bool) (m rc : Memory) (l : Locals) (ops : List LinkOp) :
    ((((r.setSpd f).setBuffers m rc).setLoc l).adv ops good rest).fullImage.GoesOn p { g with
      issued := g.issued ++ ops, spdValid := true, spdOd := f, npagesA := 256#9, mem := m } rest where
  regs := by
    obtain ⟨rfl, -, -, -⟩ := h
    rfl
  params := h.params
  script := rfl
  raised := h.raised

/-- After the mix of U6 (R151). -/
theorem Eng.GoesOn.mixed (h : r.GoesOn p g rest) (old : Memory) :
    ∃ m, (r.mixed old).GoesOn p { g with mem := m, draws := g.draws + 1 } rest := by
  obtain ⟨rfl, hp, hs, hr⟩ := h
  exact ⟨_, rfl, hp, hs, hr⟩

end

/-- A whole-memory body was interrupted: waiting with the sequencer at `e`, it came to the condition `c` by the answers `fm`, and
the epilogue's hard reset took the answers `hm`; they leave the operations `ops` issued and `SPD_VALID=spd`. What the retry
wrapper does with any moves that follow (R150, R173). -/
structure Interrupted (body : Prog Completion) (s : State) (ms fm hm : List Move) (e : Eng) (c : Cond) (ops : List LinkOp)
    (spd : Bool) : Prop where
  att_le : e.regs.att.toNat ≤ s.params.retryAttempts
  resumes : ∀ rest, ∃ k r, r.GoesOn s.params { e.regs with issued := ops, spdValid := spd } rest ∧
    retried body (State.eng { s with inputs := ms ++ (fm ++ (hm ++ rest)) } false) =
      if e.regs.att.toNat < s.params.retryAttempts then restarting body k (r.setAtt (e.regs.att + 1#4))
      else .ok ⟨c.err, e.locals.phase, 0⟩ r

section

variable {body : Prog Completion} {s : State} {ms fm hm rest : List Move} {e : Eng} {c : Cond} {op : LinkOp}
  {fops hops : List LinkOp} {cleared ok : Bool}

/-- A body that waits under the retry wrapper is interrupted by any condition its position allows, in a phase of its own. -/
theorem retried_interrupted {P : Phase → Prop} (hO : Open P body) {ph : Phase} (hph : P ph)
    (hfirst : ∀ e : Eng, body e = body (e.setLoc (e.locals.withPhase ph))) (hwf : s.params.wf)
    (hw : retried body (State.eng { s with inputs := ms } false) = .wait op e) (hs : e.script = [])
    (hB : Breaks s.params (e.regs.issued.drop s.issued.length).getLast? op c cleared fm fops)
    (hh : HardResetEnds s.params ok hm hops) : P e.locals.phase ∧
      Interrupted body s ms fm hm e c (e.regs.issued ++ fops ++ hops) (e.regs.spdValid && !cleared && !ok) := by
  obtain ⟨hp, hr, hphase, hatt, k, hk⟩ := retried_breaks hO hph hfirst (m := s.issued.length) (Nat.le_refl _) hwf hw hs hB
  refine ⟨hphase, hatt, fun rest => ?_⟩
  obtain ⟨rc, hrc⟩ := hk (hm ++ rest)
  refine ⟨k, (e.broken cleared fops fm (hm ++ rest) rc).recovered false ok hops hm rest, ⟨?_, hp, ?_, hr⟩, hrc.trans ?_⟩
  · exact Eng.recovered_broken_regs e false cleared ok fops hops fm hm rest rc
  · exact Eng.recovered_script _ _ _ _ _ _
  · have hpb : (e.broken cleared fops fm (hm ++ rest) rc).params = s.params := hp
    refine (onFailure_ends (e := e.broken cleared fops fm (hm ++ rest) rc) (by rw [hpb]; exact hh) rfl).trans ?_
    rw [hpb]
    rfl

variable {ops : List LinkOp} {spd : Bool} (h : Interrupted body s ms fm hm e c ops spd)

include h

/-- With attempts left the body runs again from `r`, one attempt on (R173). -/
theorem Interrupted.again (hlt : e.regs.att.toNat < s.params.retryAttempts) (moves : List Move) :
    ∃ r : Eng, r.GoesOn s.params { e.regs with issued := ops, spdValid := spd, att := e.regs.att + 1#4 } moves ∧
      ∀ c' e', (∀ k, restarting body k r = .ok c' e') →
        retried body (State.eng { s with inputs := ms ++ (fm ++ (hm ++ moves)) } false) = .ok c' e' := by
  obtain ⟨k, r, hr, hk⟩ := h.resumes moves
  rw [if_pos hlt] at hk
  exact ⟨_, hr.setAtt _, fun c' e' hb => hk.trans (hb k)⟩

/-- With none left the condition completes the command (R173). -/
theorem Interrupted.last (hatt : e.regs.att.toNat = s.params.retryAttempts) :
    ∃ e', e'.GoesOn s.params { e.regs with issued := ops, spdValid := spd } rest ∧
      retried body (State.eng { s with inputs := ms ++ (fm ++ (hm ++ rest)) } false) =
        .ok ⟨c.err, e.locals.phase, 0⟩ e' := by
  obtain ⟨k, r, hr, hk⟩ := h.resumes rest
  rw [if_neg (by omega)] at hk
  exact ⟨r, hr, hk⟩

end

/-! ### The writing commands -/

/-- What a writing command leaves alone while it runs: what it writes and where to. -/
def Regs.payload (r : Regs) : Memory × BitVec 9 × RomId := (r.mem, r.npagesA, r.targetId)

/-- MEM_WRITEALL and MEM_WRITEDIFF: a body that writes pages, under the retry wrapper (R150, R152, R153). -/
structure RetriedWrite (i : Instr) (body : Prog Completion) : Prop where
  runs : ∀ s, exec i s = accept i (retried body) s
  opens : Open (fun _ => True) body
  first : ∀ e : Eng, body e = body (e.setLoc (e.locals.withPhase .write))
  within : ∀ L : Law, L.Writes → Within L body
  opcode : i.opc = 0x39#8 ∨ i.opc = 0x3A#8

theorem RetriedWrite.writeall (f : Bool) : RetriedWrite (.memWriteall f) (writeallBody f) where
  runs _ := rfl
  opens := .writeallBody trivial trivial f
  first _ := rfl
  within _ hL := .writeallBody hL f
  opcode := .inl rfl

theorem RetriedWrite.writediff (f : Bool) : RetriedWrite (.memWritediff f) (writediffBody f) where
  runs _ := rfl
  opens := .writediffBody trivial trivial f
  first _ := rfl
  within _ hL := .writediffBody hL f
  opcode := .inr rfl

/-- A command that waited at `op` with the sequencer at `e`, and that completes on the moves `ms` (R170). -/
theorem exec_completes {i : Instr} {cmd : Prog Completion} {s : State} {op : LinkOp} {e e' : Eng} {c : Completion}
    {ms rest : List Move} {g : Regs} {w : Word} (hexec : ∀ s, exec i s = accept i cmd s) (hu : usageError i s = none)
    (h : cmd (State.eng { s with inputs := ms } false) = .ok c e') (he : e'.GoesOn s.params g rest)
    (hw : resultWord i.opc c = w) :
    exec i { s with inputs := ms } = .next ({ s.waiting i op e with toRegs := g, inputs := rest }.completed w) := by
  obtain ⟨rfl, -, rfl, hr⟩ := he
  rw [hexec, accept_ok (s := { s with inputs := ms }) hu h hr hw rfl, ← State.clearDone_completed]
  rfl

section

variable {i : Instr} {body : Prog Completion} {s t : State} {ms fm hm rest : List Move} {op : LinkOp} {l : Locals}
  {entry : Regs} {got : List Move} {c : Cond} {fops hops : List LinkOp} {cleared ok : Bool}

/-- A writing command that waits and comes to a condition: its body is interrupted, with what it writes untouched, in the phase
its operations tell (R174). -/
theorem RetriedWrite.interrupted (hi : RetriedWrite i body) (hwf : s.params.wf) (hms : OnlyReplies ms)
    (h : exec i { s with inputs := ms } = .next t) (hs : t.seq = .busy (.command i) op l entry got)
    (hB : Breaks s.params (t.issued.drop s.issued.length).getLast? op c cleared fm fops)
    (hh : HardResetEnds s.params ok hm hops) :
    usageError i s = none ∧ l.phase = cyclePhase (t.issued.drop s.issued.length ++ [op]) ∧ ∃ e,
      t = s.waiting i op e ∧ l = e.locals ∧
      e.regs.payload = s.payload ∧
      Interrupted body s ms fm hm e c (t.issued ++ fops ++ hops) (t.spdValid && !cleared && !ok) := by
  have hphase := exec_cyclePhase (s := { s with inputs := ms }) (.inr (.inr ⟨hi.opcode, hwf.2.1⟩)) h hs
    (by rintro rfl; exact hB.not_hardReset)
  obtain ⟨hu, e, hw, hscript, rfl, rfl⟩ := exec_waiting hms h hs (hi.runs _)
  have hL : (Law.view Regs.payload id).Writes := Law.view_writes fun _ _ _ _ _ => rfl
  obtain ⟨-, -, hkept⟩ := Runs.wait (Within.retried hL.toAttempts (hi.within _ hL) _) hw
  exact ⟨hu, hphase, e, rfl, rfl, hkept,
    (retried_interrupted hi.opens trivial hi.first hwf hw hscript hB hh).2⟩

variable {e : Eng} {ops : List LinkOp} {spd : Bool} (hi : RetriedWrite i body) (hu : usageError i s = none)
  (hI : Interrupted body s ms fm hm e c ops spd)

include hi hu hI

/-- Run again, the body writes its pages (R152, R153). -/
theorem RetriedWrite.written {f : Bool} {js : List PageJob} {good : List Move} {done : List LinkOp}
    (hlt : e.regs.att.toNat < s.params.retryAttempts)
    (hbody : ∀ r : Eng, r.GoesOn s.params { e.regs with issued := ops, spdValid := spd, att := e.regs.att + 1#4 }
      (good ++ rest) → ∃ l, body r = .ok ⟨.ok, .noPhase, 0⟩ ((r.wrote f js l).adv done good rest)) :
    exec i { s with inputs := ms ++ fm ++ hm ++ good ++ rest } = .next ({ s.waiting i op e with
      issued := ops ++ done, inputs := rest, att := e.regs.att + BitVec.ofNat 4 (1 + missesOf js),
      spdValid := if js = [] then spd else true, spdOd := if js = [] then e.regs.spdOd else f
      }.completed (i.opc ++ 0x000000#24)) := by
  obtain ⟨r, hr, hrun⟩ := hI.again hlt (good ++ rest)
  obtain ⟨l, hl⟩ := hbody r hr
  have hx := exec_completes hi.runs (op := op) (e := e) hu (hrun _ _ fun k => restarting_ok hl)
    (hr.wrote f js l done) (resultWord_append (w := 0x000000#24) (by decide))
  rw [BitVec.add_assoc, ← BitVec.ofNat_add] at hx
  simp only [List.append_assoc]
  exact hx

/-- A read-back that differs at every attempt left ends it (R144, R172). -/
theorem RetriedWrite.mismatched {f : Bool} {moves : List Move} {done : List LinkOp}
    (hlt : e.regs.att.toNat < s.params.retryAttempts)
    (hbody : ∀ r : Eng, r.GoesOn s.params { e.regs with issued := ops, spdValid := spd, att := e.regs.att + 1#4 }
      (moves ++ rest) → ∃ l, body r = .raise .verifyFailed
        ((((r.setAtt (BitVec.ofNat 4 s.params.retryAttempts)).setSpd f).setLoc l).adv done moves rest)) :
    exec i { s with inputs := ms ++ fm ++ hm ++ moves ++ rest } = .next ({ s.waiting i op e with
      issued := ops ++ done, inputs := rest, att := BitVec.ofNat 4 s.params.retryAttempts, spdValid := true, spdOd := f
      }.completed (i.opc ++ 0x000054#24)) := by
  obtain ⟨r, hr, hrun⟩ := hI.again hlt (moves ++ rest)
  obtain ⟨l, hl⟩ := hbody r hr
  have hx := exec_completes hi.runs (op := op) (e := e) hu (hrun _ _ fun k => restarting_verifyFailed hl)
    (hr.exhausted f l done) (resultWord_append (w := 0x000054#24) (by decide))
  simp only [List.append_assoc]
  exact hx

/-- With no attempt left the condition completes the command (R172, R173). -/
theorem RetriedWrite.exhausted (hc : c = .transportError ∨ c = .busBusy)
    (hatt : e.regs.att.toNat = s.params.retryAttempts) :
    exec i { s with inputs := ms ++ fm ++ hm ++ [] ++ rest } = .next ({ s.waiting i op e with
      issued := ops, inputs := rest, spdValid := spd }.completed
        (i.opc ++ 0x0000#16 ++ 0#1 ++ e.locals.phase.code ++ (if c = Cond.busBusy then 3#4 else 2#4))) := by
  obtain ⟨e', he', hrun⟩ := hI.last (rest := rest) hatt
  have hx := exec_completes hi.runs (op := op) (e := e) hu hrun he' (resultWord_failed hc _ _)
  simp only [List.append_nil, List.append_assoc]
  exact hx

end

/-- What the body finds that is run again: what it writes and where to, and one attempt more. -/
theorem Eng.GoesOn.again {s : State} {e r : Eng} {ops : List LinkOp} {spd : Bool} {moves : List Move}
    (hr : r.GoesOn s.params { e.regs with issued := ops, spdValid := spd, att := e.regs.att + 1#4 } moves)
    (hwf : s.params.wf) (hlt : e.regs.att.toNat < s.params.retryAttempts) (hpay : e.regs.payload = s.payload) :
    r.params = s.params ∧ r.regs.mem = s.mem ∧ r.regs.npagesA = s.npagesA ∧ r.regs.targetId = s.targetId ∧
      r.regs.att.toNat = e.regs.att.toNat + 1 ∧ r.script = moves := by
  obtain ⟨hregs, hp, hs, -⟩ := hr
  simp only [Regs.payload, Prod.mk.injEq] at hpay
  obtain ⟨hm, hn, hid⟩ := hpay
  rw [hregs]
  exact ⟨hp, hm, hn, hid, att_add hwf.1.2 hlt, hs⟩

section

variable {s : State} {e r : Eng} {f : Bool} {ops : List LinkOp} {spd : Bool} {js : List PageJob} {k : Nat}
  {xs : List Mismatch} {good bad rest : List Move} (hwf : s.params.wf) (hlt : e.regs.att.toNat < s.params.retryAttempts)
  (hpay : e.regs.payload = s.payload) (hgood : PageReplies s.params js good)

include hwf hlt hpay hgood

section

variable (hj : ∀ j ∈ js, j.data.length = 32 ∧ HoldsBytes s.mem (0x2000 + 32 * j.page) j.data)

include hj

/-- MEM_WRITEALL's body run again, its read-backs matching (R152). -/
theorem writeall_again (hjs : js.map PageJob.page = List.range s.npagesA.toNat)
    (hatt : e.regs.att.toNat + 1 + missesOf js ≤ s.params.retryAttempts)
    (hr : r.GoesOn s.params { e.regs with issued := ops, spdValid := spd, att := e.regs.att + 1#4 } (good ++ rest)) :
    ∃ l, writeallBody f r = .ok ⟨.ok, .noPhase, 0⟩
      ((r.wrote f js l).adv (pagesOps s.params s.targetId f js) good rest) := by
  obtain ⟨hp, hm, hn, hid, ha, hs⟩ := hr.again hwf hlt hpay
  rw [← hp, ← hid]
  exact writeallBody_ack (by rwa [hp]) (by omega) (by rw [hp]; omega) (by rwa [hn]) (by rwa [hm]) (by rwa [hp]) hs

/-- The same, its page `k` differing at every attempt left (R144, R152). -/
theorem writeall_again_fails {data : List Byte} (hjs : js.map PageJob.page = List.range k) (hk : k < s.npagesA.toNat)
    (hlen : data.length = 32) (hdata : HoldsBytes s.mem (0x2000 + 32 * k) data) (hx : xs ≠ [])
    (hbad : MismatchReplies s.params data xs bad)
    (hatt : e.regs.att.toNat + missesOf js + xs.length = s.params.retryAttempts)
    (hr : r.GoesOn s.params { e.regs with issued := ops, spdValid := spd, att := e.regs.att + 1#4 }
      (good ++ bad ++ rest)) : ∃ l, writeallBody f r = .raise .verifyFailed
      ((((r.setAtt (BitVec.ofNat 4 s.params.retryAttempts)).setSpd f).setLoc l).adv
        (pagesOps s.params s.targetId f js ++ mismatchOps s.params s.targetId (pageOff k) data f xs)
        (good ++ bad) rest) := by
  obtain ⟨hp, hm, hn, hid, ha, hs⟩ := hr.again hwf hlt hpay
  rw [← hp, ← hid]
  exact writeallBody_fails (by rwa [hp]) (by omega) hx (by rw [hp]; omega) hjs (by rwa [hn]) (by rwa [hm]) hlen
    (by rwa [hm]) (by rwa [hp]) (by rwa [hp]) hs

end

variable {new old : Nat → List Byte}
  (himg : ∀ k < s.npagesA.toNat, (new k).length = 32 ∧ (old k).length = 32 ∧
    HoldsBytes s.mem (0x2000 + 32 * k) (new k) ∧ HoldsBytes s.mem (0x4000 + 32 * k) (old k))
  (hj : ∀ j ∈ js, j.data = new j.page)

include himg hj

/-- MEM_WRITEDIFF's body run again, its read-backs matching (R153). -/
theorem writediff_again (hjs : js.map PageJob.page = (List.range s.npagesA.toNat).filter (fun k => new k ≠ old k))
    (hatt : e.regs.att.toNat + 1 + missesOf js ≤ s.params.retryAttempts)
    (hr : r.GoesOn s.params { e.regs with issued := ops, spdValid := spd, att := e.regs.att + 1#4 } (good ++ rest)) :
    ∃ l, writediffBody f r = .ok ⟨.ok, .noPhase, 0⟩
      ((r.wrote f js l).adv (pagesOps s.params s.targetId f js) good rest) := by
  obtain ⟨hp, hm, hn, hid, ha, hs⟩ := hr.again hwf hlt hpay
  rw [← hp, ← hid]
  exact writediffBody_ack (by rwa [hp]) (by omega) (by rw [hp]; omega) (by rwa [hn, hm]) (by rwa [hn]) hj (by rwa [hp]) hs

/-- The same, its page `k` differing at every attempt left (R144, R153). -/
theorem writediff_again_fails (hjs : js.map PageJob.page = (List.range k).filter (fun k => new k ≠ old k))
    (hk : k < s.npagesA.toNat) (hne : new k ≠ old k) (hx : xs ≠ [])
    (hbad : MismatchReplies s.params (new k) xs bad)
    (hatt : e.regs.att.toNat + missesOf js + xs.length = s.params.retryAttempts)
    (hr : r.GoesOn s.params { e.regs with issued := ops, spdValid := spd, att := e.regs.att + 1#4 }
      (good ++ bad ++ rest)) : ∃ l, writediffBody f r = .raise .verifyFailed
      ((((r.setAtt (BitVec.ofNat 4 s.params.retryAttempts)).setSpd f).setLoc l).adv
        (pagesOps s.params s.targetId f js ++ mismatchOps s.params s.targetId (pageOff k) (new k) f xs)
        (good ++ bad) rest) := by
  obtain ⟨hp, hm, hn, hid, ha, hs⟩ := hr.again hwf hlt hpay
  rw [← hp, ← hid]
  exact writediffBody_fails (by rwa [hp]) (by omega) hx (by rw [hp]; omega) (by rwa [hn, hm]) hjs (by rwa [hn]) hne hj
    (by rwa [hp]) (by rwa [hp]) hs

end

/-! ### MEM_READALL -/

section

variable {f : Bool} {e e' : Eng} {c : Completion}

/-- MEM_READALL that completes OK leaves what its body does (R151). -/
theorem readallCommand_ok (h : retried (readallBody f) e = .ok c e') (hc : c.err = .ok) :
    readallCommand f e = .ok c e' := by
  unfold readallCommand
  rw [Prog.ask_bind, Prog.bind_ok h, if_pos hc]
  rfl

/-- One that ends in an error leaves the mix of U6 (R151). -/
theorem readallCommand_error (h : retried (readallBody f) e = .ok c e') (hc : c.err ≠ .ok) :
    readallCommand f e = .ok c (e'.mixed e.regs.mem) := by
  unfold readallCommand
  rw [Prog.ask_bind, Prog.bind_ok h, if_neg hc]
  rfl

/-- It waits where its body does. -/
theorem readallCommand_waits {op : LinkOp} (h : readallCommand f e = .wait op e') :
    retried (readallBody f) e = .wait op e' := by
  unfold readallCommand at h
  rw [Prog.ask_bind] at h
  cases hr : retried (readallBody f) e with
  | ok c1 e1 =>
    rw [Prog.bind_ok hr] at h
    split at h <;> cases h
  | raise c1 e1 => rw [Prog.bind_raise hr] at h; cases h
  | wait op1 e1 =>
    rw [Prog.bind_wait hr] at h
    exact h
  | fault r => rw [Prog.bind_fault hr] at h; cases h

end

/-- MEM_READALL that waits and comes to a condition: its body is interrupted, reading, with nothing outside `IMG_A` touched
(R151, R174). -/
theorem readall_interrupted {f : Bool} {s t : State} {ms fm hm : List Move} {op : LinkOp} {l : Locals} {entry : Regs}
    {got : List Move} {c : Cond} {fops hops : List LinkOp} {cleared ok : Bool} (hwf : s.params.wf) (hms : OnlyReplies ms)
    (h : exec (.memReadall f) { s with inputs := ms } = .next t)
    (hs : t.seq = .busy (.command (.memReadall f)) op l entry got)
    (hB : Breaks s.params (t.issued.drop s.issued.length).getLast? op c cleared fm fops)
    (hh : HardResetEnds s.params ok hm hops) :
    usageError (.memReadall f) s = none ∧ l.phase = .read ∧ ∃ e, t = s.waiting (.memReadall f) op e ∧ l = e.locals ∧
      e.regs.targetId = s.targetId ∧ (∀ x, x < 0x2000 ∨ 0x4000 ≤ x → e.regs.mem.read? x = s.mem.read? x) ∧
      Interrupted (readallBody f) s ms fm hm e c (t.issued ++ fops ++ hops) (t.spdValid && !cleared && !ok) := by
  obtain ⟨hu, e, hw, hscript, rfl, rfl⟩ := exec_waiting hms h hs rfl
  have hw := readallCommand_waits hw
  have hL : (Law.image Regs.targetId id).ReadAll := Law.image_readAll fun _ _ _ _ _ _ _ => rfl
  obtain ⟨-, -, hid, himg⟩ := Runs.wait (Within.retried hL.toAttempts (Within.readallBody hL f) _) hw
  obtain ⟨-, hmem⟩ := himg fun _ hc => nomatch hc
  obtain ⟨hphase, hI⟩ := retried_interrupted (Open.readallBody (P := (· = .read)) rfl f) (ph := .read) rfl (fun _ => rfl)
    hwf hw hscript hB hh
  refine ⟨hu, hphase, e, rfl, rfl, hid, fun x hx => (hmem x).1 ?_, hI⟩
  unfold imgAddr
  omega

section

variable {f : Bool} {s : State} {ms fm hm rest : List Move} {op : LinkOp} {e : Eng} {c : Cond} {ops : List LinkOp}
  {spd : Bool} (hu : usageError (.memReadall f) s = none) (hI : Interrupted (readallBody f) s ms fm hm e c ops spd)

include hu hI

/-- Run again, MEM_READALL reads the 256 pages (R151). -/
theorem readall_again {img : List (List (List Byte))} {pre : List Move} (hwf : s.params.wf)
    (hlt : e.regs.att.toNat < s.params.retryAttempts) (hid : e.regs.targetId = s.targetId)
    (hmem : ∀ x, x < 0x2000 ∨ 0x4000 ≤ x → e.regs.mem.read? x = s.mem.read? x) (hlen : img.length = 256)
    (h32 : ∀ pg ∈ img, Arrive s.params 32 pg) (hpre : Acks 8 pre) :
    ∃ m, exec (.memReadall f) { s with inputs := ms ++ fm ++ hm ++ (pre ++ img.flatMap readReplies) ++ rest } =
        .next ({ s.waiting (.memReadall f) op e with
          issued := ops ++ (selectOps s.params s.targetId f ++ writeOps [s.params.cmdRm, 0#8, 0#8] ++
            img.flatMap (readOps s.params.rdChunk)), inputs := rest,
          att := e.regs.att + 1#4, spdValid := true, spdOd := f, npagesA := 256#9, mem := m }.completed 0x38000000#32) ∧
      (∀ k pg, img[k]? = some pg → HoldsBytes m (0x2000 + 32 * k) pg.flatten) ∧
      ∀ x, x < 0x2000 ∨ 0x4000 ≤ x → m.read? x = s.mem.read? x := by
  obtain ⟨r, hr, hrun⟩ := hI.again hlt (pre ++ (img.flatMap readReplies ++ rest))
  have hregs := hr.regs
  have hp := hr.params
  obtain ⟨m, rc, l, hl, himg, hout⟩ := readallBody_ack (e := r) (f := f) (by rw [hp]; exact hwf.2.2.1) hlen (by rwa [hp])
    hpre hr.script
  have hx := exec_completes (i := .memReadall f) (op := op) (e := e) (fun _ => rfl) hu
    (readallCommand_ok (hrun _ _ fun k => restarting_ok hl) rfl) (hr.readAll f m rc l _)
    (resultWord_ok (w := 0x38000000#32) 0x38#8 rfl (by decide))
  refine ⟨m, ?_, himg, fun x hx => (hout x hx).trans ?_⟩
  · rw [hregs, hp] at hx
    simp only [List.append_assoc] at hx ⊢
    rw [← hid]
    exact hx
  · rw [hregs]
    exact hmem x hx

/-- With no attempt left the condition completes MEM_READALL, `IMG_A` mixed (R151, R173). -/
theorem readall_exhausted (hc : c = .transportError ∨ c = .busBusy)
    (hatt : e.regs.att.toNat = s.params.retryAttempts) :
    ∃ m, exec (.memReadall f) { s with inputs := ms ++ fm ++ hm ++ [] ++ rest } = .next ({ s.waiting (.memReadall f) op e with
      issued := ops, inputs := rest, spdValid := spd, mem := m, draws := e.regs.draws + 1 }.completed
        ((Instr.memReadall f).opc ++ 0x0000#16 ++ 0#1 ++ e.locals.phase.code ++
          (if c = Cond.busBusy then 3#4 else 2#4))) := by
  obtain ⟨e', he', hrun⟩ := hI.last (rest := rest) hatt
  have herr : c.err ≠ .ok := by rcases hc with rfl | rfl <;> simp [Cond.err]
  obtain ⟨m, hm⟩ := he'.mixed s.mem
  have hx := exec_completes (i := .memReadall f) (op := op) (e := e) (fun _ => rfl) hu (readallCommand_error hrun herr) hm
    (resultWord_failed hc _ _)
  refine ⟨m, ?_⟩
  simp only [List.append_nil, List.append_assoc]
  exact hx

end

/-- Settles O44: where it waits the condition interrupts the body (`Interrupted`), and the retry wrapper runs the body again from
its first line or completes the command. -/
theorem wholeMemoryCommandsRestartTheirBody : Obligations.WholeMemoryCommandsRestartTheirBody := by
  unfold Obligations.WholeMemoryCommandsRestartTheirBody
  intro i s t ms fm hm rest op l entry got c fops hops cleared ok hwf hopc hms h hs hB hh run ops spd result written
    mismatched
  cases i with
  | memReadall f =>
    obtain ⟨hu, hphase, e, rfl, rfl, hid, hmem, hI⟩ := readall_interrupted hwf hms h hs hB hh
    refine ⟨fun hlt => ⟨fun f' img pre hf hlen h32 hpre => ?_, fun _ _ _ hf => (nomatch hf),
      fun _ _ _ _ _ hf => (nomatch hf)⟩,
      fun hatt => ⟨fun h => absurd rfl h, fun _ => ?_⟩, hI.att_le, fun _ => hphase, fun h => absurd rfl h⟩
    · cases hf
      exact readall_again hu hI hwf hlt hid hmem hlen h32 hpre
    · exact readall_exhausted hu hI hB.cond hatt
  | memWriteall f =>
    have hi := RetriedWrite.writeall f
    obtain ⟨hu, hphase, e, rfl, rfl, hpay, hI⟩ := hi.interrupted hwf hms h hs hB hh
    refine ⟨fun hlt => ⟨fun _ _ _ hf => (nomatch hf), fun f' js good hf hj hgood => ?_,
      fun _ _ _ _ _ hf => (nomatch hf)⟩,
      fun hatt => ⟨fun _ => ?_, fun h => (nomatch h)⟩, hI.att_le, fun h => (nomatch h), fun _ => hphase⟩
    · cases hf
      refine ⟨fun hjs hle => ?_, fun k data hjs hk hlen hdata xs bad hx hbad hle => ?_⟩
      · exact hi.written hu hI hlt fun r hr => writeall_again hwf hlt hpay hgood hj hjs hle hr
      · exact hi.mismatched hu hI hlt fun r hr =>
          writeall_again_fails hwf hlt hpay hgood hj hjs hk hlen hdata hx hbad hle hr
    · exact hi.exhausted hu hI hB.cond hatt
  | memWritediff f =>
    have hi := RetriedWrite.writediff f
    obtain ⟨hu, hphase, e, rfl, rfl, hpay, hI⟩ := hi.interrupted hwf hms h hs hB hh
    refine ⟨fun hlt => ⟨fun _ _ _ hf => (nomatch hf), fun _ _ _ hf => (nomatch hf),
      fun f' new old js good hf himg hj hgood => ?_⟩,
      fun hatt => ⟨fun _ => ?_, fun h => (nomatch h)⟩, hI.att_le, fun h => (nomatch h), fun _ => hphase⟩
    · cases hf
      refine ⟨fun hjs hle => ?_, fun k hjs hk hne xs bad hx hbad hle => ?_⟩
      · exact hi.written hu hI hlt fun r hr => writediff_again hwf hlt hpay hgood himg hj hjs hle hr
      · exact hi.mismatched hu hI hlt fun r hr =>
          writediff_again_fails hwf hlt hpay hgood himg hj hjs hk hne hx hbad hle hr
    · exact hi.exhausted hu hI hB.cond hatt
  | _ => simp [Instr.opc] at hopc

end Sys2Proof.Machine

/-! ## Encoding and decoding

A word decodes exactly where it matches a row of the opcode table; both are read field by field (`row_matches_ofFields`). -/

namespace Sys2Proof

/-- Settles O1: field by field, format by format (`decode_encode`). -/
theorem decodeEncodeRoundTrip : Obligations.DecodeEncodeRoundTrip := Machine.decode_encode

section

variable {k o a b c : Byte} {i : Instr}

/-! ### A word a format accepts is the encoding of what it gives (R71) -/

theorem encode_of_formatZ {g : Instr} (hg : encode g = ofFields k 0 0 0) (h : formatZ g a b c = some i) :
    encode i = ofFields k a b c := by
  obtain ⟨⟨rfl, rfl, rfl⟩, h⟩ := Option.ite_none_right_eq_some.1 h
  cases h
  exact hg

theorem encode_of_flag {g : Bool → Instr} (hg : ∀ f, encode (g f) = ofFields k a b (flagByte f))
    (h : (flagOf? c).map g = some i) : encode i = ofFields k a b c := by
  obtain ⟨f, hf, rfl⟩ := Option.map_eq_some_iff.1 h
  rw [hg, flagByte_of hf]

theorem encode_of_formatF {g : Bool → Instr} (hg : ∀ f, encode (g f) = ofFields k 0 0 (flagByte f))
    (h : formatF g a b c = some i) : encode i = ofFields k a b c := by
  obtain ⟨⟨rfl, rfl⟩, h⟩ := Option.ite_none_right_eq_some.1 h
  exact encode_of_flag hg h

/-- Formats N and P, which place their operands alike. -/
theorem encode_of_formatN {g : Byte → Bool → Instr} (hg : ∀ n f, encode (g n f) = ofFields k n 0 (flagByte f))
    (h : formatN g a b c = some i) : encode i = ofFields k a b c := by
  obtain ⟨rfl, h⟩ := Option.ite_none_right_eq_some.1 h
  exact encode_of_flag (hg a) h

theorem encode_of_formatA {g : Byte → Instr} (hg : ∀ n, encode (g n) = ofFields k n 0 0)
    (h : formatA g a b c = some i) : encode i = ofFields k a b c := by
  obtain ⟨⟨rfl, rfl⟩, h⟩ := Option.ite_none_right_eq_some.1 h
  cases h
  exact hg a

theorem encode_of_formatR {g : BitVec 2 → Bool → Instr}
    (hg : ∀ s f, encode (g s f) = ofFields k 0 (s.setWidth 8) (flagByte f)) (h : formatR g a b c = some i) :
    encode i = ofFields k a b c := by
  obtain ⟨rfl, h⟩ := Option.ite_none_right_eq_some.1 h
  obtain ⟨s, hs, h⟩ := Option.bind_eq_some_iff.1 h
  rw [← setWidth_of b s hs]
  exact encode_of_flag (hg s) h

theorem encode_of_formatG {g : Byte → Byte → Byte → Instr} (hg : ∀ x y z, encode (g x y z) = ofFields k x y z)
    (h : formatG g a b c = some i) : encode i = ofFields k a b c := by
  cases h
  exact hg a b c

theorem encode_of_formatI {g : Byte → Instr} (hg : ∀ v, encode (g v) = ofFields k 0 0 v)
    (h : formatI g a b c = some i) : encode i = ofFields k a b c := by
  obtain ⟨⟨rfl, rfl⟩, h⟩ := Option.ite_none_right_eq_some.1 h
  cases h
  exact hg c

/-- One row of the opcode map, and those after it. -/
theorem encode_of_opcodeRow {x y : Option Instr} (hx : x = some i → encode i = ofFields k a b c)
    (hy : y = some i → encode i = ofFields o a b c) :
    (if o = k then x else y) = some i → encode i = ofFields o a b c := by
  split
  · next ho =>
    rw [ho]
    exact hx
  · exact hy

/-- The opcode map gives only commands whose encoding has these fields: row by row, each by its format (R73). -/
theorem encode_of_decodeFields : decodeFields o a b c = some i → encode i = ofFields o a b c := by
  unfold decodeFields
  exact
    encode_of_opcodeRow (encode_of_formatZ rfl) <|
    encode_of_opcodeRow (encode_of_formatZ rfl) <|
    encode_of_opcodeRow (encode_of_formatZ rfl) <|
    encode_of_opcodeRow (encode_of_formatZ rfl) <|
    encode_of_opcodeRow (encode_of_formatF fun _ => rfl) <|
    encode_of_opcodeRow (encode_of_formatF fun _ => rfl) <|
    encode_of_opcodeRow (encode_of_formatZ rfl) <|
    encode_of_opcodeRow (encode_of_formatN fun _ _ => rfl) <|
    encode_of_opcodeRow (encode_of_formatA fun _ => rfl) <|
    encode_of_opcodeRow (encode_of_formatR fun _ _ => rfl) <|
    encode_of_opcodeRow (encode_of_formatZ rfl) <|
    encode_of_opcodeRow (encode_of_formatZ rfl) <|
    encode_of_opcodeRow (encode_of_formatZ rfl) <|
    encode_of_opcodeRow (encode_of_formatN fun _ _ => rfl) <|
    encode_of_opcodeRow (encode_of_formatG fun _ _ _ => rfl) <|
    encode_of_opcodeRow (encode_of_formatF fun _ => rfl) <|
    encode_of_opcodeRow (encode_of_formatF fun _ => rfl) <|
    encode_of_opcodeRow (encode_of_formatF fun _ => rfl) <|
    encode_of_opcodeRow (encode_of_formatZ rfl) <|
    encode_of_opcodeRow (encode_of_formatI fun _ => rfl) <|
    encode_of_opcodeRow (encode_of_formatA fun _ => rfl) <|
    encode_of_opcodeRow (encode_of_formatA fun _ => rfl) fun h => nomatch h

end

/-- Settles O2: the word is put together from the fields that were decoded (`encode_of_decodeFields`). -/
theorem decodedWordIsItsEncoding : Obligations.DecodedWordIsItsEncoding := by
  unfold Obligations.DecodedWordIsItsEncoding
  intro w i h
  rw [encode_of_decodeFields h, ofFields_fields]

/-! ### The rows of the opcode table -/

/-- The bits of the fields A, B and C that a command's format fixes at 0 (R71, R73). -/
def Instr.fixedBits : Instr → Byte × Byte × Byte
  | .claim | .close | .srchStart | .owReset | .owRbit => (0xFF, 0xFF, 0xFF)
  | .srchFirst | .srchNext | .srchEnum | .crc16Clr => (0xFF, 0xFF, 0xFF)
  | .owSpeed _ | .owWbit _ | .memReadall _ | .memWriteall _ | .memWritediff _ => (0xFF, 0xFF, 0xFE)
  | .owWrite _ _ | .pgWrite _ _ => (0x00, 0xFF, 0xFE)
  | .owRead _ | .crc16Chk _ | .crc16Gen _ => (0x00, 0xFF, 0xFF)
  | .owRom _ _ => (0xFF, 0xFC, 0xFE)
  | .rgWrite _ _ _ => (0x00, 0x00, 0x00)
  | .crc16Byte _ => (0xFF, 0xFF, 0x00)

/-- A command's row asks for its OPC and for zeros where its format fixes them. -/
theorem row_eq_ofFields (i : Instr) :
    i.row = ⟨ofFields i.opc 0 0 0, ofFields 0xFF i.fixedBits.1 i.fixedBits.2.1 i.fixedBits.2.2⟩ := by
  cases i <;> dsimp only [Instr.row, Instr.opc, Instr.fixedBits] <;> decide

/-- Whether a word with these fields matches a command's row (R75). -/
theorem row_matches_ofFields (i : Instr) (o a b c : Byte) : i.row.matches (ofFields o a b c) = true ↔
    o = i.opc ∧ a &&& i.fixedBits.1 = 0 ∧ b &&& i.fixedBits.2.1 = 0 ∧ c &&& i.fixedBits.2.2 = 0 := by
  rw [row_eq_ofFields, matches_ofFields, show o &&& 0xFF = o from BitVec.and_allOnes]

theorem flagByte_and (f : Bool) : flagByte f &&& 0xFE#8 = 0#8 := by cases f <;> rfl

theorem selector_and : ∀ s : BitVec 2, s.setWidth 8 &&& 0xFC#8 = 0#8 := by decide

/-- The encoding of a command matches the command's row. -/
theorem row_matches_encode (i : Instr) : i.row.matches (encode i) = true := by
  cases i with
  | owSpeed f | owWbit f | memReadall f | memWriteall f | memWritediff f =>
    exact (row_matches_ofFields _ _ _ _ _).2 ⟨rfl, BitVec.zero_and, BitVec.zero_and, flagByte_and f⟩
  | owWrite n f | pgWrite n f =>
    exact (row_matches_ofFields _ _ _ _ _).2 ⟨rfl, BitVec.and_zero, BitVec.zero_and, flagByte_and f⟩
  | owRead n | crc16Chk n | crc16Gen n =>
    exact (row_matches_ofFields _ _ _ _ _).2 ⟨rfl, BitVec.and_zero, BitVec.zero_and, BitVec.zero_and⟩
  | owRom s d => exact (row_matches_ofFields _ _ _ _ _).2 ⟨rfl, BitVec.zero_and, selector_and s, flagByte_and d⟩
  | rgWrite h l n =>
    exact (row_matches_ofFields _ _ _ _ _).2 ⟨rfl, BitVec.and_zero, BitVec.and_zero, BitVec.and_zero⟩
  | crc16Byte v => exact (row_matches_ofFields _ _ _ _ _).2 ⟨rfl, BitVec.zero_and, BitVec.zero_and, BitVec.and_zero⟩
  | _ => rfl

section

variable {a b c : Byte}

/-! ### A format accepts the fields whose fixed bits are 0 (R71) -/

theorem eq_zero_of_and (h : a &&& 0xFF#8 = 0#8) : a = 0#8 := (BitVec.and_allOnes (x := a)).symm.trans h

theorem flagOf?_of_and : ∀ c : Byte, c &&& 0xFE#8 = 0#8 → (flagOf? c).isSome = true := by decide

theorem selOf?_of_and : ∀ b : Byte, b &&& 0xFC#8 = 0#8 → (selOf? b).isSome = true := by decide

theorem formatZ_isSome (i : Instr) (ha : a &&& 0xFF#8 = 0#8) (hb : b &&& 0xFF#8 = 0#8) (hc : c &&& 0xFF#8 = 0#8) :
    (formatZ i a b c).isSome = true := by
  rw [eq_zero_of_and ha, eq_zero_of_and hb, eq_zero_of_and hc]
  rfl

theorem formatF_isSome (i : Bool → Instr) (ha : a &&& 0xFF#8 = 0#8) (hb : b &&& 0xFF#8 = 0#8)
    (hc : c &&& 0xFE#8 = 0#8) : (formatF i a b c).isSome = true := by
  rw [eq_zero_of_and ha, eq_zero_of_and hb]
  exact Option.isSome_map.trans (flagOf?_of_and c hc)

/-- Formats N and P, which accept the same fields. -/
theorem formatN_isSome (i : Byte → Bool → Instr) (hb : b &&& 0xFF#8 = 0#8) (hc : c &&& 0xFE#8 = 0#8) :
    (formatN i a b c).isSome = true := by
  rw [eq_zero_of_and hb]
  exact Option.isSome_map.trans (flagOf?_of_and c hc)

theorem formatA_isSome (i : Byte → Instr) (hb : b &&& 0xFF#8 = 0#8) (hc : c &&& 0xFF#8 = 0#8) :
    (formatA i a b c).isSome = true := by
  rw [eq_zero_of_and hb, eq_zero_of_and hc]
  rfl

theorem formatR_isSome (i : BitVec 2 → Bool → Instr) (ha : a &&& 0xFF#8 = 0#8) (hb : b &&& 0xFC#8 = 0#8)
    (hc : c &&& 0xFE#8 = 0#8) : (formatR i a b c).isSome = true := by
  obtain ⟨s, hs⟩ := Option.isSome_iff_exists.1 (selOf?_of_and b hb)
  unfold formatR
  rw [eq_zero_of_and ha, if_pos rfl, hs]
  exact Option.isSome_map.trans (flagOf?_of_and c hc)

theorem formatI_isSome (i : Byte → Instr) (ha : a &&& 0xFF#8 = 0#8) (hb : b &&& 0xFF#8 = 0#8) :
    (formatI i a b c).isSome = true := by
  rw [eq_zero_of_and ha, eq_zero_of_and hb]
  rfl

end

/-- A word that matches the row of some command decodes. -/
theorem decode_isSome_of_matches (i : Instr) {w : Word} (h : i.row.matches w = true) : (decode w).isSome = true := by
  rw [← ofFields_fields w] at h
  obtain ⟨ho, ha, hb, hc⟩ := (row_matches_ofFields _ _ _ _ _).1 h
  unfold decode
  rw [ho]
  cases i with
  | owSpeed f | owWbit f | memReadall f | memWriteall f | memWritediff f => exact formatF_isSome _ ha hb hc
  | owWrite n f | pgWrite n f => exact formatN_isSome _ hb hc
  | owRead n | crc16Chk n | crc16Gen n => exact formatA_isSome _ hb hc
  | owRom s d => exact formatR_isSome _ ha hb hc
  | rgWrite h l n => rfl
  | crc16Byte v => exact formatI_isSome _ ha hb
  | _ => exact formatZ_isSome _ ha hb hc

theorem row_mem_opcodeRows (i : Instr) : i.row ∈ opcodeRows := by
  cases i <;> simp [Instr.row, opcodeRows]

/-- Every row is a command's: the one its pattern decodes to. -/
theorem exists_row {r : Row} (h : r ∈ opcodeRows) : ∃ i : Instr, i.row = r := by
  have hd : ∀ r ∈ opcodeRows, (decode r.pattern).map Instr.row = some r := by decide
  obtain ⟨i, -, hi⟩ := Option.map_eq_some_iff.1 (hd r h)
  exact ⟨i, hi⟩

/-- The row of a command is that of its OPC value alone (R73, R75). -/
theorem row_eq_of_opc {i j : Instr} (h : i.opc = j.opc) : i.row = j.row := by
  have hrows : ∀ r ∈ opcodeRows, ∀ r' ∈ opcodeRows, opcField r.pattern = opcField r'.pattern → r = r' := by decide
  refine hrows _ (row_mem_opcodeRows i) _ (row_mem_opcodeRows j) ?_
  rw [row_eq_ofFields, row_eq_ofFields, opcField_ofFields, opcField_ofFields, h]

/-- No two rows match one word, because their OPC values differ and every mask contains bits 31:24 (R75). -/
theorem row_unique {r r' : Row} {w : Word} (hr : r ∈ opcodeRows) (hr' : r' ∈ opcodeRows) (h : r.matches w = true)
    (h' : r'.matches w = true) : r = r' := by
  obtain ⟨i, rfl⟩ := exists_row hr
  obtain ⟨j, rfl⟩ := exists_row hr'
  rw [← ofFields_fields w, row_matches_ofFields] at h h'
  obtain ⟨ho, -⟩ := h
  obtain ⟨ho', -⟩ := h'
  exact row_eq_of_opc (ho.symm.trans ho')

/-- A word that decodes matches the row of its command. -/
theorem row_matches_of_decode {w : Word} {i : Instr} (h : decode w = some i) : i.row.matches w = true := by
  rw [← decodedWordIsItsEncoding w i h]
  exact row_matches_encode i

/-- Settles O3: a word decodes where it matches a row, to a command of a row it matches, and it matches no other. -/
theorem decoderIsTheOpcodeTable : Obligations.DecoderIsTheOpcodeTable := by
  unfold Obligations.DecoderIsTheOpcodeTable
  refine ⟨fun w r hr => ⟨fun hw => ?_, ?_⟩, fun _ i _ => row_mem_opcodeRows i, fun _ _ _ => row_unique⟩
  · obtain ⟨i, rfl⟩ := exists_row hr
    obtain ⟨j, hj⟩ := Option.isSome_iff_exists.1 (decode_isSome_of_matches i hw)
    exact ⟨j, hj, row_unique (row_mem_opcodeRows j) hr (row_matches_of_decode hj) hw⟩
  · rintro ⟨i, hi, rfl⟩
    exact row_matches_of_decode hi

/-- Settles O4: by running the decoder on the words. -/
theorem sampleWordsDecode : Obligations.SampleWordsDecode := by
  unfold Obligations.SampleWordsDecode
  decide

end Sys2Proof

/-! ## Commands that fail a usage check -/

namespace Sys2Proof.Machine

/-- In `Claimed`, every command that can have an operand out of range is legal (R74, R90). -/
theorem legalIn_claimed {i : Instr} {s : State} (hc : s.lc = .claimed) (h : operandInRange s.params i = false) :
    legalIn i s.lc = true := by
  cases i with
  | owWrite | owRead | owRom | rgWrite => exact decide_eq_true hc
  | _ => cases h

/-- A command that is not legal in the lifecycle state (R90). -/
theorem exec_badState {i : Instr} {s : State} {w : Word} (h : legalIn i s.lc = false) (hw : i.opc ++ 0x000008#24 = w) :
    exec i s = .next (s.completed w) := by
  obtain ⟨hclose, hopc⟩ := not_close_of_illegal h
  have hu : usageError i s = some ⟨.badState, .noPhase, 0⟩ := by
    unfold usageError
    rw [h]
    rfl
  rw [exec_usage hclose hopc hu, resultWord_append (w := 0x000008#24) (by decide), hw]

/-- A command with an operand out of range, in `Claimed`, where every command that has one is legal (R74, R90). -/
theorem exec_badOperand {i : Instr} {s : State} {w : Word} (opc : Byte) (hc : s.lc = .claimed)
    (h : operandInRange s.params i = false) (ho : i.opc = opc) (hw : opc ++ 0x000009#24 = w) :
    exec i s = .next (s.completed w) := by
  obtain ⟨hclose, hopc⟩ := not_close_of_outOfRange h
  have hu : usageError i s = some ⟨.badOperand, .noPhase, 0⟩ := by
    unfold usageError
    rw [legalIn_claimed hc h, h]
    rfl
  rw [exec_usage hclose hopc hu, resultWord_append (w := 0x000009#24) (by decide), ho, hw]

/-- Outside `Claimed`, every command but CLAIM, CLOSE and the CRC commands is illegal (R90). -/
theorem legalIn_of_not_claimed {i : Instr} {lc : Lifecycle} (h : lc ≠ .claimed) (h1 : i ≠ .claim) (h2 : i ≠ .close)
    (ho : i.opc.toNat < 0x40) : legalIn i lc = false := by
  cases i with
  | claim => exact absurd rfl h1
  | close => exact absurd rfl h2
  | crc16Clr | crc16Byte | crc16Chk | crc16Gen => simp [Instr.opc] at ho
  | _ => exact decide_eq_false h

/-- RG_WRITE's byte count is 1 to 32 (R72). -/
theorem rgWrite_outOfRange (p : Params) (h l : Byte) {n : Byte} (hn : n = 0 ∨ 32 < n.toNat) :
    operandInRange p (.rgWrite h l n) = false := by
  rcases hn with rfl | hn
  · rfl
  · simp [operandInRange, Instr.wf, hn]

/-- Settles O12: `exec_badState` and `exec_badOperand`, by which command is illegal where, and which operand out of range. -/
theorem badStateAndBadOperand : Obligations.BadStateAndBadOperand := by
  unfold Obligations.BadStateAndBadOperand
  refine ⟨fun s h => exec_badState (decide_eq_false h) (by decide),
    fun i s h h1 h2 ho => exec_badState (legalIn_of_not_claimed h h1 h2 ho) rfl,
    fun s hc => ⟨fun c => ?_, ?_, fun d => ?_, fun hx => ?_, fun h l n hn => ?_⟩⟩
  · exact exec_badOperand 0x14#8 hc rfl rfl (by decide)
  · exact exec_badOperand 0x15#8 hc rfl rfl (by decide)
  · exact exec_badOperand 0x16#8 hc rfl rfl (by decide)
  · exact exec_badOperand 0x16#8 hc (by simp [operandInRange, hx]) rfl (by decide)
  · exact exec_badOperand 0x31#8 hc (rgWrite_outOfRange s.params h l hn) rfl (by decide)

end Sys2Proof.Machine

/-! ## OW_ROM, answered -/

namespace Sys2Proof.Machine

/-- OW_ROM in `Claimed`, its selector in range and its ROMX constant supplied, after its ROM command (R110). -/
theorem exec_owRom {s : State} {sel : BitVec 2} {d : Bool} {x : RomSel} {ops : List LinkOp} {ms rest : List Move}
    (hc : s.lc = .claimed) (ho : operandInRange s.params (.owRom sel d) = true) (hx : romSel? sel = some x)
    (h : romCommand x d (s.eng false) = .ok () (((s.eng false).setSpd d).adv ops ms rest)) :
    exec (.owRom sel d) s = .next ({ s.ran ops rest with spdValid := true, spdOd := d }.completed 0x16000000#32) := by
  have hbody : romBody sel d (s.eng false) = .ok ⟨.ok, .noPhase, 0⟩ (((s.eng false).setSpd d).adv ops ms rest) := by
    unfold romBody
    rw [hx]
    exact Prog.andThen_ok h
  exact accept_ok (usageError_none (decide_eq_true hc) ho (fun h => nomatch h) (fun _ h => nomatch h)) (guarded_ok hbody)
    rfl (resultWord_ok 0x16#8 rfl (by decide)) rfl

/-- Settles O27: by the selector, its ROM command answered at once. -/
theorem owRomAddressesChips : Obligations.OwRomAddressesChips := by
  unfold Obligations.OwRomAddressesChips
  intro s d a rest hc ha hs
  refine ⟨?_, ?_, ?_, ?_⟩
  · rw [exec_owRom hc rfl rfl (romCommand_match_ack ha hs)]
    cases d <;> rfl
  · rw [exec_owRom hc rfl rfl (romCommand_zeros_ack (by decide) ha hs)]
    cases d <;> rfl
  · rintro rfl
    exact exec_owRom hc rfl rfl (romCommand_zeros_ack (x := .searchRom) (by decide) ha hs)
  · rintro x rfl hx
    have supplied : operandInRange s.params (.owRom 1 true) = true := by simp [operandInRange, Instr.wf, hx]
    rw [exec_owRom (x := .searchRom) hc supplied rfl (romCommand_zeros_ack (by decide) ha hs)]
    simp [romx, hx]

end Sys2Proof.Machine

/-! ## CLAIM, CLOSE and SRCH_START -/

namespace Sys2Proof.Machine

/-- CLAIM from its `ok` hard reset on (R91). -/
def claimClear : Prog Completion :=
  (bufferClear.andThen <|
    (Prog.setRegs fun r => { r with lc := .claimed }).andThen (Prog.ret ⟨.ok, .noPhase, 0⟩)).catch fun _ => claimFailed

/-- CLAIM whose first operation is not answered `ok` (R91). -/
theorem claimBody_refused {e : Eng} {r : Reply} {rest : List Move} (hr : r.failed = true)
    (hs : e.script = .reply r :: rest) :
    claimBody e = .ok ⟨.claimError, .claim, 0⟩ (e.adv [.claim] [.reply r] rest) := by
  unfold claimBody
  rw [Prog.bind_ok (link_reply hs)]
  cases r with
  | ok d b => cases hr
  | fail => rfl
  | timeout => rfl

/-- CLAIM goes on from its bounded hard reset by how that ends (R91, R103). -/
theorem claimBody_resets {e : Eng} {ok : Bool} {a hm rest : List Move} {hops : List LinkOp} (ha : Acks 1 a)
    (hh : HardResetEnds e.params ok hm hops) (hs : e.script = a ++ (hm ++ rest)) :
    claimBody e = (if ok then claimClear else claimFailed)
      ((e.clearSpd ok).adv (LinkOp.claim :: hops) (a ++ hm) rest) := by
  obtain ⟨d, ms, rfl, hnil⟩ := ha.cons
  obtain rfl := hnil.nil
  unfold claimBody
  rw [Prog.bind_ok (link_reply hs)]
  refine (Prog.bind_ok (hardResetBounded_ends (e := e.adv _ _ _) hh rfl)).trans ?_
  rw [Eng.adv_clearSpd, Eng.adv_adv]
  rfl

/-- The buffer clear of CLAIM succeeds, after some busy polls or none (R91, R102). -/
theorem claimClear_clears {e : Eng} {k : Nat} {a rest : List Move} (hk : k < e.params.pollLimit) (ha : Acks 1 a)
    (hs : e.script = busyPolls k ++ (a ++ rest)) :
    ∃ e', claimClear e = .ok ⟨.ok, .noPhase, 0⟩ e' ∧ e'.raised = e.raised ∧ e'.script = rest ∧
      e'.regs = { e.regs with issued := e.regs.issued ++ List.replicate (k + 1) .stat, lc := .claimed } :=
  ⟨_, Prog.catch_ok (Prog.andThen_ok (bufferClear_clears hk ha hs)), rfl, rfl, rfl⟩

/-- A condition that ends the buffer clear of CLAIM is a CLAIM_ERROR, with no epilogue (R91). -/
theorem claimClear_raises {e e' : Eng} {c : Cond} (h : bufferClear e = .raise c e') :
    claimClear e = .ok ⟨.claimError, .claim, 0⟩ e' := Prog.catch_raise (Prog.andThen_raise h)

/-- CLAIM in `Unclaimed` completes as its body returns (R90, R91). -/
theorem exec_claim {s t : State} {c : Completion} {e : Eng} {w : Word} (hc : s.lc = .unclaimed)
    (h : claimBody (s.eng false) = .ok c e) (hr : e.raised = 0#32) (hw : resultWord Instr.claim.opc c = w)
    (ht : { s with toRegs := e.regs, inputs := e.script } = t) : exec .claim s = .next (t.completed w) :=
  accept_ok (usageError_none (decide_eq_true hc) rfl (fun h => nomatch h) (fun _ h => nomatch h)) h hr hw ht

theorem result_claimError : resultWord Instr.claim.opc ⟨.claimError, .claim, 0⟩ = 0x01000011#32 := by decide

section

variable {s : State} {a hm rest : List Move} {hops : List LinkOp} (hc : s.lc = .unclaimed) (ha : Acks 1 a)

include hc ha

/-- CLAIM whose hard reset does not succeed (R91, R103). -/
theorem exec_claim_noReset (hh : HardResetEnds s.params false hm hops) (hs : s.inputs = a ++ (hm ++ rest)) :
    exec .claim s = .next ((s.ran (LinkOp.claim :: hops) rest).completed 0x01000011#32) := by
  have hbody := claimBody_resets (e := s.eng false) ha hh hs
  rw [Eng.clearSpd_false] at hbody
  exact exec_claim hc hbody rfl result_claimError rfl

/-- CLAIM whose buffer clear, after the `ok` hard reset, a condition ends (R91). -/
theorem exec_claim_notClear {ms : List Move} {ops : List LinkOp} {c : Cond} (hh : HardResetEnds s.params true hm hops)
    (hs : s.inputs = a ++ (hm ++ (ms ++ rest)))
    (h : ∀ e : Eng, e.params = s.params → e.script = ms ++ rest → bufferClear e = .raise c (e.adv ops ms rest)) :
    exec .claim s = .next
      ({ s.ran (LinkOp.claim :: hops ++ ops) rest with spdValid := false }.completed 0x01000011#32) := by
  have hbody := claimBody_resets (e := s.eng false) ha hh hs
  rw [Eng.clearSpd_true, if_pos rfl, claimClear_raises (h _ rfl rfl), Eng.adv_adv] at hbody
  exact exec_claim hc hbody rfl result_claimError rfl

/-- CLAIM whose operations succeed (R91). -/
theorem exec_claim_clears {k : Nat} {b : List Move} (hh : HardResetEnds s.params true hm hops)
    (hk : k < s.params.pollLimit) (hb : Acks 1 b) (hs : s.inputs = a ++ (hm ++ (busyPolls k ++ (b ++ rest)))) :
    exec .claim s = .next ({ s.ran (LinkOp.claim :: hops ++ List.replicate (k + 1) LinkOp.stat) rest with
      lc := .claimed, spdValid := false }.completed 0x01000000#32) := by
  have hbody := claimBody_resets (e := s.eng false) ha hh hs
  obtain ⟨e, he, hr, hi, hregs⟩ := claimClear_clears
    (e := (s.eng false).lostSpd.adv (LinkOp.claim :: hops) (a ++ hm) (busyPolls k ++ (b ++ rest))) hk hb rfl
  rw [Eng.clearSpd_true, if_pos rfl, he] at hbody
  refine exec_claim hc hbody hr result_claim ?_
  rw [hi, hregs]
  simp [State.ran]

end

/-- Settles O17: the hard reset ends in one of three ways (`claimBody_resets`), the buffer clear after it succeeds, polls busy
to its limit or fails. -/
theorem claimClaimsOrFails : Obligations.ClaimClaimsOrFails := by
  unfold Obligations.ClaimClaimsOrFails
  intro s n r a b c rest hc hwf hn ha hb hack
  have hreset : HardResetEnds s.params true (timeouts n ++ b) (List.replicate (n + 1) .hardReset) := .ok n b hn hb
  refine ⟨fun k hk hs => ?_, fun hr hs => ?_, fun hs => ?_, fun hs => ?_, fun hs => ?_, fun k hk hr hs => ?_⟩
  · exact exec_claim_clears (rest := rest) hc ha hreset hk hack (by simp only [hs, List.append_assoc])
  · have hbody := claimBody_refused (e := s.eng false) hr hs
    exact exec_claim hc hbody rfl result_claimError rfl
  · exact exec_claim_noReset (rest := rest) hc ha (.fail n hn) (by simp [hs])
  · exact exec_claim_noReset (rest := rest) hc ha .timeouts (by simp only [hs, List.append_assoc])
  · refine exec_claim_notClear (c := .busBusy) (ms := busyPolls s.params.pollLimit) (rest := rest)
      (ops := List.replicate s.params.pollLimit LinkOp.stat) hc ha hreset (by simp only [hs, List.append_assoc])
      fun e hp hms => ?_
    rw [← hp] at hms ⊢
    exact bufferClear_busy hms
  · refine exec_claim_notClear (c := .transportError) (ms := busyPolls k ++ [.reply r]) (rest := rest)
      (ops := List.replicate (k + 1) LinkOp.stat) hc ha hreset (by simp [hs]) fun e hp hms => ?_
    exact bufferClear_fails (by rw [hp]; exact hk) hr (by simp [hms])

/-- CLOSE outside `Closed`, whatever the answer to its `Release` (R92). -/
theorem closeBody_answered {e : Eng} {r : Reply} {rest : List Move} (hs : e.script = .reply r :: rest) :
    ∃ e', closeBody e = .ok ⟨.ok, .noPhase, 0⟩ e' ∧ e'.raised = e.raised ∧ e'.script = rest ∧
      e'.regs = { e.regs with issued := e.regs.issued ++ [.release], lc := .closed } :=
  ⟨_, Prog.bind_ok (link_reply hs), rfl, rfl, rfl⟩

/-- Settles O18: outside `Closed` by its body (`closeBody_answered`), in `Closed` at once (`exec_close_closed`). -/
theorem closeReleasesOnce : Obligations.CloseReleasesOnce := by
  unfold Obligations.CloseReleasesOnce
  refine ⟨fun s r rest hc hs => ?_, fun s hc => ?_⟩
  · obtain ⟨e, hbody, hraised, hscript, hregs⟩ := closeBody_answered (e := s.eng false) hs
    have hrun : exec .close s = accept .close closeBody s := if_neg hc
    rw [hrun]
    refine accept_ok (usageError_none rfl rfl (fun h => nomatch h) (fun _ h => nomatch h)) hbody hraised result_close ?_
    rw [hscript, hregs]
    rfl
  · exact (exec_close_closed hc).trans (completeNow_eq result_close s)

/-- Settles O19: in `Claimed` no usage check stops it, and it has no body. -/
theorem srchStartEnablesSearching : Obligations.SrchStartEnablesSearching := by
  unfold Obligations.SrchStartEnablesSearching
  intro s hc
  change execSrchStart s = _
  unfold execSrchStart
  rw [usageError_none (i := .srchStart) (decide_eq_true hc) rfl (fun h => nomatch h) (fun _ h => nomatch h)]
  exact completeNow_eq (opc := 0x03#8) (by decide) { s with searching := true }

end Sys2Proof.Machine

/-! ## Frame of the lifecycle commands -/

namespace Sys2Proof.Machine

/-- The registers without those CLAIM, CLOSE and SRCH_START may change, the record of operations among them. -/
def Regs.exceptLifecycle (r : Regs) : Regs := { r with lc := .unclaimed, spdValid := false, result := 0, issued := [] }

/-- What the three lifecycle commands leave as it was (R91 to R93). -/
structure LifecycleFrame (s t : State) : Prop where
  regs : t.toRegs.exceptLifecycle = s.toRegs.exceptLifecycle
  params : t.params = s.params
  port : t.port = s.port
  hostRead : t.hostRead = s.hostRead
  event : ∀ k, 1 ≤ k → t.event.getLsbD k = s.event.getLsbD k

theorem Law.exceptLifecycle_resets : (Law.view Regs.exceptLifecycle (id : Word → Word)).Resets where
  toClosed := Law.view_closed fun _ _ => rfl
  spdLost _ := ⟨rfl, rfl, rfl⟩

/-- That law allows CLAIM and CLOSE. -/
theorem Law.exceptLifecycle_allows {i : Instr} (hi : i = .claim ∨ i = .close) :
    (Law.view Regs.exceptLifecycle (id : Word → Word)).Allows i := by
  rcases hi with rfl | rfl
  · exact { Law.exceptLifecycle_resets with claimed := fun _ => ⟨rfl, rfl, rfl⟩ }
  · exact ⟨Law.exceptLifecycle_resets.toClosed, fun _ => ⟨rfl, rfl, rfl⟩⟩

/-- Completion at acceptance leaves all this. -/
theorem LifecycleFrame.complete (s : State) (opc : Byte) (c : Completion) :
    LifecycleFrame s (s.clearDone.complete opc c) where
  regs := rfl
  params := rfl
  port := rfl
  hostRead := rfl
  event k hk := event_bit (w := 0) hk (by simp) (.inl (by simp [raiseFlags]))

/-- SRCH_START completes at its acceptance (R93). -/
theorem exec_srchStart_next {s t : State} (h : exec .srchStart s = .next t) :
    ∃ c b, t = ({ s with searching := b } : State).clearDone.complete Instr.srchStart.opc c := by
  change execSrchStart s = _ at h
  unfold execSrchStart at h
  split at h <;> cases h
  · exact ⟨_, s.searching, rfl⟩
  · exact ⟨_, true, rfl⟩

/-- CLAIM and CLOSE, however they end. -/
theorem exec_lifecycle {i : Instr} {s t : State} (hi : i = .claim ∨ i = .close) (h : exec i s = .next t) :
    LifecycleFrame s t ∧ t.searching = s.searching ∧ (i = .close → t.spdValid = s.spdValid) := by
  by_cases hc : i = .close → s.lc ≠ .closed
  · have hb : Instr.usesBus i = true := by rcases hi with rfl | rfl <;> rfl
    obtain ⟨hregs, hparams, hport, hread, hsearching, w, hw, hevent⟩ :=
      exec_view hb (Law.exceptLifecycle_allows hi) (fun _ _ => rfl) hc h
    refine ⟨⟨hregs, hparams, hport, hread, fun k hk => event_bit hk ?_ hevent⟩, hsearching, ?_⟩
    · rw [show w = 0 from hw]
      exact BitVec.getLsbD_zero
    · rintro rfl
      have hspd : (Law.keep fun r => r.spdValid).Allows .close :=
        ⟨Law.view_closed fun _ _ => rfl, fun _ => ⟨rfl, rfl, rfl⟩⟩
      exact (exec_view rfl hspd (fun _ _ => rfl) hc h).1
  · push Not at hc
    obtain ⟨rfl, hc⟩ := hc
    rw [exec_close_closed hc] at h
    cases h
    exact ⟨.complete s _ _, rfl, fun _ => rfl⟩

/-- Settles O20: CLAIM and CLOSE by the law of their bodies (`exec_lifecycle`), SRCH_START by its completion at acceptance. -/
theorem lifecycleCommandsFrame : Obligations.LifecycleCommandsFrame := by
  unfold Obligations.LifecycleCommandsFrame
  intro i s t hi h
  obtain ⟨⟨hregs, hparams, hport, hread, hevent⟩, hspd, hlc, hsearching⟩ : LifecycleFrame s t ∧
      (i ≠ .claim → t.spdValid = s.spdValid) ∧ (i = .srchStart → t.lc = s.lc ∧ t.issued = s.issued) ∧
      (i ≠ .srchStart → t.searching = s.searching) := by
    rcases hi with rfl | rfl | rfl
    · obtain ⟨hf, hs, -⟩ := exec_lifecycle (.inl rfl) h
      exact ⟨hf, fun hn => absurd rfl hn, (fun he => nomatch he), fun _ => hs⟩
    · obtain ⟨hf, hs, hv⟩ := exec_lifecycle (.inr rfl) h
      exact ⟨hf, fun _ => hv rfl, (fun he => nomatch he), fun _ => hs⟩
    · obtain ⟨c, b, rfl⟩ := exec_srchStart_next h
      exact ⟨{ LifecycleFrame.complete { s with searching := b } _ c with }, fun _ => rfl, fun _ => ⟨rfl, rfl⟩,
        fun hn => absurd rfl hn⟩
  simp only [Regs.exceptLifecycle, Regs.mk.injEq, true_and] at hregs
  obtain ⟨htarget, hrom, hcrc, hdisc, hdevice, hod, hatt, hrx, hpagesA, hpagesB, hcount, htrunc, hmem, -⟩ := hregs
  exact ⟨htarget, hrom, hcrc, hdisc, hdevice, hod, hatt, hrx, hpagesA, hpagesB, hcount, htrunc, hparams, hport, hread,
    hevent, fun x => by rw [hmem], hspd, hlc, hsearching⟩

end Sys2Proof.Machine

/-! ## The background pass: its frame and its start -/

namespace Sys2Proof.Machine

/-- The registers without those a background pass may change, the record of operations among them. -/
def Regs.exceptPass (r : Regs) : Regs :=
  { r with
    issued := [], spdValid := false, spdOd := false, romId := 0, lastDisc := 0, lastDevice := false, mem := [],
    detCount := 0, detTrunc := false }

/-- The flags a pass raises leave DONE (R96). -/
theorem raiseFlags_done {w f : Word} (h : f.getLsbD 0 = false) : (raiseFlags w f).getLsbD 0 = w.getLsbD 0 := by
  unfold raiseFlags
  rw [BitVec.getLsbD_or, h, Bool.or_false]

/-- Settles O39: all of it is kept by a law of background passes (`Law.batch_background`), however they end. -/
theorem backgroundPassFrame : Obligations.BackgroundPassFrame := by
  unfold Obligations.BackgroundPassFrame
  intro s t h
  have hL : (Law.batch Regs.exceptPass (fun w => w.getLsbD 0) s.params.maxDev).Background :=
    Law.batch_background (fun _ _ _ _ _ _ _ _ _ _ => rfl) (fun _ => raiseFlags_done (by decide))
      fun _ => raiseFlags_done (by decide)
  obtain ⟨⟨hregs, hmem⟩, hdone, hsearching, hparams, hport⟩ :
      (t.toRegs.exceptPass = s.toRegs.exceptPass ∧
        ∀ x, x < 0x0400 ∨ 0x0400 + 8 * s.params.maxDev ≤ x → t.mem.read? x = s.mem.read? x) ∧
      t.event.getLsbD 0 = s.event.getLsbD 0 ∧ t.searching = s.searching ∧ t.params = s.params ∧ t.port = s.port := by
    rcases runBackground_cases s hL with ⟨e, ⟨-, hraised, hregs, hmem⟩, he⟩ | ⟨op, e, -, ⟨-, -, hregs, hmem⟩, he⟩ |
      ⟨f, -, he⟩ <;> rw [he] at h <;> cases h
    · exact ⟨⟨hregs, hmem rfl⟩, raiseFlags_done (hraised.trans (by simp)), rfl, rfl, rfl⟩
    · exact ⟨⟨hregs, hmem rfl⟩, rfl, rfl, rfl, rfl⟩
  simp only [Regs.exceptPass, Regs.mk.injEq, true_and] at hregs
  obtain ⟨hlc, htarget, hcrc, hatt, hrx, hpagesA, hpagesB, hresult, -⟩ := hregs
  exact ⟨hresult, hatt, hdone, htarget, hcrc, hlc, hpagesA, hpagesB, hrx, hsearching, hparams, hport, hmem⟩

/-- The sequencer after the reset of the bookmark that starts an enumeration (R125, R127). -/
def Eng.searchInited (e : Eng) : Eng :=
  { e with regs := { e.regs with lastDisc := 0#7, lastDevice := false, romId := 0#64 } }

theorem enumerate_eq (e : Eng) : enumerate e = enumLoop e.params.maxDev [] e.searchInited := rfl

/-- With no answer to come, an enumeration waits at the reset of its first pass (R123, R127). -/
theorem enumerate_unanswered {e : Eng} (hm : 1 ≤ e.params.maxDev) (hs : e.script = []) :
    enumerate e = .wait (.ctl .reset) e.searchInited := by
  obtain ⟨n, hn⟩ : ∃ n, e.params.maxDev = n + 1 := ⟨e.params.maxDev - 1, by omega⟩
  have hreset : busReset e.searchInited = .wait (.ctl .reset) e.searchInited := Prog.bind_wait (link_wait hs)
  rw [enumerate_eq, hn, enumLoop]
  exact Prog.bind_wait (Prog.bind_wait hreset)

/-- Settles O36: where `BgStart` is enabled, the pass waits at the reset of its first search (`enumerate_unanswered`). -/
theorem tickStartsPassWhenEnabled : Obligations.TickStartsPassWhenEnabled := by
  unfold Obligations.TickStartsPassWhenEnabled
  intro s rest hs
  refine ⟨fun hn => ?_, fun hc hse hl hwf => ?_⟩
  · have hb : ¬bgEnabled { s with inputs := rest } = true := by simpa [bgEnabled, and_assoc] using hn
    exact (step_cons hs).trans (if_neg hb)
  · have hb : bgEnabled { s with inputs := rest } = true := by simp [bgEnabled, hc, hse, hl]
    obtain ⟨-, -, -, -, -, hmax, -⟩ := hwf
    have hrun : runBackground { s with inputs := [] } = .next (({ s with inputs := [] } : State).suspend .background
        (.ctl .reset) (State.eng { s with inputs := [] } true).searchInited) := by
      unfold runBackground
      rw [backgroundBody_wait (enumerate_unanswered hmax.1 rfl)]
    exact ⟨_, _, _, (step_cons hs).trans ((if_pos hb).trans (offer_next hrun)), rfl, rfl, rfl, rfl⟩

end Sys2Proof.Machine

/-! ## What an enumeration finds (R127), and its delivery by a background pass (R129) -/

namespace Sys2Proof.Machine

/-- Passes one after another, and one more. -/
theorem Eng.afterPasses_concat (e : Eng) (xs : List Pass) (x : Pass) (mid rest : List Move) (l l' : Locals) :
    (((e.afterPasses xs mid).setLoc l).afterPasses [x] rest).setLoc l' = (e.afterPasses (xs ++ [x]) rest).setLoc l' := by
  simp [Eng.afterPasses, Regs.afterPasses, Eng.setLoc]

section

variable {e : Eng} {xs : List Pass} {rest : List Move} (hp : 1 ≤ e.params.pollLimit)
  (hx : FoundPasses e.params 0#64 0 xs)

include hp hx

/-- An enumeration ends after the pass that leaves no bookmark. -/
theorem enumerate_last {x : Pass} (hz : ∀ y ∈ xs.dropLast, y.zero ≠ 0) (hn : xs.length ≤ e.params.maxDev)
    (hlast : xs.getLast? = some x) (h0 : x.zero = 0) (hs : e.script = xs.flatMap Pass.replies ++ rest) :
    ∃ l, enumerate e = .ok (xs.map Pass.id, false) ((e.searchInited.afterPasses xs rest).setLoc l) := by
  obtain ⟨ys, rfl⟩ := List.getLast?_eq_some_iff.1 hlast
  rw [List.dropLast_concat] at hz
  rw [List.length_append, List.length_singleton] at hn
  obtain ⟨hys, hfound⟩ := FoundPasses.concat (r := e.searchInited.regs) hx
  obtain ⟨l, hl⟩ := enumLoop_passes (e := e.searchInited) (n := e.params.maxDev) (ids := []) (rest := x.replies ++ rest)
    hp hys hz (by omega) (hs.trans (by simp))
  obtain ⟨k, hk⟩ : ∃ k, e.params.maxDev - ys.length = k + 1 := ⟨e.params.maxDev - ys.length - 1, by omega⟩
  obtain ⟨l', hl'⟩ := enumLoop_last (e := (e.searchInited.afterPasses ys (x.replies ++ rest)).setLoc l) (n := k)
    (ids := [] ++ ys.map Pass.id) hp hfound h0 rfl
  refine ⟨l', ?_⟩
  rw [enumerate_eq, hl, hk, hl', Eng.afterPasses_concat]
  simp

/-- An enumeration ends with the table full, its last pass leaving a bookmark. -/
theorem enumerate_full (hz : ∀ y ∈ xs, y.zero ≠ 0) (hn : xs.length = e.params.maxDev)
    (hs : e.script = xs.flatMap Pass.replies ++ rest) :
    ∃ l, enumerate e = .ok (xs.map Pass.id, true) ((e.searchInited.afterPasses xs rest).setLoc l) := by
  obtain ⟨l, hl⟩ := enumLoop_passes (e := e.searchInited) (n := e.params.maxDev) (ids := []) hp hx hz hn.le hs
  refine ⟨l, ?_⟩
  rw [enumerate_eq, hl, hn, Nat.sub_self]
  rfl

/-- An enumeration ends at a pass that fails, which is no error. -/
theorem enumerate_failed {ms : List Move} {ops : List LinkOp} {id : RomId} (hz : ∀ y ∈ xs, y.zero ≠ 0)
    (hn : xs.length < e.params.maxDev)
    (hf : FailedPass e.params ((xs.getLast?.map Pass.id).getD 0#64) ((xs.getLast?.map Pass.zero).getD 0) ms ops id)
    (hs : e.script = xs.flatMap Pass.replies ++ (ms ++ rest)) :
    ∃ l, enumerate e = .ok (xs.map Pass.id, false)
      (((((e.searchInited.afterPasses xs (ms ++ rest)).setSpd false).setLoc l).setId id).adv ops ms rest).notFound := by
  obtain ⟨hid, -, hld⟩ := Regs.afterPasses_left (r := e.searchInited.regs) rfl rfl hx
  obtain ⟨l, hl⟩ := enumLoop_passes (e := e.searchInited) (n := e.params.maxDev) (ids := []) hp hx hz hn.le hs
  obtain ⟨k, hk⟩ : ∃ k, e.params.maxDev - xs.length = k + 1 := ⟨e.params.maxDev - xs.length - 1, by omega⟩
  rw [← hid, ← hld] at hf
  obtain ⟨l', hl'⟩ := enumLoop_failed (e := (e.searchInited.afterPasses xs (ms ++ rest)).setLoc l) (n := k)
    (ids := [] ++ xs.map Pass.id) hp hf rfl
  refine ⟨l', ?_⟩
  rw [enumerate_eq, hl, hk, hl']
  simp

end

/-- The bytes a store has written are read back. -/
theorem Memory.writeBytes_holds (m : Memory) (a : Nat) (bs : List Byte) : HoldsBytes (m.writeBytes a bs) a bs := by
  intro i hi
  rw [Memory.read?_writeBytes, if_pos (by omega), Nat.add_sub_cancel_left]

/-- The `DET` window after the ids of passes are delivered: entry after entry, nothing beyond them. -/
theorem Memory.batch_holds (m : Memory) (xs : List Pass) :
    HoldsBytes (m.writeBytes 0x0400 (batchBytes (xs.map Pass.id))) 0x0400 (xs.flatMap fun x => romBytes x.id) ∧
      ∀ x, x < 0x0400 ∨ 0x0400 + 8 * xs.length ≤ x →
        (m.writeBytes 0x0400 (batchBytes (xs.map Pass.id))).read? x = m.read? x := by
  have hlen : (batchBytes (xs.map Pass.id)).length = 8 * xs.length := by rw [batchBytes_length, List.length_map]
  have hbytes : batchBytes (xs.map Pass.id) = xs.flatMap fun x => romBytes x.id := List.flatMap_map ..
  refine ⟨?_, fun x hx => Memory.read?_writeBytes_outside (by rw [hlen]; exact hx)⟩
  rw [← hbytes]
  exact m.writeBytes_holds _ _

/-- A pass that fails after passes that are found: of these only the record of operations and the bookmark are left. -/
theorem Regs.afterPasses_failed (r : Regs) (xs : List Pass) (ops : List LinkOp) (id : RomId) :
    { r.afterPasses xs with
      issued := (r.afterPasses xs).issued ++ ops, spdValid := true, spdOd := false, romId := id, lastDevice := true } =
    { r with
      issued := r.issued ++ (xs.flatMap Pass.ops ++ ops), spdValid := true, spdOd := false, romId := id,
      lastDisc := (r.afterPasses xs).lastDisc, lastDevice := true } := by
  cases h : xs.getLast? with
  | none =>
    rw [List.getLast?_eq_none_iff] at h
    subst h
    simp [Regs.afterPasses]
  | some x => simp [Regs.afterPasses_eq r xs h]

/-- A pass whose enumeration returns delivers the ids found and sets DETECT (R96, R129). -/
theorem runBackground_delivers {s : State} {e : Eng} {xs : List Pass} {trunc dev : Bool} {ops : List LinkOp} {id : RomId}
    {ld : BitVec 7} {rest : List Move} (hl : s.lock = false) (hq : s.seq = .idle)
    (h : enumerate (s.eng true) = .ok (xs.map Pass.id, trunc) e) (hraised : e.raised = 0) (hrest : e.script = rest)
    (hregs : e.regs = { s.toRegs with
      issued := s.issued ++ ops, spdValid := true, spdOd := false, romId := id, lastDisc := ld, lastDevice := dev }) :
    ∃ m, (HoldsBytes m 0x0400 (xs.flatMap fun x => romBytes x.id) ∧
        ∀ x, x < 0x0400 ∨ 0x0400 + 8 * xs.length ≤ x → m.read? x = s.mem.read? x) ∧
      runBackground s = .next { s.ran ops rest with
        spdValid := true, spdOd := false, romId := id, lastDisc := ld, lastDevice := dev, mem := m,
        detCount := BitVec.ofNat 6 xs.length, detTrunc := trunc, event := s.event ||| 2#32 } := by
  refine ⟨_, s.mem.batch_holds xs, ?_⟩
  have hbody : backgroundBody (s.eng true) = .ok () (e.delivered (xs.map Pass.id) trunc) := by
    unfold backgroundBody
    rw [h]
    rfl
  unfold runBackground
  rw [hbody]
  simp [State.absorb, State.ran, Eng.delivered, detAddr, hraised, hrest, hregs, hl, hq, raiseFlags, evDetect]

/-- Settles O37: the enumeration ends in one of three ways (`enumerate_last`, `enumerate_full`, `enumerate_failed`), and what it
returns is delivered (`runBackground_delivers`). -/
theorem backgroundPassDelivers : Obligations.BackgroundPassDelivers := by
  unfold Obligations.BackgroundPassDelivers
  intro s xs rest hl hq hwf hx hz hn holds
  obtain ⟨-, -, hp, -⟩ := hwf
  refine ⟨fun x hlast hs => ⟨fun h0 => ?_, fun h0 hfull => ?_⟩, ?_⟩
  · obtain ⟨l, he⟩ := enumerate_last (e := s.eng true) hp hx hz hn hlast h0 hs
    refine runBackground_delivers hl hq he rfl rfl ?_
    simp [Eng.afterPasses, Regs.afterPasses_eq _ xs hlast, Eng.searchInited, h0]
  · have hz : ∀ y ∈ xs, y.zero ≠ 0 := by
      obtain ⟨ys, rfl⟩ := List.getLast?_eq_some_iff.1 hlast
      rw [List.dropLast_concat] at hz
      exact fun y hy => (List.mem_append.1 hy).elim (hz y) fun hy => List.mem_singleton.1 hy ▸ h0
    obtain ⟨l, he⟩ := enumerate_full (e := s.eng true) hp hx hz hfull hs
    refine runBackground_delivers hl hq he rfl rfl ?_
    simp [Eng.afterPasses, Regs.afterPasses_eq _ xs hlast, Eng.searchInited, h0]
  · intro ms ops id hz hn ld hf hs
    obtain ⟨l, he⟩ := enumerate_failed (e := s.eng true) hp hx hz hn hf hs
    obtain ⟨-, hld, -⟩ := Regs.afterPasses_left (r := (s.eng true).searchInited.regs) rfl rfl hx
    refine runBackground_delivers hl hq he rfl rfl ?_
    exact (Regs.afterPasses_failed _ xs ops id).trans (by rw [hld]; rfl)

end Sys2Proof.Machine

/-! ## The line primitives, answered -/

namespace Sys2Proof.Machine

/-- In `Claimed` a line primitive with its operands in range has no check of its own (R74, R90, R175). -/
theorem line_usage {i : Instr} {s : State} (hi : i.opc.toNat / 16 = 1) (hc : s.lc = .claimed)
    (ho : operandInRange s.params i = true) : usageError i s = none := by
  cases i with
  | owReset | owSpeed | owWbit | owRbit | owWrite | owRead | owRom =>
    exact usageError_none (decide_eq_true hc) ho (fun h => nomatch h) (fun _ h => nomatch h)
  | _ => simp [Instr.opc] at hi

/-- `Reset()` whose command is answered `ok`, the busy indicator clearing after some polls or none (R104). -/
theorem busReset_clears {k : Nat} {e : Eng} {a b rest : List Move} (hk : k < e.params.pollLimit) (ha : Acks 1 a)
    (hb : Acks 1 b) (hs : e.script = a ++ (busyPolls k ++ (b ++ rest))) :
    busReset e = .ok ()
      (e.adv ([LinkOp.ctl .reset] ++ List.replicate (k + 1) LinkOp.stat) (a ++ (busyPolls k ++ b)) rest) := by
  obtain ⟨d, ms, rfl, hnil⟩ := ha.cons
  obtain rfl := hnil.nil
  unfold busReset
  rw [Prog.bind_ok (link_reply hs)]
  refine (bufferClear_clears (e := e.adv _ _ _) hk hb rfl).trans ?_
  rw [Eng.adv_adv]

/-- `Reset()` whose command is not answered `ok`: the hard reset succeeds, and the same buffer clear follows (R104, R198). -/
theorem busReset_recovers {k : Nat} {e : Eng} {r : Reply} {hm b rest : List Move} {hops : List LinkOp}
    (hk : k < e.params.pollLimit) (hr : r.failed = true) (hh : HardResetEnds e.params true hm hops) (hb : Acks 1 b)
    (hs : e.script = .reply r :: (hm ++ (busyPolls k ++ (b ++ rest)))) :
    busReset e = .ok () (e.lostSpd.adv ([LinkOp.ctl .reset] ++ hops ++ List.replicate (k + 1) LinkOp.stat)
      ([.reply r] ++ hm ++ (busyPolls k ++ b)) rest) := by
  have recover : (hardResetBounded.bind fun done => if done then bufferClear else Prog.raise .transportError)
      (e.adv [.ctl .reset] [.reply r] (hm ++ (busyPolls k ++ (b ++ rest)))) = .ok ()
      (e.lostSpd.adv ([LinkOp.ctl .reset] ++ hops ++ List.replicate (k + 1) LinkOp.stat)
        ([.reply r] ++ hm ++ (busyPolls k ++ b)) rest) := by
    refine (Prog.bind_ok (hardResetBounded_ends (e := e.adv _ _ _) hh rfl)).trans ?_
    rw [if_pos rfl, Eng.clearSpd_true, Eng.adv_lostSpd, Eng.adv_adv]
    refine (bufferClear_clears (e := e.lostSpd.adv _ _ _) hk hb rfl).trans ?_
    rw [Eng.adv_adv]
  unfold busReset
  rw [Prog.bind_ok (link_reply hs)]
  cases r with
  | ok d b => cases hr
  | fail => exact recover
  | timeout => exact recover

/-- Settles O22: `Reset()` on its normal branch (`busReset_clears`) and after a hard reset (`busReset_recovers`). -/
theorem owResetSucceeds : Obligations.OwResetSucceeds := by
  unfold Obligations.OwResetSucceeds
  intro s k n r a b rest hc hk hn ha hb
  have hu := line_usage (i := .owReset) (by decide) hc rfl
  have hw : resultWord Instr.owReset.opc ⟨.ok, .noPhase, 0⟩ = 0x10000000#32 := by decide
  refine ⟨fun hs => ?_, fun hr hs => ?_⟩
  · have h := busReset_clears (e := s.eng false) (rest := rest) hk ha hb (by simp only [State.eng_script, hs, List.append_assoc])
    exact accept_ok hu (guarded_ok (Prog.andThen_ok (y := done) h)) rfl hw rfl
  · have h := busReset_recovers (e := s.eng false) (rest := rest) hk hr (.ok n a hn ha) hb (by simp [hs])
    exact accept_ok hu (guarded_ok (Prog.andThen_ok (y := done) h)) rfl hw rfl

/-- Settles O23: each sends its one command (`setSpeed_ack`, `send_ack`). -/
theorem owSpeedAndOwWbitSucceed : Obligations.OwSpeedAndOwWbitSucceed := by
  unfold Obligations.OwSpeedAndOwWbitSucceed
  intro s f a rest hc ha hs
  refine ⟨?_, ?_⟩
  · have h := setSpeed_ack (e := s.eng false) (od := f) ha hs
    exact accept_ok (line_usage (by simp [Instr.opc]) hc rfl) (guarded_ok (Prog.andThen_ok (y := done) h)) rfl
      (resultWord_ok 0x11#8 rfl (by decide)) rfl
  · have h : writeBit f (s.eng false) = _ := send_ack ha hs
    exact accept_ok (line_usage (by simp [Instr.opc]) hc rfl) (guarded_ok (Prog.andThen_ok (y := done) h)) rfl
      (resultWord_ok 0x12#8 rfl (by decide)) rfl

/-- Settles O24: VAL is the bit `ReadBit` returns (`readBit_bytes`). -/
theorem owRbitReportsTheBit : Obligations.OwRbitReportsTheBit := by
  unfold Obligations.OwRbitReportsTheBit
  intro s b a rest hc ha hs
  obtain ⟨d, ms, rfl, hnil⟩ := ha.cons
  obtain rfl := hnil.nil
  have h := readBit_bytes (e := s.eng false) (d := d) (b := b) (rest := rest) hs
  have hw : ∀ v : Bool, resultWord Instr.owRbit.opc ⟨.ok, .noPhase, BitVec.setWidth 8 (bit v)⟩ =
      if v then 0x13000100#32 else 0x13000000#32 := by decide
  exact accept_ok (line_usage (by decide) hc rfl) (guarded_ok (Prog.bind_ok h)) rfl (hw _) rfl

/-- `Write(bytes, 0)` answered at once (R108). -/
theorem writeWire_keep_ack {e : Eng} {bytes : List Byte} {ms rest : List Move} (h : Acks 2 ms)
    (hs : e.script = ms ++ rest) :
    writeWire bytes false e = .ok () (e.adv [.bulkOut bytes, .ctl (.count bytes.length)] ms rest) := by
  obtain ⟨a, b, rfl, ha, hb⟩ := Acks.split (m := 1) (n := 1) h
  unfold writeWire
  rw [Prog.andThen_ok (send_ack ha (by rw [hs, List.append_assoc]))]
  refine (Prog.andThen_ok (send_ack (rest := rest) hb rfl)).trans ?_
  simp

/-- Acknowledgements one after another. -/
theorem Acks.append {m n : Nat} {a b : List Move} (ha : Acks m a) (hb : Acks n b) : Acks (m + n) (a ++ b) := by
  obtain ⟨hal, ha⟩ := ha
  obtain ⟨hbl, hb⟩ := hb
  refine ⟨by rw [List.length_append, hal, hbl], fun x hx => ?_⟩
  rcases List.mem_append.1 hx with hx | hx
  · exact ha x hx
  · exact hb x hx

/-- OW_WRITE whose payload holds values and whose `Write` returns (R108). -/
theorem exec_owWrite {s : State} {n : Byte} {c : Bool} {bytes : List Byte} {ops : List LinkOp} {ms rest : List Move}
    (hc : s.lc = .claimed) (hn : n ≠ 0) (hl : bytes.length = n.toNat) (hm : HoldsBytes s.mem 0x0100 bytes)
    (h : writeWire bytes c (s.eng false) = .ok () ((s.eng false).adv ops ms rest)) :
    exec (.owWrite n c) s = .next ((s.ran ops rest).completed 0x14000000#32) := by
  have hbody := (Prog.bind_ok (f := fun bytes => (writeWire bytes c).andThen done)
    (loadBytes_holds (e := s.eng false) hl hm)).trans (Prog.andThen_ok h)
  exact accept_ok (line_usage (by simp [Instr.opc]) hc (by simpa [operandInRange, Instr.wf] using hn))
    (guarded_ok hbody) rfl (resultWord_ok 0x14#8 rfl (by decide)) rfl

/-- Settles O25: `Write` without its drain (`writeWire_keep_ack`) and with it (`writeWire_ack`). -/
theorem owWriteSendsTxbuf : Obligations.OwWriteSendsTxbuf := by
  unfold Obligations.OwWriteSendsTxbuf
  intro s n bytes a b rest hc hn hl hm ha hb
  rw [← hl]
  exact ⟨fun hs => exec_owWrite hc hn hl hm (writeWire_keep_ack ha hs),
    fun hs => exec_owWrite hc hn hl hm (writeWire_ack (ha.append hb) hs)⟩

/-- The result word of a completion with OK and a value (R25, R170). -/
theorem resultWord_value (opc v : Byte) : resultWord opc ⟨.ok, .noPhase, v⟩ = opc ++ 0x00#8 ++ v ++ 0x00#8 := by
  refine BitVec.eq_of_getLsbD_eq fun i hi => ?_
  simp only [resultWord_getLsbD, BitVec.getLsbD_append]
  by_cases h8 : i < 8
  · simp [h8, Err.code, Phase.code]
  have h4 : ¬i < 4 := by omega
  have h7 : ¬i < 7 := by omega
  by_cases h16 : i < 16
  · simp [h4, h7, h8, h16, show i - 8 < 8 by omega]
  by_cases h24 : i < 24
  · simp [h4, h7, h8, h16, h24, show ¬i - 8 < 8 by omega, show i - 8 - 8 < 8 by omega]
  · simp [h4, h7, h8, h16, h24, show ¬i - 8 < 8 by omega, show ¬i - 8 - 8 < 8 by omega,
      show i - 8 - 8 - 8 = i - 24 by omega]

/-- Settles O26: what the one bulk read returns (`readBulk_bytes`) is stored from `RXBUF[0]` on. -/
theorem owReadStoresWhatArrives : Obligations.OwReadStoresWhatArrives := by
  unfold Obligations.OwReadStoresWhatArrives
  intro s n d rest hc hn hl hs
  refine ⟨s.mem.writeBytes 0x0200 d, ?_, s.mem.writeBytes_holds _ _, fun x hx => Memory.read?_writeBytes_outside hx⟩
  have h := readBulk_bytes (e := s.eng false) hl hs
  exact accept_ok (line_usage (by simp [Instr.opc]) hc (by simpa [operandInRange, Instr.wf] using hn))
    (guarded_ok (Prog.bind_ok h)) rfl (resultWord_value 0x15#8 _) rfl

end Sys2Proof.Machine

/-! ## Frame of the line primitives -/

namespace Sys2Proof.Machine

/-- The registers without those a line primitive may change, the record of operations among them, and without `RX_LEN` and the
buffers. -/
def Regs.exceptLine (r : Regs) : Regs :=
  { r with issued := [], spdValid := false, spdOd := false, result := 0, rxLen := 0, mem := [] }

/-- What every line primitive but OW_READ keeps: `RX_LEN` and the buffers as well (R104 to R108, R110). -/
def Regs.exceptSpeed (r : Regs) : Regs × Byte × Memory := (r.exceptLine, r.rxLen, r.mem)

/-- What OW_READ n keeps: the other registers and the bytes outside `RXBUF[0..n-1]` (R109). -/
def Regs.exceptRead (n : Byte) (r : Regs) : Regs × (Nat → Option Byte) :=
  (r.exceptLine, fun x => if x < 0x0200 ∨ 0x0200 + n.toNat ≤ x then r.mem.read? x else none)

theorem Law.exceptSpeed_line : (Law.view Regs.exceptSpeed (id : Word → Word)).Line :=
  Law.view_line fun _ _ _ _ => rfl

/-- Every line primitive but OW_READ keeps that view. -/
theorem Law.exceptSpeed_allows {i : Instr} (hi : i.opc.toNat / 16 = 1) (hr : ∀ n, i ≠ .owRead n) :
    (Law.view Regs.exceptSpeed (id : Word → Word)).Allows i := by
  cases i with
  | owReset | owSpeed | owWbit | owRbit | owRom => exact Law.exceptSpeed_line
  | owWrite n c => exact ⟨Law.exceptSpeed_line, fun _ _ _ _ => trivial⟩
  | owRead n => exact absurd rfl (hr n)
  | _ => simp [Instr.opc] at hi

/-- A store of at most `n` bytes from `RXBUF[0]` on, and of `RX_LEN`, is not seen by OW_READ n's view. -/
theorem Regs.exceptRead_stored (r : Regs) {n : Byte} {d : List Byte} (len : Byte) (hd : d.length ≤ n.toNat) :
    Regs.exceptRead n { r with mem := r.mem.writeBytes (rxAddr 0) d, rxLen := len } = r.exceptRead n := by
  refine Prod.ext rfl (funext fun x => ?_)
  by_cases hx : x < 0x0200 ∨ 0x0200 + n.toNat ≤ x
  · simp only [Regs.exceptRead, if_pos hx]
    exact Memory.read?_writeBytes_outside (by unfold rxAddr; omega)
  · simp only [Regs.exceptRead, if_neg hx]

/-- OW_READ keeps its view. -/
theorem Law.exceptRead_allows (n : Byte) : (Law.view (Regs.exceptRead n) (id : Word → Word)).Allows (.owRead n) :=
  ⟨Law.view_line fun _ _ _ _ => rfl, fun e _ hd => ⟨rfl, rfl, e.regs.exceptRead_stored _ hd⟩⟩

/-- A view of the registers that a line primitive's law keeps, and the rest of the state but the lock, the sequencer, DONE and the
moves consumed. -/
theorem exec_line_view {β : Type} {f : Regs → β} {i : Instr} {s t : State} (hi : i.opc.toNat / 16 = 1)
    (ha : (Law.view f (id : Word → Word)).Allows i) (hr : ∀ r w, f { r with result := w } = f r)
    (h : exec i s = .next t) :
    f t.toRegs = f s.toRegs ∧ t.params = s.params ∧ t.port = s.port ∧ t.hostRead = s.hostRead ∧
      t.searching = s.searching ∧ ∀ k, 1 ≤ k → t.event.getLsbD k = s.event.getLsbD k := by
  have hb : Instr.usesBus i = true := by
    cases i with
    | srchStart | crc16Clr | crc16Byte | crc16Chk | crc16Gen => simp [Instr.opc] at hi
    | _ => rfl
  have hc : i = .close → s.lc ≠ .closed := by
    rintro rfl
    simp [Instr.opc] at hi
  obtain ⟨hregs, hparams, hport, hread, hsearching, w, hw, hevent⟩ := exec_view hb ha hr hc h
  obtain rfl : w = 0 := hw
  exact ⟨hregs, hparams, hport, hread, hsearching, fun k hk => event_bit hk BitVec.getLsbD_zero hevent⟩

/-- What a line primitive leaves as it was (R104 to R110). -/
structure LineFrame (i : Instr) (s t : State) : Prop where
  regs : t.toRegs.exceptLine = s.toRegs.exceptLine
  params : t.params = s.params
  port : t.port = s.port
  hostRead : t.hostRead = s.hostRead
  searching : t.searching = s.searching
  event : ∀ k, 1 ≤ k → t.event.getLsbD k = s.event.getLsbD k
  rxLen : (∀ n, i ≠ .owRead n) → t.rxLen = s.rxLen
  mem : ∀ x, (∀ n, i = .owRead n → x < 0x0200 ∨ 0x0200 + n.toNat ≤ x) → t.mem.read? x = s.mem.read? x

/-- However it ends: by the view that OW_READ keeps, or by the one the others do. -/
theorem exec_lineFrame {i : Instr} {s t : State} (hi : i.opc.toNat / 16 = 1) (h : exec i s = .next t) :
    LineFrame i s t := by
  by_cases hr : ∀ n, i ≠ .owRead n
  · obtain ⟨hview, hparams, hport, hread, hsearching, hevent⟩ :=
      exec_line_view hi (Law.exceptSpeed_allows hi hr) (fun _ _ => rfl) h
    simp only [Regs.exceptSpeed, Prod.mk.injEq] at hview
    obtain ⟨hregs, hrx, hmem⟩ := hview
    exact ⟨hregs, hparams, hport, hread, hsearching, hevent, fun _ => hrx, fun x _ => by rw [hmem]⟩
  · push Not at hr
    obtain ⟨n, rfl⟩ := hr
    obtain ⟨hview, hparams, hport, hread, hsearching, hevent⟩ :=
      exec_line_view hi (Law.exceptRead_allows n) (fun _ _ => rfl) h
    simp only [Regs.exceptRead, Prod.mk.injEq] at hview
    obtain ⟨hregs, hmem⟩ := hview
    refine ⟨hregs, hparams, hport, hread, hsearching, hevent, fun hn => absurd rfl (hn n), fun x hx => ?_⟩
    simpa only [if_pos (hx n rfl)] using congrFun hmem x

/-- Settles O29: the views the line primitives keep, however they end (`exec_lineFrame`). -/
theorem linePrimitivesFrame : Obligations.LinePrimitivesFrame := by
  unfold Obligations.LinePrimitivesFrame
  intro i s t h1 h2 h
  obtain ⟨hregs, hparams, hport, hread, hsearching, hevent, hrx, hmem⟩ := exec_lineFrame (by omega) h
  simp only [Regs.exceptLine, Regs.mk.injEq, true_and] at hregs
  obtain ⟨hlc, htarget, hrom, hcrc, hdisc, hdevice, hatt, hpagesA, hpagesB, hcount, htrunc, -⟩ := hregs
  exact ⟨hlc, htarget, hrom, hcrc, hdisc, hdevice, hatt, hpagesA, hpagesB, hcount, htrunc, hsearching, hparams, hport,
    hread, hevent, hrx, hmem⟩

end Sys2Proof.Machine

/-! ## PG_WRITE and RG_WRITE: the cycle of a payload -/

namespace Sys2Proof.Machine

/-- The sequencer once a writing command has started: the first attempt, phase `write` (R142, R143). -/
def State.writing (s : State) : Eng := ((s.eng false).setAtt 1#4).setLoc (Locals.start.withPhase .write)

/-- RG_WRITE's byte count being 1 to 32, it has no check of its own (R74, R175). -/
theorem rgWrite_usage {s : State} (h l : Byte) {n : Byte} (hc : s.lc = .claimed) (h1 : 1 ≤ n.toNat) (h32 : n.toNat ≤ 32) :
    usageError (.rgWrite h l n) s = none := by
  refine usageError_none (decide_eq_true hc) ?_ (fun h => nomatch h) (fun _ h => nomatch h)
  have hn : n ≠ 0#8 := by
    rintro rfl
    simp at h1
  simp [operandInRange, Instr.wf, hn, h32]

/-- Pseudocode that runs alike goes on alike. -/
theorem Prog.andThen_congr {β : Type} {x x' : Prog Unit} {y : Prog β} {e : Eng} (h : x e = x' e) :
    x.andThen y e = x'.andThen y e := by
  simp only [Prog.andThen, Prog.bind, h]

/-- What the body of a writing command does once its payload is loaded: one scratchpad cycle (R142, R143). -/
structure WritesPayload (i : Instr) (s : State) (off : Half) (data : List Byte) (d : Bool) : Prop where
  usage : usageError i s = none
  runs : ∃ body, exec i s = accept i (guarded false body) s ∧
    body (s.eng false) = ((scratchpadCycle off data d).andThen done) s.writing

/-- PG_WRITE loads its page of `IMG_A` (R142). -/
theorem WritesPayload.pgWrite {s : State} {p : Byte} {d : Bool} {data : List Byte} (hc : s.lc = .claimed)
    (hlen : data.length = 32) (hm : HoldsBytes s.mem (0x2000 + 32 * p.toNat) data) :
    WritesPayload (.pgWrite p d) s (pageOff p.toNat) data d :=
  ⟨pgWrite_usage p d hc, _, rfl, Prog.andThen_congr (e := s.writing) (Prog.bind_ok (loadBytes_holds hlen hm))⟩

/-- RG_WRITE loads `TXBUF[0..n-1]` (R143). -/
theorem WritesPayload.rgWrite {s : State} {h l n : Byte} {data : List Byte} (hc : s.lc = .claimed) (h1 : 1 ≤ n.toNat)
    (h32 : n.toNat ≤ 32) (hlen : data.length = n.toNat) (hm : HoldsBytes s.mem 0x0100 data) :
    WritesPayload (.rgWrite h l n) s (h ++ l) data false :=
  ⟨rgWrite_usage h l hc h1 h32, _, rfl, Prog.bind_ok (e := s.writing) (loadBytes_holds hlen hm)⟩

/-- The result word of a completion with VERIFY_FAILED (R170, R172). -/
theorem resultWord_verifyFailed {i : Instr} {w : Word} (opc : Byte) (hi : i.opc = opc) (h : opc ++ 0x000054#24 = w) :
    resultWord i.opc ⟨.verifyFailed, .verify, 0⟩ = w := by
  rw [hi, ← h]
  exact resultWord_append (by decide)

section

variable {i : Instr} {s : State} {off : Half} {d : Bool} {xs : List Mismatch} {bad rest : List Move} {w : Word}
  (hwf : s.params.wf)

include hwf

/-- The command whose cycle's read-back matches after some mismatches (R141). -/
theorem WritesPayload.commits {pre back : List (List Byte)} {good : List Move}
    (hi : WritesPayload i s off back.flatten d) (hx : xs.length < s.params.retryAttempts)
    (hbad : MismatchReplies s.params back.flatten xs bad) (hgood : CycleReplies s.params pre back good)
    (hs : s.inputs = bad ++ good ++ rest) (hw : resultWord i.opc ⟨.ok, .noPhase, 0⟩ = w) :
    exec i s = .next ({ s.ran (mismatchOps s.params s.targetId off back.flatten d xs ++
      cycleOps s.params s.targetId off pre back d) rest with
      att := BitVec.ofNat 4 (xs.length + 1), spdValid := true, spdOd := d }.completed w) := by
  obtain ⟨hu, body, hexec, hbody⟩ := hi
  obtain ⟨l, hl⟩ := scratchpadCycle_commits (e := s.writing) (off := off) (d := d) (rest := rest) hwf
    (by change 1 + xs.length ≤ s.params.retryAttempts; omega) (Nat.le_refl 1) hbad hgood hs
  have hatt : 1#4 + BitVec.ofNat 4 xs.length = BitVec.ofNat 4 (xs.length + 1) := by
    rw [Nat.add_comm, BitVec.ofNat_add]
  rw [hexec, ← hatt]
  exact accept_ok hu (guarded_ok (hbody.trans (Prog.andThen_ok hl))) rfl hw rfl

/-- The command whose cycle's read-back differs at every attempt: no copy command, no hard reset (R144, R172). -/
theorem WritesPayload.fails {data : List Byte} (hi : WritesPayload i s off data d)
    (hx : xs.length = s.params.retryAttempts) (hbad : MismatchReplies s.params data xs bad)
    (hs : s.inputs = bad ++ rest) (hw : resultWord i.opc ⟨.verifyFailed, .verify, 0⟩ = w) :
    exec i s = .next ({ s.ran (mismatchOps s.params s.targetId off data d xs) rest with
      att := BitVec.ofNat 4 s.params.retryAttempts, spdValid := true, spdOd := d }.completed w) := by
  obtain ⟨hu, body, hexec, hbody⟩ := hi
  have hne : xs ≠ [] := by
    rintro rfl
    have := hwf.1.1
    simp at hx
    omega
  obtain ⟨l, hl⟩ := scratchpadCycle_fails (e := s.writing) (off := off) (d := d) (rest := rest) hwf hne
    (by change 1 + xs.length = s.params.retryAttempts + 1; omega) (Nat.le_refl 1) hbad hs
  rw [hexec]
  exact accept_ok hu (guarded_raise (hbody.trans (Prog.andThen_raise hl))) rfl hw rfl

end

/-- Settles O41: PG_WRITE's one cycle fails (`WritesPayload.fails`). -/
theorem pgWriteVerifyFailedSendsNoCopy : Obligations.PgWriteVerifyFailedSendsNoCopy := by
  unfold Obligations.PgWriteVerifyFailedSendsNoCopy
  intro s p d data xs bad rest hc hwf hlen hm hx hbad hs
  exact (WritesPayload.pgWrite hc hlen hm).fails hwf hx hbad hs (resultWord_verifyFailed 0x30#8 rfl (by decide))

/-- Settles O42: RG_WRITE's one cycle commits or fails (`WritesPayload.commits`, `WritesPayload.fails`). -/
theorem rgWriteWritesRegion : Obligations.RgWriteWritesRegion := by
  unfold Obligations.RgWriteWritesRegion
  intro s h l n data pre back xs bad good rest hc hwf h1 h32 hlen hm hbad
  have hi := WritesPayload.rgWrite (h := h) (l := l) hc h1 h32 hlen hm
  refine ⟨fun hx hback hgood hs => ?_, fun hx hs => ?_⟩
  · subst hback
    exact hi.commits hwf hx hbad hgood hs (resultWord_ok 0x31#8 rfl (by decide))
  · exact hi.fails hwf hx hbad hs (resultWord_verifyFailed 0x31#8 rfl (by decide))

end Sys2Proof.Machine

/-! ## MEM_WRITEALL and MEM_WRITEDIFF at their first attempt -/

namespace Sys2Proof.Machine

section

variable {i : Instr} {body : Prog Completion} {s : State} {f : Bool} {js : List PageJob} {ops : List LinkOp}
  {ms rest : List Move} {l : Locals} {w : Word} (hi : RetriedWrite i body) (hu : usageError i s = none)

include hi hu

/-- A body that writes its pages completes the command (R152, R153). -/
theorem RetriedWrite.exec_wrote (h : body ((s.eng false).setAtt 1#4) =
      .ok ⟨.ok, .noPhase, 0⟩ ((((s.eng false).setAtt 1#4).wrote f js l).adv ops ms rest))
    (hw : resultWord i.opc ⟨.ok, .noPhase, 0⟩ = w) :
    exec i s = .next ({ s.ran ops rest with
      att := BitVec.ofNat 4 (1 + missesOf js), spdValid := if js = [] then s.spdValid else true,
      spdOd := if js = [] then s.spdOd else f }.completed w) := by
  rw [hi.runs]
  refine accept_ok hu (retried_ok h) ?_ hw ?_
  · rw [Eng.adv_raised, Eng.wrote_raised]
    rfl
  · rw [Eng.adv_regs, Eng.wrote_regs, BitVec.ofNat_add]
    rfl

/-- A body whose last page uses up the attempts completes it with VERIFY_FAILED (R144, R172). -/
theorem RetriedWrite.exec_exhausted (h : body ((s.eng false).setAtt 1#4) = .raise .verifyFailed
      ((((((s.eng false).setAtt 1#4).setAtt (BitVec.ofNat 4 s.params.retryAttempts)).setSpd f).setLoc l).adv ops ms rest))
    (hw : resultWord i.opc ⟨.verifyFailed, .verify, 0⟩ = w) :
    exec i s = .next ({ s.ran ops rest with
      att := BitVec.ofNat 4 s.params.retryAttempts, spdValid := true, spdOd := f }.completed w) := by
  rw [hi.runs]
  exact accept_ok hu (retried_verifyFailed h) rfl hw rfl

end

/-- MEM_WRITEALL has no operand out of range and no check of its own (R175). -/
theorem memWriteall_usage {s : State} (f : Bool) (hc : s.lc = .claimed) : usageError (.memWriteall f) s = none :=
  usageError_none (decide_eq_true hc) rfl (fun h => nomatch h) (fun _ h => nomatch h)

/-- MEM_WRITEDIFF of images with as many pages (R153, R175). -/
theorem memWritediff_usage {s : State} (f : Bool) (hc : s.lc = .claimed) (hn : s.npagesA = s.npagesB) :
    usageError (.memWritediff f) s = none :=
  usageError_none (decide_eq_true hc) rfl (fun h => nomatch h) (fun _ _ => hn)

/-- Settles O46: the body writes its pages (`writeallBody_ack`) or one of them uses up the attempts (`writeallBody_fails`). -/
theorem memWriteallWritesEveryPage : Obligations.MemWriteallWritesEveryPage := by
  unfold Obligations.MemWriteallWritesEveryPage
  intro s f js ms rest hc hwf hj hms
  have hi := RetriedWrite.writeall f
  have hu := memWriteall_usage f hc
  refine ⟨fun hjs hatt hs => ?_, fun k data xs bad hjs hk hlen hm hx hbad hatt hs => ?_⟩
  · obtain ⟨l, hl⟩ := writeallBody_ack (e := (s.eng false).setAtt 1#4) (f := f) hwf (Nat.le_refl 1) hatt hjs hj hms hs
    exact hi.exec_wrote hu hl (resultWord_ok 0x39#8 rfl (by decide))
  · obtain ⟨l, hl⟩ := writeallBody_fails (e := (s.eng false).setAtt 1#4) (f := f) hwf (Nat.le_refl 1) hx
      (by change 1 + missesOf js + xs.length = s.params.retryAttempts + 1; omega) hjs hk hj hlen hm hms hbad hs
    exact hi.exec_exhausted hu hl (resultWord_verifyFailed 0x39#8 rfl (by decide))

/-- Settles O47: the body writes the pages that differ (`writediffBody_ack`) or one of them uses up the attempts
(`writediffBody_fails`). -/
theorem memWritediffWritesChangedPages : Obligations.MemWritediffWritesChangedPages := by
  unfold Obligations.MemWritediffWritesChangedPages
  intro s f new old js ms rest hc hwf hn himg hj hms
  have hi := RetriedWrite.writediff f
  have hu := memWritediff_usage f hc hn
  refine ⟨fun hjs hatt hs => ?_, fun k xs bad hjs hk hne hx hbad hatt hs => ?_⟩
  · obtain ⟨l, hl⟩ := writediffBody_ack (e := (s.eng false).setAtt 1#4) (f := f) hwf (Nat.le_refl 1) hatt himg hjs hj hms hs
    exact hi.exec_wrote hu hl (resultWord_ok 0x3A#8 rfl (by decide))
  · obtain ⟨l, hl⟩ := writediffBody_fails (e := (s.eng false).setAtt 1#4) (f := f) hwf (Nat.le_refl 1) hx
      (by change 1 + missesOf js + xs.length = s.params.retryAttempts + 1; omega) himg hjs hk hne hj hms hbad hs
    exact hi.exec_exhausted hu hl (resultWord_verifyFailed 0x3A#8 rfl (by decide))

/-- The one page below `n` with a property that only `k` has. -/
theorem range_filter_eq_singleton {n k : Nat} {q : Nat → Prop} [DecidablePred q] (hk : k < n) (h : ∀ j < n, q j ↔ j = k) :
    (List.range n).filter (fun j => q j) = [k] := by
  have hcongr : (List.range n).filter (fun j => q j) = (List.range n).filter (· == k) :=
    List.filter_congr fun j hj => decide_eq_decide.2 (h j (List.mem_range.1 hj))
  rw [hcongr, List.filter_beq, List.count_eq_one_of_mem List.nodup_range (List.mem_range.2 hk)]
  rfl

/-- Settles O48: MEM_WRITEDIFF with the one page job of page `k` (`memWritediffWritesChangedPages`). -/
theorem diffMinimality : Obligations.DiffMinimality := by
  unfold Obligations.DiffMinimality
  intro s f new old k pre back ms rest hc hwf ha hb hk himg hdiff hback hms hs
  have hn : s.npagesA.toNat = 256 := by rw [ha]; rfl
  obtain ⟨h, -⟩ := memWritediffWritesChangedPages s f new old [⟨k, [], pre, back⟩] ms rest hc hwf (ha.trans hb.symm)
    (by rwa [hn]) (by simpa [PageJob.data] using hback) ⟨[], ms, [], rfl, hms, rfl, by simp⟩
  have hx := h (by rw [hn, range_filter_eq_singleton hk hdiff]; rfl) hwf.1.1 hs
  simpa [pagesOps, mismatchOps, pageOff] using hx

end Sys2Proof.Machine

/-! ## The 8-bit CRC of a ROM id -/

namespace Sys2Proof.Machine

/-- `Crc8` takes its bytes in order: the last one goes into the register the others leave (R121). -/
theorem crc8_concat (poly : Byte) (bytes : List Byte) (b : Byte) :
    crc8 poly (bytes ++ [b]) = crc8Step poly (crc8 poly bytes) b := List.foldl_concat ..

/-- Settles O30: the last byte's step gives 0 exactly on the register before it (`crc8Step_eq_zero`). -/
theorem crc8ValidatesExactlyItsOwnCrcByte : Obligations.Crc8ValidatesExactlyItsOwnCrcByte := by
  unfold Obligations.Crc8ValidatesExactlyItsOwnCrcByte
  intro poly bytes b hp
  rw [crc8_concat]
  exact crc8Step_eq_zero hp

end Sys2Proof.Machine

/-! ## SRCH_FIRST and SRCH_NEXT, answered -/

namespace Sys2Proof.Machine

/-- A search command in `Claimed`; SRCH_NEXT has a check of its own, the NO_NEXT of R126 (R90, R175). -/
theorem search_usage {i : Instr} {s : State} (hi : i.opc.toNat / 16 = 2) (hc : s.lc = .claimed)
    (hd : i = .srchNext → s.lastDevice = false) : usageError i s = none := by
  cases i with
  | srchFirst | srchNext | srchEnum =>
    exact usageError_none (decide_eq_true hc) rfl hd (fun _ h => nomatch h)
  | _ => simp [Instr.opc] at hi

/-- The result word of a completion with SEARCH_FAILED, phase `search` (R170, R171, R174). -/
theorem resultWord_searchFailed (opc : Byte) : resultWord opc ⟨.searchFailed, .search, 0⟩ = opc ++ 0x000026#24 :=
  resultWord_append (by decide)

/-- The sequencer once a search command has started: phase `search` (R174). -/
def State.inSearch (s : State) : Eng := (s.eng false).setLoc (Locals.start.withPhase .search)

/-- The sequencer at the pass of SRCH_FIRST or SRCH_NEXT: the id and the bookmark it starts from (R125, R126). -/
def State.atPass (s : State) (old : RomId) (ld : BitVec 7) : Eng :=
  { s.inSearch with regs := { s.toRegs with romId := old, lastDisc := ld, lastDevice := false } }

/-- What SRCH_FIRST and SRCH_NEXT do: one pass, from the id `old` and the bookmark `ld` (R125, R126). -/
structure RunsPass (i : Instr) (s : State) (old : RomId) (ld : BitVec 7) : Prop where
  usage : usageError i s = none
  runs : ∃ body, exec i s = accept i (guarded true body) s ∧ body (s.eng false) = passBody (s.atPass old ld)

/-- SRCH_FIRST starts from an empty id and no bookmark (R125). -/
theorem RunsPass.srchFirst {s : State} (hc : s.lc = .claimed) : RunsPass .srchFirst s 0#64 0#7 :=
  ⟨search_usage rfl hc (fun h => nomatch h), _, rfl, rfl⟩

/-- SRCH_NEXT goes on from the id and the bookmark of the pass before (R126). -/
theorem RunsPass.srchNext {s : State} (hc : s.lc = .claimed) (hd : s.lastDevice = false) :
    RunsPass .srchNext s s.romId s.lastDisc := by
  have hregs : s.toRegs = { s.toRegs with lastDevice := false } := by rw [← hd]
  exact ⟨search_usage rfl hc fun _ => hd, _, rfl, congrArg (fun r => passBody { s.inSearch with regs := r }) hregs⟩

section

variable {i : Instr} {s : State} {old id : RomId} {ld : BitVec 7} {rest : List Move} (hi : RunsPass i s old ld)
  (hp : 1 ≤ s.params.pollLimit)

include hi hp

/-- Its pass is found: OK, with the pass's bookkeeping (R123). -/
theorem RunsPass.found {x : Pass} (hx : x.FoundFrom s.params old ld.toNat) (hs : s.inputs = x.replies ++ rest) :
    exec i s = .next ({ s.ran x.ops rest with
      spdValid := true, spdOd := false, romId := x.id, lastDisc := BitVec.ofNat 7 x.zero,
      lastDevice := decide (x.zero = 0) }.completed (i.opc ++ 0x000000#24)) := by
  obtain ⟨hu, body, hexec, hbody⟩ := hi
  obtain ⟨l, hl⟩ := searchPass_found (e := s.atPass old ld) hp hx hs
  rw [hexec]
  exact accept_ok hu (guarded_ok (hbody.trans (Prog.bind_ok hl))) rfl (resultWord_ok i.opc rfl rfl) rfl

/-- Its pass fails: SEARCH_FAILED, with the id the pass leaves; no hard reset follows (R124). -/
theorem RunsPass.failed {ms : List Move} {ops : List LinkOp} (hf : FailedPass s.params old ld.toNat ms ops id)
    (hs : s.inputs = ms ++ rest) :
    exec i s = .next ({ s.ran ops rest with
      spdValid := true, spdOd := false, romId := id, lastDisc := ld, lastDevice := true }.completed
        (i.opc ++ 0x000026#24)) := by
  obtain ⟨hu, body, hexec, hbody⟩ := hi
  obtain ⟨l, hl⟩ := searchPass_failed (e := s.atPass old ld) hp hf hs
  rw [hexec]
  exact accept_ok hu (guarded_ok (hbody.trans (Prog.bind_ok hl))) rfl (resultWord_searchFailed i.opc) rfl

/-- Its pass is answered at every position: the id that the direction rule assembles is found or not as it validates
(R122 to R124). -/
theorem RunsPass.walked {bits : List (Bool × Bool)} {pre : List Move} (hlen : bits.length = 64)
    (hb : ∀ bc ∈ bits, bc ≠ (true, true)) (hpre : Acks 6 pre)
    (hbit : ∀ k bc, 1 ≤ k → bits[k - 1]? = some bc → romBit id k = direction bc.1 bc.2 k ld.toNat (romBit old k))
    (hs : s.inputs = pre ++ bits.flatMap positionReplies ++ rest) :
    (validId s.params.crc8Poly id = true → ∃ lz, LastZero bits id lz ∧ lz ≤ 64 ∧
      exec i s = .next ({ s.ran (searchOps ++ walkOps id) rest with
        spdValid := true, spdOd := false, romId := id, lastDisc := BitVec.ofNat 7 lz,
        lastDevice := decide (lz = 0) }.completed (i.opc ++ 0x000000#24))) ∧
    (validId s.params.crc8Poly id = false →
      exec i s = .next ({ s.ran (searchOps ++ walkOps id) rest with
        spdValid := true, spdOd := false, romId := id, lastDisc := ld, lastDevice := true }.completed
          (i.opc ++ 0x000026#24))) := by
  have hassembles : Assembles old ld.toNat bits id := fun k h1 h64 => by
    have hk : bits[k - 1]? = some bits[k - 1] := List.getElem?_eq_getElem (by omega)
    rw [hk]
    exact hbit k _ h1 hk
  refine ⟨fun hv => ?_, fun hv => hi.failed hp (.invalid pre bits id hpre hlen hb hassembles hv) hs⟩
  obtain ⟨hz, h64⟩ := walk_lastZero hlen hb (hassembles.walk hlen.le)
  exact ⟨_, hz, h64, hi.found hp (x := ⟨pre, bits, id, _⟩) ⟨hpre, hlen, hb, hbit, hv, hz⟩ hs⟩

end

/-- Settles O31: SRCH_NEXT's pass walks by the direction rule from the bookmark (`walkId_direction`, `RunsPass.walked`). -/
theorem srchNextFollowsTheBookmark : Obligations.SrchNextFollowsTheBookmark := by
  unfold Obligations.SrchNextFollowsTheBookmark
  intro s bits pre rest hc hwf hd _ hlen hb hpre hs
  obtain ⟨-, -, hp, -⟩ := hwf
  have hbit := fun k bc => walkId_direction (ld := s.lastDisc.toNat) (id0 := s.romId) hlen (k := k) (bc := bc)
  exact ⟨_, hbit, (RunsPass.srchNext hc hd).walked hp hlen hb hpre hbit hs⟩

/-- With no bookmark the direction taken is the id bit read (R125). -/
theorem direction_zero {bc : Bool × Bool} {k : Nat} (hk : 1 ≤ k) (h : bc ≠ (true, true)) (old : Bool) :
    direction bc.1 bc.2 k 0 old = bc.1 := by
  by_cases hbc : bc.1 = bc.2
  · have h0 : bc.1 = false := by
      by_contra ht
      rw [Bool.not_eq_false] at ht
      exact h (Prod.ext ht (hbc.symm.trans ht))
    rw [direction, if_neg (not_not.2 hbc), if_neg (Nat.not_lt_zero k), h0]
    exact decide_eq_false (by omega)
  · exact if_pos hbc

/-- Settles O32: SRCH_FIRST's pass walks with no bookmark, where the direction rule gives the bits read (`direction_zero`). -/
theorem srchFirstTakesZeroAtDiscrepancies : Obligations.SrchFirstTakesZeroAtDiscrepancies := by
  unfold Obligations.SrchFirstTakesZeroAtDiscrepancies
  intro s bits id pre rest hc hwf hlen hb hbit hpre hs
  obtain ⟨-, -, hp, -⟩ := hwf
  refine (RunsPass.srchFirst hc).walked hp hlen hb hpre (fun k bc hk hbc => ?_) hs
  exact (hbit k bc hk hbc).trans (direction_zero hk (hb bc (List.mem_of_getElem? hbc)) _).symm

/-- Settles O33: the one pass of both commands fails (`RunsPass.failed`). -/
theorem noResponderFailsThePass : Obligations.NoResponderFailsThePass := by
  unfold Obligations.NoResponderFailsThePass
  intro s ms rest ops id hc hwf hs
  obtain ⟨-, -, hp, -⟩ := hwf
  exact ⟨fun hd hf => (RunsPass.srchNext hc hd).failed hp hf hs, fun hf => (RunsPass.srchFirst hc).failed hp hf hs⟩

end Sys2Proof.Machine

/-! ## SRCH_ENUM, answered -/

namespace Sys2Proof.Machine

/-- A command whose body returns has completed, with the event flags its body raised (R170, R177). -/
theorem runCommand_raising {i : Instr} {body : Prog Completion} {s : State} {c : Completion} {e : Eng}
    (h : body (s.eng false) = .ok c e) :
    runCommand i body s = .next ({ s with
      toRegs := e.regs, inputs := e.script, event := s.event ||| e.raised }.completed (resultWord i.opc c)) := by
  have hdone : s.event &&& ~~~1#32 ||| 1#32 = s.event ||| 1#32 := congrArg State.event (s.clearDone_completed 0)
  have hevent : s.event &&& ~~~1#32 ||| e.raised ||| 1#32 = s.event ||| e.raised ||| 1#32 := by
    rw [BitVec.or_assoc, BitVec.or_comm e.raised, ← BitVec.or_assoc, hdone, BitVec.or_assoc, BitVec.or_comm 1#32,
      ← BitVec.or_assoc]
  unfold runCommand
  rw [h]
  simp only [State.complete, State.absorb, State.clearDone, State.completed, raiseFlags, clearFlags, evDone, hevent]

/-- SRCH_ENUM whose enumeration returns delivers the ids found and sets DETECT (R128, R129). -/
theorem exec_srchEnum_delivers {s : State} {e : Eng} {xs : List Pass} {trunc dev : Bool} {ops : List LinkOp}
    {id : RomId} {ld : BitVec 7} {rest : List Move} (hc : s.lc = .claimed)
    (h : enumerate s.inSearch = .ok (xs.map Pass.id, trunc) e) (hraised : e.raised = 0)
    (hrest : e.script = rest)
    (hregs : e.regs = { s.toRegs with
      issued := s.issued ++ ops, spdValid := true, spdOd := false, romId := id, lastDisc := ld, lastDevice := dev }) :
    ∃ m, (HoldsBytes m 0x0400 (xs.flatMap fun x => romBytes x.id) ∧
        ∀ x, x < 0x0400 ∨ 0x0400 + 8 * xs.length ≤ x → m.read? x = s.mem.read? x) ∧
      exec .srchEnum s = .next ({ s.ran ops rest with
        spdValid := true, spdOd := false, romId := id, lastDisc := ld, lastDevice := dev, mem := m,
        detCount := BitVec.ofNat 6 xs.length, detTrunc := trunc, event := s.event ||| 2#32 }.completed
          ((0x2200#16 : Half) ++ BitVec.ofNat 8 xs.length ++ 0x00#8)) := by
  refine ⟨_, s.mem.batch_holds xs, ?_⟩
  have hbody : ((setPhase .search).andThen enumBody) (s.eng false) =
      .ok ⟨.ok, .noPhase, BitVec.ofNat 8 (xs.map Pass.id).length⟩ (e.delivered (xs.map Pass.id) trunc) :=
    Prog.bind_ok h
  have hu : usageError .srchEnum s = none := search_usage rfl hc (fun h => nomatch h)
  refine (accept_run hu).trans ((runCommand_raising (guarded_ok hbody)).trans ?_)
  rw [resultWord_value]
  simp [State.ran, Eng.delivered, detAddr, hraised, hrest, hregs, raiseFlags, evDetect, Instr.opc]

/-- Every pass leaves a bookmark, the last one included. -/
theorem bookmarks_of_last {xs : List Pass} {x : Pass} (hz : ∀ y ∈ xs.dropLast, y.zero ≠ 0) (hlast : xs.getLast? = some x)
    (hx : x.zero ≠ 0) : ∀ y ∈ xs, y.zero ≠ 0 := by
  obtain ⟨ys, rfl⟩ := List.getLast?_eq_some_iff.1 hlast
  rw [List.dropLast_concat] at hz
  exact fun y hy => (List.mem_append.1 hy).elim (hz y) fun hy => List.mem_singleton.1 hy ▸ hx

/-- Settles O34: the enumeration ends in one of three ways (`enumerate_last`, `enumerate_full`, `enumerate_failed`), and what it
returns is delivered (`exec_srchEnum_delivers`). -/
theorem srchEnumDeliversBatch : Obligations.SrchEnumDeliversBatch := by
  unfold Obligations.SrchEnumDeliversBatch
  intro s xs rest hc hwf hx hz hn result holds
  obtain ⟨-, -, hp, -⟩ := hwf
  refine ⟨fun x hlast hs => ⟨fun h0 => ?_, fun h0 hfull => ?_⟩, ?_⟩
  · obtain ⟨l, he⟩ := enumerate_last (e := s.inSearch) hp hx hz hn hlast h0 hs
    refine exec_srchEnum_delivers hc he rfl rfl ((Regs.afterPasses_eq _ xs hlast).trans ?_)
    rw [h0]
    rfl
  · obtain ⟨l, he⟩ := enumerate_full (e := s.inSearch) hp hx (bookmarks_of_last hz hlast h0) hfull hs
    refine exec_srchEnum_delivers hc he rfl rfl ((Regs.afterPasses_eq _ xs hlast).trans ?_)
    rw [decide_eq_false h0]
    rfl
  · intro ms ops id hz hn ld hf hs
    obtain ⟨l, he⟩ := enumerate_failed (e := s.inSearch) hp hx hz hn hf hs
    obtain ⟨-, hld, -⟩ := Regs.afterPasses_left (r := s.inSearch.searchInited.regs) rfl rfl hx
    refine exec_srchEnum_delivers hc he rfl rfl ((Regs.afterPasses_failed _ xs ops id).trans ?_)
    rw [hld]
    rfl

end Sys2Proof.Machine

/-! ## Frame of the search commands -/

namespace Sys2Proof.Machine

/-- The registers without those a search command may change, the record of operations among them. -/
def Regs.exceptSearch (r : Regs) : Regs := { r.exceptPass with result := 0 }

/-- What SRCH_FIRST and SRCH_NEXT keep beside them: the buffers and the record of the batch (R125, R126). -/
def Regs.batch (r : Regs) : Memory × BitVec 6 × Bool := (r.mem, r.detCount, r.detTrunc)

/-- What every search command leaves as it was, SRCH_ENUM included (R125, R126, R128). -/
structure SearchFrame (s t : State) : Prop where
  regs : t.toRegs.exceptSearch = s.toRegs.exceptSearch
  params : t.params = s.params
  port : t.port = s.port
  hostRead : t.hostRead = s.hostRead
  searching : t.searching = s.searching
  srchErr : t.event.getLsbD 2 = s.event.getLsbD 2
  mem : ∀ x, x < 0x0400 ∨ 0x0400 + 8 * s.params.maxDev ≤ x → t.mem.read? x = s.mem.read? x

/-- The law that SRCHERR, the registers a search command leaves and the bytes outside the existing `DET` entries do not change
allows the three commands. -/
theorem Law.exceptSearch_allows {i : Instr} (hi : i.opc.toNat / 16 = 2) (n : Nat) :
    (Law.batch Regs.exceptSearch (fun w => w.getLsbD 2) n).Allows i := by
  have hL : (Law.batch Regs.exceptSearch (fun w => w.getLsbD 2) n).Delivers :=
    Law.batch_delivers (fun _ _ _ _ _ _ _ _ _ _ => rfl) fun w => by simp [raiseFlags, evDetect]
  cases i with
  | srchFirst | srchNext => exact hL.toSearch
  | srchEnum => exact hL
  | _ => simp [Instr.opc] at hi

/-- The search commands use the bus, so what a law allows bounds every end of theirs (`exec_next`, `exec_view`). -/
theorem search_usesBus {i : Instr} (hi : i.opc.toNat / 16 = 2) : Instr.usesBus i = true ∧ i ≠ .close := by
  cases i with
  | srchFirst | srchNext | srchEnum => exact ⟨rfl, fun h => nomatch h⟩
  | _ => simp [Instr.opc] at hi

/-- However it ends: stopped by a usage check, completed, or waiting. -/
theorem exec_searchFrame {i : Instr} {s t : State} (hi : i.opc.toNat / 16 = 2) (h : exec i s = .next t) :
    SearchFrame s t := by
  obtain ⟨hbus, hclose⟩ := search_usesBus hi
  rcases exec_next hbus (Law.exceptSearch_allows hi s.params.maxDev) (fun h => absurd h hclose) h with
    ⟨c, -, rfl⟩ | ⟨-, c, e, ⟨-, hraised, hregs, hmem⟩, rfl⟩ | ⟨-, op, e, ⟨-, -, hregs, hmem⟩, rfl⟩
  · exact ⟨rfl, rfl, rfl, rfl, rfl, event_bit (w := 0) (by decide) (by simp) (.inl (by simp [raiseFlags])), fun _ _ => rfl⟩
  · exact ⟨hregs, rfl, rfl, rfl, rfl, event_bit (by decide) (hraised.trans (by simp)) (.inl rfl), hmem rfl⟩
  · exact ⟨hregs, rfl, rfl, rfl, rfl, event_bit (w := 0) (by decide) (by simp) (.inr rfl), hmem rfl⟩

/-- SRCH_FIRST and SRCH_NEXT, however they end, touch no batch and no event flag but DONE (R125, R126). -/
theorem exec_onePass_keeps {i : Instr} {s t : State} (hi : i = .srchFirst ∨ i = .srchNext) (h : exec i s = .next t) :
    t.toRegs.batch = s.toRegs.batch ∧ ∀ k, 1 ≤ k → t.event.getLsbD k = s.event.getLsbD k := by
  have hL : (Law.view Regs.batch (id : Word → Word)).Search := Law.view_search fun _ _ _ _ _ _ _ => rfl
  have hallows : (Law.view Regs.batch (id : Word → Word)).Allows i := by rcases hi with rfl | rfl <;> exact hL
  obtain ⟨hbus, hclose⟩ : Instr.usesBus i = true ∧ i ≠ .close :=
    search_usesBus (by rcases hi with rfl | rfl <;> rfl)
  obtain ⟨hbatch, -, -, -, -, w, hw, hevent⟩ := exec_view hbus hallows (fun _ _ => rfl) (fun h => absurd h hclose) h
  obtain rfl : w = 0 := hw
  exact ⟨hbatch, fun k hk => event_bit hk BitVec.getLsbD_zero hevent⟩

/-- Settles O35: the law of all three commands (`exec_searchFrame`) and the view that SRCH_FIRST and SRCH_NEXT keep
(`exec_onePass_keeps`). -/
theorem searchCommandsFrame : Obligations.SearchCommandsFrame := by
  unfold Obligations.SearchCommandsFrame
  intro i s t h1 h2 h
  have hi : i.opc.toNat / 16 = 2 := by omega
  obtain ⟨hregs, hparams, hport, hread, hsearching, hsrchErr, hmem⟩ := exec_searchFrame hi h
  simp only [Regs.exceptSearch, Regs.exceptPass, Regs.mk.injEq, true_and] at hregs
  obtain ⟨hlc, htarget, hcrc, hatt, hrx, hpagesA, hpagesB, -⟩ := hregs
  refine ⟨hlc, htarget, hcrc, hatt, hrx, hpagesA, hpagesB, hsearching, hparams, hport, hread, hsrchErr, hmem, fun hn => ?_⟩
  have hone : i = .srchFirst ∨ i = .srchNext := by
    cases i with
    | srchFirst => exact .inl rfl
    | srchNext => exact .inr rfl
    | srchEnum => exact absurd rfl hn
    | _ => simp [Instr.opc] at hi
  obtain ⟨hbatch, hevent⟩ := exec_onePass_keeps hone h
  simp only [Regs.batch, Prod.mk.injEq] at hbatch
  obtain ⟨hbuffers, hcount, htrunc⟩ := hbatch
  exact ⟨hbuffers, hcount, htrunc, hevent⟩

end Sys2Proof.Machine

/-! ## Frame of the writing commands -/

namespace Sys2Proof.Machine

/-- The registers without those a writing command may change, the record of operations and `RESULT` among them. The buffers
stay in view. -/
def Regs.exceptWrite (r : Regs) : Regs :=
  { r with issued := [], spdValid := false, spdOd := false, att := 0, result := 0 }

section

variable {i : Instr} (hi : i.opc = 0x30#8 ∨ i.opc = 0x31#8 ∨ i.opc = 0x39#8 ∨ i.opc = 0x3A#8)

include hi

/-- The writing commands use the bus and none is CLOSE, so what a law allows bounds every end of theirs (`exec_view`). -/
theorem writing_usesBus : Instr.usesBus i = true ∧ i ≠ .close := by
  cases i with
  | pgWrite | rgWrite | memWriteall | memWritediff => exact ⟨rfl, (fun h => nomatch h)⟩
  | _ => simp [Instr.opc] at hi

/-- The law that `Regs.exceptWrite` does not change allows the four commands. -/
theorem Law.exceptWrite_allows : (Law.view Regs.exceptWrite (id : Word → Word)).Allows i := by
  have hL : (Law.view Regs.exceptWrite (id : Word → Word)).Writes := Law.view_writes fun _ _ _ _ _ => rfl
  cases i with
  | pgWrite | rgWrite | memWriteall | memWritediff => exact hL
  | _ => simp [Instr.opc] at hi

end

/-- Settles O49: the view that the writing commands keep, however they end (`exec_view`). -/
theorem writingCommandsFrame : Obligations.WritingCommandsFrame := by
  unfold Obligations.WritingCommandsFrame
  intro i s t hi h
  obtain ⟨hbus, hclose⟩ := writing_usesBus hi
  obtain ⟨hregs, hparams, hport, hread, hsearching, w, hw, hevent⟩ :=
    exec_view hbus (Law.exceptWrite_allows hi) (fun _ _ => rfl) (fun hc => absurd hc hclose) h
  obtain rfl : w = 0 := hw
  simp only [Regs.exceptWrite, Regs.mk.injEq, true_and] at hregs
  obtain ⟨hlc, htarget, hrom, hcrc, hdisc, hdevice, hrx, hpagesA, hpagesB, hcount, htrunc, hmem, -⟩ := hregs
  exact ⟨hmem, hlc, htarget, hrom, hcrc, hdisc, hdevice, hrx, hpagesA, hpagesB, hcount, htrunc, hsearching, hparams,
    hport, hread, fun k hk => event_bit hk BitVec.getLsbD_zero hevent⟩

end Sys2Proof.Machine

/-! ## Frame of MEM_READALL -/

namespace Sys2Proof.Machine

/-- The registers without those MEM_READALL may change, the record of operations, `RESULT` and the draws among them, and without
the buffers. -/
def Regs.exceptReadall (r : Regs) : Regs :=
  { r with issued := [], spdValid := false, spdOd := false, att := 0, npagesA := 0, mem := [], draws := 0, result := 0 }

/-- What MEM_READALL leaves as it was, however it ends (R151). -/
structure ReadallFrame (s t : State) : Prop where
  regs : t.toRegs.exceptReadall = s.toRegs.exceptReadall
  params : t.params = s.params
  port : t.port = s.port
  hostRead : t.hostRead = s.hostRead
  searching : t.searching = s.searching
  event : ∀ k, 1 ≤ k → t.event.getLsbD k = s.event.getLsbD k
  mem : ∀ x, ¬imgAddr x → t.mem.read? x = s.mem.read? x
  valued : ∀ x, s.mem.read? x ≠ none → t.mem.read? x ≠ none

/-- The law of MEM_READALL with that view allows the command, the mix of an error completion included (93 U6). -/
theorem Law.exceptReadall_allows (f : Bool) :
    (Law.image Regs.exceptReadall (id : Word → Word)).Allows (.memReadall f) :=
  ⟨Law.image_readAll fun _ _ _ _ _ _ _ => rfl, Law.image_mixed fun _ _ _ => rfl⟩

/-- However it ends: stopped by a usage check, completed, or waiting. -/
theorem exec_readallFrame {f : Bool} {s t : State} (h : exec (.memReadall f) s = .next t) : ReadallFrame s t := by
  have hnone : ∀ c ∈ (s.eng false).received, imgAddr c.1 := fun _ hc => nomatch hc
  rcases exec_next rfl (Law.exceptReadall_allows f) (fun h => nomatch h) h with
    ⟨c, -, rfl⟩ | ⟨-, c, e, ⟨-, hraised, hregs, himg⟩, rfl⟩ | ⟨-, op, e, ⟨-, -, hregs, himg⟩, rfl⟩
  · exact ⟨rfl, rfl, rfl, rfl, rfl, fun k hk => event_bit (w := 0) hk (by simp) (.inl (by simp [raiseFlags])),
      fun _ _ => rfl, fun _ hx => hx⟩
  · obtain ⟨-, hmem⟩ := himg hnone
    obtain hraised : e.raised = 0 := hraised
    exact ⟨hregs, rfl, rfl, rfl, rfl, fun k hk => event_bit hk (by simp [hraised]) (.inl rfl),
      fun x => (hmem x).1, fun x => (hmem x).2⟩
  · obtain ⟨-, hmem⟩ := himg hnone
    exact ⟨hregs, rfl, rfl, rfl, rfl, fun k hk => event_bit (w := 0) hk (by simp) (.inr rfl),
      fun x => (hmem x).1, fun x => (hmem x).2⟩

/-- ERR of an OK completion is 0 (R171). -/
theorem State.resultErr_complete_ok {s : State} {opc : Byte} {c : Completion} (h : c.err = .ok) :
    resultErr (s.complete opc c).result = 0#4 :=
  (resultErr_word opc c).trans (congrArg Err.code h)

/-- `NPAGES_A` is as before, or 256 where the command completed OK (R151). -/
theorem exec_readall_npagesA {f : Bool} {s t : State} (h : exec (.memReadall f) s = .next t) :
    t.npagesA = s.npagesA ∨ t.npagesA = 256#9 ∧ resultErr t.result = 0#4 := by
  rcases accept_settles (settles_readallCommand f (s.eng false)) (fun _ _ => rfl) h with ⟨c, e, ⟨hok, hn⟩, rfl⟩ | hn
  · exact .inr ⟨hn, State.resultErr_complete_ok hok⟩
  · exact .inl hn

/-- A command that has let the lock go was stopped by a usage check, or its body returned or raised a condition (R43, R62). -/
theorem accept_completes {i : Instr} {body : Prog Completion} {s t : State} (h : accept i body s = .next t)
    (hl : t.lock = false) :
    (∃ c, t = s.clearDone.complete i.opc c) ∨
    (∃ c e, body (s.eng false) = .ok c e ∧ t = (s.clearDone.absorb e).complete i.opc c) ∨
    ∃ c e, body (s.eng false) = .raise c e := by
  cases hu : usageError i s with
  | some c =>
    simp only [accept, hu] at h
    cases h
    exact .inl ⟨c, rfl⟩
  | none =>
    rw [accept_run hu, runCommand] at h
    cases hr : body (s.eng false) with
    | ok c e =>
      rw [hr] at h
      cases h
      exact .inr (.inl ⟨c, e, rfl, rfl⟩)
    | raise c e => exact .inr (.inr ⟨c, e, rfl⟩)
    | wait op e =>
      rw [hr] at h
      cases h
      cases hl
    | fault x =>
      rw [hr] at h
      cases h

/-- A mix whose received bytes were all carried for `IMG_A` leaves each byte as it was or one of those (93 U6). -/
theorem Sound.mixed {zs : List (LinkOp × Reply)} {old m : Memory} (h : Sound zs m) (n : Nat) (as : List Nat) (x : Nat) :
    (mixInto n old m as old).read? x = old.read? x ∨
      ∃ b, (mixInto n old m as old).read? x = some b ∧ (x, b) ∈ receivedFor none zs := by
  rcases mixInto_candidate n old m as old x with hx | hx | ⟨b, hx, hb⟩
  · exact .inl hx
  · exact .inl hx
  · exact .inr ⟨b, hx, h _ hb⟩

/-- After an error each byte of the buffers is as before or one received for it (R151, 93 U6): no condition escapes the retry
wrapper (R150), so the body returned, and what it left is the mix. -/
theorem exec_readall_received {f : Bool} {s t : State} (h : exec (.memReadall f) s = .next t) (hl : t.lock = false)
    (herr : resultErr t.result ≠ 0#4) (hms : OnlyReplies s.inputs) :
    ∃ zs : List (LinkOp × Reply), t.issued = s.issued ++ zs.map (·.1) ∧
      s.inputs = zs.map (fun z => .reply z.2) ++ t.inputs ∧
      ∀ x, t.mem.read? x = s.mem.read? x ∨ ∃ b, t.mem.read? x = some b ∧ (x, b) ∈ receivedFor none zs := by
  have hn := readallCommand_noted f (s.eng false) hms rfl
  rcases accept_completes (body := readallCommand f) h hl with ⟨c, rfl⟩ | ⟨c, e, hr, rfl⟩ | ⟨c, e, hr⟩
  · exact ⟨[], (List.append_nil _).symm, rfl, fun _ => .inl rfl⟩
  · rw [hr] at hn
    obtain ⟨zs, ht, hmix⟩ := hn
    obtain ⟨m, n, hsound, hmem⟩ := hmix fun hok => herr (State.resultErr_complete_ok hok)
    refine ⟨zs, ht.issued, ht.script, fun x => ?_⟩
    change e.regs.mem.read? x = _ ∨ ∃ b, e.regs.mem.read? x = _ ∧ _
    rw [hmem]
    exact hsound.mixed n _ x
  · rw [hr] at hn
    exact hn.elim

/-- Settles O45: the law of MEM_READALL (`exec_readallFrame`), the count its completion leaves (`exec_readall_npagesA`), and the
bytes its answers carried (`exec_readall_received`). -/
theorem memReadallFrame : Obligations.MemReadallFrame := by
  unfold Obligations.MemReadallFrame
  intro s t f h
  obtain ⟨hregs, hparams, hport, hread, hsearching, hevent, hmem, hvalued⟩ := exec_readallFrame h
  simp only [Regs.exceptReadall, Regs.mk.injEq, true_and] at hregs
  obtain ⟨hlc, htarget, hrom, hcrc, hdisc, hdevice, hrx, hpagesB, hcount, htrunc, -⟩ := hregs
  refine ⟨fun x hx => hmem x ?_, hvalued, hlc, htarget, hrom, hcrc, hdisc, hdevice, hrx, hpagesB, hcount, htrunc, hsearching,
    hparams, hport, hread, hevent, exec_readall_npagesA h, exec_readall_received h⟩
  unfold imgAddr
  omega

end Sys2Proof.Machine

/-! ## CRC-16: one byte, the residue, detection -/

namespace Sys2Proof.Machine

/-- Settles O50: both commands complete in the step that accepts them (`completeNow_eq`). -/
theorem crc16ClrAndByte : Obligations.Crc16ClrAndByte := by
  unfold Obligations.Crc16ClrAndByte
  intro s
  refine ⟨completeNow_eq (opc := 0x40#8) (by decide) { s with crc16 := s.params.crc16Init }, fun v => ?_⟩
  exact completeNow_eq (opc := 0x41#8) (by decide) { s with crc16 := crc16Step s.crc16 v }

/-- While the register's low bits are 0, the polynomial is not added: `n` shifts are a shift by `n`. -/
theorem crc16Shifts_eq_ushiftRight {n : Nat} {r : Half} (h : ∀ i < n, r.getLsbD i = false) :
    Nat.repeat crc16Shift n r = r >>> n := by
  induction n with
  | zero => exact (BitVec.ushiftRight_zero r).symm
  | succ n ih =>
    have h0 : (r >>> n).getLsbD 0 = false := by
      rw [BitVec.getLsbD_ushiftRight]
      exact h n (Nat.lt_succ_self n)
    calc crc16Shift (Nat.repeat crc16Shift n r)
      _ = crc16Shift (r >>> n) := by rw [ih fun i hi => h i (Nat.lt_succ_of_lt hi)]
      _ = r >>> n >>> 1 := if_neg (by rw [h0]; decide)
      _ = r >>> (n + 1) := (BitVec.shiftRight_add r n 1).symm

/-- Eight shifts bring the high byte down unchanged. -/
theorem crc16Shifts_highByte (b : Byte) : Nat.repeat crc16Shift 8 (b.setWidth 16 <<< 8) = b.setWidth 16 := by
  rw [crc16Shifts_eq_ushiftRight fun i hi => by simp [BitVec.getLsbD_shiftLeft, hi]]
  refine BitVec.eq_of_getLsbD_eq fun i hi => ?_
  have hlt : i < 8 ∨ b.getLsbD i = false := (Nat.lt_or_ge i 8).imp_right (BitVec.getLsbD_of_ge b i)
  rcases hlt with h8 | h8
  · simp [hi, show 8 + i < 16 by omega]
  · simp [hi, h8]

/-- A byte pair, low byte first, is its two bytes on disjoint bits. -/
theorem append_eq_setWidth_xor_shiftLeft (lo hi : Byte) : (hi ++ lo : Half) = lo.setWidth 16 ^^^ (hi.setWidth 16 <<< 8) := by
  refine BitVec.eq_of_getLsbD_eq fun i hlt => ?_
  rw [BitVec.getLsbD_append]
  by_cases h8 : i < 8
  · simp [h8, hlt]
  · simp [h8, hlt, BitVec.getLsbD_of_ge lo i (Nat.le_of_not_lt h8)]

/-- Two bytes fed one after the other are the pair fed at once, sixteen shifts on. -/
theorem crc16_pair (lo hi : Byte) (r : Half) :
    crc16 [lo, hi] r = Nat.repeat crc16Shift 8 (Nat.repeat crc16Shift 8 (r ^^^ (hi ++ lo : Half))) := by
  rw [append_eq_setWidth_xor_shiftLeft, ← BitVec.xor_assoc, crc16Shifts_xor 8 (r ^^^ _), crc16Shifts_highByte]
  rfl

/-- Sixteen shifts take 0xFFFF to the residue. -/
theorem crc16Shifts_ones : Nat.repeat crc16Shift 8 (Nat.repeat crc16Shift 8 0xFFFF#16) = 0xB001#16 := by
  have hlow : Nat.repeat crc16Shift 8 0xFFFF#16 = 0x40BF#16 := by decide
  rw [hlow]
  decide

/-- Settles O53: the pair meets the register in one exclusive or (`crc16_pair`), and 0xB001 is what the shifts make of 0xFFFF
and, losing nothing (`crc16Shifts_injective`), of no other value. -/
theorem crc16ResidueMeansStoredComplement : Obligations.Crc16ResidueMeansStoredComplement := by
  unfold Obligations.Crc16ResidueMeansStoredComplement
  intro data lo hi init
  rw [crc16_append, crc16_pair, ← crc16Shifts_ones]
  generalize crc16 data init = r
  constructor
  · intro h
    rw [← crc16Shifts_injective (crc16Shifts_injective h), ← BitVec.xor_assoc, BitVec.xor_self, BitVec.zero_xor]
  · intro h
    rw [← h, ← BitVec.xor_assoc, BitVec.xor_self, BitVec.zero_xor]

/-- The register over any bytes is injective in its start value. -/
theorem crc16_injective {bs : List Byte} {r r' : Half} (h : crc16 bs r = crc16 bs r') : r = r' := by
  induction bs generalizing r r' with
  | nil => exact h
  | cons b bs ih => exact crc16Step_injective (ih h)

/-- One byte replaced by another makes the register end elsewhere. -/
theorem crc16_set_ne {bs : List Byte} {j : Nat} {b : Byte} (hj : j < bs.length) (hb : bs[j]? ≠ some b) (r : Half) :
    crc16 (bs.set j b) r ≠ crc16 bs r := by
  induction bs generalizing j r with
  | nil => exact absurd hj (Nat.not_lt_zero j)
  | cons c bs ih =>
    cases j with
    | zero =>
      intro h
      exact hb (congrArg some (crc16Step_byte_injective (crc16_injective h)).symm)
    | succ j => exact ih (Nat.lt_of_succ_lt_succ hj) hb (crc16Step r c)

/-- Settles O55: the changed page ends elsewhere than the page did (`crc16_set_ne`), so not at 0xB001. -/
theorem everySingleByteChangeIsDetected : Obligations.EverySingleByteChangeIsDetected := by
  unfold Obligations.EverySingleByteChangeIsDetected
  intro pg j b init hj hb hvalid hvalid'
  exact crc16_set_ne hj hb init (hvalid'.trans hvalid.symm)

/-- A page that CRC16_GEN went on from holds values (R31). -/
theorem exec_crc16Gen_holds {s t : State} {p : Byte} (h : exec (.crc16Gen p) s = .next t) :
    ∃ pg, pg.length = 32 ∧ HoldsBytes s.mem (0x2000 + 32 * p.toNat) pg := by
  rcases onPage_cases p _ s with ⟨pg, hr, -⟩ | ⟨a, -, -, -, hf⟩
  · obtain ⟨hl, hm⟩ := Memory.readBytes_ok.1 hr
    exact ⟨pg, hl, fun i hi => hm i (hl ▸ hi)⟩
  · cases h.symm.trans hf

/-- A page stamped with the complement of its CRC ends at the residue (R165). -/
theorem crc16_stamped (data : List Byte) (init : Half) :
    crc16 (data ++ crcBytes (crc16 data init)) init = 0xB001#16 :=
  (crc16ResidueMeansStoredComplement _ _ _ _).2
    ((BitVec.extractLsb'_append_extractLsb'_eq_extractLsb' (Nat.zero_add 8).symm).trans BitVec.extractLsb'_eq_self).symm

/-- Bytes held, and bytes held behind them, are held together. -/
theorem holdsBytes_append {m : Memory} {a : Nat} {bs cs : List Byte} (hb : HoldsBytes m a bs)
    (hc : HoldsBytes m (a + bs.length) cs) : HoldsBytes m a (bs ++ cs) := by
  intro i hi
  rw [List.length_append] at hi
  by_cases h : i < bs.length
  · rw [List.getElem?_append_left h, hb i h]
  · have := hc (i - bs.length) (by omega)
    rwa [Nat.add_assoc, Nat.add_sub_of_le (Nat.le_of_not_lt h), ← List.getElem?_append_right (Nat.le_of_not_lt h)] at this

/-- What CRC16_GEN leaves is a page that is empty or ends at the residue. -/
theorem exec_crc16Gen_page {s t : State} {p : Byte} (h : exec (.crc16Gen p) s = .next t) :
    ∃ pg, pg.length = 32 ∧ HoldsBytes t.mem (0x2000 + 32 * p.toNat) pg ∧
      (pg = List.replicate 32 0x55#8 ∨ crc16 pg t.params.crc16Init = 0xB001#16) := by
  obtain ⟨pg, hl, hm⟩ := exec_crc16Gen_holds h
  obtain ⟨hempty, hstamp⟩ := crc16GenStamps.2 s p pg hl hm
  by_cases he : pg = List.replicate 32 0x55#8
  · cases h.symm.trans (hempty he)
    exact ⟨pg, hl, hm, .inl he⟩
  · obtain ⟨m, ht, hlo, hhi, hrest⟩ := hstamp he
    cases h.symm.trans ht
    have hl30 : (pg.take 30).length = 30 := by simp [hl]
    have hdata : HoldsBytes m (0x2000 + 32 * p.toNat) (pg.take 30) := fun i hi => by
      have hi30 : i < 30 := hl30 ▸ hi
      rw [hrest _ (by omega), hm i (by omega), List.getElem?_take_of_lt hi30]
    have hpair : HoldsBytes m (0x2000 + 32 * p.toNat + (pg.take 30).length)
        (crcBytes (crc16 (pg.take 30) s.params.crc16Init)) := fun i hi => by
      rw [hl30]
      match i, hi with
      | 0, _ => exact hlo
      | 1, _ => exact hhi
    exact ⟨_, by rw [List.length_append, hl30]; rfl, holdsBytes_append hdata hpair, .inr (crc16_stamped _ _)⟩

/-- Settles O54: by whether the page CRC16_GEN left (`exec_crc16Gen_page`) is empty, VAL 0b11, or ends at the residue, VAL 1. -/
theorem stampedPageValidates : Obligations.StampedPageValidates := by
  unfold Obligations.StampedPageValidates
  intro s t p h
  obtain ⟨pg, hl, hm, hpg⟩ := exec_crc16Gen_page h
  obtain ⟨hempty, hfull⟩ := crc16ChkValidates.2 t p pg hl hm
  by_cases he : pg = List.replicate 32 0x55#8
  · exact ⟨_, hempty he, by rw [State.completed_result]; decide⟩
  · refine ⟨_, hfull he, ?_⟩
    rw [if_pos (hpg.resolve_left he), State.completed_result]
    decide

end Sys2Proof.Machine

/-! ## Hardware reset -/

namespace Sys2Proof.Machine

/-- The move of hardware reset is taken whatever the engine is doing (R190). -/
theorem step_hardwareReset {s : State} {rest : List Move} (h : s.inputs = .hardwareReset :: rest) :
    step s = .next (hardwareReset { s with inputs := rest }) := step_cons h

/-- The registers after hardware reset are those of R31, but for the model's own records (log 14). -/
theorem hardwareReset_toRegs (s : State) :
    (hardwareReset s).toRegs = { Regs.reset with issued := s.issued, draws := s.draws } := rfl

/-- Settles O9: the step is `hardwareReset` (`step_hardwareReset`), which takes all but the parameters, the moves to come
and the model's records from `State.reset`. -/
theorem hardwareResetDropsEverything : Obligations.HardwareResetDropsEverything := by
  unfold Obligations.HardwareResetDropsEverything
  intro s rest h
  exact ⟨_, step_hardwareReset h, hardwareReset_toRegs _, rfl, rfl, rfl, rfl, rfl, rfl, rfl⟩

end Sys2Proof.Machine
